-- ==== Sys2Proof/Word.lean ====
section
/-! DEFINITION. The words of the host link and of the segments, and their plainest arithmetic. -/

namespace Sys2Proof

/-- A byte of the host link, of a segment or of a store. -/
abbrev Byte := BitVec 8

/-- A field of two bytes: a sequence number, a job id, a CRC (`00_scope.md`, Host link byte order). -/
abbrev Word := BitVec 16

/-- A count as one byte. -/
abbrev byteOf (n : Nat) : Byte := BitVec.ofNat 8 n

/-- A count that stands at `top` once it has reached it (`00_scope.md`, Counts and limits). -/
def saturate (top n : Nat) : Nat := min n top

end Sys2Proof
end

