-- ==== Sys2Proof/Config.lean ====
section
/-! DEFINITION. What the part fixes once for all: capacities, fixed intervals and the figures of the speed grades.
The spec leaves no result of a step open, so no free value stands here. -/

namespace Sys2Proof

/-- The segments, 0 to 3. -/
abbrev SegId := Fin 4

/-- The address entries of a segment, 0 to 3. -/
abbrev EntryId := Fin 4

/-- The job slots (R36). -/
abbrev Slot := Fin 32

/-- The speed grade of a segment (R5, R16). -/
inductive Grade where
  | s100
  | f400
  | f1000
  deriving DecidableEq, Repr

namespace Config

/-- Job slots of the pool (R36). -/
def jobSlots : Nat := 32
/-- Blocks of the data store (R37). -/
def dataBlocks : Nat := 64
/-- Bytes of a block of the data store (R37). -/
def blockBytes : Nat := 32
/-- Event records (R148). -/
def eventRecords : Nat := 24
/-- Entries of the reply cache (R169). -/
def cacheEntries : Nat := 16
/-- Places of the inbound buffer (R167). -/
def inboundFrames : Nat := 4
/-- Places of the reply queue (R172). -/
def replyPlaces : Nat := 8
/-- Messages of an outbox (R117). -/
def outboxMessages : Nat := 4
/-- Bytes of a mail record and of an outbox message (R117). -/
def mailBytes : Nat := 32
/-- Bytes of a window (R100). -/
def windowBytes : Nat := 64
/-- The expiry at which the notice unit enters link-silent (R155). -/
def silentExpiries : Nat := 16
/-- Pulses of a clearing round (R93). -/
def clearingPulses : Nat := 9
/-- Clearing rounds of one set (R95). -/
def clearingRounds : Nat := 3
/-- The silicon revision this document describes (R176). -/
def siliconRevision : Nat := 1

/-- Count steps of 10 µs in one millisecond (`00_scope.md`, Time). -/
def stepsPerMs : Nat := 100
/-- Count steps in one unit of the retry interval, 100 µs (R16). -/
def stepsPerRetryUnit : Nat := 10
/-- The bus-idle window and the idle watch, 100 µs, in count steps (R14, R97). -/
def busIdleSteps : Nat := 10
/-- The wait after a failed clearing round, 10 ms, in count steps (R95). -/
def clearWaitSteps : Nat := 1000
/-- The gap within a frame, 2 ms, in count steps (R165). -/
def gapSteps : Nat := 200
/-- The length of a count step in tenths of a µs, the unit of the grade table. -/
def tenthsPerStep : Nat := 100

/-- The low period of a grade, in tenths of a µs (R5). -/
def lowPeriod : Grade → Nat
  | .s100 => 50
  | .f400 => 14
  | .f1000 => 6

/-- The high period of a grade, in tenths of a µs (R5). -/
def highPeriod : Grade → Nat
  | .s100 => 50
  | .f400 => 11
  | .f1000 => 4

/-- The bus-free time of a grade, in tenths of a µs (R5). -/
def busFreeTime : Grade → Nat
  | .s100 => 47
  | .f400 => 13
  | .f1000 => 5

end Config
end Sys2Proof
end

