-- ==== Sys2Proof/Syntax.lean ====
section
/-! DEFINITION. The commands: one constructor for each row of spec/opcode_table.json. -/

namespace Sys2Proof

/-- An edge of a segment line, as it passes the glitch filter (R1). -/
inductive Edge where
  | sclRise
  | sclFall
  | sdaRise
  | sdaFall
  deriving DecidableEq, Repr

/-- Who made the fall of SDA that a start is: the part, which drives SDA for its own start or repeated start, or
another initiator (R3, R7, R72). -/
inductive Maker where
  | part
  | outside
  deriving DecidableEq, Repr

/-- The levels of BAUD1 and BAUD0 (R162). -/
structure Straps where
  baud1 : Bool
  baud0 : Bool
  deriving DecidableEq, Repr

/-- The table of operations and events. The requests carry no operand: their parameters are in the frame that
REQUEST_TAKEN took (log 5). -/
inductive Instr where
  /-- POWER_ON: power-up, with RST low or high and the straps as they stand (R152). -/
  | powerOn (rstHeld : Bool) (straps : Straps)
  /-- RST_LOW (R152). -/
  | rstLow
  /-- RST_RELEASE, with the straps as they stand (R152, R162). -/
  | rstRelease (straps : Straps)
  /-- RX_BYTE: a byte with a good stop bit (R164). -/
  | rxByte (b : Byte)
  /-- RX_FRAMING_ERROR (R162). -/
  | rxFramingError
  /-- RX_GAP_TIMEOUT (R165). -/
  | rxGapTimeout
  /-- REQUEST_TAKEN (R167, R168). -/
  | requestTaken
  /-- DUPLICATE_REQUEST (R170). -/
  | duplicateRequest
  /-- UNKNOWN_REQUEST (R174, R182). -/
  | unknownRequest
  /-- DEV_INFO (R176). -/
  | devInfo
  /-- DEV_RESET (R178). -/
  | devReset
  /-- LINK_CONFIG (R177). -/
  | linkConfig
  /-- SEG_CONFIG (R17). -/
  | segConfig
  /-- SEG_STATUS (R22). -/
  | segStatus
  /-- SEG_FLUSH (R139). -/
  | segFlush
  /-- SEG_RESET (R141). -/
  | segReset
  /-- JOB_SUBMIT (R27). -/
  | jobSubmit
  /-- JOB_CANCEL (R133). -/
  | jobCancel
  /-- JOB_QUERY (R45). -/
  | jobQuery
  /-- RESP_SET (R101). -/
  | respSet
  /-- WIN_WRITE (R114). -/
  | winWrite
  /-- WIN_READ (R113). -/
  | winRead
  /-- MAIL_POST (R123). -/
  | mailPost
  /-- MAIL_WITHDRAW (R124). -/
  | mailWithdraw
  /-- TX_FRAME_START (R173). -/
  | txFrameStart
  /-- TX_FRAME_END, with the straps as they stand, which a full reset that follows samples (R172, R178). -/
  | txFrameEnd (straps : Straps)
  /-- RESEND_TIMER_EXPIRY (R155). -/
  | resendTimerExpiry
  /-- START_SEEN: SDA falls while SCL is high (R13). -/
  | startSeen (g : SegId) (m : Maker)
  /-- STOP_SEEN: SDA rises while SCL is high (R13). -/
  | stopSeen (g : SegId)
  /-- SCL_FALL_WHILE_FREE (R13). -/
  | sclFallWhileFree (g : SegId)
  /-- BUS_IDLE_WINDOW_EXPIRY (R14). -/
  | busIdleWindowExpiry (g : SegId)
  /-- START_DECISION (R48). -/
  | startDecision (g : SegId)
  /-- ADDRESS_ACK (R50). -/
  | addressAck (g : SegId)
  /-- WRITE_BYTE_ACK (R51). -/
  | writeByteAck (g : SegId)
  /-- READ_BYTE (R53). -/
  | readByte (g : SegId)
  /-- LENGTH_BYTE (R54). -/
  | lengthByte (g : SegId)
  /-- STOP_MADE (R9). -/
  | stopMade (g : SegId)
  /-- ARBITRATION_LOSS (R77). -/
  | arbitrationLoss (g : SegId)
  /-- STRETCH_LIMIT_EXPIRY (R60). -/
  | stretchLimitExpiry (g : SegId)
  /-- BACKOFF_END (R58, R81). -/
  | backoffEnd (g : SegId)
  /-- HOLD_LIMIT_EXPIRY (R69). -/
  | holdLimitExpiry (g : SegId)
  /-- RESP_ADDRESS_BYTE (R105). -/
  | respAddressByte (g : SegId)
  /-- WINDOW_WRITE_BYTE (R110). -/
  | windowWriteByte (g : SegId)
  /-- WINDOW_READ_BYTE (R112). -/
  | windowReadByte (g : SegId)
  /-- MAIL_WRITE_BYTE (R120). -/
  | mailWriteByte (g : SegId)
  /-- MAIL_READ_BYTE (R125). -/
  | mailReadByte (g : SegId)
  /-- MAIL_WAIT_EXPIRY (R129). -/
  | mailWaitExpiry (g : SegId)
  /-- STUCK_DETECTION (R88). -/
  | stuckDetection (g : SegId)
  /-- CLEAR_WAIT_EXPIRY (R95). -/
  | clearWaitExpiry (g : SegId)
  /-- CLEARING_ROUND_END (R94). -/
  | clearingRoundEnd (g : SegId)
  /-- CLEAR_STRETCH_EXPIRY (R95). -/
  | clearStretchExpiry (g : SegId)
  /-- IDLE_WATCH_EXPIRY (R97). -/
  | idleWatchExpiry (g : SegId)
  /-- LINE_EDGE: an edge with no condition (R13). -/
  | lineEdge (g : SegId) (e : Edge)
  /-- CLEARING_PULSE (R93). -/
  | clearingPulse (g : SegId)
  deriving DecidableEq, Repr

end Sys2Proof
end

