-- ==== Sys2Proof/Decode.lean ====
section
/-! DEFINITION. The command a word of spec/opcode_table.json spells. The table gives no row any bits (every row's
"fields" is empty and none has "fixed"), so no word spells a command. The frames of the host link, which carry the
requests, are read in Machine/Frames.lean and Machine/Operands.lean. -/

namespace Sys2Proof

/-- The command spelt by a word of `nbits` bits: none, since the table gives no row any bits. -/
def decodeTableWord (nbits w : Nat) : Option Instr :=
  match nbits, w with
  | _, _ => none

end Sys2Proof
end

