-- ==== Sys2Proof/Machine/State.lean ====
section
/-! DEFINITION. The state of the part as plain data, the reasons a step can stop, and the state right after reset. -/

namespace Sys2Proof.Machine

/-! ## Reasons to stop -/

/-- Faults: none. The part goes on whatever reaches it (INVENTORY.md, Faults), so this type has no constructor, and
no claim can be weakened by a fault. -/
inductive Fault
  deriving DecidableEq, Repr

/-- Refusals. -/
inductive Refusal where
  /-- Raised by `exec` for a row that has no meaning yet, by its mnemonic. Safe: nothing can be proved of it. -/
  | notModelled (mnemonic : String)
  deriving DecidableEq, Repr

/-! ## Jobs -/

/-- The role of a job in its chain: OPEN, CONTINUE or CONTINUE_OPEN (R23, R66). -/
inductive Role where
  | opening
  | cont
  | contOpen
  deriving DecidableEq, Repr

/-- The chain a job belongs to (R23). -/
structure Chain where
  id : Byte
  role : Role
  deriving DecidableEq, Repr

/-- The class of a job (R23). -/
inductive JobClass where
  | normal
  | urgent
  deriving DecidableEq, Repr

/-- The kind of a phase with its parameter (R24). -/
inductive PhaseKind where
  | write (payload : List Byte)
  | read (count : Nat)
  | countedRead (max : Nat)
  deriving DecidableEq, Repr

/-- One phase of a job: its target address without the direction bit, and its kind (R24). -/
structure Phase where
  target : Byte
  kind : PhaseKind
  deriving DecidableEq, Repr

/-- How a job ended (R65). -/
inductive JobOutcome where
  | done
  | addrNack
  | dataNack
  | arbLost
  | stretchTimeout
  | busStuck
  | cancelled
  | flushed
  | chainBroken
  | lengthBad
  deriving DecidableEq, Repr

/-- The result of one completed read phase (R64). -/
structure ReadResult where
  phase : Nat
  bytes : List Byte
  deriving DecidableEq, Repr

/-- What a completion record holds besides the three counts, which are the job's own (R63). -/
structure Completion where
  outcome : JobOutcome
  failPhase : Option Nat
  byteIndex : Option Nat
  duration : Nat
  results : List ReadResult
  deriving DecidableEq, Repr

/-- The state of a job (R42). -/
inductive JobState where
  | queued
  | current
  | finished (c : Completion)
  deriving DecidableEq, Repr

/-- What a deferred operation keeps of the request that waits for it: its tag, and the age under which the reply
cache recorded it (R169, R171). -/
structure Deferral where
  tag : Byte
  age : Nat
  deriving DecidableEq, Repr

/-- A job record (R23, R25). -/
structure Job where
  id : Word
  seg : SegId
  cls : JobClass
  /-- The arbitration retry limit. -/
  arbLimit : Nat
  /-- The address-NACK retry limit. -/
  nackLimit : Nat
  chain : Option Chain
  phases : List Phase
  status : JobState
  /-- The arbitration count, 0 to 255. -/
  arbCount : Nat
  /-- The address-NACK retry count, 0 to 255. -/
  nackCount : Nat
  /-- The deferral count, 0 to 255. -/
  deferCount : Nat
  /-- Progress: the phase index, from 1. -/
  phaseIndex : Nat
  /-- Progress: the byte index within the phase, from 0. -/
  byteIndex : Nat
  startTime : Option Nat
  cancelPending : Bool
  /-- The pending cancel reply. -/
  cancelReply : Option Deferral
  /-- A segment reset was taken in the stop of an outcome already reached, so that a pending cancel reply is FINISHED
  (R138, R142). -/
  resetTaken : Bool
  /-- The read space of the phases completed in the present attempt (R38, R64). -/
  results : List ReadResult
  /-- The read space of the phase in progress (R38). -/
  readBuf : List Byte
  deriving DecidableEq, Repr

/-! ## Segment engines -/

/-- A segment configuration (R16). -/
structure SegConfig where
  enable : Bool
  grade : Grade
  stretchMs : Nat
  stuckMs : Nat
  holdMs : Nat
  arbRetry : Nat
  nackRetry : Nat
  retryInterval : Nat
  queueLimit : Nat
  recovery : Bool
  deriving DecidableEq, Repr

/-- The line state (R12). -/
inductive LineState where
  | unknown
  | free
  | busy
  deriving DecidableEq, Repr

/-- The line monitor: line state, stop time, and the time from which the bus-idle window measures (R12, R14). -/
structure Monitor where
  line : LineState
  stopTime : Option Nat
  idleSince : Option Nat
  deriving DecidableEq, Repr

/-- Which byte the bit positions count: none after a stop, the address byte after a start, data bytes after it
(R2, R3). -/
inductive Framing where
  | none
  | address
  | data
  deriving DecidableEq, Repr

/-- The bit framing of a segment (R2, R3, R4). -/
structure Framer where
  kind : Framing
  /-- The bit position, 1 to 9; 0 right after a condition. -/
  pos : Nat
  /-- The bits of positions 1 to 8 sampled so far, the last in the lowest place. -/
  shift : Byte
  /-- The level sampled at position 9: true is high, a NACK. -/
  ackHigh : Bool
  /-- Whether what this bit place brings about has been taken. -/
  taken : Bool
  deriving DecidableEq, Repr

/-- What a stop of the initiator is for (R57, R61): the outcome already reached, or a retry after an address NACK. -/
inductive StopWhy where
  | ends (o : JobOutcome)
  | retry
  deriving DecidableEq, Repr

/-- The sub-steps of RUNNING (R49). -/
inductive SubStep where
  | start
  | address
  | write
  | read
  | restart
  | stop (why : StopWhy)
  deriving DecidableEq, Repr

/-- The initiator in RUNNING. -/
structure Run where
  slot : Slot
  sub : SubStep
  /-- In START and RESTART: SDA has been driven low for the start (R72). -/
  drove : Bool
  /-- A segment reset lets the part finish its bit and then stop (R142). -/
  closing : Bool
  /-- The speed grade the attempt keeps (R18). -/
  grade : Grade
  /-- The stretch limit the attempt keeps, in ms (R18). -/
  stretchMs : Nat
  /-- The time since which SCL, released by the part, has been low (R60). -/
  lowSince : Option Nat
  deriving DecidableEq, Repr

/-- The parts of a backoff: the winner's stop, the bus-free time after it, and the retry wait (R81). A backoff after
an address NACK has the last part alone (R58). Lengths are in count steps. -/
inductive Backoff where
  | winnerStop (len : Nat)
  | busFree (stop : Nat) (len : Nat)
  | wait (since : Nat) (len : Nat)
  deriving DecidableEq, Repr

/-- Why a hold is closing: it lapsed (R69), or a flush or a segment reset ended it (R140, R142). -/
inductive HoldEnd where
  | lapse
  | order
  deriving DecidableEq, Repr

/-- The initiator in HELD (R46, R67). -/
structure Hold where
  chain : Byte
  since : Nat
  grade : Grade
  stretchMs : Nat
  limitMs : Nat
  closing : Option HoldEnd
  lowSince : Option Nat
  deriving DecidableEq, Repr

/-- The initiator (R46). -/
inductive Initiator where
  | off
  | idle
  | waiting (slot : Slot)
  | running (r : Run)
  | backoff (slot : Slot) (b : Backoff)
  | held (h : Hold)
  deriving DecidableEq, Repr

/-- The record of the changing stores of a window write (R111): the first index changed, the index steps taken since
it (inclusive), and the count to report. -/
structure ChangeRecord where
  first : Fin 64
  steps : Nat
  count : Nat
  deriving DecidableEq, Repr

/-- What a responder transaction does, with its own state (R104, R111, R117). -/
inductive Access where
  | windowWrite (gotPointer : Bool) (change : Option ChangeRecord)
  | windowRead
  | mailWrite (address : Byte) (bytes : List Byte) (overlong : Bool)
  | mailRead (bound : Bool) (bytesTaken : Nat) (pad : Nat) (expired : Bool)
  deriving DecidableEq, Repr

/-- What stood before a data byte that an outside write has sent through position 8, while its ninth pulse has not
ended: a condition, or another end of the transaction, cuts the byte and takes it back (R4, log 27). For a window: the
transaction's own state, and the entry's pointer with the byte held there; for a mailbox: the mail record. -/
inductive ByteUndo where
  | window (gotPointer : Bool) (change : Option ChangeRecord) (pointer : Fin 64) (held : Byte)
  | mail (bytes : List Byte) (overlong : Bool)
  deriving DecidableEq, Repr

/-- A responder transaction in flight (R103). -/
structure Transaction where
  entry : EntryId
  access : Access
  /-- How to take back the byte whose ninth pulse has not ended (R4). -/
  undo : Option ByteUndo
  /-- The byte in the sender; FFh leaves SDA released (R112). -/
  sender : Byte
  /-- Whether the next acknowledge the responder gives is ACK. -/
  ackLow : Bool
  /-- The outside initiator has NACKed a byte, so none is loaded any more (R112, R125). -/
  nacked : Bool
  /-- The first byte was loaded before the falling edge that would load it (R128, log 14). -/
  preloaded : Bool
  deriving DecidableEq, Repr

/-- The responder (R104). In MAIL_WAIT: the mail wait limit read at selection, and the time the wait began, absent
until the falling edge after position 9 (R127). -/
inductive Responder where
  | off
  | listen
  | ignore
  | selectedWrite (t : Transaction)
  | selectedRead (t : Transaction)
  | mailWait (t : Transaction) (limitMs : Nat) (since : Option Nat)
  deriving DecidableEq, Repr

/-- The mode of an address entry (R100). -/
inductive Mode where
  | window
  | mailbox
  deriving DecidableEq, Repr

/-- The bytes of an addressed buffer by index: strictly rising, none equal to 00h, which an unlisted index reads as
(R100: all 00h after a full reset). -/
abbrev Memory := List Host.Cell

/-- A WIN_WRITE that waits for the end of the entry's transaction (R114). -/
structure DeferredWrite where
  offset : Nat
  bytes : List Byte
  request : Deferral
  deriving DecidableEq, Repr

/-- An address entry (R100, R117). -/
structure Entry where
  enable : Bool
  address : Option Byte
  mode : Mode
  notify : Bool
  /-- The protect boundary P. -/
  protectFrom : Nat
  mailWaitMs : Nat
  pointer : Fin 64
  window : Memory
  /-- The outbox, oldest message first. -/
  outbox : List (List Byte)
  deferred : Option DeferredWrite
  deriving DecidableEq, Repr

/-- The place a clearing round has reached (R93, R94, R95). -/
inductive ClearStage where
  /-- The unit is about to drive SCL low for a pulse. -/
  | pulseHigh
  /-- SCL has fallen for a pulse; its high period has not ended. -/
  | pulseLow
  /-- The unit is about to drive SCL low for the round's stop. -/
  | stopHigh
  /-- SCL has fallen for the round's stop; SDA is driven low until the high period that follows has ended. -/
  | stopLow
  /-- The round's stop has been seen; the lines are about to be sampled. -/
  | stopDone
  /-- The wait after a failed round. -/
  | wait (since : Nat)
  deriving DecidableEq, Repr

/-- The bus-clear unit in CLEARING (R92, R93). -/
structure Clearing where
  round : Nat
  pulses : Nat
  stage : ClearStage
  grade : Grade
  stretchMs : Nat
  lowSince : Option Nat
  /-- The time of the round's stop, once seen (R96). -/
  stopAt : Option Nat
  deriving DecidableEq, Repr

/-- The bus-clear unit (R92); in STUCK the time from which the idle watch measures (R97). -/
inductive BusClear where
  | normal
  | clearing (c : Clearing)
  | stuck (idleSince : Option Nat)
  deriving DecidableEq, Repr

/-- A quiet-low interval: when it began, and the stuck limit it keeps, in ms (R86). -/
structure Quiet where
  since : Nat
  limitMs : Nat
  deriving DecidableEq, Repr

/-- What a pending summary holds for one address entry (R150); bit i of `dirty` is set when window index i is in the
set. -/
structure EntrySummary where
  dirty : BitVec 64
  takenCount : Nat
  emptyCount : Nat
  deriving DecidableEq, Repr

/-- A pending summary (R150). `lapsed` is the chain id of the last lapse while the hold-lapsed flag is on. -/
structure Summary where
  stuckSeen : Bool
  recoveredSeen : Bool
  lapsed : Option Byte
  entries : Vector EntrySummary 4
  deriving DecidableEq, Repr

/-- A segment engine with the levels of its lines as seen and the part's drive of them. -/
structure Segment where
  cfg : SegConfig
  /-- SCL as seen: true is high. -/
  scl : Bool
  /-- SDA as seen: true is high. -/
  sda : Bool
  /-- The part holds SCL low (HELD, MAIL_WAIT; the low periods of a clock it makes take no count step, log 1). -/
  drvScl : Bool
  /-- The part drives SDA low. -/
  drvSda : Bool
  mon : Monitor
  framer : Framer
  queue : List Slot
  init : Initiator
  resp : Responder
  entries : Vector Entry 4
  clear : BusClear
  quiet : Option Quiet
  /-- A segment reset has not ended (R141). -/
  resetting : Bool
  /-- A disable has not ended (R145). -/
  disabling : Bool
  summary : Summary
  deriving DecidableEq, Repr

/-! ## Notice unit -/

/-- The notice kinds (R161). -/
inductive NoticeKind where
  | restarted
  | jobDone
  | windowWritten
  | mailIn
  | mailTaken
  | mailEmptyRead
  | busStuck
  | busRecovered
  | holdLapsed
  | segSummary
  deriving DecidableEq, Repr

/-- What a notice entry refers to (R146). -/
inductive Source where
  | job (slot : Slot)
  | record
  deriving DecidableEq, Repr

/-- An entry of the notice queue; its payload is encoded when it joins (R146, R187). -/
structure Notice where
  seq : Word
  kind : NoticeKind
  source : Source
  payload : List Byte
  deriving DecidableEq, Repr

/-- A run of the resend timer (R154). -/
structure Timer where
  since : Nat
  lenMs : Nat
  deriving DecidableEq, Repr

/-- The notice unit (R146 to R160). -/
structure Notices where
  queue : List Notice
  next : Word
  /-- The send window W. -/
  window : Nat
  resendMs : Nat
  sentLimit : Nat
  sendPoint : Nat
  timer : Option Timer
  expiries : Nat
  silent : Bool
  lastServed : SegId
  deriving DecidableEq, Repr

/-! ## Link unit -/

/-- The host link rate (R162). -/
inductive Rate where
  | b115200
  | b230400
  | b460800
  | b921600
  deriving DecidableEq, Repr

/-- The receiver (R164): in BODY the length and the bytes stored, in CHECK also the first CRC byte once delivered. -/
inductive Receiver where
  | hunt
  | length
  | body (len : Byte) (got : List Byte)
  | check (len : Byte) (got : List Byte) (high : Option Byte)
  deriving DecidableEq, Repr

/-- A request frame (R181), with the CRC it carried. -/
structure Request where
  tag : Byte
  ackValid : Byte
  ackSeq : Word
  code : Byte
  params : List Byte
  crc : Word
  deriving DecidableEq, Repr

/-- An entry of the reply cache: PENDING while `reply` is absent (R169). -/
structure CacheEntry where
  tag : Byte
  code : Byte
  crc : Word
  reply : Option (List Byte)
  age : Nat
  deriving DecidableEq, Repr

/-- A held reply: the body of its frame, and whether it is the reply of a taken DEV_RESET (R172, R178). -/
structure Reply where
  body : List Byte
  devReset : Bool
  deriving DecidableEq, Repr

/-- A request taken and not yet answered (R168, R170): new, with the age of its cache entry, or a duplicate, with the
cached reply to replay if its entry is COMPLETE. -/
inductive InHand where
  | fresh (r : Request) (age : Nat)
  | duplicate (r : Request) (replay : Option (List Byte))
  deriving DecidableEq, Repr

/-- The frame under transmission on TXD (R173): its bytes on the line, whether it is a reply, and whether it is the
reply of a taken DEV_RESET. -/
structure Transmission where
  frame : List Byte
  isReply : Bool
  devReset : Bool
  deriving DecidableEq, Repr

/-- The link unit (R162 to R178). -/
structure Link where
  rate : Rate
  rx : Receiver
  gapSince : Option Nat
  inbound : List Request
  /-- The reply cache, oldest first. -/
  cache : List CacheEntry
  nextAge : Nat
  /-- The held replies, oldest first. -/
  replies : List Reply
  /-- The reserved places of the reply queue. -/
  reserved : Nat
  inHand : Option InHand
  resetTaken : Bool
  tx : Option Transmission
  deriving DecidableEq, Repr

/-- The cause of a full reset (R152). -/
inductive Cause where
  | powerOn
  | resetPin
  | resetRequest
  deriving DecidableEq, Repr

/-! ## The part -/

/-- The whole part, and the commands that wait for it. -/
structure State where
  /-- The time, in count steps of 10 µs. -/
  now : Nat
  segs : Vector Segment 4
  jobs : Vector (Option Job) 32
  notices : Notices
  link : Link
  /-- While RST is held low: the cause the reset will report (R152). -/
  resetHeld : Option Cause
  /-- The commands that wait, first in first out. -/
  pending : List Instr
  deriving DecidableEq, Repr

/-! ## Reset values -/

/-- The configuration after a full reset (R16). -/
def SegConfig.atReset : SegConfig :=
  { enable := false, grade := .s100, stretchMs := 25, stuckMs := 35, holdMs := 10, arbRetry := 8, nackRetry := 2,
    retryInterval := 5, queueLimit := 8, recovery := true }

/-- An address entry after a full reset (R100). -/
def Entry.atReset : Entry :=
  { enable := false, address := none, mode := .window, notify := false, protectFrom := 64, mailWaitMs := 0,
    pointer := 0, window := [], outbox := [], deferred := none }

/-- An empty pending summary (R150). -/
def Summary.empty : Summary :=
  { stuckSeen := false, recoveredSeen := false, lapsed := none,
    entries := Vector.replicate 4 { dirty := 0, takenCount := 0, emptyCount := 0 } }

/-- No byte being framed. -/
def Framer.atReset : Framer := { kind := .none, pos := 0, shift := 0, ackHigh := true, taken := false }

/-- A line monitor in UNKNOWN with no stop time and no window running (R12). -/
def Monitor.atReset : Monitor := { line := .unknown, stopTime := none, idleSince := none }

/-- A segment engine after a full reset, its lines seen at the levels given (R12, R16, R46, R92, R100, R104, R150). -/
def Segment.atReset (scl sda : Bool) : Segment :=
  { cfg := SegConfig.atReset, scl := scl, sda := sda, drvScl := false, drvSda := false, mon := Monitor.atReset,
    framer := Framer.atReset, queue := [], init := .off, resp := .off,
    entries := Vector.replicate 4 Entry.atReset, clear := .normal, quiet := none, resetting := false,
    disabling := false, summary := Summary.empty }

/-- The link unit after a full reset, at a given rate (R162, R164, R167, R169, R172). -/
def Link.atReset (rate : Rate) : Link :=
  { rate := rate, rx := .hunt, gapSince := none, inbound := [], cache := [], nextAge := 0, replies := [],
    reserved := 0, inHand := none, resetTaken := false, tx := none }

/-- The machine right after a power-on reset: RESTARTED with cause POWER_ON queued (R152), every other item at the
reset value of its rule, the lines high (log 6) and the straps low (log 7). -/
def State.reset : State :=
  { now := 0
    segs := Vector.replicate 4 (Segment.atReset true true)
    jobs := Vector.replicate 32 none
    notices :=
      { queue := [{ seq := 0, kind := .restarted, source := .record, payload := [1] }]
        next := 1, window := 4, resendMs := 40, sentLimit := 0, sendPoint := 0, timer := none, expiries := 0,
        silent := false, lastServed := 3 }
    link := Link.atReset .b115200
    resetHeld := none
    pending := [] }

end Sys2Proof.Machine
end

