-- ==== Sys2Proof/Machine/Frames.lean ====
section
/-! DEFINITION. The frames of the host link: bytes of fields, the CRC, the headers, the code tables and the layouts of
notice payloads (`11_message_formats_and_code_tables.md`). -/

namespace Sys2Proof.Machine

/-! ## Bytes and words -/

/-- A field of two bytes, most significant byte first (`00_scope.md`, Host link byte order). -/
def wordBytes (w : Word) : List Byte := [w.extractLsb' 8 8, w.extractLsb' 0 8]

/-- The word of two bytes, the first the more significant. -/
def wordOf (hi lo : Byte) : Word := hi ++ lo

/-- A count as a field of two bytes. -/
def countBytes (n : Nat) : List Byte := wordBytes (BitVec.ofNat 16 n)

/-- A flag byte: 00h off, 01h on (R188). -/
def flagByte (b : Bool) : Byte := if b then 1 else 0

/-! ## The frame and its CRC -/

/-- The sync byte (R179). -/
def syncByte : Byte := 0xB7

/-- One step of the CRC register: a shift to the left, and 1021h where the bit shifted out is 1 (R180). -/
def crcStep (r : Word) : Word := if r.msb then (r <<< 1) ^^^ 0x1021 else r <<< 1

/-- One byte taken into the CRC register: XORed into its high byte, then eight steps (R180). -/
def crcByte (r : Word) (b : Byte) : Word :=
  let x := r ^^^ (b ++ (0 : Byte))
  crcStep (crcStep (crcStep (crcStep (crcStep (crcStep (crcStep (crcStep x)))))))

/-- The CRC of a run of bytes: initial value FFFFh, no reflection, no final XOR (R166, R180). -/
def crc (bs : List Byte) : Word := bs.foldl crcByte 0xFFFF

/-- A frame on the line: sync, length, body, CRC of length and body (R179). -/
def frameOf (body : List Byte) : List Byte :=
  let l := byteOf body.length
  syncByte :: l :: body ++ wordBytes (crc (l :: body))

/-! ## Code tables (R188) -/

/-- Frame kinds. -/
def kindRequest : Byte := 0x01
def kindAck : Byte := 0x02
def kindReply : Byte := 0x81
def kindNotice : Byte := 0x82

/-- Request codes (R183). -/
def codeDevInfo : Byte := 0x01
def codeDevReset : Byte := 0x02
def codeLinkConfig : Byte := 0x03
def codeSegConfig : Byte := 0x10
def codeSegStatus : Byte := 0x11
def codeSegFlush : Byte := 0x12
def codeSegReset : Byte := 0x13
def codeJobSubmit : Byte := 0x20
def codeJobCancel : Byte := 0x21
def codeJobQuery : Byte := 0x22
def codeRespSet : Byte := 0x30
def codeWinWrite : Byte := 0x31
def codeWinRead : Byte := 0x32
def codeMailPost : Byte := 0x33
def codeMailWithdraw : Byte := 0x34

/-- The request codes of the request table (R183). -/
def requestCodes : List Byte :=
  [codeDevInfo, codeDevReset, codeLinkConfig, codeSegConfig, codeSegStatus, codeSegFlush, codeSegReset, codeJobSubmit,
    codeJobCancel, codeJobQuery, codeRespSet, codeWinWrite, codeWinRead, codeMailPost, codeMailWithdraw]

/-- The reply codes (R174, R188). -/
inductive ReplyCode where
  | ok
  | badRequest
  | badParam
  | segOff
  | noSlot
  | noSpace
  | queueFull
  | dupJob
  | notLive
  | busy
  | dupAddr
  | outboxFull
  | entryMode
  | finished
  deriving DecidableEq, Repr

/-- The code of a reply. -/
def replyByte : ReplyCode → Byte
  | .ok => 0x00
  | .badRequest => 0x01
  | .badParam => 0x02
  | .segOff => 0x03
  | .noSlot => 0x04
  | .noSpace => 0x05
  | .queueFull => 0x06
  | .dupJob => 0x07
  | .notLive => 0x08
  | .busy => 0x09
  | .dupAddr => 0x0A
  | .outboxFull => 0x0B
  | .entryMode => 0x0C
  | .finished => 0x0D

/-- The code of a notice kind. -/
def noticeByte : NoticeKind → Byte
  | .restarted => 0x01
  | .jobDone => 0x02
  | .windowWritten => 0x03
  | .mailIn => 0x04
  | .mailTaken => 0x05
  | .mailEmptyRead => 0x06
  | .busStuck => 0x07
  | .busRecovered => 0x08
  | .holdLapsed => 0x09
  | .segSummary => 0x0A

/-- The code of an outcome. -/
def outcomeByte : JobOutcome → Byte
  | .done => 0x00
  | .addrNack => 0x01
  | .dataNack => 0x02
  | .arbLost => 0x03
  | .stretchTimeout => 0x04
  | .busStuck => 0x05
  | .cancelled => 0x06
  | .flushed => 0x07
  | .chainBroken => 0x08
  | .lengthBad => 0x09

/-- The code of a class. -/
def classByte : JobClass → Byte
  | .normal => 0x00
  | .urgent => 0x01

/-- The code of a chain role; 00h stands for no chain. -/
def roleByte : Role → Byte
  | .opening => 0x01
  | .cont => 0x02
  | .contOpen => 0x03

/-- The chain id and role of a job, 00h and 00h when it has no chain (R189). -/
def chainBytes : Option Chain → List Byte
  | none => [0, 0]
  | some c => [c.id, roleByte c.role]

/-- The code of a speed grade. -/
def gradeByte : Grade → Byte
  | .s100 => 0x00
  | .f400 => 0x01
  | .f1000 => 0x02

/-- The code of an entry mode. -/
def modeByte : Mode → Byte
  | .window => 0x00
  | .mailbox => 0x01

/-- The code of a restart cause. -/
def causeByte : Cause → Byte
  | .powerOn => 0x01
  | .resetPin => 0x02
  | .resetRequest => 0x03

/-- The code of the lines found stuck: SCL, SDA or both. -/
def stuckLinesByte (scl sda : Bool) : Byte :=
  match scl, sda with
  | true, false => 0x01
  | false, true => 0x02
  | true, true => 0x03
  | false, false => 0x00

/-- The code of a bus-clear state. -/
def clearByte : BusClear → Byte
  | .normal => 0x00
  | .clearing _ => 0x01
  | .stuck _ => 0x02

/-- The code of a line state. -/
def lineByte : LineState → Byte
  | .unknown => 0x00
  | .free => 0x01
  | .busy => 0x02

/-- The code of an initiator state. -/
def initiatorByte : Initiator → Byte
  | .off => 0x00
  | .idle => 0x01
  | .waiting _ => 0x02
  | .running _ => 0x03
  | .backoff _ _ => 0x04
  | .held _ => 0x05

/-- The code of a responder state. -/
def responderByte : Responder → Byte
  | .off => 0x00
  | .listen => 0x01
  | .ignore => 0x02
  | .selectedWrite _ => 0x03
  | .selectedRead _ => 0x04
  | .mailWait _ _ _ => 0x05

/-- The code of a job state. -/
def jobStateByte : JobState → Byte
  | .queued => 0x01
  | .current => 0x02
  | .finished _ => 0x03

/-- The code of a host link rate. -/
def rateByte : Rate → Byte
  | .b115200 => 0x00
  | .b230400 => 0x01
  | .b460800 => 0x02
  | .b921600 => 0x03

/-- The rate the straps select (R162). -/
def rateOf (p : Straps) : Rate :=
  match p.baud1, p.baud0 with
  | false, false => .b115200
  | false, true => .b230400
  | true, false => .b460800
  | true, true => .b921600

/-- The number of a segment or of an entry as a byte. -/
def indexByte (i : Fin 4) : Byte := byteOf i.val

/-! ## Headers (R181) -/

/-- The body of a reply. -/
def replyBody (tag code : Byte) (rc : ReplyCode) (data : List Byte) : List Byte :=
  [kindReply, tag, code, replyByte rc] ++ data

/-- The body of a notice. -/
def noticeBody (n : Notice) : List Byte := kindNotice :: wordBytes n.seq ++ noticeByte n.kind :: n.payload

/-- The request a REQUEST body carries, with the CRC of its frame; the body is at least 6 bytes (R163, R181). -/
def requestOf (crcSeen : Word) : List Byte → Option Request
  | _kind :: tag :: valid :: a1 :: a0 :: code :: params =>
    some { tag := tag, ackValid := valid, ackSeq := wordOf a1 a0, code := code, params := params, crc := crcSeen }
  | _ => none

/-- Whether a request is decoded: its ack-valid byte is 00h or 01h and its code is in the request table (R174,
R182). -/
def Request.decodes (r : Request) : Bool := (r.ackValid == 0 || r.ackValid == 1) && requestCodes.contains r.code

/-! ## Notice payloads (R186, R187) -/

/-- A failing phase, 00h when absent. -/
def failPhaseByte : Option Nat → Byte
  | none => 0x00
  | some n => byteOf n

/-- A byte index, FFh when absent. -/
def byteIndexByte : Option Nat → Byte
  | none => 0xFF
  | some n => byteOf n

/-- The result entries of a JOB_DONE: phase index, length, bytes. -/
def resultBytes : List ReadResult → List Byte
  | [] => []
  | r :: rest => byteOf r.phase :: byteOf r.bytes.length :: r.bytes ++ resultBytes rest

/-- The payload of a JOB_DONE. -/
def jobDonePayload (j : Job) (c : Completion) : List Byte :=
  wordBytes j.id ++
    [indexByte j.seg, outcomeByte c.outcome, failPhaseByte c.failPhase, byteIndexByte c.byteIndex, byteOf j.arbCount,
      byteOf j.nackCount, byteOf j.deferCount] ++
    countBytes c.duration ++ byteOf c.results.length :: resultBytes c.results

/-- Byte k of a dirty index set: bit j stands for index 8k + j. -/
def dirtyByte (d : BitVec 64) (k : Nat) : Byte := d.extractLsb' (8 * k) 8

/-- The ten bytes of one entry in a SEG_SUMMARY. -/
def entrySummaryBytes (e : EntrySummary) : List Byte :=
  (List.range 8).map (dirtyByte e.dirty) ++ [byteOf e.takenCount, byteOf e.emptyCount]

/-- The payload of a SEG_SUMMARY. -/
def summaryPayload (g : SegId) (u : Summary) : List Byte :=
  [indexByte g, flagByte u.stuckSeen ||| (flagByte u.recoveredSeen <<< 1) ||| (flagByte u.lapsed.isSome <<< 2),
      u.lapsed.getD 0] ++
    entrySummaryBytes u.entries[0] ++ entrySummaryBytes u.entries[1] ++ entrySummaryBytes u.entries[2] ++
    entrySummaryBytes u.entries[3]

/-- The events of a segment that claim an event record when they are made (R149, R161). In BUS_STUCK `clears` says
whether the state entered is CLEARING; it is STUCK otherwise (R91). -/
inductive SegEvent where
  | windowWritten (e : EntryId) (first : Fin 64) (count : Nat)
  | mailTaken (e : EntryId) (bytesTaken length pad left : Nat)
  | mailEmptyRead (e : EntryId) (pad : Nat) (expired : Bool)
  | busStuck (scl sda clears : Bool)
  | busRecovered (round pulses : Nat)
  | holdLapsed (chain : Byte)
  deriving DecidableEq, Repr

/-- The notice kind of an event. -/
def SegEvent.kind : SegEvent → NoticeKind
  | .windowWritten _ _ _ => .windowWritten
  | .mailTaken _ _ _ _ _ => .mailTaken
  | .mailEmptyRead _ _ _ => .mailEmptyRead
  | .busStuck _ _ _ => .busStuck
  | .busRecovered _ _ => .busRecovered
  | .holdLapsed _ => .holdLapsed

/-- The payload of an event: the contents of R161, one byte an item (R187). -/
def SegEvent.payload (g : SegId) : SegEvent → List Byte
  | .windowWritten e first count => [indexByte g, indexByte e, byteOf first.val, byteOf count]
  | .mailTaken e n len pad left =>
    [indexByte g, indexByte e, byteOf n, byteOf len, byteOf pad, byteOf left]
  | .mailEmptyRead e pad expired => [indexByte g, indexByte e, byteOf pad, flagByte expired]
  | .busStuck scl sda clears => [indexByte g, stuckLinesByte scl sda, if clears then 0x01 else 0x02]
  | .busRecovered round pulses => [indexByte g, byteOf round, byteOf pulses]
  | .holdLapsed chain => [indexByte g, chain]

/-- The payload of a MAIL_IN: the contents of R161 in their order, the bytes last. DEDUCED (log 12). -/
def mailInPayload (g : SegId) (e : EntryId) (address : Byte) (bytes : List Byte) (overlong : Bool) : List Byte :=
  [indexByte g, indexByte e, address, byteOf bytes.length, flagByte overlong] ++ bytes

end Sys2Proof.Machine
end

