-- ==== Sys2Proof/Machine/Flags.lean ====
section
/-! DEFINITION. The flags computed from the state: which timers have reached their limits, which lines the part leaves
low, what a line edge has brought about, and the conditions under which each event of the table can come about. -/

namespace Sys2Proof.Machine

/-! ## Time -/

/-- A measured time has reached a limit: `len` count steps have passed since `since` (`00_scope.md`, Time). -/
def reached (now since len : Nat) : Bool := decide (since + len ≤ now)

/-- A limit in ms measured from an optional start has been reached. -/
def reachedMs (now : Nat) (since : Option Nat) (ms : Nat) : Bool :=
  match since with
  | none => false
  | some t => reached now t (ms * Config.stepsPerMs)

/-- Count steps since a moment, saturating at 65535 (R22, R45, R63). -/
def stepsSince (now t : Nat) : Nat := saturate 65535 (now - t)

/-- The bus-free time of the grade in force has elapsed since the recorded stop; with no recorded stop time it counts
as elapsed (R10). -/
def busFreeElapsed (now : Nat) (x : Segment) : Bool :=
  match x.mon.stopTime with
  | none => true
  | some t => decide (Config.busFreeTime x.cfg.grade ≤ (now - t) * Config.tenthsPerStep)

/-! ## Segments -/

/-- The segment is OFF (R46, R104). -/
def Segment.isOff (x : Segment) : Bool :=
  match x.init with
  | .off => true
  | _ => false

/-- Requests for the segment are refused SEG_OFF: its enable field is off, or a disable has not ended (R30, R145). -/
def Segment.refuses (x : Segment) : Bool := !x.cfg.enable || x.disabling

/-- The bus-clear unit is NORMAL. -/
def BusClear.isNormal : BusClear → Bool
  | .normal => true
  | _ => false

/-- The bus-clear unit is CLEARING. -/
def BusClear.isClearing : BusClear → Bool
  | .clearing _ => true
  | _ => false

/-- The slot of the current job (R46). -/
def Initiator.slot? : Initiator → Option Slot
  | .waiting i => some i
  | .running r => some r.slot
  | .backoff i _ => some i
  | .off | .idle | .held _ => none

/-- The initiator drives the lines in this state: RUNNING or HELD (R11, R46). -/
def Initiator.drives : Initiator → Bool
  | .running _ | .held _ => true
  | .off | .idle | .waiting _ | .backoff _ _ => false

/-- The live count of a segment (R41). -/
def Segment.liveCount (x : Segment) : Nat := x.queue.length + (if x.init.slot?.isSome then 1 else 0)

/-- The transaction in flight at the responder, if any (R103). -/
def Responder.transaction? : Responder → Option Transaction
  | .selectedWrite t => some t
  | .selectedRead t => some t
  | .mailWait t _ _ => some t
  | .off | .listen | .ignore => none

/-- A transaction on the entry is in flight (R103). -/
def Segment.inFlight (x : Segment) (e : EntryId) : Bool :=
  match x.resp.transaction? with
  | some t => decide (t.entry = e)
  | none => false

/-- The responder holds an event record: a mailbox write is in flight (R119, R148). -/
def Segment.holdsRecord (x : Segment) : Bool :=
  match x.resp.transaction? with
  | some { access := .mailWrite _ _ _, .. } => true
  | _ => false

/-- A read in flight on the entry has the oldest outbox message bound (R117). -/
def Segment.bound (x : Segment) (e : EntryId) : Bool :=
  match x.resp.transaction? with
  | some { entry := e', access := .mailRead true _ _ _, .. } => decide (e' = e)
  | _ => false

/-- At least one line is seen low that the part does not drive low (R86, R87). -/
def Segment.quietLow (x : Segment) : Bool := (!x.scl && !x.drvScl) || (!x.sda && !x.drvSda)

/-- The bus-clear unit measures the quiet-low time (R86). -/
def Segment.measures (x : Segment) : Bool := !x.isOff && x.clear.isNormal

/-- The time from which a window on high lines measures after an edge (R14, R97). -/
def Segment.highSince (now : Nat) (x : Segment) : Option Nat := if x.scl && x.sda then some now else none

/-- The summary holds something for an entry (R150). -/
def EntrySummary.holds (e : EntrySummary) : Bool := e.dirty != 0 || 0 < e.takenCount || 0 < e.emptyCount

/-- The summary holds something (R150). -/
def Summary.holds (u : Summary) : Bool :=
  u.stuckSeen || u.recoveredSeen || u.lapsed.isSome || u.entries[0].holds || u.entries[1].holds ||
    u.entries[2].holds || u.entries[3].holds

/-! ## Jobs -/

/-- The role CONTINUE or CONTINUE_OPEN. -/
def Role.continues : Role → Bool
  | .opening => false
  | .cont | .contOpen => true

/-- The role OPEN or CONTINUE_OPEN. -/
def Role.holds : Role → Bool
  | .opening | .contOpen => true
  | .cont => false

/-- A continuation job (R66). -/
def Job.isContinuation (j : Job) : Bool :=
  match j.chain with
  | none => false
  | some c => c.role.continues

/-- A continuation job of chain c (R68). -/
def Job.continuesChain (c : Byte) (j : Job) : Bool :=
  match j.chain with
  | none => false
  | some k => decide (k.id = c) && k.role.continues

/-- The retry limits as applied: 0 for a continuation job, which runs from a hold alone (R66, R68). -/
def Job.appliedLimit (j : Job) (limit : Nat) : Nat := if j.isContinuation then 0 else limit

/-- The payload bytes of a phase (R26). -/
def Phase.writeLength (p : Phase) : Nat :=
  match p.kind with
  | .write bs => bs.length
  | .read _ | .countedRead _ => 0

/-- The read space of a phase (R26). -/
def Phase.readSpace (p : Phase) : Nat :=
  match p.kind with
  | .write _ => 0
  | .read n => n
  | .countedRead m => m + 1

/-- The write total of a phase list (R26). -/
def writeTotal (ps : List Phase) : Nat := (ps.map Phase.writeLength).sum

/-- The read space of a phase list (R26). -/
def readSpace (ps : List Phase) : Nat := (ps.map Phase.readSpace).sum

/-- The block count of a phase list: its bytes divided by 32, rounded up (R26). -/
def blockCount (ps : List Phase) : Nat :=
  (writeTotal ps + readSpace ps + (Config.blockBytes - 1)) / Config.blockBytes

/-- The phase at the progress phase index (R49). -/
def Job.phase? (j : Job) : Option Phase := j.phases[j.phaseIndex - 1]?

/-- The progress stands at the last phase. -/
def Job.atLastPhase (j : Job) : Bool := decide (j.phases.length ≤ j.phaseIndex)

/-- The address byte of the phase: its target address, then direction 0 for a write and 1 for a read (R50). -/
def Job.addressByte (j : Job) : Byte :=
  match j.phase? with
  | none => 0xFF
  | some p =>
    match p.kind with
    | .write _ => p.target <<< 1
    | .read _ | .countedRead _ => (p.target <<< 1) ||| 1

/-- The payload byte at the byte index (R51). -/
def Job.payloadByte (j : Job) : Byte :=
  match j.phase? with
  | some { kind := .write bs, .. } => (bs[j.byteIndex]?).getD 0xFF
  | _ => 0xFF

/-- The byte the initiator sends in a sub-step. -/
def Job.sends (j : Job) : SubStep → Byte
  | .address => j.addressByte
  | .write => j.payloadByte
  | .start | .read | .restart | .stop _ => 0xFF

/-- The initiator awaits a length byte: a counted read at byte index 0 (R54). -/
def Job.awaitsLength (j : Job) : Bool :=
  match j.phase? with
  | some { kind := .countedRead _, .. } => decide (j.byteIndex = 0)
  | _ => false

/-- A length byte is accepted: 1 to the maximum of the phase (R54). -/
def Job.acceptsLength (j : Job) (n : Byte) : Bool :=
  match j.phase? with
  | some { kind := .countedRead m, .. } => decide (1 ≤ n.toNat) && decide (n.toNat ≤ m)
  | _ => false

/-- The bytes the read phase in progress receives in all: the count, or the length byte and the bytes it announces
(R53, R54). -/
def Job.readTotal (j : Job) : Nat :=
  match j.phase? with
  | some { kind := .read k, .. } => k
  | some { kind := .countedRead _, .. } =>
    match j.readBuf with
    | n :: _ => n.toNat + 1
    | [] => 0
  | _ => 0

/-- Whether the initiator answers the byte just received with ACK: an accepted length byte, or any byte of a read that
is not its last (R53, R54). -/
def Job.acksRead (j : Job) (b : Byte) : Bool :=
  if j.awaitsLength then j.acceptsLength b else decide (j.byteIndex + 1 < j.readTotal)

/-- Bit position p, 1 to 8, of a byte is 0: the sender drives SDA low for it (R2). -/
def bitLow (b : Byte) (p : Nat) : Bool := !b.getLsbD (8 - p)

/-! ## What a line edge has brought about -/

/-- The initiator sees SDA low at a rising edge of SCL at which it sends a 1 (R75): a bit of an address or write byte,
the NACK of a read, or the data-high moment of a repeated start. -/
def Segment.lossSeen (x : Segment) : Bool :=
  match x.init with
  | .running r =>
    x.scl && !x.drvSda &&
      (match r.sub with
       | .address | .write => decide (1 ≤ x.framer.pos) && decide (x.framer.pos ≤ 8) && !x.framer.shift.getLsbD 0
       | .read => decide (x.framer.pos = 9) && !x.framer.ackHigh
       | .restart => !r.drove && !x.sda
       | .start | .stop _ => false)
  | _ => false

/-- The acknowledge bit has ended: SCL has fallen after position 9, and what it brings about has not been taken. -/
def Segment.ackEnded (x : Segment) : Bool := decide (x.framer.pos = 9) && !x.scl && !x.framer.taken

/-- The run whose acknowledge bit has ended in a sub-step, if the part goes on with its job (R49, R142). -/
def Segment.ackedRun? (x : Segment) (sub : SubStep) : Option Run :=
  match x.init with
  | .running r => if x.ackEnded && !r.closing && r.sub == sub then some r else none
  | _ => none

/-- Position 8 of a byte has been sampled, and what it brings about has not been taken. -/
def Segment.byteEnded (x : Segment) : Bool := decide (x.framer.pos = 8) && x.scl && !x.framer.taken

/-- The responder is framing an address byte and has its last bit (R105). -/
def Segment.addressEnded (x : Segment) : Bool :=
  (match x.resp with
   | .listen => true
   | _ => false) && x.framer.kind == .address && x.byteEnded && !x.lossSeen

/-- The responder is to load a byte: SCL has fallen after an acknowledge bit with ACK (R112, R125). -/
def Segment.loads? (x : Segment) : Option Transaction :=
  match x.resp with
  | .selectedRead t => if x.ackEnded && !t.nacked && !t.preloaded then some t else none
  | _ => none

/-- The responder has received a data byte of a write (R110, R120). -/
def Segment.receives? (x : Segment) : Option Transaction :=
  match x.resp with
  | .selectedWrite t => if x.framer.kind == .data && x.byteEnded then some t else none
  | _ => none

/-! ## When the timed events come about -/

/-- The gap timer has reached 2 ms within a frame (R165). -/
def gapDue (s : State) : Bool :=
  match s.link.gapSince with
  | none => false
  | some t => reached s.now t Config.gapSteps

/-- The resend timer has reached the length of its run (R154). -/
def resendDue (s : State) : Bool :=
  match s.notices.timer with
  | none => false
  | some t => reached s.now t.since (t.lenMs * Config.stepsPerMs)

/-- The bus-idle window has measured 100 µs (R14). -/
def Segment.windowDue (now : Nat) (x : Segment) : Bool :=
  match x.mon.idleSince with
  | none => false
  | some t => x.mon.line == .unknown && !x.isOff && reached now t Config.busIdleSteps

/-- The current job's start conditions hold (R48); the slot is the current job's. -/
def Segment.startDue? (now : Nat) (x : Segment) : Option Slot :=
  match x.init with
  | .waiting i => if x.mon.line == .free && busFreeElapsed now x && x.clear.isNormal then some i else none
  | _ => none

/-- The stretch limit has been reached with SCL released and low (R60, R61, R69). -/
def Segment.stretchDue (now : Nat) (x : Segment) : Bool :=
  match x.init with
  | .running r => reachedMs now r.lowSince r.stretchMs
  | .held h => h.closing.isSome && reachedMs now h.lowSince h.stretchMs
  | _ => false

/-- The retry wait of a backoff has ended (R58, R81); the slot is the current job's. -/
def Segment.backoffDue? (now : Nat) (x : Segment) : Option Slot :=
  match x.init with
  | .backoff i (.wait since len) => if reached now since len then some i else none
  | _ => none

/-- The hold time has reached the hold limit (R69). -/
def Segment.holdDue? (now : Nat) (x : Segment) : Option Hold :=
  match x.init with
  | .held h => if h.closing.isNone && reached now h.since (h.limitMs * Config.stepsPerMs) then some h else none
  | _ => none

/-- The wait for mail has reached the limit read at selection (R129). -/
def Segment.mailWaitDue? (now : Nat) (x : Segment) : Option Transaction :=
  match x.resp with
  | .mailWait t limit since => if reachedMs now since limit then some t else none
  | _ => none

/-- The quiet-low time has reached the limit its interval keeps (R86). -/
def Segment.stuckDue (now : Nat) (x : Segment) : Bool :=
  match x.quiet with
  | none => false
  | some q => x.measures && x.quietLow && reached now q.since (q.limitMs * Config.stepsPerMs)

/-- The wait after a failed clearing round has ended (R95). -/
def Segment.clearWaitDue? (now : Nat) (x : Segment) : Option Clearing :=
  match x.clear with
  | .clearing c =>
    match c.stage with
    | .wait since => if reached now since Config.clearWaitSteps then some c else none
    | _ => none
  | _ => none

/-- The stretch limit of a clearing round has been reached with SCL released and low (R93). -/
def Segment.clearStretchDue? (now : Nat) (x : Segment) : Option Clearing :=
  match x.clear with
  | .clearing c => if reachedMs now c.lowSince c.stretchMs then some c else none
  | _ => none

/-- The idle watch has measured 100 µs (R97). -/
def Segment.idleWatchDue (now : Nat) (x : Segment) : Bool :=
  match x.clear with
  | .stuck (some t) => reached now t Config.busIdleSteps
  | _ => false

/-- A timed event of the segment has come due. -/
def Segment.due (now : Nat) (x : Segment) : Bool :=
  x.windowDue now || (x.startDue? now).isSome || x.stretchDue now || (x.backoffDue? now).isSome ||
    (x.holdDue? now).isSome || (x.mailWaitDue? now).isSome || x.stuckDue now || (x.clearWaitDue? now).isSome ||
    (x.clearStretchDue? now).isSome || x.idleWatchDue now

/-- A timed event of the part has come due: a limit has been reached and its expiry has not been taken (log 2).
A request that could be taken and a frame that could be begun do not hold time (logs 36 and 37). -/
def due (s : State) : Bool :=
  gapDue s || resendDue s || s.segs[0].due s.now || s.segs[1].due s.now || s.segs[2].due s.now || s.segs[3].due s.now

/-! ## Pins -/

/-- ATTN is asserted while the notice queue holds any entry (R160); while RST is held low the queue is empty. -/
def attn (s : State) : Bool := !s.notices.queue.isEmpty

/-- TXD is held high: no frame is being sent (R162). -/
def txdIdle (s : State) : Bool := s.link.tx.isNone

end Sys2Proof.Machine
end

