-- ==== Sys2Proof/Machine/Operands.lean ====
section
/-! DEFINITION. The parameters of the requests: one reader for each layout of `11_message_formats_and_code_tables.md`,
which answers the values, BAD_REQUEST where the length does not match, or BAD_PARAM where a value is out of range
(R182, R183). -/

namespace Sys2Proof.Machine

/-- Values that are all in range, or BAD_PARAM. -/
def orBadParam {α : Type} : Option α → Except ReplyCode α
  | none => .error .badParam
  | some a => .ok a

/-! ## Fields -/

/-- A segment or entry number, 0 to 3. -/
def indexOf (b : Byte) : Option (Fin 4) := if h : b.toNat < 4 then some ⟨b.toNat, h⟩ else none

/-- A flag byte: 00h off, 01h on. -/
def flagOf (b : Byte) : Option Bool := if b = 0 then some false else if b = 1 then some true else none

/-- A number from lo to hi. -/
def numberOf (lo hi : Nat) (b : Byte) : Option Nat :=
  if lo ≤ b.toNat ∧ b.toNat ≤ hi then some b.toNat else none

/-- A speed grade. -/
def gradeOf (b : Byte) : Option Grade :=
  if b = 0 then some .s100 else if b = 1 then some .f400 else if b = 2 then some .f1000 else none

/-- An entry mode. -/
def modeOf (b : Byte) : Option Mode := if b = 0 then some .window else if b = 1 then some .mailbox else none

/-- A class. -/
def classOf (b : Byte) : Option JobClass := if b = 0 then some .normal else if b = 1 then some .urgent else none

/-- A chain role. -/
def roleOf (b : Byte) : Option Role :=
  if b = 1 then some .opening else if b = 2 then some .cont else if b = 3 then some .contOpen else none

/-- A bus address, 08h to 77h. -/
def addressOf (b : Byte) : Option Byte := if 0x08 ≤ b.toNat ∧ b.toNat ≤ 0x77 then some b else none

/-- A retry limit: FFh absent, 00h to 0Fh the limit (R185). -/
def limitOf (b : Byte) : Option (Option Nat) :=
  if b = 0xFF then some none else if b.toNat ≤ 15 then some (some b.toNat) else none

/-- The chain fields: both 00h for no chain, else a chain id with a role (R185). -/
def chainOf (id role : Byte) : Option (Option Chain) :=
  if id = 0 then (if role = 0 then some none else none) else (roleOf role).map (fun r => some { id := id, role := r })

/-! ## Requests of the link unit and of the segments -/

/-- No parameters (R176, R178). -/
def noParams : List Byte → Except ReplyCode Unit
  | [] => .ok ()
  | _ => .error .badRequest

/-- LINK_CONFIG: W and the resend time in ms (R177). -/
def linkConfigParams : List Byte → Except ReplyCode (Nat × Nat)
  | [w, hi, lo] =>
    let ms := (wordOf hi lo).toNat
    orBadParam (do
      let w ← numberOf 1 8 w
      if 5 ≤ ms ∧ ms ≤ 500 then some (w, ms) else none)
  | _ => .error .badRequest

/-- SEG_CONFIG: the segment and its ten fields (R16, R17). -/
def segConfigParams : List Byte → Except ReplyCode (SegId × SegConfig)
  | [g, enable, grade, stretch, stuck, hold, arb, nack, interval, limit, recovery] =>
    orBadParam (do
      let g ← indexOf g
      let enable ← flagOf enable
      let grade ← gradeOf grade
      let stretchMs ← numberOf 1 255 stretch
      let stuckMs ← numberOf 1 255 stuck
      let holdMs ← numberOf 1 255 hold
      let arbRetry ← numberOf 0 15 arb
      let nackRetry ← numberOf 0 15 nack
      let queueLimit ← numberOf 1 16 limit
      let recovery ← flagOf recovery
      some
        (g,
          { enable := enable, grade := grade, stretchMs := stretchMs, stuckMs := stuckMs, holdMs := holdMs,
            arbRetry := arbRetry, nackRetry := nackRetry, retryInterval := interval.toNat, queueLimit := queueLimit,
            recovery := recovery }))
  | _ => .error .badRequest

/-- A segment alone (R22, R139, R141). -/
def segParams : List Byte → Except ReplyCode SegId
  | [g] => orBadParam (indexOf g)
  | _ => .error .badRequest

/-! ## Job requests -/

/-- A job id, which is not 0000h (R45, R133). -/
def jobIdParams : List Byte → Except ReplyCode Word
  | [hi, lo] => orBadParam (if wordOf hi lo = 0 then none else some (wordOf hi lo))
  | _ => .error .badRequest

/-- A phase entry as it stands in the parameters (R184). -/
structure RawEntry where
  target : Byte
  kind : Byte
  arg : Byte
  payload : List Byte
  deriving DecidableEq, Repr

/-- Read phase entries to the end of the bytes; none if an entry names no phase kind or is cut short (R28, R185). Each
entry takes at least one byte, so as many rounds as there are bytes suffice. -/
def rawEntries : Nat → List Byte → Option (List RawEntry)
  | _, [] => some []
  | n + 1, target :: kind :: arg :: rest =>
    if kind = 1 then
      if arg.toNat ≤ rest.length then
        (rawEntries n (rest.drop arg.toNat)).map
          ({ target := target, kind := kind, arg := arg, payload := rest.take arg.toNat } :: ·)
      else none
    else if kind = 2 ∨ kind = 3 then
      (rawEntries n rest).map ({ target := target, kind := kind, arg := arg, payload := [] } :: ·)
    else none
  | _, _ => none

/-- A phase entry whose values are in range (R24, R29). -/
def phaseOf (e : RawEntry) : Option Phase := do
  let target ← addressOf e.target
  let kind ←
    (if e.kind = 1 then (if e.arg.toNat ≤ 64 then some (.write e.payload) else none)
    else if e.kind = 2 then (numberOf 1 64 e.arg).map .read
    else (numberOf 1 32 e.arg).map .countedRead)
  some { target := target, kind := kind }

/-- The phases of a list of entries, if every entry is in range. -/
def phasesOf : List RawEntry → Option (List Phase)
  | [] => some []
  | e :: rest => do
    let p ← phaseOf e
    let ps ← phasesOf rest
    some (p :: ps)

/-- A job as submitted, an absent retry limit still absent (R23). -/
structure Submission where
  id : Word
  seg : SegId
  cls : JobClass
  arbLimit : Option Nat
  nackLimit : Option Nat
  chain : Option Chain
  phases : List Phase
  deriving DecidableEq, Repr

/-- The checks over a whole phase list: 1 to 8 phases, write total at most 200, read space at most 192 (R29). -/
def phasesFit (ps : List Phase) : Bool :=
  decide (1 ≤ ps.length) && decide (ps.length ≤ 8) && decide (writeTotal ps ≤ 200) && decide (readSpace ps ≤ 192)

/-- JOB_SUBMIT (R28, R29, R184, R185). -/
def submitParams : List Byte → Except ReplyCode Submission
  | hi :: lo :: g :: cls :: arb :: nack :: chainId :: role :: count :: rest =>
    match rawEntries rest.length rest with
    | none => .error .badRequest
    | some es =>
      if es.length ≠ count.toNat then .error .badRequest
      else
        orBadParam (do
          let g ← indexOf g
          let cls ← classOf cls
          let arb ← limitOf arb
          let nack ← limitOf nack
          let chain ← chainOf chainId role
          let ps ← phasesOf es
          if wordOf hi lo ≠ 0 ∧ phasesFit ps then
            some
              { id := wordOf hi lo, seg := g, cls := cls, arbLimit := arb, nackLimit := nack, chain := chain,
                phases := ps }
          else none)
  | _ => .error .badRequest

/-! ## Responder requests -/

/-- The values of a RESP_SET with action SET (R101). -/
structure EntrySettings where
  enable : Bool
  address : Byte
  mode : Mode
  notify : Bool
  protectFrom : Nat
  mailWaitMs : Nat
  deriving DecidableEq, Repr

/-- RESP_SET: segment, entry, and the values of a SET, or none for a CLEAR. An action that is neither names no length,
so it is BAD_PARAM whatever the length (R101, R182). -/
def respSetParams : List Byte → Except ReplyCode (SegId × EntryId × Option EntrySettings)
  | g :: e :: action :: rest =>
    if action = 1 then
      match rest with
      | [enable, address, mode, notify, p, wait] =>
        orBadParam (do
          let g ← indexOf g
          let e ← indexOf e
          let enable ← flagOf enable
          let address ← addressOf address
          let mode ← modeOf mode
          let notify ← flagOf notify
          let p ← numberOf 0 64 p
          let wait ← numberOf 0 20 wait
          some
            (g, e,
              some
                { enable := enable, address := address, mode := mode, notify := notify, protectFrom := p,
                  mailWaitMs := wait }))
      | _ => .error .badRequest
    else if action = 2 then
      match rest with
      | [] =>
        orBadParam (do
          let g ← indexOf g
          let e ← indexOf e
          some (g, e, none))
      | _ => .error .badRequest
    else .error .badParam
  | _ => .error .badRequest

/-- WIN_WRITE: segment, entry, offset and the bytes (R114). -/
def winWriteParams : List Byte → Except ReplyCode (SegId × EntryId × Nat × List Byte)
  | g :: e :: offset :: count :: bytes =>
    if bytes.length ≠ count.toNat then .error .badRequest
    else
      orBadParam (do
        let g ← indexOf g
        let e ← indexOf e
        let n ← numberOf 1 64 count
        if offset.toNat + n ≤ Config.windowBytes then some (g, e, offset.toNat, bytes) else none)
  | _ => .error .badRequest

/-- WIN_READ: segment, entry, offset and length (R113). -/
def winReadParams : List Byte → Except ReplyCode (SegId × EntryId × Nat × Nat)
  | [g, e, offset, len] =>
    orBadParam (do
      let g ← indexOf g
      let e ← indexOf e
      let n ← numberOf 1 64 len
      if offset.toNat + n ≤ Config.windowBytes then some (g, e, offset.toNat, n) else none)
  | _ => .error .badRequest

/-- MAIL_POST: segment, entry and the message (R123). -/
def mailPostParams : List Byte → Except ReplyCode (SegId × EntryId × List Byte)
  | g :: e :: count :: bytes =>
    if bytes.length ≠ count.toNat then .error .badRequest
    else
      orBadParam (do
        let g ← indexOf g
        let e ← indexOf e
        let _ ← numberOf 1 32 count
        some (g, e, bytes))
  | _ => .error .badRequest

/-- MAIL_WITHDRAW: segment and entry (R124). -/
def mailWithdrawParams : List Byte → Except ReplyCode (SegId × EntryId)
  | [g, e] =>
    orBadParam (do
      let g ← indexOf g
      let e ← indexOf e
      some (g, e))
  | _ => .error .badRequest

end Sys2Proof.Machine
end

