-- ==== Sys2Proof/Machine/Memory.lean ====
section
/-! DEFINITION. The bytes of an addressed buffer (a window, R100): reading, writing and the canonical form. -/

namespace Sys2Proof.Machine

/-- The byte at an index: 00h, the reset content of a window, where none is listed (R100). -/
def Memory.read (a : Nat) : Memory → Byte
  | [] => 0
  | (k, v) :: rest => if a = k then v else Memory.read a rest

/-- Write one byte, keeping the cells rising and none of them 00h. -/
def Memory.write (a : Nat) (b : Byte) : Memory → Memory
  | [] => if b = 0 then [] else [(a, b)]
  | (k, v) :: rest =>
    if a < k then (if b = 0 then (k, v) :: rest else (a, b) :: (k, v) :: rest)
    else if a = k then (if b = 0 then rest else (a, b) :: rest)
    else (k, v) :: Memory.write a b rest

/-- Write a run of bytes from an index on. -/
def Memory.writeRun (a : Nat) : List Byte → Memory → Memory
  | [], m => m
  | b :: bs, m => Memory.writeRun (a + 1) bs (Memory.write a b m)

/-- Read a run of bytes from an index on. -/
def Memory.readRun (a : Nat) : Nat → Memory → List Byte
  | 0, _ => []
  | n + 1, m => Memory.read a m :: Memory.readRun (a + 1) n m

/-- The canonical form: indices strictly rising and below the size of a window, no listed byte 00h. -/
abbrev Memory.wf (m : Memory) : Prop :=
  m.Pairwise (fun c d => c.1 < d.1) ∧ ∀ c ∈ m, c.2 ≠ 0 ∧ c.1 < Config.windowBytes

end Sys2Proof.Machine
end

