-- ==== Sys2Proof/Machine/Ops.lean ====
section
/-! DEFINITION. The shared operations: access to segments, slots and entries; notices, event records and summaries;
replies; the end of a job; the initiator's ways into and out of its states; the end of a responder transaction; the
clearing rounds; the line monitor and the quiet-low interval. -/

namespace Sys2Proof.Machine

/-! ## Access -/

/-- The engine of a segment. -/
def State.seg (s : State) (g : SegId) : Segment := s.segs[g]

/-- Replace the engine of a segment. -/
def State.setSeg (s : State) (g : SegId) (x : Segment) : State := { s with segs := s.segs.set g x }

/-- Change the engine of a segment. -/
def modSeg (g : SegId) (f : Segment → Segment) (s : State) : State := s.setSeg g (f (s.seg g))

/-- The job a slot holds, if it is held. -/
def State.job? (s : State) (i : Slot) : Option Job := s.jobs[i]

/-- Replace what a slot holds. -/
def State.setJob (s : State) (i : Slot) (j : Option Job) : State := { s with jobs := s.jobs.set i j }

/-- Change the job a slot holds; a free slot stays free. -/
def modJob (i : Slot) (f : Job → Job) (s : State) : State := s.setJob i ((s.job? i).map f)

/-- The slots, lowest first (R34). -/
def slots : List Slot := List.finRange 32

/-- An address entry of a segment. -/
def Segment.entry (x : Segment) (e : EntryId) : Entry := x.entries[e]

/-- Replace an address entry of a segment. -/
def Segment.setEntry (x : Segment) (e : EntryId) (n : Entry) : Segment := { x with entries := x.entries.set e n }

/-- Change an address entry of a segment. -/
def modEntry (g : SegId) (e : EntryId) (f : Entry → Entry) (s : State) : State :=
  modSeg g (fun x => x.setEntry e (f (x.entry e))) s

/-! ## The pools -/

/-- The slot that holds a job id, on any segment and in any state (R31). -/
def findJob (s : State) (id : Word) : Option Slot :=
  slots.find? (fun i => match s.job? i with | some j => decide (j.id = id) | none => false)

/-- The lowest free slot (R34). -/
def freeSlot (s : State) : Option Slot := slots.find? (fun i => (s.job? i).isNone)

/-- The number of free slots (R36). -/
def freeSlots (s : State) : Nat := slots.countP (fun i => (s.job? i).isNone)

/-- The data blocks a slot's job holds, from admission until the slot is freed (R26). -/
def slotBlocks (s : State) (i : Slot) : Nat :=
  match s.job? i with
  | some j => blockCount j.phases
  | none => 0

/-- The data blocks the outboxes of a segment hold, one a message (R117). -/
def Segment.outboxBlocks (x : Segment) : Nat :=
  (x.entry 0).outbox.length + (x.entry 1).outbox.length + (x.entry 2).outbox.length + (x.entry 3).outbox.length

/-- The data blocks held by jobs and by outbox messages (R37). -/
def heldBlocks (s : State) : Nat :=
  (slots.map (slotBlocks s)).sum +
    ((s.seg 0).outboxBlocks + (s.seg 1).outboxBlocks + (s.seg 2).outboxBlocks + (s.seg 3).outboxBlocks)

/-- The free data blocks (R37). -/
def freeBlocks (s : State) : Nat := Config.dataBlocks - heldBlocks s

/-- The event records held by notice entries (R148). -/
def recordsQueued (q : List Notice) : Nat := q.countP (fun n => n.source == .record)

/-- The event records held: by notice entries and by mailbox writes in flight (R148). -/
def heldRecords (s : State) : Nat :=
  recordsQueued s.notices.queue +
    ((if (s.seg 0).holdsRecord then 1 else 0) + (if (s.seg 1).holdsRecord then 1 else 0) +
      (if (s.seg 2).holdsRecord then 1 else 0) + (if (s.seg 3).holdsRecord then 1 else 0))

/-- The free event records (R148). -/
def freeRecords (s : State) : Nat := Config.eventRecords - heldRecords s

/-! ## Notices -/

/-- An entry joins the notice queue at the tail with the counter's value as its sequence number, and the counter rises
by 1, wrapping (R146). -/
def joinNotice (kind : NoticeKind) (source : Source) (payload : List Byte) (s : State) : State :=
  { s with
    notices :=
      { s.notices with
        queue := s.notices.queue ++ [{ seq := s.notices.next, kind := kind, source := source, payload := payload }]
        next := s.notices.next + 1 } }

/-- The dirty set with a run of window indices added, from the first through the count in wrap order (R150). -/
def addRun (first : Fin 64) : Nat → BitVec 64 → BitVec 64
  | 0, d => d
  | n + 1, d => addRun first n (d ||| (1#64 <<< ((first.val + n) % Config.windowBytes)))

/-- Fold an event into a summary (R150). -/
def foldEvent (ev : SegEvent) (u : Summary) : Summary :=
  match ev with
  | .busStuck _ _ _ => { u with stuckSeen := true }
  | .busRecovered _ _ => { u with recoveredSeen := true }
  | .holdLapsed c => { u with lapsed := some c }
  | .windowWritten e first count =>
    { u with entries := u.entries.set e { u.entries[e] with dirty := addRun first count u.entries[e].dirty } }
  | .mailTaken e _ _ _ _ =>
    { u with entries := u.entries.set e { u.entries[e] with takenCount := saturate 255 (u.entries[e].takenCount + 1) } }
  | .mailEmptyRead e _ _ =>
    { u with entries := u.entries.set e { u.entries[e] with emptyCount := saturate 255 (u.entries[e].emptyCount + 1) } }

/-- A segment event claims an event record and joins the notice queue, or is folded into the segment's pending summary
when no record is free (R148, R149). -/
def claimEvent (g : SegId) (ev : SegEvent) (s : State) : State :=
  if 0 < freeRecords s then joinNotice ev.kind .record (ev.payload g) s
  else modSeg g (fun x => { x with summary := foldEvent ev x.summary }) s

/-- The segment whose summary a released record serves: the first after the last served whose summary holds something
(R151). -/
def summaryToServe (s : State) : Option SegId :=
  [s.notices.lastServed + 1, s.notices.lastServed + 2, s.notices.lastServed + 3, s.notices.lastServed].find?
    (fun g => (s.seg g).summary.holds)

/-- An event record is released: it is handed to a pending summary, which becomes a SEG_SUMMARY notice and is cleared,
or it becomes free (R151). The holder has already let it go. -/
def releaseRecord (s : State) : State :=
  match summaryToServe s with
  | none => s
  | some g =>
    let s1 := joinNotice .segSummary .record (summaryPayload g (s.seg g).summary) s
    let s2 := modSeg g (fun x => { x with summary := Summary.empty }) s1
    { s2 with notices := { s2.notices with lastServed := g } }

/-- Retire the head of the notice queue: a JOB_DONE frees its slot with the job's blocks and id, any other entry
releases its record (R44, R156). -/
def retireHead (s : State) : State :=
  match s.notices.queue with
  | [] => s
  | n :: rest =>
    let s1 : State :=
      { s with
        notices :=
          { s.notices with
            queue := rest, sentLimit := s.notices.sentLimit - 1, sendPoint := s.notices.sendPoint - 1 } }
    match n.source with
    | .job i => s1.setJob i none
    | .record => releaseRecord s1

/-- Retire a number of entries, head first (R156). -/
def retire : Nat → State → State
  | 0, s => s
  | n + 1, s => retire n (retireHead s)

/-- The resend timer started or restarted from the present moment (R154). -/
def freshTimer (s : State) : Option Timer := some { since := s.now, lenMs := s.notices.resendMs }

/-- The number of entries a valid acknowledgement retires, or none if it is not valid: it must name a sent,
unacknowledged entry (R156). -/
def ackCount (a : Word) (n : Notices) : Option Nat :=
  match n.queue with
  | [] => none
  | h :: _ => if (a - h.seq).toNat < n.sentLimit then some ((a - h.seq).toNat + 1) else none

/-- After the retirements of an acknowledgement: the expiry count returns to 0, and the timer is restarted while sent
entries remain and stopped otherwise; in link-silent it stays stopped (R154, R156, R158, log 13). -/
def afterAck (s : State) : State :=
  { s with
    notices :=
      { s.notices with
        expiries := 0
        timer := if 0 < s.notices.sentLimit && !s.notices.silent then freshTimer s else none } }

/-- An acknowledgement reaches the notice unit (R156). -/
def acknowledge (a : Word) (s : State) : State :=
  match ackCount a s.notices with
  | none => s
  | some n => afterAck (retire n s)

/-! ## Replies -/

/-- The cache entry of a taken request becomes COMPLETE with its reply, unless the entry is gone (R169, R170). -/
def completeEntry (age : Nat) (body : List Byte) (c : List CacheEntry) : List CacheEntry :=
  c.map (fun e => if e.age = age then { e with reply := some body } else e)

/-- A reply is made: it fills the place reserved for it, behind every reply made before it, and completes its cache
entry (R169, R171, R172). -/
def makeReply (d : Deferral) (code : Byte) (rc : ReplyCode) (data : List Byte) (devReset : Bool) (s : State) : State :=
  { s with
    link :=
      { s.link with
        replies := s.link.replies ++ [{ body := replyBody d.tag code rc data, devReset := devReset }]
        reserved := s.link.reserved - 1
        cache := completeEntry d.age (replyBody d.tag code rc data) s.link.cache } }

/-! ## The end of a job -/

/-- Whether a completion record carries a byte index (R63). -/
def carriesByteIndex (o : JobOutcome) (running : Bool) : Bool :=
  match o with
  | .dataNack | .lengthBad => true
  | .cancelled | .flushed => running
  | .done | .addrNack | .arbLost | .stretchTimeout | .busStuck | .chainBroken => false

/-- The completion record of a job that ends now (R63). -/
def completionOf (now : Nat) (o : JobOutcome) (running : Bool) (j : Job) : Completion :=
  { outcome := o
    failPhase := if o = .done then none else some j.phaseIndex
    byteIndex := if carriesByteIndex o running then some j.byteIndex else none
    duration := match j.startTime with | none => 0 | some t => stepsSince now t
    results := j.results }

/-- The reply code of a pending cancel reply: OK if the job ended CANCELLED, FINISHED otherwise (R136); FINISHED also when
a segment reset was taken in the stop of the cancel (R138, R142). -/
def cancelCode (j : Job) (o : JobOutcome) : ReplyCode :=
  if o = .cancelled ∧ j.resetTaken = false then .ok else .finished

/-- The data of an OK or FINISHED reply to JOB_CANCEL (R133, R189). -/
def cancelData (j : Job) (o : JobOutcome) (deferred : Bool) : List Byte :=
  wordBytes j.id ++ [outcomeByte o, flagByte deferred]

/-- A job ends: its completion record is made, it becomes FINISHED, its slot joins the notice queue as JOB_DONE, and
any pending cancel reply is made (R43). `running` says whether the initiator was RUNNING with it (R63). -/
def finishJob (i : Slot) (o : JobOutcome) (running : Bool) (s : State) : State :=
  match s.job? i with
  | none => s
  | some j =>
    let c := completionOf s.now o running j
    let s1 := s.setJob i (some { j with status := .finished c, cancelReply := none })
    let s2 := joinNotice .jobDone (.job i) (jobDonePayload j c) s1
    match j.cancelReply with
    | none => s2
    | some d => makeReply d codeJobCancel (cancelCode j o) (cancelData j o true) false s2

/-- Finish the jobs of a list, head first (R139, R141). -/
def finishAll (o : JobOutcome) : List Slot → State → State
  | [], s => s
  | i :: rest, s => finishAll o rest (finishJob i o false s)

/-! ## Line monitor and quiet-low interval -/

/-- The line monitor is set to UNKNOWN with the stop time absent, its window started if both lines are high (R12,
R14). -/
def resetMonitor (now : Nat) (x : Segment) : Segment :=
  { x with mon := { line := .unknown, stopTime := none, idleSince := x.highSince now } }

/-- The first part of a backoff after a loss ends once the line monitor is FREE; the second ends at once when there is
no stop time (R81). -/
def freeBackoff (now : Nat) (x : Segment) : Segment :=
  match x.init with
  | .backoff i (.winnerStop len) =>
    if x.mon.line = .free then
      match x.mon.stopTime with
      | some t => { x with init := .backoff i (.busFree t len) }
      | none => { x with init := .backoff i (.wait now len) }
    else x
  | _ => x

/-- The line monitor becomes FREE with a given stop time, and a backoff that waited for it goes on (R13, R81). -/
def monitorFree (stop : Option Nat) (now : Nat) (x : Segment) : Segment :=
  freeBackoff now { x with mon := { line := .free, stopTime := stop, idleSince := none } }

/-- An edge discards the quiet-low interval; a new one begins if the segment is still quiet-low (R86). -/
def restartQuiet (now : Nat) (x : Segment) : Segment :=
  { x with quiet := if x.measures && x.quietLow then some { since := now, limitMs := x.cfg.stuckMs } else none }

/-- Between edges an interval goes on while the segment is quiet-low, ends when it is not, and begins when the part
releases a low line; none begins without an edge while a segment reset has not ended (R86, R98, log 15). -/
def watchSegment (now : Nat) (x : Segment) : Segment :=
  { x with
    quiet :=
      if x.measures && x.quietLow then
        match x.quiet with
        | some q => some q
        | none => if x.resetting then none else some { since := now, limitMs := x.cfg.stuckMs }
      else none }

/-- Every bus-clear unit looks at its lines at the end of a step. -/
def watchLines (s : State) : State :=
  modSeg 3 (watchSegment s.now)
    (modSeg 2 (watchSegment s.now) (modSeg 1 (watchSegment s.now) (modSeg 0 (watchSegment s.now) s)))

/-! ## Initiator -/

/-- The initiator, not held, takes from the head of the queue: continuation jobs finish CHAIN_BROKEN, the first other
job becomes CURRENT and waits; with no job left it is IDLE (R47). -/
def examineQueue (g : SegId) : List Slot → State → State
  | [], s => modSeg g (fun x => { x with queue := [], init := .idle }) s
  | i :: rest, s =>
    match s.job? i with
    | none => examineQueue g rest s
    | some j =>
      if j.isContinuation then
        examineQueue g rest (finishJob i .chainBroken false (modSeg g (fun x => { x with queue := rest }) s))
      else
        modSeg g (fun x => { x with queue := rest, init := .waiting i })
          (s.setJob i (some { j with status := .current }))

/-- The initiator enters IDLE and examines its queue at once (R47, R62). -/
def enterIdle (g : SegId) (s : State) : State := examineQueue g (s.seg g).queue s

/-- The part releases both lines of a segment (R1). -/
def releaseLines (x : Segment) : Segment := { x with drvScl := false, drvSda := false }

/-- The first continuation of chain c in queue order (R68). -/
def findContinuation (c : Byte) (s : State) (q : List Slot) : Option Slot :=
  q.find? (fun i => match s.job? i with | some j => j.continuesChain c | none => false)

/-- The initiator in HELD, its hold not closing, takes the first continuation of its chain, wherever it stands, and
begins its repeated start from the held SCL (R68). -/
def takeContinuation (g : SegId) (s : State) : State :=
  let x := s.seg g
  match x.init with
  | .held h =>
    match h.closing with
    | some _ => s
    | none =>
      match findContinuation h.chain s x.queue with
      | none => s
      | some i =>
        modSeg g
          (fun x =>
            { releaseLines x with
              queue := x.queue.erase i
              init :=
                .running
                  { slot := i, sub := .restart, drove := false, closing := false, grade := x.cfg.grade,
                    stretchMs := x.cfg.stretchMs, lowSince := some s.now } })
          (modJob i (fun j => { j with status := .current, startTime := some s.now }) s)
  | _ => s

/-- The initiator enters HELD for a chain: SCL kept low, SDA released, the hold limit read, and the queue examined for
a continuation (R67). -/
def enterHeld (g : SegId) (c : Byte) (r : Run) (s : State) : State :=
  takeContinuation g
    (modSeg g
      (fun x =>
        { x with
          drvScl := true, drvSda := false
          init :=
            .held
              { chain := c, since := s.now, grade := r.grade, stretchMs := r.stretchMs, limitMs := x.cfg.holdMs,
                closing := none, lowSince := none } })
      s)

/-- The part ends its own hold of SCL: it sets SDA, then releases SCL. An SDA it begins to drive low is quiet-low no more,
which discards the interval; an SCL that stays low begins one at its release (R86, R87). -/
def letClockGo (low : Bool) (x : Segment) : Segment :=
  { x with drvScl := false, drvSda := low, quiet := if low then none else x.quiet }

/-- A hold ends with a stop from its held SCL: SDA driven low, SCL released (R9, R46, R69, R140). -/
def closeHold (g : SegId) (why : HoldEnd) (h : Hold) (s : State) : State :=
  modSeg g (fun x => { letClockGo true x with init := .held { h with closing := some why, lowSince := some s.now } }) s

/-- The part makes a stop from the low SCL: SDA driven low, SCL to be released (R9). -/
def stopFrom (now : Nat) (r : Run) (why : StopWhy) (x : Segment) : Segment :=
  { x with
    drvSda := true
    init := .running { r with sub := .stop why, closing := false, lowSince := some now } }

/-- The part begins its stop at a segment (R9). -/
def beginStop (g : SegId) (r : Run) (why : StopWhy) (s : State) : State := modSeg g (stopFrom s.now r why) s

/-! ## Responder -/

/-- Apply a deferred write and make its reply, OK and marked deferred (R114, R116). -/
def applyDeferred (g : SegId) (e : EntryId) (s : State) : State :=
  match ((s.seg g).entry e).deferred with
  | none => s
  | some w =>
    makeReply w.request codeWinWrite .ok [flagByte true] false
      (modEntry g e (fun n => { n with window := Memory.writeRun w.offset w.bytes n.window, deferred := none }) s)

/-- What the end of a transaction does to the entry it served (R107 step 1): the window event (R111), the MAIL_IN
(R121), the consumption of a bound message (R126), the empty read (R130). A segment reset discards a partial mail
record instead, and its event record is released (R143). -/
def endAccess (g : SegId) (t : Transaction) (byReset : Bool) (s : State) : State :=
  let n := (s.seg g).entry t.entry
  match t.access with
  | .windowWrite _ none => s
  | .windowWrite _ (some c) => if n.notify then claimEvent g (.windowWritten t.entry c.first c.count) s else s
  | .windowRead => s
  | .mailWrite address bytes overlong =>
    if byReset then releaseRecord s
    else joinNotice .mailIn .record (mailInPayload g t.entry address bytes overlong) s
  | .mailRead false _ pad expired => claimEvent g (.mailEmptyRead t.entry pad expired) s
  | .mailRead true taken pad _ =>
    if taken = 0 then s
    else
      match n.outbox with
      | [] => s
      | m :: rest =>
        claimEvent g (.mailTaken t.entry taken m.length pad rest.length)
          (modEntry g t.entry (fun n => { n with outbox := rest }) s)

/-- What a transaction has done without a byte whose ninth pulse has not ended (R4). -/
def Transaction.kept (t : Transaction) : Access :=
  match t.access, t.undo with
  | .windowWrite _ _, some (.window got c _ _) => .windowWrite got c
  | .mailWrite address _ _, some (.mail bytes overlong) => .mailWrite address bytes overlong
  | a, _ => a

/-- A byte whose ninth pulse has not ended is cut: the entry's pointer and the window byte it stored are as before it
(R4, R107, R143). -/
def cutByte (g : SegId) (t : Transaction) (s : State) : State :=
  match t.undo with
  | some (.window _ _ i b) =>
    modEntry g t.entry (fun n => { n with pointer := i, window := Memory.write i.val b n.window }) s
  | _ => s

/-- A responder transaction ends: the responder releases the lines, a cut byte is taken back, the entry takes the end
effects, a deferred write is applied, and the responder is in LISTEN (R4, R107). With no transaction in flight, IGNORE
goes to LISTEN. -/
def endTransaction (g : SegId) (byReset : Bool) (s : State) : State :=
  let x := s.seg g
  match x.resp.transaction? with
  | some t =>
    applyDeferred g t.entry
      (endAccess g { t with access := t.kept } byReset
        (cutByte g t (modSeg g (fun x => { releaseLines x with resp := .listen }) s)))
  | none =>
    match x.resp with
    | .ignore => modSeg g (fun x => { x with resp := .listen }) s
    | _ => s

/-! ## Bus-clear unit -/

/-- A clearing round fails: both lines are released; after rounds 1 and 2 the unit waits 10 ms, after round 3 it is
STUCK with its idle watch (R95, R97). -/
def failRound (now : Nat) (c : Clearing) (x : Segment) : Segment :=
  let x := releaseLines x
  if c.round < Config.clearingRounds then
    { x with clear := .clearing { c with pulses := 0, stage := .wait now, lowSince := none, stopAt := none } }
  else { x with clear := .stuck (x.highSince now) }

/-- A clearing round begins (R93): it fails at once on a low SCL, goes to its stop on a high SDA, and makes its first
pulse otherwise. The levels it sees are those before the part's own release of a line: round 1 fails at once where the
part was holding SCL itself, and makes a pulse where the part was driving SDA low itself (log 30). -/
def startRound (now : Nat) (round : Nat) (x : Segment) : Segment :=
  let c : Clearing :=
    { round := round, pulses := 0, stage := .pulseHigh, grade := x.cfg.grade, stretchMs := x.cfg.stretchMs,
      lowSince := none, stopAt := none }
  let x := { x with quiet := none }
  if !x.scl then failRound now c x
  else { x with clear := .clearing { c with stage := if x.sda then .stopHigh else .pulseHigh } }

/-! ## Enabling and disabling -/

/-- Enabling a segment (R20). -/
def enableSegment (now : Nat) (x : Segment) : Segment :=
  resetMonitor now { x with init := .idle, resp := .listen, clear := .normal, framer := Framer.atReset, quiet := none }

/-- The end of a disable: the units are OFF and drive nothing, the monitor keeps UNKNOWN, the bus-clear unit is
NORMAL; the segment is enabled again if its enable field has been set meanwhile (R21, R98, R145). -/
def turnOff (now : Nat) (x : Segment) : Segment :=
  let y : Segment :=
    { releaseLines x with
      init := .off, resp := .off, mon := Monitor.atReset, framer := Framer.atReset, clear := .normal, quiet := none,
      resetting := false, disabling := false }
  if y.cfg.enable then enableSegment now y else y

/-- The end of a disable at the segment engine. -/
def goOff (g : SegId) (s : State) : State := modSeg g (turnOff s.now) (endTransaction g true s)

/-- The initiator has left its job or its hold and drives neither line: a segment reset that waited for it has ended,
with a fresh quiet-low measurement (R141, R142). -/
def leaveLines (x : Segment) : Segment :=
  { releaseLines x with resetting := false, quiet := if x.resetting then none else x.quiet }

/-- The initiator enters IDLE and examines its queue; under a disable it stays without a job until it is OFF (R142,
R145). -/
def toIdle (g : SegId) (s : State) : State :=
  if (s.seg g).disabling then modSeg g (fun x => { x with init := .idle }) s else enterIdle g s

/-- A disable that waited for the initiator ends (R145). -/
def endDisable (g : SegId) (s : State) : State := if (s.seg g).disabling then goOff g s else s

/-- The initiator leaves its job or hold (R62, R142). -/
def leave (g : SegId) (s : State) : State := endDisable g (toIdle g (modSeg g leaveLines s))

/-- The current job ends and the initiator leaves it. -/
def endRun (g : SegId) (i : Slot) (o : JobOutcome) (s : State) : State := leave g (finishJob i o true s)

end Sys2Proof.Machine
end

