-- ==== Sys2Proof/Machine/Reset.lean ====
section
/-! DEFINITION. The full reset: power-up, RST and DEV_RESET (R44, R152). -/

namespace Sys2Proof.Machine

/-- The notice unit after a full reset, with RESTARTED queued (R152). -/
def noticesAfterReset (c : Cause) : Notices :=
  { queue := [{ seq := 0, kind := .restarted, source := .record, payload := [causeByte c] }]
    next := 1, window := 4, resendMs := 40, sentLimit := 0, sendPoint := 0, timer := none, expiries := 0,
    silent := false, lastServed := 3 }

/-- The notice unit while RST is held low: nothing queued, so that ATTN is not asserted (R152). -/
def noticesInReset : Notices :=
  { queue := [], next := 0, window := 4, resendMs := 40, sentLimit := 0, sendPoint := 0, timer := none, expiries := 0,
    silent := false, lastServed := 3 }

/-- A segment engine reset; the levels it sees on its lines are inputs and stay (R12, R16, R22). -/
def resetSegment (x : Segment) : Segment := Segment.atReset x.scl x.sda

/-- A full reset ends: every block at its reset values, the straps sampled, RESTARTED queued (R44, R152, R162). The
time count, the lines and the waiting commands are no blocks of the part and stay (log 8). -/
def fullReset (c : Cause) (p : Straps) (s : State) : State :=
  { now := s.now
    segs := s.segs.map resetSegment
    jobs := Vector.replicate 32 none
    notices := noticesAfterReset c
    link := Link.atReset (rateOf p)
    resetHeld := none
    pending := s.pending }

/-- The part is held in full reset: every block at its reset values, nothing queued, the old rate kept until the straps
are sampled at the end (R152, R162). -/
def holdReset (c : Cause) (s : State) : State :=
  { now := s.now
    segs := s.segs.map resetSegment
    jobs := Vector.replicate 32 none
    notices := noticesInReset
    link := Link.atReset s.link.rate
    resetHeld := some c
    pending := s.pending }

/-- Power-up: cause POWER_ON, also when RST is held low (R152). -/
def powerUp (rstHeld : Bool) (p : Straps) (s : State) : State :=
  if rstHeld then holdReset .powerOn s else fullReset .powerOn p s

/-- RST driven low. A cause already pending stays (R152). -/
def rstFalls (s : State) : State := holdReset (s.resetHeld.getD .resetPin) s

/-- RST released (R152). -/
def rstRises (p : Straps) (s : State) : State :=
  match s.resetHeld with
  | none => s
  | some c => fullReset c p s

end Sys2Proof.Machine
end

