-- ==== Sys2Proof/Machine/Link.lean ====
section
/-! DEFINITION. The link unit: the receiver, the taking and answering of requests, the sending of frames, and the
requests it answers itself (`10_the_host_link.md`). -/

namespace Sys2Proof.Machine

/-! ## Receiver -/

/-- The frame in progress is discarded or complete; the receiver hunts and the gap timer stops (R164, R165). -/
def enterHunt (s : State) : State := { s with link := { s.link with rx := .hunt, gapSince := none } }

/-- The receiver moves within a frame, and the gap timer restarts (R165). -/
def withinFrame (rx : Receiver) (s : State) : State :=
  { s with link := { s.link with rx := rx, gapSince := some s.now } }

/-- A valid frame ends link-silent (R158). The resend timer, stopped in link-silent, is started by the next notice that begins
transmission (R154, log 35). -/
def endSilent (s : State) : State :=
  if s.notices.silent then { s with notices := { s.notices with silent := false, expiries := 0, sendPoint := 0 } }
  else s

/-- A valid request frame joins the inbound buffer, or is discarded when the buffer is full or a DEV_RESET has been
taken (R166, R178). -/
def placeRequest (r : Request) (s : State) : State :=
  if !s.link.resetTaken && decide (s.link.inbound.length < Config.inboundFrames) then
    { s with link := { s.link with inbound := s.link.inbound ++ [r] } }
  else s

/-- A frame is valid: its CRC is right, and its kind and the size of its body are those of a REQUEST or an ACK (R163,
R166). -/
def validFrame (len : Byte) (body : List Byte) (c : Word) : Bool :=
  crc (len :: body) == c &&
    ((body.head? == some kindRequest && decide (6 ≤ body.length)) ||
      (body.head? == some kindAck && decide (body.length = 3)))

/-- What a valid frame does (R166): an ACK is applied, a REQUEST is placed. -/
def acceptFrame (body : List Byte) (c : Word) (s : State) : State :=
  match body with
  | [_, hi, lo] => acknowledge (wordOf hi lo) s
  | _ =>
    match requestOf c body with
    | some r => placeRequest r s
    | none => s

/-- A complete frame is checked (R166). -/
def checkFrame (len : Byte) (body : List Byte) (c : Word) (s : State) : State :=
  if validFrame len body c then acceptFrame body c (endSilent s) else s

/-- A byte is delivered on RXD (R164). -/
def receiveByte (b : Byte) (s : State) : State :=
  match s.link.rx with
  | .hunt => if b = syncByte then withinFrame .length s else s
  | .length => if 3 ≤ b.toNat ∧ b.toNat ≤ 250 then withinFrame (.body b []) s else enterHunt s
  | .body len got =>
    if len.toNat ≤ got.length + 1 then withinFrame (.check len (got ++ [b]) none) s
    else withinFrame (.body len (got ++ [b])) s
  | .check len got none => withinFrame (.check len got (some b)) s
  | .check len got (some high) => checkFrame len got (wordOf high b) (enterHunt s)

/-- A byte is delivered while the part runs; in reset nothing is received (R152, log 8). -/
def receive (b : Byte) (s : State) : State := if s.resetHeld.isSome then s else receiveByte b s

/-- The gap timer expires inside a frame (R165). -/
def gapExpires (s : State) : State := if gapDue s then enterHunt s else s

/-! ## Taking requests -/

/-- The reply queue has an unreserved place (R172). -/
def Link.hasPlace (l : Link) : Bool := decide (l.replies.length + l.reserved < Config.replyPlaces)

/-- The cache entry a request duplicates (R170). -/
def duplicateOf (r : Request) (c : List CacheEntry) : Option CacheEntry :=
  c.find? (fun e => e.tag == r.tag && e.code == r.code && e.crc == r.crc)

/-- The head may be taken: a duplicate of a PENDING entry at once, any other with an unreserved place (R167). -/
def Link.mayTake (r : Request) (l : Link) : Bool :=
  match duplicateOf r l.cache with
  | some { reply := none, .. } => true
  | _ => l.hasPlace

/-- The ack field of a taken request is applied if it is marked valid (R168). -/
def applyAckField (r : Request) (s : State) : State := if r.ackValid = 1 then acknowledge r.ackSeq s else s

/-- Room for a new cache entry: the entry of the same tag goes, else the oldest COMPLETE one when 16 are held
(R169). -/
def makeRoom (tag : Byte) (c : List CacheEntry) : List CacheEntry :=
  if c.any (fun e => e.tag == tag) then c.filter (fun e => e.tag != tag)
  else if c.length < Config.cacheEntries then c
  else c.eraseP (fun e => e.reply.isSome)

/-- A request that is not a duplicate is recorded, PENDING, reserves a place and is in hand (R168, R169, R172). -/
def recordRequest (r : Request) (l : Link) : Link :=
  { l with
    cache := makeRoom r.tag l.cache ++ [{ tag := r.tag, code := r.code, crc := r.crc, reply := none, age := l.nextAge }]
    nextAge := l.nextAge + 1
    reserved := l.reserved + 1
    inHand := some (.fresh r l.nextAge) }

/-- A duplicate is in hand; one of a COMPLETE entry reserves a place for its replay (R170, R172). -/
def holdDuplicate (r : Request) (e : CacheEntry) (l : Link) : Link :=
  { l with
    reserved := if e.reply.isSome then l.reserved + 1 else l.reserved
    inHand := some (.duplicate r e.reply) }

/-- A request leaves the inbound buffer: its ack field is applied, then it is compared with the cache (R168). -/
def takeHead (r : Request) (rest : List Request) (s : State) : State :=
  let t := applyAckField r { s with link := { s.link with inbound := rest } }
  { t with
    link :=
      match duplicateOf r t.link.cache with
      | some e => holdDuplicate r e t.link
      | none => recordRequest r t.link }

/-- The head of the inbound buffer is taken if the condition for its case holds (R167); how soon this comes, log 36. -/
def takeRequest (s : State) : State :=
  if s.link.inHand.isSome || s.link.resetTaken then s
  else
    match s.link.inbound with
    | [] => s
    | r :: rest => if s.link.mayTake r then takeHead r rest s else s

/-- A duplicate in hand is replayed if its entry was COMPLETE, and dropped otherwise (R170). -/
def settleDuplicate (s : State) : State :=
  match s.link.inHand with
  | some (.duplicate _ (some body)) =>
    { s with
      link :=
        { s.link with
          replies := s.link.replies ++ [{ body := body, devReset := false }]
          reserved := s.link.reserved - 1
          inHand := none } }
  | some (.duplicate _ none) => { s with link := { s.link with inHand := none } }
  | _ => s

/-! ## Answering requests -/

/-- No request is in hand any more. -/
def letGo (s : State) : State := { s with link := { s.link with inHand := none } }

/-- The request in hand is answered (R171). -/
def answer (r : Request) (d : Deferral) (rc : ReplyCode) (data : List Byte) (s : State) : State :=
  makeReply d r.code rc data false (letGo s)

/-- A block answers the request in hand if it is decoded and has the code given (R168, R174). -/
def withRequest (code : Byte) (f : Request → Deferral → State → State) (s : State) : State :=
  match s.link.inHand with
  | some (.fresh r age) => if r.decodes && r.code == code then f r { tag := r.tag, age := age } s else s
  | _ => s

/-- A request with an unknown code or an ack-valid byte that is neither 00h nor 01h is refused (R174, R182). -/
def refuseUnknown (s : State) : State :=
  match s.link.inHand with
  | some (.fresh r age) => if r.decodes then s else answer r { tag := r.tag, age := age } .badRequest [] s
  | _ => s

/-- The data of an OK reply to DEV_INFO (R176, R189). -/
def devInfoData (l : Link) : List Byte :=
  [0x54, 0x57, 0x34, byteOf Config.siliconRevision, 4, byteOf Config.jobSlots, byteOf Config.dataBlocks,
    byteOf Config.blockBytes, byteOf Config.eventRecords, 4, rateByte l.rate]

/-- DEV_INFO (R176). -/
def answerDevInfo (r : Request) (d : Deferral) (s : State) : State :=
  match noParams r.params with
  | .error rc => answer r d rc [] s
  | .ok _ => answer r d .ok (devInfoData s.link) s

/-- DEV_RESET (R178). -/
def answerDevReset (r : Request) (d : Deferral) (s : State) : State :=
  match noParams r.params with
  | .error rc => answer r d rc [] s
  | .ok _ =>
    let t := makeReply d r.code .ok [] true (letGo s)
    { t with link := { t.link with inbound := [], resetTaken := true } }

/-- LINK_CONFIG (R159, R177). -/
def answerLinkConfig (r : Request) (d : Deferral) (s : State) : State :=
  match linkConfigParams r.params with
  | .error rc => answer r d rc [] s
  | .ok (w, ms) =>
    answer r d .ok (byteOf w :: countBytes ms ++ [byteOf s.notices.sentLimit])
      { s with notices := { s.notices with window := w, resendMs := ms } }

/-! ## Sending -/

/-- The notice the notice unit offers to the arbiter (R153, R158). -/
def Notices.offered (n : Notices) : Option Notice :=
  if n.silent then none
  else if n.sendPoint < n.sentLimit then n.queue[n.sendPoint]?
  else if n.sendPoint = n.sentLimit ∧ n.sentLimit < n.window then n.queue[n.sendPoint]?
  else none

/-- The transmission of the offered notice begins (R153, R154). -/
def startNotice (n : Notice) (s : State) : State :=
  { s with
    notices :=
      { s.notices with
        sentLimit := if s.notices.sendPoint < s.notices.sentLimit then s.notices.sentLimit else s.notices.sentLimit + 1
        sendPoint := s.notices.sendPoint + 1
        timer := if s.notices.timer.isSome then s.notices.timer else freshTimer s }
    link := { s.link with tx := some { frame := frameOf (noticeBody n), isReply := false, devReset := false } } }

/-- The transmission of a held reply begins; it keeps its place until the end (R172, R173). -/
def startReply (p : Reply) (s : State) : State :=
  { s with link := { s.link with tx := some { frame := frameOf p.body, isReply := true, devReset := p.devReset } } }

/-- TXD is free and the arbiter begins the oldest held reply, or else the offered notice (R173); how soon this comes,
log 37. -/
def startFrame (s : State) : State :=
  if s.link.tx.isSome then s
  else
    match s.link.replies with
    | p :: _ => startReply p s
    | [] =>
      match s.notices.offered with
      | some n => startNotice n s
      | none => s

/-- A frame's transmission ends: a reply leaves its place, and the reply of a taken DEV_RESET is followed by a full
reset (R172, R178). -/
def endFrame (p : Straps) (s : State) : State :=
  match s.link.tx with
  | none => s
  | some t =>
    if t.isReply then
      if t.devReset then fullReset .resetRequest p s
      else { s with link := { s.link with tx := none, replies := s.link.replies.tail } }
    else { s with link := { s.link with tx := none } }

/-- The resend timer expires: a go-back, or link-silent at the sixteenth expiry (R155, R158). -/
def resendExpires (s : State) : State :=
  if resendDue s then
    let n := s.notices.expiries + 1
    if n < Config.silentExpiries then
      { s with notices := { s.notices with expiries := n, sendPoint := 0, timer := freshTimer s } }
    else { s with notices := { s.notices with expiries := n, silent := true, timer := none } }
  else s

end Sys2Proof.Machine
end

