-- ==== Sys2Proof/Machine/SegmentRequests.lean ====
section
/-! DEFINITION. Segment reset and disable, and the requests of the segment engine: SEG_CONFIG, SEG_STATUS, SEG_FLUSH,
SEG_RESET (`01_two_wire_segments_and_the_line_monitor.md`,
`08_cancelling_flushing_and_resetting_a_segment.md`). -/

namespace Sys2Proof.Machine

/-! ## Segment reset -/

/-- The initiator owns the bus: it is RUNNING with its start driven, or HELD (R141, R142). -/
def Initiator.ownsBus : Initiator → Bool
  | .running r => !(r.sub == .start && !r.drove)
  | .held _ => true
  | .off | .idle | .waiting _ | .backoff _ _ => false

/-- The current job finishes FLUSHED by a segment reset taken now: not if its outcome is already reached in STOP, nor if
an earlier reset already ends it (R141, R142). -/
def Initiator.resetFlushes : Initiator → Bool
  | .waiting _ => true
  | .backoff _ _ => true
  | .running r =>
    !r.closing &&
      (match r.sub with
       | .stop (.ends _) => false
       | .start | .address | .write | .read | .restart | .stop .retry => true)
  | .off | .idle | .held _ => false

/-- The number of jobs a segment reset taken now finishes FLUSHED (R141). -/
def Segment.resetCount (x : Segment) : Nat := x.queue.length + (if x.init.resetFlushes then 1 else 0)

/-- The queued jobs finish FLUSHED, head first, and the queue is empty (R139, R141). -/
def flushQueue (g : SegId) (s : State) : State :=
  finishAll .flushed (s.seg g).queue (modSeg g (fun x => { x with queue := [] }) s)

/-- The current job finishes FLUSHED at once and the initiator is IDLE (R142). -/
def flushCurrent (g : SegId) (i : Slot) (running : Bool) (s : State) : State :=
  finishJob i .flushed running (modSeg g (fun x => { x with init := .idle }) s)

/-- The initiator takes a segment reset according to its state (R142). A job in START with nothing driven is finished
after the queued jobs (`flushStart`), since it is RUNNING (R141). -/
def resetInitiator (g : SegId) (s : State) : State :=
  match (s.seg g).init with
  | .off | .idle => s
  | .waiting i => flushCurrent g i false s
  | .backoff i _ => flushCurrent g i false s
  | .held h =>
    match h.closing with
    | some _ => s
    | none => closeHold g .order h s
  | .running r =>
    match r.sub with
    | .stop (.ends _) => modJob r.slot (fun j => { j with resetTaken := true }) s
    | .stop .retry => modSeg g (fun x => { x with init := .running { r with sub := .stop (.ends .flushed) } }) s
    | .start => if r.drove then modSeg g (fun x => { x with init := .running { r with closing := true } }) s else s
    | .address | .write | .read | .restart =>
      modSeg g (fun x => { x with init := .running { r with closing := true } }) s

/-- A job RUNNING in START with nothing driven finishes FLUSHED at once, behind the queued jobs (R141, R142). -/
def flushStart (g : SegId) (s : State) : State :=
  match (s.seg g).init with
  | .running r => if r.sub == .start && !r.drove then flushCurrent g r.slot true s else s
  | _ => s

/-- The bus-clear unit takes a segment reset: a measurement is discarded, a set under way goes on, and STUCK begins
round 1 (R98, R144). -/
def resetClear (now : Nat) (x : Segment) : Segment :=
  match x.clear with
  | .stuck _ => startRound now 1 x
  | .normal | .clearing _ => { x with quiet := none }

/-- Steps 3 and 4 of a segment reset, and whether it has ended: not while the initiator owns the bus (R141). The bits on
the lines are framed on, and an address byte under way is compared like any other (R105, log 28). -/
def resetLines (now : Nat) (x : Segment) : Segment :=
  resetClear now (resetMonitor now { x with resetting := x.init.ownsBus })

/-- A segment reset (R141). -/
def segmentReset (g : SegId) (s : State) : State :=
  let s1 := endTransaction g true s
  let s2 := flushStart g (flushQueue g (resetInitiator g s1))
  modSeg g (resetLines s.now) s2

/-! ## SEG_CONFIG -/

/-- A segment is disabled: a segment reset, then OFF as soon as that reset has ended (R21, R145). -/
def disableSegment (g : SegId) (s : State) : State :=
  let t := segmentReset g (modSeg g (fun x => { x with disabling := true }) s)
  if (t.seg g).resetting then t else goOff g t

/-- The transition an accepted SEG_CONFIG makes, its fields already replaced (R17, R20, R21, R145). -/
def applyEnable (g : SegId) (enable : Bool) (s : State) : State :=
  let x := s.seg g
  if x.disabling then s
  else if x.isOff then (if enable then modSeg g (enableSegment s.now) s else s)
  else if enable then s
  else disableSegment g s

/-- SEG_CONFIG (R17). Its reply stands behind those made inside a disable it begins (log 32). -/
def answerSegConfig (r : Request) (d : Deferral) (s : State) : State :=
  match segConfigParams r.params with
  | .error rc => answer r d rc [] s
  | .ok (g, cfg) => answer r d .ok [] (applyEnable g cfg.enable (modSeg g (fun x => { x with cfg := cfg }) s))

/-! ## SEG_STATUS -/

/-- The ten configuration bytes (R183, R189). -/
def configBytes (c : SegConfig) : List Byte :=
  [flagByte c.enable, gradeByte c.grade, byteOf c.stretchMs, byteOf c.stuckMs, byteOf c.holdMs, byteOf c.arbRetry,
    byteOf c.nackRetry, byteOf c.retryInterval, byteOf c.queueLimit, flagByte c.recovery]

/-- The line levels: bit 0 SCL, bit 1 SDA, 1 for high (R189). -/
def levelsByte (x : Segment) : Byte := flagByte x.scl ||| (flagByte x.sda <<< 1)

/-- A time since a moment that may be absent: 00h and 0000h, or 01h and the count steps (R189). -/
def sinceBytes (now : Nat) : Option Nat → List Byte
  | none => [0x00, 0x00, 0x00]
  | some t => 0x01 :: countBytes (stepsSince now t)

/-- The chain id of the hold, 00h when not HELD (R189). -/
def heldChainByte : Initiator → Byte
  | .held h => h.chain
  | .off | .idle | .waiting _ | .running _ | .backoff _ _ => 0x00

/-- The id of the current job, 0000h when there is none (R189). -/
def currentId (s : State) (x : Segment) : Word :=
  match x.init.slot? with
  | none => 0
  | some i =>
    match s.job? i with
    | none => 0
    | some j => j.id

/-- The clearing round, 0 outside CLEARING (R22). -/
def roundByte : BusClear → Byte
  | .clearing c => byteOf c.round
  | .normal | .stuck _ => 0x00

/-- The data of an OK reply to SEG_STATUS (R22, R189). -/
def statusData (s : State) (g : SegId) : List Byte :=
  let x := s.seg g
  configBytes x.cfg ++ [levelsByte x, lineByte x.mon.line] ++ sinceBytes s.now x.mon.stopTime ++
    [initiatorByte x.init, heldChainByte x.init] ++ wordBytes (currentId s x) ++
    [byteOf x.queue.length, byteOf x.liveCount, responderByte x.resp, clearByte x.clear, roundByte x.clear,
      flagByte x.summary.holds]

/-- SEG_STATUS (R22). -/
def answerSegStatus (r : Request) (d : Deferral) (s : State) : State :=
  match segParams r.params with
  | .error rc => answer r d rc [] s
  | .ok g => answer r d .ok (statusData s g) s

/-! ## SEG_FLUSH -/

/-- A flush ends a hold that is not closing (R140). -/
def flushHold (g : SegId) (s : State) : State :=
  match (s.seg g).init with
  | .held h =>
    match h.closing with
    | some _ => s
    | none => closeHold g .order h s
  | _ => s

/-- Whether a flush taken now ends a hold (R139, R140). -/
def Initiator.holdOpen : Initiator → Bool
  | .held h => h.closing.isNone
  | .off | .idle | .waiting _ | .running _ | .backoff _ _ => false

/-- SEG_FLUSH (R139, R140). -/
def answerSegFlush (r : Request) (d : Deferral) (s : State) : State :=
  match segParams r.params with
  | .error rc => answer r d rc [] s
  | .ok g =>
    let x := s.seg g
    if x.refuses then answer r d .segOff [] s
    else answer r d .ok [byteOf x.queue.length, flagByte x.init.holdOpen] (flushHold g (flushQueue g s))

/-! ## SEG_RESET -/

/-- The data of an OK reply to SEG_RESET: counted before the reset, the bus-clear state after it (R141, R189). -/
def resetData (before after : Segment) : List Byte :=
  [byteOf before.resetCount, flagByte before.init.ownsBus, flagByte before.resp.transaction?.isSome,
    clearByte after.clear]

/-- SEG_RESET (R141). -/
def answerSegReset (r : Request) (d : Deferral) (s : State) : State :=
  match segParams r.params with
  | .error rc => answer r d rc [] s
  | .ok g =>
    let x := s.seg g
    if x.refuses then answer r d .segOff [] s
    else
      let t := segmentReset g s
      answer r d .ok (resetData x (t.seg g)) t

end Sys2Proof.Machine
end

