-- ==== Sys2Proof/Machine/JobRequests.lean ====
section
/-! DEFINITION. The requests of the job pool: JOB_SUBMIT, JOB_CANCEL, JOB_QUERY (`02_jobs_and_the_shared_stores.md`,
`08_cancelling_flushing_and_resetting_a_segment.md`). -/

namespace Sys2Proof.Machine

/-! ## JOB_SUBMIT -/

/-- The record of an admitted job, absent retry limits copied from the segment (R23, R25, R34). -/
def admittedJob (cfg : SegConfig) (u : Submission) : Job :=
  { id := u.id, seg := u.seg, cls := u.cls
    arbLimit := u.arbLimit.getD cfg.arbRetry
    nackLimit := u.nackLimit.getD cfg.nackRetry
    chain := u.chain, phases := u.phases
    status := .queued, arbCount := 0, nackCount := 0, deferCount := 0, phaseIndex := 1, byteIndex := 0,
    startTime := none, cancelPending := false, cancelReply := none, resetTaken := false, results := [], readBuf := [] }

/-- A slot holds an URGENT job. -/
def isUrgent (s : State) (i : Slot) : Bool :=
  match s.job? i with
  | some j => j.cls == .urgent
  | none => false

/-- An URGENT job stands after the last URGENT job of the queue (R39). -/
def insertUrgent (urgent : Slot → Bool) (i : Slot) : List Slot → List Slot
  | [] => [i]
  | k :: rest => if urgent k then k :: insertUrgent urgent i rest else i :: k :: rest

/-- The queue with an admitted job at its place (R39). -/
def enqueue (s : State) (cls : JobClass) (i : Slot) (q : List Slot) : List Slot :=
  match cls with
  | .urgent => insertUrgent (isUrgent s) i q
  | .normal => q ++ [i]

/-- Admission into a slot: the record is filled, its blocks are held with it, and it joins its queue (R34). -/
def placeJob (i : Slot) (u : Submission) (s : State) : State :=
  modSeg u.seg (fun x => { x with queue := enqueue s u.cls i x.queue })
    (s.setJob i (some (admittedJob (s.seg u.seg).cfg u)))

/-- The initiator looks at its queue after an admission: in IDLE it takes the head, in HELD a continuation (R47,
R68). -/
def lookAtQueue (g : SegId) (s : State) : State :=
  match (s.seg g).init with
  | .idle => enterIdle g s
  | .held _ => takeContinuation g s
  | _ => s

/-- The data of an OK reply to JOB_SUBMIT, after the admission (R35, R189). -/
def admitData (u : Submission) (s : State) : List Byte :=
  wordBytes u.id ++
    [byteOf (blockCount u.phases), byteOf (s.seg u.seg).liveCount, byteOf (freeSlots s), byteOf (freeBlocks s)]

/-- A refusal of a well-formed job, with its data, in the order of R27, or the slot to claim. -/
def admission (u : Submission) (s : State) : Except (ReplyCode × List Byte) Slot :=
  let x := s.seg u.seg
  if x.refuses then .error (.segOff, [])
  else
    match (findJob s u.id).bind s.job? with
    | some j => .error (.dupJob, [indexByte j.seg, jobStateByte j.status])
    | none =>
      if x.cfg.queueLimit ≤ x.liveCount then .error (.queueFull, [byteOf x.liveCount, byteOf x.cfg.queueLimit])
      else
        match freeSlot s with
        | none => .error (.noSlot, [])
        | some i =>
          if freeBlocks s < blockCount u.phases then
            .error (.noSpace, [byteOf (blockCount u.phases), byteOf (freeBlocks s)])
          else .ok i

/-- JOB_SUBMIT (R27): the reply is made in the admission, then the initiator looks at the queue (R34). -/
def answerJobSubmit (r : Request) (d : Deferral) (s : State) : State :=
  match submitParams r.params with
  | .error rc => answer r d rc [] s
  | .ok u =>
    match admission u s with
    | .error (rc, data) => answer r d rc data s
    | .ok i =>
      let t := placeJob i u s
      lookAtQueue u.seg (answer r d .ok (admitData u t) t)

/-! ## JOB_CANCEL -/

/-- The initiator is RUNNING with the job of a slot. -/
def Initiator.runsSlot (i : Slot) : Initiator → Bool
  | .running r => decide (r.slot = i)
  | .off | .idle | .waiting _ | .backoff _ _ | .held _ => false

/-- A QUEUED job is cancelled (R134). -/
def cancelQueued (r : Request) (d : Deferral) (i : Slot) (j : Job) (s : State) : State :=
  answer r d .ok (cancelData j .cancelled false)
    (finishJob i .cancelled false (modSeg j.seg (fun x => { x with queue := x.queue.erase i }) s))

/-- A CURRENT job in WAITING or BACKOFF is cancelled: its read results are empty, and the initiator examines its queue
(R135, log 10). -/
def cancelWaiting (r : Request) (d : Deferral) (i : Slot) (j : Job) (s : State) : State :=
  toIdle j.seg
    (answer r d .ok (cancelData j .cancelled false)
      (finishJob i .cancelled false (modJob i (fun k => { k with results := [], readBuf := [] }) s)))

/-- A RUNNING job's cancel is deferred: the flag is set and the tag kept with the job (R136). -/
def deferCancel (d : Deferral) (i : Slot) (s : State) : State :=
  letGo (modJob i (fun k => { k with cancelPending := true, cancelReply := some d }) s)

/-- JOB_CANCEL (R133). -/
def answerJobCancel (r : Request) (d : Deferral) (s : State) : State :=
  match jobIdParams r.params with
  | .error rc => answer r d rc [] s
  | .ok id =>
    match findJob s id with
    | none => answer r d .notLive [] s
    | some i =>
      match s.job? i with
      | none => answer r d .notLive [] s
      | some j =>
        match j.status with
        | .finished c => answer r d .finished (cancelData j c.outcome false) s
        | .queued => cancelQueued r d i j s
        | .current =>
          if (s.seg j.seg).init.runsSlot i then
            if j.cancelPending then answer r d .busy (wordBytes j.id) s else deferCancel d i s
          else cancelWaiting r d i j s

/-! ## JOB_QUERY -/

/-- The part of a JOB_QUERY reply for a QUEUED job: its position, 1 being the head, and its chain (R45, R189). -/
def queuedData (i : Slot) (j : Job) (q : List Slot) : List Byte := byteOf (q.idxOf i + 1) :: chainBytes j.chain

/-- The part for a CURRENT job (R45, R189). -/
def currentData (now : Nat) (j : Job) (n : Initiator) : List Byte :=
  [initiatorByte n, byteOf j.phaseIndex, byteOf j.byteIndex, byteOf j.arbCount, byteOf j.nackCount,
      byteOf j.deferCount] ++
    sinceBytes now j.startTime ++ flagByte j.cancelPending :: chainBytes j.chain

/-- The sequence number of a job's JOB_DONE notice (R45). -/
def doneSeq (i : Slot) (q : List Notice) : Word :=
  match q.find? (fun n => n.source == .job i) with
  | some n => n.seq
  | none => 0

/-- The part for a FINISHED job (R45, R189). -/
def finishedData (i : Slot) (j : Job) (c : Completion) (q : List Notice) : List Byte :=
  [outcomeByte c.outcome, failPhaseByte c.failPhase, byteIndexByte c.byteIndex, byteOf j.arbCount, byteOf j.nackCount,
      byteOf j.deferCount] ++
    countBytes c.duration ++ wordBytes (doneSeq i q)

/-- The data of an OK reply to JOB_QUERY (R45, R189). -/
def queryData (s : State) (i : Slot) (j : Job) : List Byte :=
  wordBytes j.id ++ [indexByte j.seg, classByte j.cls, jobStateByte j.status] ++
    (match j.status with
     | .queued => queuedData i j (s.seg j.seg).queue
     | .current => currentData s.now j (s.seg j.seg).init
     | .finished c => finishedData i j c s.notices.queue)

/-- JOB_QUERY (R45). -/
def answerJobQuery (r : Request) (d : Deferral) (s : State) : State :=
  match jobIdParams r.params with
  | .error rc => answer r d rc [] s
  | .ok id =>
    match findJob s id with
    | none => answer r d .notLive [] s
    | some i =>
      match s.job? i with
      | none => answer r d .notLive [] s
      | some j => answer r d .ok (queryData s i j) s

end Sys2Proof.Machine
end

