-- ==== Sys2Proof/Machine/Initiator.lean ====
section
/-! DEFINITION. The initiator's steps (`03_running_a_job.md`, `04_sharing_a_segment_with_other_initiators.md`). -/

namespace Sys2Proof.Machine

/-! ## Start -/

/-- The job at a start decision: its start time recorded once, progress and read space reset (R48, R59). -/
def Job.beginAttempt (now : Nat) (j : Job) : Job :=
  { j with
    startTime := some (j.startTime.getD now), phaseIndex := 1, byteIndex := 0, results := [], readBuf := [] }

/-- A run at its start decision: the grade and stretch limit read, nothing driven yet (R18, R48). -/
def freshRun (i : Slot) (cfg : SegConfig) : Run :=
  { slot := i, sub := .start, drove := false, closing := false, grade := cfg.grade, stretchMs := cfg.stretchMs,
    lowSince := none }

/-- The initiator decides to start once the three conditions hold (R48). -/
def decideStart (g : SegId) (s : State) : State :=
  match (s.seg g).startDue? s.now with
  | none => s
  | some i =>
    modSeg g (fun x => { x with init := .running (freshRun i x.cfg) }) (modJob i (Job.beginAttempt s.now) s)

/-- A start collision: the initiator is in START, has not driven SDA, and the monitor is not FREE or a line is seen low
(R72). -/
def Segment.collided? (x : Segment) : Option Run :=
  match x.init with
  | .running r =>
    if r.sub == .start && !r.drove && (x.mon.line != .free || !x.scl || !x.sda) then some r else none
  | _ => none

/-- The deferral count rises by 1, saturating at 255 (R72). -/
def Job.countDeferral (j : Job) : Job := { j with deferCount := saturate 255 (j.deferCount + 1) }

/-- A start collision sends the job back to WAITING, or ends it CANCELLED if a cancel is pending (R72, R138). The initiator
has driven nothing, so it has nothing to release. -/
def collide (g : SegId) (s : State) : State :=
  match (s.seg g).collided? with
  | none => s
  | some r =>
    let s1 := modJob r.slot Job.countDeferral s
    match s1.job? r.slot with
    | none => s1
    | some j =>
      if j.cancelPending then enterIdle g (finishJob r.slot .cancelled true s1)
      else modSeg g (fun x => { x with init := .waiting r.slot }) s1

/-! ## What the initiator does with the lines -/

/-- The initiator begins the low period before bit p of the byte it sends. -/
def sendBit (now : Nat) (r : Run) (b : Byte) (p : Nat) (x : Segment) : Segment :=
  { x with drvSda := bitLow b p, init := .running { r with lowSince := some now } }

/-- The initiator begins a low period with SDA released. -/
def releaseBit (now : Nat) (r : Run) (x : Segment) : Segment :=
  { x with drvSda := false, init := .running { r with lowSince := some now } }

/-- SCL falls while the initiator is RUNNING with a job (R2, R6, R7, R8, R49). A run that a segment reset closes goes to
its stop at the fall that ends its bit (R142). A fall in RESTART before SDA is driven begins its low period again
(log 17), and so does one in STOP before SDA is released: SDA stays low (log 29). -/
def runFalls (now : Nat) (j : Job) (r : Run) (x : Segment) : Segment :=
  if r.closing then stopFrom now r (.ends .flushed) x
  else
    match r.sub with
    | .start | .restart =>
      if r.drove then sendBit now { r with sub := .address, drove := false } j.addressByte 1 x
      else { x with init := .running { r with lowSince := some now } }
    | .address | .write =>
      if x.framer.pos < 8 then sendBit now r (j.sends r.sub) (x.framer.pos + 1) x else releaseBit now r x
    | .read =>
      if x.framer.pos = 8 then
        { x with drvSda := j.acksRead x.framer.shift, init := .running { r with lowSince := some now } }
      else releaseBit now r x
    | .stop _ => { x with init := .running { r with lowSince := some now } }

/-- SCL falls: what the initiator does; the job is the current one. -/
def initiatorFalls (now : Nat) (j : Option Job) (x : Segment) : Segment :=
  match x.init with
  | .running r =>
    match j with
    | some j => runFalls now j r x
    | none => x
  | .held h =>
    match h.closing with
    | some _ => { x with init := .held { h with lowSince := some now } }
    | none => x
  | _ => x

/-- SCL is seen high: the stretch measurement is discarded (R60). -/
def initiatorRises (x : Segment) : Segment :=
  match x.init with
  | .running r => { x with init := .running { r with lowSince := none } }
  | .held h => { x with init := .held { h with lowSince := none } }
  | _ => x

/-- The part drives SDA low for its start or repeated start (R7, R8). -/
def driveStart (x : Segment) : Segment :=
  match x.init with
  | .running r => { x with drvSda := true, init := .running { r with drove := true } }
  | _ => x

/-- The part is about to drive SDA for a start or repeated start of its own (R7, R8). -/
def Segment.makesStart (x : Segment) : Bool :=
  match x.init with
  | .running r => (r.sub == .start || r.sub == .restart) && !r.drove && !r.closing
  | _ => false

/-! ## Acknowledge bits -/

/-- What the present bit place brings about has been taken. -/
def tookBit (x : Segment) : Segment := { x with framer := { x.framer with taken := true } }

/-- The part goes to RESTART for the next phase: SDA released, SCL released (R8, R55). -/
def beginRestart (g : SegId) (r : Run) (s : State) : State :=
  modSeg g
    (fun x => { x with drvSda := false, init := .running { r with sub := .restart, drove := false, lowSince := some s.now } })
    (modJob r.slot (fun j => { j with phaseIndex := j.phaseIndex + 1, byteIndex := 0, readBuf := [] }) s)

/-- A phase is complete (R55, R56, R137): after the last phase the job ends, in the hold for OPEN and CONTINUE_OPEN and
with a stop otherwise; before it a pending cancel makes a stop, and without one the next phase follows. -/
def phaseComplete (g : SegId) (r : Run) (j : Job) (s : State) : State :=
  if j.atLastPhase then
    match j.chain with
    | some c => if c.role.holds then enterHeld g c.id r (finishJob r.slot .done true s) else beginStop g r (.ends .done) s
    | none => beginStop g r (.ends .done) s
  else if j.cancelPending then beginStop g r (.ends .cancelled) s
  else beginRestart g r s

/-- The job goes on to the next byte in a sub-step, unless a cancel is pending (R49, R137). -/
def goOn (g : SegId) (r : Run) (j : Job) (sub : SubStep) (s : State) : State :=
  if j.cancelPending then beginStop g r (.ends .cancelled) s
  else modSeg g (sendBit s.now { r with sub := sub } (j.sends sub) 1) s

/-- The acknowledge of the address byte was ACK (R50, R51). -/
def addressAcked (g : SegId) (r : Run) (j : Job) (s : State) : State :=
  match j.phase? with
  | some { kind := .write [], .. } => phaseComplete g r j s
  | some { kind := .write _, .. } => goOn g r j .write s
  | _ => goOn g r j .read s

/-- The acknowledge of the address byte was NACK: a stop, for the end, the cancel or the retry (R57, R137). -/
def addressNacked (g : SegId) (r : Run) (j : Job) (s : State) : State :=
  if j.appliedLimit j.nackLimit ≤ j.nackCount then beginStop g r (.ends .addrNack) s
  else if j.cancelPending then beginStop g r (.ends .cancelled) s
  else beginStop g r .retry s

/-- The acknowledge of an address byte the initiator sent (R50). -/
def addressAck (g : SegId) (s : State) : State :=
  match (s.seg g).ackedRun? .address with
  | none => s
  | some r =>
    match s.job? r.slot with
    | none => s
    | some j =>
      let t := modSeg g tookBit s
      if (s.seg g).framer.ackHigh then addressNacked g r j t else addressAcked g r j t

/-- The payload length of the phase under way. -/
def Job.payloadLength (j : Job) : Nat :=
  match j.phase? with
  | some p => p.writeLength
  | none => 0

/-- The acknowledge of a write byte (R51, R52). -/
def writeByteAck (g : SegId) (s : State) : State :=
  match (s.seg g).ackedRun? .write with
  | none => s
  | some r =>
    match s.job? r.slot with
    | none => s
    | some j =>
      let t := modSeg g tookBit s
      if (s.seg g).framer.ackHigh then beginStop g r (.ends .dataNack) t
      else
        let k := { j with byteIndex := j.byteIndex + 1 }
        let u := t.setJob r.slot (some k)
        if k.byteIndex < k.payloadLength then goOn g r k .write u else phaseComplete g r k u

/-- The job with a received byte stored and counted (R53, R54). -/
def Job.storeByte (b : Byte) (j : Job) : Job :=
  { j with readBuf := j.readBuf ++ [b], byteIndex := j.byteIndex + 1 }

/-- The job with the read phase under way completed (R64). -/
def Job.closePhase (j : Job) : Job :=
  { j with results := j.results ++ [{ phase := j.phaseIndex, bytes := j.readBuf }] }

/-- A read byte that is no length byte, its acknowledge bit ended (R53, R54). -/
def readByte (g : SegId) (s : State) : State :=
  let x := s.seg g
  match x.ackedRun? .read with
  | none => s
  | some r =>
    match s.job? r.slot with
    | none => s
    | some j =>
      if j.awaitsLength then s
      else
        let t := modSeg g tookBit s
        let k := j.storeByte x.framer.shift
        if k.byteIndex < k.readTotal then goOn g r k .read (t.setJob r.slot (some k))
        else phaseComplete g r k.closePhase (t.setJob r.slot (some k.closePhase))

/-- The length byte of a counted read, its acknowledge bit ended (R54). -/
def lengthByte (g : SegId) (s : State) : State :=
  let x := s.seg g
  match x.ackedRun? .read with
  | none => s
  | some r =>
    match s.job? r.slot with
    | none => s
    | some j =>
      if j.awaitsLength then
        let t := modSeg g tookBit s
        if j.acceptsLength x.framer.shift then
          let k := j.storeByte x.framer.shift
          goOn g r k .read (t.setJob r.slot (some k))
        else beginStop g r (.ends .lengthBad) t
      else s

/-! ## Stop -/

/-- The length of the retry wait after a number of address NACKs or losses, in count steps (R58, R81). -/
def retrySteps (cfg : SegConfig) (count : Nat) : Nat := cfg.retryInterval * Config.stepsPerRetryUnit * count

/-- The address-NACK retry count rises by 1, saturating at 255 (R57). -/
def Job.countRetry (j : Job) : Job := { j with nackCount := saturate 255 (j.nackCount + 1) }

/-- The stop before a retry is made: the cancel, or the backoff; with a wait of 0 the job is in WAITING at once (R57,
R58, R138). -/
def retryAfterStop (g : SegId) (i : Slot) (s : State) : State :=
  match s.job? i with
  | none => s
  | some j =>
    if j.cancelPending then endRun g i .cancelled s
    else
      let k := j.countRetry
      modSeg g
        (fun x =>
          { releaseLines x with
            init :=
              if retrySteps x.cfg k.nackCount = 0 then .waiting i
              else .backoff i (.wait s.now (retrySteps x.cfg k.nackCount)) })
        (s.setJob i (some k))

/-- A hold ends, its stop made or its lines released: a lapse makes HOLD_LAPSED (R46, R69, R140). -/
def endHold (g : SegId) (h : Hold) (s : State) : State :=
  match h.closing with
  | some .lapse => leave g (claimEvent g (.holdLapsed h.chain) s)
  | _ => leave g s

/-- The part releases SDA in its stop: the stop is made (R9, R62, R69, R140, R142). It needs SCL seen high with SDA
driven low. -/
def makeStop (g : SegId) (s : State) : State :=
  let x := s.seg g
  if x.scl && x.drvSda then
    let t := modSeg g releaseLines s
    match x.init with
    | .running r =>
      match r.sub with
      | .stop (.ends o) => endRun g r.slot o t
      | .stop .retry => retryAfterStop g r.slot t
      | _ => s
    | .held h => if h.closing.isSome then endHold g h t else s
    | _ => s
  else s

/-! ## Arbitration loss -/

/-- The arbitration count rises by 1, saturating at 255 (R77). -/
def Job.countLoss (j : Job) : Job := { j with arbCount := saturate 255 (j.arbCount + 1) }

/-- The backoff after a loss (R80, R81). -/
def backOff (g : SegId) (i : Slot) (count : Nat) (s : State) : State :=
  modSeg g (fun x => freeBackoff s.now { x with init := .backoff i (.winnerStop (retrySteps x.cfg count)) }) s

/-- An arbitration loss of the running job: both lines are released, the loss is counted and the job's fate decided
(R77, R80). In the finishing bit of a segment reset the count stays and the job finishes FLUSHED (R142). -/
def loseBus (g : SegId) (s : State) : State :=
  match (s.seg g).init with
  | .running r =>
    let t := modSeg g releaseLines s
    if r.closing then endRun g r.slot .flushed t
    else
      match t.job? r.slot with
      | none => t
      | some j =>
        let k := j.countLoss
        let u := t.setJob r.slot (some k)
        if k.appliedLimit k.arbLimit < k.arbCount then endRun g r.slot .arbLost u
        else if k.cancelPending then endRun g r.slot .cancelled u
        else backOff g r.slot k.arbCount u
  | _ => s

/-- SDA is seen low where the part sends a 1 (R75, R77). -/
def arbitrationLoss (g : SegId) (s : State) : State := if (s.seg g).lossSeen then loseBus g s else s

/-- A condition the part did not make is a loss in ADDRESS, WRITE, READ and RESTART (R76). -/
def Initiator.losesByCondition : Initiator → Bool
  | .running r =>
    match r.sub with
    | .address | .write | .read | .restart => true
    | .start | .stop _ => false
  | .off | .idle | .waiting _ | .backoff _ _ | .held _ => false

/-- The loss at a condition made by another initiator (R76). -/
def loseByCondition (g : SegId) (s : State) : State := if (s.seg g).init.losesByCondition then loseBus g s else s

/-! ## Limits -/

/-- How a run ends when the stretch limit expires (R60, R61, R142). -/
def Run.stretchOutcome (r : Run) : JobOutcome :=
  if r.closing then .flushed
  else
    match r.sub with
    | .stop (.ends o) => o
    | .stop .retry | .start | .address | .write | .read | .restart => .stretchTimeout

/-- The stretch limit expires: both lines are released, and the job or the hold ends (R60, R61, R69, R140). -/
def stretchExpires (g : SegId) (s : State) : State :=
  let x := s.seg g
  if x.stretchDue s.now then
    let t := modSeg g releaseLines s
    match x.init with
    | .running r => endRun g r.slot r.stretchOutcome t
    | .held h => endHold g h t
    | _ => s
  else s

/-- The retry wait ends and the job is in WAITING (R58, R81). -/
def backoffEnds (g : SegId) (s : State) : State :=
  match (s.seg g).backoffDue? s.now with
  | none => s
  | some i => modSeg g (fun x => { x with init := .waiting i }) s

/-- The hold limit is reached: the part makes a stop from its held SCL (R69). -/
def holdExpires (g : SegId) (s : State) : State :=
  match (s.seg g).holdDue? s.now with
  | none => s
  | some h => closeHold g .lapse h s

end Sys2Proof.Machine
end

