-- ==== Sys2Proof/Machine/BusClear.lean ====
section
/-! DEFINITION. The bus-clear unit's steps (`05_stalled_and_stuck_lines.md`). -/

namespace Sys2Proof.Machine

/-! ## What the unit does with the lines -/

/-- The high period of a pulse ends and SDA is sampled: the stop, the next pulse, or failure after the ninth (R93). -/
def pulseEnds (now : Nat) (x : Segment) : Segment :=
  match x.clear with
  | .clearing c =>
    match c.stage with
    | .pulseLow =>
      if x.sda then { x with clear := .clearing { c with stage := .stopHigh } }
      else if c.pulses < Config.clearingPulses then { x with clear := .clearing { c with stage := .pulseHigh } }
      else failRound now c x
    | _ => x
  | _ => x

/-- SCL has fallen at a stage of a round: a pulse begins, the round's stop begins, or a low period goes on or begins again:
in the stop SDA stays low until a whole high period has ended (R6, R93, R94, log 29). A fall after the stop leaves the
sample of the lines to come (R96, log 34). -/
def stageFalls (now : Nat) (x : Segment) : Segment :=
  match x.clear with
  | .clearing c =>
    match c.stage with
    | .pulseHigh =>
      { x with clear := .clearing { c with stage := .pulseLow, pulses := c.pulses + 1, lowSince := some now } }
    | .stopHigh => { x with drvSda := true, clear := .clearing { c with stage := .stopLow, lowSince := some now } }
    | .pulseLow | .stopLow => { x with clear := .clearing { c with lowSince := some now } }
    | .stopDone | .wait _ => x
  | _ => x

/-- SCL falls: a high period of a pulse that another device cuts short ends at the fall (R6, log 18). -/
def clearFalls (now : Nat) (x : Segment) : Segment := stageFalls now (pulseEnds now x)

/-- SCL is seen high: the stretch measurement of the round is discarded, and a high period begins (R6, R93, R94). -/
def clearRises (x : Segment) : Segment :=
  match x.clear with
  | .clearing c => { x with clear := .clearing { c with lowSince := none } }
  | _ => x

/-- A round is about to release SDA for its stop, once SCL is high (R94). -/
def Segment.makesRoundStop (x : Segment) : Bool :=
  match x.clear with
  | .clearing c => decide (c.stage = .stopLow)
  | _ => false

/-- A stop is seen: where it is the round's own, SDA is released and the round notes its time (R94, R96, log 26). -/
def clearStops (now : Nat) (x : Segment) : Segment :=
  match x.clear with
  | .clearing c =>
    match c.stage with
    | .stopLow => { x with drvSda := false, clear := .clearing { c with stage := .stopDone, stopAt := some now } }
    | _ => x
  | _ => x

/-- Every edge restarts the idle watch (R97). -/
def restartWatch (now : Nat) (x : Segment) : Segment :=
  match x.clear with
  | .stuck _ => { x with clear := .stuck (x.highSince now) }
  | .normal | .clearing _ => x

/-! ## Stuck detection -/

/-- How a run ends on a stuck detection (R61, R88, R142). -/
def Run.stuckOutcome (r : Run) : JobOutcome :=
  if r.closing then .flushed
  else
    match r.sub with
    | .stop (.ends o) => o
    | .stop .retry | .start | .address | .write | .read | .restart => .busStuck

/-- The initiator on a stuck detection: a run or a hold ends with both lines released (R88, R89). -/
def stuckInitiator (g : SegId) (s : State) : State :=
  match (s.seg g).init with
  | .running r => toIdle g (finishJob r.slot r.stuckOutcome true (modSeg g leaveLines s))
  | .held h =>
    match h.closing with
    | some .lapse => toIdle g (claimEvent g (.holdLapsed h.chain) (modSeg g leaveLines s))
    | _ => toIdle g (modSeg g leaveLines s)
  | _ => s

/-- The unit enters CLEARING with round 1, or STUCK, by the recovery enable (R91). -/
def enterClearing (now : Nat) (x : Segment) : Segment :=
  if x.cfg.recovery then startRound now 1 x else { x with clear := .stuck (x.highSince now), quiet := none }

/-- The BUS_STUCK event: the lines seen low and not driven by the part at the detection `x`, and the state entered
(R91). -/
def stuckEvent (x : Segment) : SegEvent := .busStuck (!x.scl && !x.drvScl) (!x.sda && !x.drvSda) x.cfg.recovery

/-- A stuck detection (R88 to R91). -/
def stuckDetected (g : SegId) (s : State) : State :=
  let x := s.seg g
  if x.stuckDue s.now then
    endDisable g
      (modSeg g (enterClearing s.now)
        (claimEvent g (stuckEvent x) (endTransaction g false (stuckInitiator g s))))
  else s

/-! ## Rounds -/

/-- The wait after a failed round ends and the next round begins (R95). -/
def clearWaitExpires (g : SegId) (s : State) : State :=
  match (s.seg g).clearWaitDue? s.now with
  | none => s
  | some c => modSeg g (startRound s.now (c.round + 1)) s

/-- The high period of a clearing pulse has ended (R93). It needs SCL seen high. -/
def clearingPulse (g : SegId) (s : State) : State := if (s.seg g).scl then modSeg g (pulseEnds s.now) s else s

/-- The unit returns to NORMAL and sets the line monitor FREE with a stop time, unless it is FREE (R96, R97). -/
def recover (stop : Option Nat) (now : Nat) (x : Segment) : Segment :=
  if x.mon.line = .free then { x with clear := .normal } else monitorFree stop now { x with clear := .normal }

/-- The round whose lines are about to be sampled: its stop has been seen, or SDA is released at the end of the high period
and stays low, held by another device (R94, log 26). -/
def Segment.roundDone? (x : Segment) : Option Clearing :=
  match x.clear with
  | .clearing c =>
    if c.stage = .stopDone ∨ (c.stage = .stopLow ∧ x.scl = true ∧ x.sda = false) then some c else none
  | _ => none

/-- The last high period of a round's stop has ended and both lines are sampled: recovered, or failed (R94, R96). -/
def roundEnds (g : SegId) (s : State) : State :=
  let x := s.seg g
  match x.roundDone? with
  | none => s
  | some c =>
    if x.scl && x.sda then
      claimEvent g (.busRecovered c.round c.pulses) (modSeg g (recover c.stopAt s.now) s)
    else modSeg g (failRound s.now c) s

/-- The stretch limit expires in a round, which fails (R95). -/
def clearStretchExpires (g : SegId) (s : State) : State :=
  match (s.seg g).clearStretchDue? s.now with
  | none => s
  | some c => modSeg g (failRound s.now c) s

/-- A transaction left by a silent initiator ends as at a stop; IGNORE waits on for its condition (R97, log 20). -/
def endLeftTransaction (g : SegId) (s : State) : State :=
  if (s.seg g).resp.transaction?.isSome then endTransaction g false s else s

/-- The idle watch has measured 100 µs: the segment is recovered on idle lines (R97). -/
def idleWatchExpires (g : SegId) (s : State) : State :=
  if (s.seg g).idleWatchDue s.now then
    claimEvent g (.busRecovered 0 0) (modSeg g (recover none s.now) (endLeftTransaction g s))
  else s

end Sys2Proof.Machine
end

