-- ==== Sys2Proof/Machine/Responder.lean ====
section
/-! DEFINITION. The responder's steps (`06_responder_addresses_and_windows.md`, `07_mailboxes.md`). -/

namespace Sys2Proof.Machine

/-! ## What the responder does with the lines -/

/-- SCL falls while a write is served: SDA is driven low for ACK after position 8, and released otherwise; the fall
after position 9 ends the byte, which is then no longer cut (R4, R106, R110, R120). -/
def writerFalls (t : Transaction) (x : Segment) : Segment :=
  { x with
    drvSda := decide (x.framer.pos = 8) && (x.framer.kind == .address || t.ackLow)
    resp := .selectedWrite (if x.framer.pos = 9 then { t with undo := none } else t) }

/-- The transaction once the reader has NACKed: SDA stays released, so FFh stands in the sender (R112, R125). -/
def Transaction.stopSending (t : Transaction) : Transaction := { t with nacked := true, sender := 0xFF }

/-- SCL falls while a read is served: ACK after position 8 of the address byte, the next bit of the sender, or the
acknowledge bit released; a byte already loaded is set after position 9 (R106, R112, R125, R128). -/
def readerFalls (t : Transaction) (x : Segment) : Segment :=
  if x.framer.pos = 9 then
    if t.preloaded then
      { x with
        drvSda := bitLow t.sender 1, resp := .selectedRead { t with preloaded := false },
        framer := { x.framer with taken := true } }
    else if x.framer.kind == .data && x.framer.ackHigh then
      { x with drvSda := false, resp := .selectedRead t.stopSending }
    else { x with drvSda := false }
  else if x.framer.kind == .address then { x with drvSda := decide (x.framer.pos = 8) }
  else { x with drvSda := decide (x.framer.pos < 8) && bitLow t.sender (x.framer.pos + 1) }

/-- SCL falls in MAIL_WAIT: ACK after position 8, and after position 9 SDA is released and SCL held (R127). -/
def waiterFalls (now : Nat) (t : Transaction) (limitMs : Nat) (x : Segment) : Segment :=
  if x.framer.pos = 9 then { x with drvSda := false, drvScl := true, resp := .mailWait t limitMs (some now) }
  else { x with drvSda := decide (x.framer.pos = 8) }

/-- SCL falls: what the responder does. -/
def responderFalls (now : Nat) (x : Segment) : Segment :=
  match x.resp with
  | .selectedWrite t => writerFalls t x
  | .selectedRead t => readerFalls t x
  | .mailWait t limitMs _ => waiterFalls now t limitMs x
  | .off | .listen | .ignore => x

/-! ## Selection -/

/-- The entry an address byte matches: enabled, with that address (R105). At most one can match. -/
def Segment.matchEntry (x : Segment) (addr : Byte) : Option EntryId :=
  [0, 1, 2, 3].find? (fun e => (x.entry e).enable && (x.entry e).address == some (addr >>> 1))

/-- A transaction at its selection. -/
def freshTransaction (e : EntryId) (a : Access) : Transaction :=
  { entry := e, access := a, undo := none, sender := 0xFF, ackLow := true, nacked := false, preloaded := false }

/-- The responder's state after an address byte that matches an entry (R106, R118, R127); `grant` says whether an event
record is free (R119). -/
def selectEntry (e : EntryId) (n : Entry) (reads grant : Bool) (addr : Byte) : Responder :=
  match n.mode with
  | .window =>
    if reads then .selectedRead (freshTransaction e .windowRead)
    else .selectedWrite (freshTransaction e (.windowWrite false none))
  | .mailbox =>
    if reads then
      if n.outbox.isEmpty then
        if n.mailWaitMs = 0 then .ignore
        else .mailWait (freshTransaction e (.mailRead false 0 0 false)) n.mailWaitMs none
      else .selectedRead (freshTransaction e (.mailRead true 0 0 false))
    else if grant then .selectedWrite (freshTransaction e (.mailWrite (addr >>> 1) [] false))
    else .ignore

/-- The responder may be selected: the byte was not the initiator's own and no clearing is under way (R92, R105). The line
monitor has no say in it (log 28). -/
def Segment.selectable (x : Segment) : Bool := !x.init.drives && !x.clear.isClearing

/-- The responder's state after an address byte (R105). -/
def compareAddress (x : Segment) (grant : Bool) : Responder :=
  let addr := x.framer.shift
  if !x.selectable then .ignore
  else
    match x.matchEntry addr with
    | none => .ignore
    | some e => selectEntry e (x.entry e) (addr.getLsbD 0) grant addr

/-- Position 8 of an address byte: the responder compares it (R105). In CLEARING it ignores it, also where the pulses of a
round count on in a byte that was under way at the stuck detection (R92, R93, log 31). -/
def respAddressByte (g : SegId) (s : State) : State :=
  let x := s.seg g
  if x.addressEnded then
    modSeg g
      (fun x =>
        { x with resp := compareAddress x (decide (0 < freeRecords s)), framer := { x.framer with taken := true } })
      s
  else s

/-! ## Window transfers -/

/-- The change record after a byte at a window index (R111): `changed` says whether it changed the window. -/
def trackChange (i : Fin 64) (changed : Bool) : Option ChangeRecord → Option ChangeRecord
  | none => if changed then some { first := i, steps := 1, count := 1 } else none
  | some c =>
    some { c with steps := c.steps + 1, count := if changed then saturate Config.windowBytes (c.steps + 1) else c.count }

/-- A data byte of an outside window write after the pointer byte (R109, R110). -/
def windowStore (b : Byte) (n : Entry) : Entry :=
  { n with
    window := if n.pointer.val < n.protectFrom then Memory.write n.pointer.val b n.window else n.window
    pointer := n.pointer + 1 }

/-- A byte at the pointer changes the window (R111). -/
def storeChanges (b : Byte) (n : Entry) : Bool :=
  decide (n.pointer.val < n.protectFrom) && Memory.read n.pointer.val n.window != b

/-- The window index a pointer byte names (R110). -/
def pointerOf (b : Byte) : Fin 64 := Fin.ofNat 64 b.toNat

/-- The responder goes on serving a write with its transaction changed; the bit place is taken. -/
def serveWrite (t : Transaction) (x : Segment) : Segment :=
  { x with resp := .selectedWrite t, framer := { x.framer with taken := true } }

/-- How to take back a byte of an outside write to a window entry (R4). -/
def windowUndo (n : Entry) (got : Bool) (c : Option ChangeRecord) : ByteUndo :=
  .window got c n.pointer (Memory.read n.pointer.val n.window)

/-- A data byte of an outside write to a window entry: the pointer byte, or a byte stored or discarded (R110). It is taken
at position 8 and taken back if its ninth pulse does not end (R4, log 27). -/
def windowWriteByte (g : SegId) (s : State) : State :=
  let x := s.seg g
  let b := x.framer.shift
  match x.receives? with
  | some t =>
    let n := x.entry t.entry
    match t.access with
    | .windowWrite false c =>
      modSeg g
        (serveWrite { t with access := .windowWrite true none, undo := some (windowUndo n false c), ackLow := true })
        (modEntry g t.entry (fun n => { n with pointer := pointerOf b }) s)
    | .windowWrite true c =>
      modSeg g
        (serveWrite
          { t with
            access := .windowWrite true (trackChange n.pointer (storeChanges b n) c)
            undo := some (windowUndo n true c)
            ackLow := true })
        (modEntry g t.entry (windowStore b) s)
    | _ => s
  | none => s

/-- The responder loads a byte into its sender and sets SDA to its first bit (R112, R125). -/
def loadSender (t : Transaction) (b : Byte) (x : Segment) : Segment :=
  { x with
    resp := .selectedRead { t with sender := b }, drvSda := bitLow b 1, framer := { x.framer with taken := true } }

/-- A window byte is loaded for an outside read (R112). -/
def windowReadByte (g : SegId) (s : State) : State :=
  let x := s.seg g
  match x.loads? with
  | some t =>
    match t.access with
    | .windowRead =>
      let n := x.entry t.entry
      modSeg g (loadSender t (Memory.read n.pointer.val n.window))
        (modEntry g t.entry (fun n => { n with pointer := n.pointer + 1 }) s)
    | _ => s
  | none => s

/-! ## Mailbox transfers -/

/-- A data byte of an outside write to a mailbox entry: appended, or NACKed once 32 are held (R120). It is taken at
position 8, the overlong flag with it, and taken back if its ninth pulse does not end (R4, log 27). -/
def mailWriteByte (g : SegId) (s : State) : State :=
  let x := s.seg g
  match x.receives? with
  | some t =>
    match t.access with
    | .mailWrite a bytes overlong =>
      if bytes.length < Config.mailBytes then
        modSeg g
          (serveWrite
            { t with
              access := .mailWrite a (bytes ++ [x.framer.shift]) overlong
              undo := some (.mail bytes overlong)
              ackLow := true })
          s
      else
        modSeg g
          (serveWrite
            { t with access := .mailWrite a bytes true, undo := some (.mail bytes overlong), ackLow := false })
          s
    | _ => s
  | none => s

/-- The byte of the bound message at an index, if one is left (R125). -/
def boundByte (n : Entry) (i : Nat) : Option Byte :=
  match n.outbox with
  | m :: _ => m[i]?
  | [] => none

/-- A byte of the bound message, or FFh, is loaded for an outside read (R125, R129). -/
def mailReadByte (g : SegId) (s : State) : State :=
  let x := s.seg g
  match x.loads? with
  | some t =>
    match t.access with
    | .mailRead bound n pad expired =>
      match (if bound then boundByte (x.entry t.entry) n else none) with
      | some b => modSeg g (loadSender { t with access := .mailRead bound (n + 1) pad expired } b) s
      | none => modSeg g (loadSender { t with access := .mailRead bound n (saturate 255 (pad + 1)) expired } 0xFF) s
    | _ => s
  | none => s

/-- The wait for mail expires: FFh is loaded as the first byte and SCL released (R129). -/
def mailWaitExpires (g : SegId) (s : State) : State :=
  match (s.seg g).mailWaitDue? s.now with
  | none => s
  | some t =>
    modSeg g
      (fun x =>
        { letClockGo false x with
          resp := .selectedRead { t with access := .mailRead false 0 1 true, sender := 0xFF }
          framer := { x.framer with taken := true } })
      s

end Sys2Proof.Machine
end

