-- ==== Sys2Proof/Machine/Lines.lean ====
section
/-! DEFINITION. Edges and conditions on the segment lines, and what each unit of a segment engine takes from them
(`01_two_wire_segments_and_the_line_monitor.md`). -/

namespace Sys2Proof.Machine

/-! ## Framing -/

/-- A bit taken into the byte, most significant bit first (R2). -/
def shiftIn (b : Byte) (level : Bool) : Byte := (b <<< 1) ||| (if level then 1 else 0)

/-- SCL rises: the next bit position samples SDA; after position 9 a data byte follows (R2). -/
def Framer.rise (sda : Bool) (f : Framer) : Framer :=
  if f.kind = .none then f
  else if f.pos < 8 then { f with pos := f.pos + 1, shift := shiftIn f.shift sda, taken := false }
  else if f.pos = 8 then { f with pos := 9, ackHigh := sda, taken := false }
  else { kind := .data, pos := 1, shift := shiftIn 0 sda, ackHigh := true, taken := false }

/-- A start frames a new address byte (R3). -/
def Framer.started : Framer := { kind := .address, pos := 0, shift := 0, ackHigh := true, taken := false }

/-! ## The line monitor -/

/-- A start is seen: BUSY, the stop time kept (R13). -/
def monitorStart (x : Segment) : Segment := { x with mon := { x.mon with line := .busy, idleSince := none } }

/-- An edge with no condition: in UNKNOWN the bus-idle window is restarted, in FREE a fall of SCL gives UNKNOWN with no
stop time (R13, R14). -/
def monitorEdge (now : Nat) (x : Segment) : Segment :=
  match x.mon.line with
  | .unknown => { x with mon := { x.mon with idleSince := x.highSince now } }
  | .free => if x.scl then x else resetMonitor now x
  | .busy => x

/-! ## Edges -/

/-- The level a line edge leaves. -/
def setLevel (e : Edge) (x : Segment) : Segment :=
  match e with
  | .sclRise => { x with scl := true }
  | .sclFall => { x with scl := false }
  | .sdaRise => { x with sda := true }
  | .sdaFall => { x with sda := false }

/-- The edge is one the line can make now, and is no condition: a line the part drives does not rise, and SDA changes
while SCL is low (R1, R3). The fall that follows a drive of the part is an edge of its own, which the queue brings (log 38). -/
def Segment.canEdge (e : Edge) (x : Segment) : Bool :=
  match e with
  | .sclRise => !x.scl && !x.drvScl
  | .sclFall => x.scl
  | .sdaRise => !x.sda && !x.drvSda && !x.scl
  | .sdaFall => x.sda && !x.scl

/-- What the units of an enabled segment take from SCL rising, its level already set (R2, R60, R93). -/
def unitsRise (x : Segment) : Segment :=
  clearRises (initiatorRises { x with framer := x.framer.rise x.sda })

/-- What the units of an enabled segment take from SCL falling, its level already set. -/
def unitsFall (now : Nat) (j : Option Job) (x : Segment) : Segment :=
  clearFalls now (responderFalls now (initiatorFalls now j x))

/-- What the units take from an edge. -/
def unitsEdge (now : Nat) (j : Option Job) (e : Edge) (x : Segment) : Segment :=
  match e with
  | .sclRise => unitsRise x
  | .sclFall => unitsFall now j x
  | .sdaRise | .sdaFall => x

/-- An edge at an enabled segment: the level, the monitor, the units, and the measurements an edge restarts (R13, R86,
R97). -/
def edgeAt (now : Nat) (j : Option Job) (e : Edge) (x : Segment) : Segment :=
  restartQuiet now (restartWatch now (unitsEdge now j e (monitorEdge now (setLevel e x))))

/-- The current job of a segment. -/
def currentJob (s : State) (g : SegId) : Option Job := (s.seg g).init.slot?.bind s.job?

/-- An edge with no condition is seen; a start not yet driven collides with it (R13, R72). -/
def seeEdge (g : SegId) (e : Edge) (s : State) : State :=
  collide g (modSeg g (edgeAt s.now (currentJob s g) e) s)

/-- An edge with no condition on a segment line. At a segment that is OFF only the level is seen (R1, R22). A fall of SCL
while FREE is an event of its own. -/
def lineEdge (g : SegId) (e : Edge) (s : State) : State :=
  let x := s.seg g
  if x.canEdge e then
    if x.isOff then modSeg g (setLevel e) s
    else if e == .sclFall && x.mon.line == .free then s
    else seeEdge g e s
  else s

/-- SCL falls with no condition while the line monitor is FREE (R13). -/
def sclFallsWhileFree (g : SegId) (s : State) : State :=
  let x := s.seg g
  if x.scl && !x.isOff && x.mon.line == .free then seeEdge g .sclFall s else s

/-! ## Conditions -/

/-- A start at an enabled segment's lines: level, framing, monitor and measurements (R3, R13). -/
def startAt (now : Nat) (x : Segment) : Segment :=
  restartQuiet now (restartWatch now (monitorStart { x with sda := false, framer := Framer.started }))

/-- A start or repeated start made by another initiator: a transaction ends, a start not yet driven collides, and a
running job loses the bus (R13, R72, R76, R107). Where it does the first two, the transaction's events join before the
JOB_DONE of the collision (log 39). -/
def startFromOutside (g : SegId) (s : State) : State :=
  loseByCondition g (collide g (endTransaction g false (modSeg g (startAt s.now) s)))

/-- A start or repeated start made by the part: it drives SDA low, and the monitor and the responder see it like any
other (R3, R7, R8). A transaction still in flight at it ends first, so that the responder has let its lines go before the
initiator drives (R11, R105, R107, log 28). -/
def startFromPart (g : SegId) (s : State) : State :=
  modSeg g (fun x => startAt s.now (driveStart x)) (endTransaction g false s)

/-- SDA falls while SCL is high (R3, R13). The part makes this edge only where it is about to drive a start. -/
def startSeen (g : SegId) (m : Maker) (s : State) : State :=
  let x := s.seg g
  if x.scl && x.sda then
    if x.isOff then (match m with
      | .outside => modSeg g (setLevel .sdaFall) s
      | .part => s)
    else
      match m with
      | .outside => startFromOutside g s
      | .part => if x.makesStart then startFromPart g s else s
  else s

/-- A stop at an enabled segment's lines: level, framing, monitor and measurements (R3, R13). -/
def stopAt (now : Nat) (x : Segment) : Segment :=
  restartQuiet now
    (restartWatch now (clearStops now (monitorFree (some now) now { x with sda := true, framer := Framer.atReset })))

/-- SDA rises while SCL is high (R3, R13): the monitor is FREE with the stop time, a transaction ends, and a job that
did not make this stop loses the bus (R76, R107). SDA does not rise while the part drives it, but a clearing round releases
it for the stop it makes (R94, log 26). -/
def stopSeen (g : SegId) (s : State) : State :=
  let x := s.seg g
  if x.scl && !x.sda && (!x.drvSda || x.makesRoundStop) then
    if x.isOff then modSeg g (setLevel .sdaRise) s
    else loseByCondition g (endTransaction g false (modSeg g (stopAt s.now) s))
  else s

/-- The bus-idle window has measured 100 µs: FREE with the stop time absent (R14). -/
def windowExpires (g : SegId) (s : State) : State :=
  if (s.seg g).windowDue s.now then modSeg g (monitorFree none s.now) s else s

end Sys2Proof.Machine
end

