-- ==== Sys2Proof/Machine/ResponderRequests.lean ====
section
/-! DEFINITION. The requests of the responder: RESP_SET, WIN_WRITE, WIN_READ, MAIL_POST, MAIL_WITHDRAW
(`06_responder_addresses_and_windows.md`, `07_mailboxes.md`). -/

namespace Sys2Proof.Machine

/-! ## RESP_SET -/

/-- The entries of a segment. -/
def entryIds : List EntryId := [0, 1, 2, 3]

/-- Another entry of the segment is enabled with the address (R101). -/
def Segment.addressTaken (x : Segment) (e : EntryId) (a : Byte) : Bool :=
  entryIds.any (fun k => decide (k ≠ e) && (x.entry k).enable && (x.entry k).address == some a)

/-- An entry after an accepted SET (R102). -/
def setEntryTo (v : EntrySettings) (n : Entry) : Entry :=
  if n.mode = v.mode then
    { n with
      enable := v.enable, address := some v.address, notify := v.notify, protectFrom := v.protectFrom,
      mailWaitMs := v.mailWaitMs }
  else
    { n with
      enable := v.enable, address := some v.address, mode := v.mode, notify := v.notify, protectFrom := v.protectFrom,
      mailWaitMs := v.mailWaitMs, pointer := 0, outbox := [] }

/-- An entry after an accepted CLEAR (R102). -/
def clearEntry (n : Entry) : Entry :=
  { n with
    enable := false, address := none, mode := .window, notify := false, protectFrom := 64, mailWaitMs := 0,
    pointer := 0, outbox := [] }

/-- The entry a RESP_SET leaves (R102). -/
def settledEntry (v : Option EntrySettings) (n : Entry) : Entry :=
  match v with
  | some v => setEntryTo v n
  | none => clearEntry n

/-- The data of an OK reply to RESP_SET (R102, R189). -/
def entryData (n : Entry) (discarded : Nat) : List Byte :=
  [flagByte n.enable, n.address.getD 0, modeByte n.mode, flagByte n.notify, byteOf n.protectFrom, byteOf n.mailWaitMs,
    byteOf n.pointer.val, byteOf n.outbox.length, byteOf discarded]

/-- Whether a SET is refused DUP_ADDR (R101). -/
def duplicatesAddress (x : Segment) (e : EntryId) : Option EntrySettings → Bool
  | some v => v.enable && x.addressTaken e v.address
  | none => false

/-- RESP_SET (R101, R102). -/
def answerRespSet (r : Request) (d : Deferral) (s : State) : State :=
  match respSetParams r.params with
  | .error rc => answer r d rc [] s
  | .ok (g, e, v) =>
    let x := s.seg g
    let n := x.entry e
    if x.inFlight e then answer r d .busy [] s
    else if duplicatesAddress x e v then answer r d .dupAddr [] s
    else
      answer r d .ok (entryData (settledEntry v n) (n.outbox.length - (settledEntry v n).outbox.length))
        (modEntry g e (settledEntry v) s)

/-! ## Window requests -/

/-- WIN_WRITE (R114): refused BUSY, deferred behind a transaction in flight, or applied at once. -/
def answerWinWrite (r : Request) (d : Deferral) (s : State) : State :=
  match winWriteParams r.params with
  | .error rc => answer r d rc [] s
  | .ok (g, e, offset, bytes) =>
    let x := s.seg g
    if (x.entry e).deferred.isSome then answer r d .busy [] s
    else if x.inFlight e then
      letGo (modEntry g e (fun n => { n with deferred := some { offset := offset, bytes := bytes, request := d } }) s)
    else
      answer r d .ok [flagByte false]
        (modEntry g e (fun n => { n with window := Memory.writeRun offset bytes n.window }) s)

/-- WIN_READ (R113). -/
def answerWinRead (r : Request) (d : Deferral) (s : State) : State :=
  match winReadParams r.params with
  | .error rc => answer r d rc [] s
  | .ok (g, e, offset, len) =>
    let n := (s.seg g).entry e
    answer r d .ok (byteOf n.pointer.val :: Memory.readRun offset len n.window) s

/-! ## Mailbox requests -/

/-- A post accepted in MAIL_WAIT is bound to the waiting read and its first byte loaded; the clock is released if it is
already held (R128, log 14). -/
def serveWaiting (e : EntryId) (first : Byte) (x : Segment) : Segment :=
  match x.resp with
  | .mailWait t _ since =>
    if t.entry = e then
      let t := { t with access := .mailRead true 1 0 false, sender := first, preloaded := since.isNone }
      match since with
      | none => { x with resp := .selectedRead t }
      | some _ =>
        { letClockGo (bitLow first 1) x with resp := .selectedRead t, framer := { x.framer with taken := true } }
    else x
  | _ => x

/-- A read of the entry waits for mail (R128). -/
def Segment.waits (x : Segment) (e : EntryId) : Bool :=
  match x.resp with
  | .mailWait t _ _ => decide (t.entry = e)
  | _ => false

/-- An accepted MAIL_POST: the message joins the outbox, and a waiting read is served (R123, R128). -/
def post (g : SegId) (e : EntryId) (bytes : List Byte) (s : State) : State :=
  modSeg g (serveWaiting e (bytes.headD 0xFF))
    (modEntry g e (fun n => { n with outbox := n.outbox ++ [bytes] }) s)

/-- MAIL_POST (R123). -/
def answerMailPost (r : Request) (d : Deferral) (s : State) : State :=
  match mailPostParams r.params with
  | .error rc => answer r d rc [] s
  | .ok (g, e, bytes) =>
    let n := (s.seg g).entry e
    if n.mode ≠ .mailbox then answer r d .entryMode [] s
    else if Config.outboxMessages ≤ n.outbox.length then answer r d .outboxFull [byteOf n.outbox.length] s
    else if freeBlocks s = 0 then answer r d .noSpace [byteOf (freeBlocks s)] s
    else
      let t := post g e bytes s
      answer r d .ok [byteOf (n.outbox.length + 1), flagByte ((s.seg g).waits e), byteOf (freeBlocks t)] t

/-- The messages a MAIL_WITHDRAW leaves: the bound one alone (R124). -/
def keptMessages (bound : Bool) (q : List (List Byte)) : List (List Byte) := if bound then q.take 1 else []

/-- MAIL_WITHDRAW (R124). -/
def answerMailWithdraw (r : Request) (d : Deferral) (s : State) : State :=
  match mailWithdrawParams r.params with
  | .error rc => answer r d rc [] s
  | .ok (g, e) =>
    let x := s.seg g
    let n := x.entry e
    let kept := keptMessages (x.bound e) n.outbox
    if n.mode ≠ .mailbox then answer r d .entryMode [] s
    else
      answer r d .ok [byteOf (n.outbox.length - kept.length), byteOf kept.length]
        (modEntry g e (fun n => { n with outbox := kept }) s)

end Sys2Proof.Machine
end

