-- ==== Sys2Proof/Machine/Settle.lean ====
section
/-! DEFINITION. What a line edge or a taken request brings about is taken before any later event (log 4). -/

namespace Sys2Proof.Machine

/-- The requests of the link unit, the segments and the job pool answer the one in hand that has their code (R174). -/
def answerByPool (s : State) : State :=
  withRequest codeJobQuery answerJobQuery
    (withRequest codeJobCancel answerJobCancel
      (withRequest codeJobSubmit answerJobSubmit
        (withRequest codeSegReset answerSegReset
          (withRequest codeSegFlush answerSegFlush
            (withRequest codeSegStatus answerSegStatus
              (withRequest codeSegConfig answerSegConfig
                (withRequest codeLinkConfig answerLinkConfig
                  (withRequest codeDevReset answerDevReset (withRequest codeDevInfo answerDevInfo s)))))))))

/-- The responders answer the request in hand that has their code (R174). -/
def answerByResponder (s : State) : State :=
  withRequest codeMailWithdraw answerMailWithdraw
    (withRequest codeMailPost answerMailPost
      (withRequest codeWinRead answerWinRead
        (withRequest codeWinWrite answerWinWrite (withRequest codeRespSet answerRespSet s))))

/-- The request in hand, if any, is answered, replayed or refused. Each step acts on its own case alone and leaves none
in hand. -/
def answerInHand (s : State) : State := answerByResponder (answerByPool (refuseUnknown (settleDuplicate s)))

/-- What the last edges of a segment have brought about is taken. Each step acts on its own case alone. -/
def settleSegment (g : SegId) (s : State) : State :=
  mailReadByte g
    (windowReadByte g
      (mailWriteByte g
        (windowWriteByte g
          (readByte g
            (lengthByte g (writeByteAck g (addressAck g (respAddressByte g (arbitrationLoss g s)))))))))

/-- Everything already brought about is taken (log 4). The taking of a request and the beginning of a frame are not among it:
the queue brings them (logs 36 and 37). -/
def settle (s : State) : State :=
  settleSegment 3 (settleSegment 2 (settleSegment 1 (settleSegment 0 (answerInHand s))))

end Sys2Proof.Machine
end

