-- ==== Sys2Proof/Machine/LinkMeanings.lean ====
section
/-! DEFINITION. The meanings of the commands: the link unit: reset, the receiver, taking, the requests it answers, sending. -/

namespace Sys2Proof.Machine

/-- The outcome of a command. -/
abbrev Result := Host.Outcome State Fault Refusal

/-- An event: what earlier edges and requests brought about is taken first (log 4), and at the end of the step the
bus-clear units look at their lines (R86). -/
def asEvent (f : State → State) (s : State) : Result := .next (watchLines (f (settle s)))

/-- A step that an earlier edge has brought about: a request in hand is answered first (log 4, log 5). -/
def asOwed (f : State → State) (s : State) : Result := .next (watchLines (f (answerInHand s)))

/-- A step on the request in hand (log 5). -/
def asRequest (f : State → State) (s : State) : Result := .next (watchLines (f s))

/-- POWER_ON. Power-up (R152). -/
def execPowerOn (rstHeld : Bool) (p : Straps) (s : State) : Result := .next (powerUp rstHeld p s)

/-- RST_LOW. RST driven low (R152). -/
def execRstLow (s : State) : Result := .next (rstFalls s)

/-- RST_RELEASE. RST released (R152). -/
def execRstRelease (p : Straps) (s : State) : Result := .next (rstRises p s)

/-- RX_BYTE. A byte delivered on RXD (R164). -/
def execRxByte (b : Byte) (s : State) : Result := asEvent (receive b) s

/-- RX_FRAMING_ERROR. A byte with a low stop bit (R162). -/
def execRxFramingError (s : State) : Result := asEvent enterHunt s

/-- RX_GAP_TIMEOUT. The gap timer expires inside a frame (R165). -/
def execRxGapTimeout (s : State) : Result := asEvent gapExpires s

/-- REQUEST_TAKEN. The head of the inbound buffer is taken (R167, R168). -/
def execRequestTaken (s : State) : Result := asEvent takeRequest s

/-- DUPLICATE_REQUEST. A taken duplicate is replayed or dropped (R170). -/
def execDuplicateRequest (s : State) : Result := asRequest settleDuplicate s

/-- UNKNOWN_REQUEST. A taken request that is not decoded is refused (R174, R182). -/
def execUnknownRequest (s : State) : Result := asRequest refuseUnknown s

/-- DEV_INFO. DEV_INFO in hand is answered (R176). -/
def execDevInfo (s : State) : Result := asRequest (withRequest codeDevInfo answerDevInfo) s

/-- DEV_RESET. DEV_RESET in hand is answered (R178). -/
def execDevReset (s : State) : Result := asRequest (withRequest codeDevReset answerDevReset) s

/-- LINK_CONFIG. LINK_CONFIG in hand is answered (R177). -/
def execLinkConfig (s : State) : Result := asRequest (withRequest codeLinkConfig answerLinkConfig) s

/-- TX_FRAME_START. The outbound arbiter begins a frame (R173). -/
def execTxFrameStart (s : State) : Result := asEvent startFrame s

/-- TX_FRAME_END. A frame's transmission ends (R172, R178). -/
def execTxFrameEnd (p : Straps) (s : State) : Result := asEvent (endFrame p) s

/-- RESEND_TIMER_EXPIRY. The resend timer expires (R155). -/
def execResendTimerExpiry (s : State) : Result := asEvent resendExpires s

end Sys2Proof.Machine
end

