-- ==== Sys2Proof/Machine/RequestMeanings.lean ====
section
/-! DEFINITION. The meanings of the commands: the requests that the segments, the job pool and the responders answer. -/

namespace Sys2Proof.Machine

/-- SEG_CONFIG. SEG_CONFIG in hand is answered (R17). -/
def execSegConfig (s : State) : Result := asRequest (withRequest codeSegConfig answerSegConfig) s

/-- SEG_STATUS. SEG_STATUS in hand is answered (R22). -/
def execSegStatus (s : State) : Result := asRequest (withRequest codeSegStatus answerSegStatus) s

/-- SEG_FLUSH. SEG_FLUSH in hand is answered (R139). -/
def execSegFlush (s : State) : Result := asRequest (withRequest codeSegFlush answerSegFlush) s

/-- SEG_RESET. SEG_RESET in hand is answered (R141). -/
def execSegReset (s : State) : Result := asRequest (withRequest codeSegReset answerSegReset) s

/-- JOB_SUBMIT. JOB_SUBMIT in hand is answered (R27). -/
def execJobSubmit (s : State) : Result := asRequest (withRequest codeJobSubmit answerJobSubmit) s

/-- JOB_CANCEL. JOB_CANCEL in hand is answered or deferred (R133). -/
def execJobCancel (s : State) : Result := asRequest (withRequest codeJobCancel answerJobCancel) s

/-- JOB_QUERY. JOB_QUERY in hand is answered (R45). -/
def execJobQuery (s : State) : Result := asRequest (withRequest codeJobQuery answerJobQuery) s

/-- RESP_SET. RESP_SET in hand is answered (R101). -/
def execRespSet (s : State) : Result := asRequest (withRequest codeRespSet answerRespSet) s

/-- WIN_WRITE. WIN_WRITE in hand is answered or deferred (R114). -/
def execWinWrite (s : State) : Result := asRequest (withRequest codeWinWrite answerWinWrite) s

/-- WIN_READ. WIN_READ in hand is answered (R113). -/
def execWinRead (s : State) : Result := asRequest (withRequest codeWinRead answerWinRead) s

/-- MAIL_POST. MAIL_POST in hand is answered (R123). -/
def execMailPost (s : State) : Result := asRequest (withRequest codeMailPost answerMailPost) s

/-- MAIL_WITHDRAW. MAIL_WITHDRAW in hand is answered (R124). -/
def execMailWithdraw (s : State) : Result := asRequest (withRequest codeMailWithdraw answerMailWithdraw) s

end Sys2Proof.Machine
end

