-- ==== Sys2Proof/Machine/SegmentMeanings.lean ====
section
/-! DEFINITION. The meanings of the commands: the events of a segment. -/

namespace Sys2Proof.Machine

/-- START_SEEN. A start or repeated start is seen (R13). -/
def execStartSeen (g : SegId) (m : Maker) (s : State) : Result := asEvent (startSeen g m) s

/-- STOP_SEEN. A stop is seen (R13). -/
def execStopSeen (g : SegId) (s : State) : Result := asEvent (stopSeen g) s

/-- SCL_FALL_WHILE_FREE. SCL falls with no condition while FREE (R13). -/
def execSclFallWhileFree (g : SegId) (s : State) : Result := asEvent (sclFallsWhileFree g) s

/-- BUS_IDLE_WINDOW_EXPIRY. The bus-idle window expires (R14). -/
def execBusIdleWindowExpiry (g : SegId) (s : State) : Result := asEvent (windowExpires g) s

/-- START_DECISION. The initiator decides to start (R48). -/
def execStartDecision (g : SegId) (s : State) : Result := asEvent (decideStart g) s

/-- ADDRESS_ACK. The acknowledge of an address byte the initiator sent (R50). -/
def execAddressAck (g : SegId) (s : State) : Result := asOwed (addressAck g) s

/-- WRITE_BYTE_ACK. The acknowledge of a write byte (R51). -/
def execWriteByteAck (g : SegId) (s : State) : Result := asOwed (writeByteAck g) s

/-- READ_BYTE. A read byte, its acknowledge bit ended (R53). -/
def execReadByte (g : SegId) (s : State) : Result := asOwed (readByte g) s

/-- LENGTH_BYTE. A length byte, its acknowledge bit ended (R54). -/
def execLengthByte (g : SegId) (s : State) : Result := asOwed (lengthByte g) s

/-- STOP_MADE. The part's stop is made (R9). -/
def execStopMade (g : SegId) (s : State) : Result := asEvent (makeStop g) s

/-- ARBITRATION_LOSS. SDA seen low where the part sent a 1 (R77). -/
def execArbitrationLoss (g : SegId) (s : State) : Result := asOwed (arbitrationLoss g) s

/-- STRETCH_LIMIT_EXPIRY. The stretch limit expires (R60). -/
def execStretchLimitExpiry (g : SegId) (s : State) : Result := asEvent (stretchExpires g) s

/-- BACKOFF_END. The retry wait of a backoff ends (R58, R81). -/
def execBackoffEnd (g : SegId) (s : State) : Result := asEvent (backoffEnds g) s

/-- HOLD_LIMIT_EXPIRY. The hold limit is reached (R69). -/
def execHoldLimitExpiry (g : SegId) (s : State) : Result := asEvent (holdExpires g) s

/-- RESP_ADDRESS_BYTE. Position 8 of an address byte at the responder, a loss at that bit taken first (R78, R105). -/
def execRespAddressByte (g : SegId) (s : State) : Result := asOwed (fun t => respAddressByte g (arbitrationLoss g t)) s

/-- WINDOW_WRITE_BYTE. A byte of an outside window write (R110). -/
def execWindowWriteByte (g : SegId) (s : State) : Result := asOwed (windowWriteByte g) s

/-- WINDOW_READ_BYTE. A window byte loaded for an outside read (R112). -/
def execWindowReadByte (g : SegId) (s : State) : Result := asOwed (windowReadByte g) s

/-- MAIL_WRITE_BYTE. A byte of an outside mailbox write (R120). -/
def execMailWriteByte (g : SegId) (s : State) : Result := asOwed (mailWriteByte g) s

/-- MAIL_READ_BYTE. A byte loaded for an outside mailbox read (R125). -/
def execMailReadByte (g : SegId) (s : State) : Result := asOwed (mailReadByte g) s

/-- MAIL_WAIT_EXPIRY. The wait for mail expires (R129). -/
def execMailWaitExpiry (g : SegId) (s : State) : Result := asEvent (mailWaitExpires g) s

/-- STUCK_DETECTION. The quiet-low time reaches the stuck limit (R88). -/
def execStuckDetection (g : SegId) (s : State) : Result := asEvent (stuckDetected g) s

/-- CLEAR_WAIT_EXPIRY. The wait after a failed round ends (R95). -/
def execClearWaitExpiry (g : SegId) (s : State) : Result := asEvent (clearWaitExpires g) s

/-- CLEARING_ROUND_END. A round's stop is completed and the lines sampled (R94). -/
def execClearingRoundEnd (g : SegId) (s : State) : Result := asEvent (roundEnds g) s

/-- CLEAR_STRETCH_EXPIRY. The stretch limit expires in a round (R95). -/
def execClearStretchExpiry (g : SegId) (s : State) : Result := asEvent (clearStretchExpires g) s

/-- IDLE_WATCH_EXPIRY. The idle watch has measured its window (R97). -/
def execIdleWatchExpiry (g : SegId) (s : State) : Result := asEvent (idleWatchExpires g) s

/-- LINE_EDGE. An edge with no condition (R13). -/
def execLineEdge (g : SegId) (e : Edge) (s : State) : Result := asEvent (lineEdge g e) s

/-- CLEARING_PULSE. The high period of a clearing pulse ends (R93). -/
def execClearingPulse (g : SegId) (s : State) : Result := asEvent (clearingPulse g) s

end Sys2Proof.Machine
end

