-- ==== Sys2Proof/Machine/Dispatch.lean ====
section
/-! DEFINITION. Every command, one arm each. -/

namespace Sys2Proof.Machine

/-- What a command does, on everything but the queue. -/
def exec (i : Instr) (s : State) : Host.Outcome State Fault Refusal :=
  match i with
  | .powerOn rstHeld p => Sys2Proof.Machine.execPowerOn rstHeld p s
  | .rstLow => Sys2Proof.Machine.execRstLow s
  | .rstRelease p => Sys2Proof.Machine.execRstRelease p s
  | .rxByte b => Sys2Proof.Machine.execRxByte b s
  | .rxFramingError => Sys2Proof.Machine.execRxFramingError s
  | .rxGapTimeout => Sys2Proof.Machine.execRxGapTimeout s
  | .requestTaken => Sys2Proof.Machine.execRequestTaken s
  | .duplicateRequest => Sys2Proof.Machine.execDuplicateRequest s
  | .unknownRequest => Sys2Proof.Machine.execUnknownRequest s
  | .devInfo => Sys2Proof.Machine.execDevInfo s
  | .devReset => Sys2Proof.Machine.execDevReset s
  | .linkConfig => Sys2Proof.Machine.execLinkConfig s
  | .segConfig => Sys2Proof.Machine.execSegConfig s
  | .segStatus => Sys2Proof.Machine.execSegStatus s
  | .segFlush => Sys2Proof.Machine.execSegFlush s
  | .segReset => Sys2Proof.Machine.execSegReset s
  | .jobSubmit => Sys2Proof.Machine.execJobSubmit s
  | .jobCancel => Sys2Proof.Machine.execJobCancel s
  | .jobQuery => Sys2Proof.Machine.execJobQuery s
  | .respSet => Sys2Proof.Machine.execRespSet s
  | .winWrite => Sys2Proof.Machine.execWinWrite s
  | .winRead => Sys2Proof.Machine.execWinRead s
  | .mailPost => Sys2Proof.Machine.execMailPost s
  | .mailWithdraw => Sys2Proof.Machine.execMailWithdraw s
  | .txFrameStart => Sys2Proof.Machine.execTxFrameStart s
  | .txFrameEnd p => Sys2Proof.Machine.execTxFrameEnd p s
  | .resendTimerExpiry => Sys2Proof.Machine.execResendTimerExpiry s
  | .startSeen g m => Sys2Proof.Machine.execStartSeen g m s
  | .stopSeen g => Sys2Proof.Machine.execStopSeen g s
  | .sclFallWhileFree g => Sys2Proof.Machine.execSclFallWhileFree g s
  | .busIdleWindowExpiry g => Sys2Proof.Machine.execBusIdleWindowExpiry g s
  | .startDecision g => Sys2Proof.Machine.execStartDecision g s
  | .addressAck g => Sys2Proof.Machine.execAddressAck g s
  | .writeByteAck g => Sys2Proof.Machine.execWriteByteAck g s
  | .readByte g => Sys2Proof.Machine.execReadByte g s
  | .lengthByte g => Sys2Proof.Machine.execLengthByte g s
  | .stopMade g => Sys2Proof.Machine.execStopMade g s
  | .arbitrationLoss g => Sys2Proof.Machine.execArbitrationLoss g s
  | .stretchLimitExpiry g => Sys2Proof.Machine.execStretchLimitExpiry g s
  | .backoffEnd g => Sys2Proof.Machine.execBackoffEnd g s
  | .holdLimitExpiry g => Sys2Proof.Machine.execHoldLimitExpiry g s
  | .respAddressByte g => Sys2Proof.Machine.execRespAddressByte g s
  | .windowWriteByte g => Sys2Proof.Machine.execWindowWriteByte g s
  | .windowReadByte g => Sys2Proof.Machine.execWindowReadByte g s
  | .mailWriteByte g => Sys2Proof.Machine.execMailWriteByte g s
  | .mailReadByte g => Sys2Proof.Machine.execMailReadByte g s
  | .mailWaitExpiry g => Sys2Proof.Machine.execMailWaitExpiry g s
  | .stuckDetection g => Sys2Proof.Machine.execStuckDetection g s
  | .clearWaitExpiry g => Sys2Proof.Machine.execClearWaitExpiry g s
  | .clearingRoundEnd g => Sys2Proof.Machine.execClearingRoundEnd g s
  | .clearStretchExpiry g => Sys2Proof.Machine.execClearStretchExpiry g s
  | .idleWatchExpiry g => Sys2Proof.Machine.execIdleWatchExpiry g s
  | .lineEdge g e => Sys2Proof.Machine.execLineEdge g e s
  | .clearingPulse g => Sys2Proof.Machine.execClearingPulse g s

end Sys2Proof.Machine
end

