-- ==== Sys2Proof/Machine/Idle.lean ====
section
/-! DEFINITION. The step on an empty queue: one count step of 10 µs (log 2). -/

namespace Sys2Proof.Machine

/-- At a count step the second part of a backoff ends once the bus-free time of the grade in force has elapsed since
the winner's stop (R10, R81). -/
def countBackoff (now : Nat) (x : Segment) : Segment :=
  match x.init with
  | .backoff i (.busFree stop len) =>
    if Config.busFreeTime x.cfg.grade ≤ (now - stop) * Config.tenthsPerStep then
      { x with init := .backoff i (.wait now len) }
    else x
  | _ => x

/-- One count step. -/
def countStep (s : State) : State :=
  { s with now := s.now + 1, segs := s.segs.map (countBackoff (s.now + 1)) }

/-- No command waits: what is owed is taken, then time goes on by one count step, unless a limit has been reached whose
expiry has not been taken (log 2). -/
def idle (s : State) : State :=
  let t := watchLines (settle s)
  if due t then t else countStep t

end Sys2Proof.Machine
end

