-- ==== Sys2Proof/Machine/HostRequests.lean ====
section
/-! DEFINITION. The parameters of the requests as a host lays them out (R183, R184), and the ranges of their values: what
the readers of `Operands.lean` are held to. -/

namespace Sys2Proof.Machine

/-- A number within a range. -/
abbrev within (lo hi n : Nat) : Prop := lo ≤ n ∧ n ≤ hi

/-- The values of a LINK_CONFIG are in range (R177). -/
def linkConfigInRange (w ms : Nat) : Prop := within 1 8 w ∧ within 5 500 ms

/-- LINK_CONFIG: W, the resend time in ms. -/
def linkConfigBytes (w ms : Nat) : List Byte := byteOf w :: countBytes ms

/-- The fields of a configuration are in range (R16). -/
def SegConfig.inRange (c : SegConfig) : Prop :=
  within 1 255 c.stretchMs ∧ within 1 255 c.stuckMs ∧ within 1 255 c.holdMs ∧ c.arbRetry ≤ 15 ∧ c.nackRetry ≤ 15 ∧
    c.retryInterval ≤ 255 ∧ within 1 16 c.queueLimit

/-- SEG_CONFIG: the segment and its ten fields. -/
def segConfigBytes (g : SegId) (c : SegConfig) : List Byte := indexByte g :: configBytes c

/-- A phase is in range (R24, R29). -/
def Phase.inRange (p : Phase) : Prop :=
  within 0x08 0x77 p.target.toNat ∧
    match p.kind with
    | .write bs => bs.length ≤ 64
    | .read n => within 1 64 n
    | .countedRead m => within 1 32 m

/-- A phase entry. -/
def phaseBytes (p : Phase) : List Byte :=
  p.target ::
    match p.kind with
    | .write bs => 0x01 :: byteOf bs.length :: bs
    | .read n => [0x02, byteOf n]
    | .countedRead m => [0x03, byteOf m]

/-- A retry limit, FFh when absent (R185). -/
def limitByte : Option Nat → Byte
  | none => 0xFF
  | some n => byteOf n

/-- A job as submitted is in range (R23, R29). -/
def Submission.inRange (u : Submission) : Prop :=
  u.id ≠ 0 ∧ (∀ n ∈ u.arbLimit, n ≤ 15) ∧ (∀ n ∈ u.nackLimit, n ≤ 15) ∧ (∀ c ∈ u.chain, c.id ≠ 0) ∧
    (∀ p ∈ u.phases, p.inRange) ∧ within 1 8 u.phases.length ∧ writeTotal u.phases ≤ 200 ∧ readSpace u.phases ≤ 192

/-- JOB_SUBMIT. -/
def submitBytes (u : Submission) : List Byte :=
  wordBytes u.id ++ [indexByte u.seg, classByte u.cls, limitByte u.arbLimit, limitByte u.nackLimit] ++
    chainBytes u.chain ++ byteOf u.phases.length :: u.phases.flatMap phaseBytes

/-- The values of a SET are in range (R101). -/
def EntrySettings.inRange (v : EntrySettings) : Prop :=
  within 0x08 0x77 v.address.toNat ∧ v.protectFrom ≤ 64 ∧ v.mailWaitMs ≤ 20

/-- RESP_SET: a SET with its values, or a CLEAR. -/
def respSetBytes (g : SegId) (e : EntryId) : Option EntrySettings → List Byte
  | some v =>
    [indexByte g, indexByte e, 0x01, flagByte v.enable, v.address, modeByte v.mode, flagByte v.notify,
      byteOf v.protectFrom, byteOf v.mailWaitMs]
  | none => [indexByte g, indexByte e, 0x02]

/-- WIN_WRITE. -/
def winWriteBytes (g : SegId) (e : EntryId) (offset : Nat) (bytes : List Byte) : List Byte :=
  indexByte g :: indexByte e :: byteOf offset :: byteOf bytes.length :: bytes

/-- WIN_READ. -/
def winReadBytes (g : SegId) (e : EntryId) (offset len : Nat) : List Byte :=
  [indexByte g, indexByte e, byteOf offset, byteOf len]

/-- MAIL_POST. -/
def mailPostBytes (g : SegId) (e : EntryId) (bytes : List Byte) : List Byte :=
  indexByte g :: indexByte e :: byteOf bytes.length :: bytes

end Sys2Proof.Machine
end

