-- ==== Sys2Proof/Machine/Serial.lean ====
section
/-! DEFINITION. The serial line of the host link (R162): the rates, the levels of a byte and of a frame, what the part sends
on TXD, and the commands that a run of levels on RXD brings. A level is true where the line is high, and stands for one bit
time; the bits of a byte are no commands of their own (log 33). -/

namespace Sys2Proof.Machine

/-- A rate in bits in a second (R162). -/
def Rate.baud : Rate → Nat
  | .b115200 => 115200
  | .b230400 => 230400
  | .b460800 => 460800
  | .b921600 => 921600

/-- The levels of one byte: a start bit, 8 data bits least significant first, no parity bit, one stop bit (R162). -/
def byteLevels (b : Byte) : List Bool := false :: (List.range 8).map b.getLsbD ++ [true]

/-- The time of one byte, 10 bit times, to the nearest tenth of a µs (R162). -/
def Rate.byteTime (r : Rate) : Nat := (10 * 10000000 + r.baud / 2) / r.baud

/-- The levels of the bytes of a frame, back to back (R162). -/
def frameLevels (frame : List Byte) : List Bool := frame.flatMap byteLevels

/-- What the part sends on TXD: the levels of the frame under transmission; with none, TXD is held high (R162). -/
def txdLevels (s : State) : List Bool :=
  match s.link.tx with
  | none => []
  | some t => frameLevels t.frame

/-- The byte of eight data bits, the first the least significant (R162). -/
def byteOfLevels (bits : List Bool) : Byte := bits.foldr (fun l b => b <<< 1 ||| BitVec.ofNat 8 l.toNat) 0

/-- The commands that levels on RXD bring: with no byte begun a low level is a start bit; eight data bits follow, and at the
stop bit the byte is delivered where it is high, and is a framing error where it is low (R162). -/
def sampleRxd : Option (List Bool) → List Bool → List Instr
  | _, [] => []
  | none, l :: ls => sampleRxd (if l then none else some []) ls
  | some bits, l :: ls =>
    if bits.length < 8 then sampleRxd (some (bits ++ [l])) ls
    else (if l then .rxByte (byteOfLevels bits) else .rxFramingError) :: sampleRxd none ls

/-- The commands that levels on an RXD that was high bring (R162). -/
def rxdCommands (ls : List Bool) : List Instr := sampleRxd none ls

end Sys2Proof.Machine
end

