-- ==== Sys2Proof/Safety.lean ====
section
/-! DEFINITION. The words the statements are made of, and the invariant every step keeps. -/

namespace Sys2Proof.Machine

/-! ## Vocabulary -/

/-- Nothing is owed: what edges and requests brought about has been taken, and the quiet-low intervals are up to date
(log 4). Every step but a line edge and REQUEST_TAKEN leaves little or nothing owed. -/
abbrev Quiescent (s : State) : Prop := settle s = s ∧ watchLines s = s

/-- No request is in hand, and the quiet-low intervals are up to date. What a line edge has brought about may still be
owed. -/
abbrev NoneInHand (s : State) : Prop := s.link.inHand = none ∧ watchLines s = s

/-- A new, decoded request with a given code is in hand, recorded in the cache under an age. -/
abbrev InHandIs (s : State) (code : Byte) (r : Request) (age : Nat) : Prop :=
  s.link.inHand = some (.fresh r age) ∧ r.decodes = true ∧ r.code = code ∧ watchLines s = s

/-- `s` with the engine of one segment replaced, its quiet-low interval looked at; nothing else differs. -/
def withEngine (g : SegId) (x : Segment) (s : State) : State := s.setSeg g (watchSegment s.now x)

/-- A command answers the request in hand with a reply, on a state: `s` with what the request changes (`ReplyIsMade`
says what `answer` adds to it). -/
def Answers (c : Instr) (r : Request) (age : Nat) (rc : ReplyCode) (data : List Byte) (s u : State) : Prop :=
  exec c s = .next (answer r { tag := r.tag, age := age } rc data u)

/-- `s` with the receiver in HUNT and its gap timer stopped. -/
def hunting (s : State) : State := { s with link := { s.link with rx := .hunt, gapSince := none } }

/-- `s` with the receiver within a frame and its gap timer restarted. -/
def receiving (rx : Receiver) (s : State) : State :=
  { s with link := { s.link with rx := rx, gapSince := some s.now } }

/-- `s` with link-silent ended, if it was on (R158). -/
def woken (s : State) : State :=
  if s.notices.silent then { s with notices := { s.notices with silent := false, expiries := 0, sendPoint := 0 } } else s

/-- A slot is the first of a queue that continues a chain: the queue is `before`, the slot, `after` (R68). -/
def FirstContinuation (c : Byte) (s : State) (before : List Slot) (i : Slot) (j : Job) : Prop :=
  (∀ k ∈ before, ∀ b, s.job? k = some b → b.continuesChain c = false) ∧ s.job? i = some j ∧ j.continuesChain c = true

/-- The lowest slot that holds a job with an id (R31). -/
def HoldsId (s : State) (id : Word) (i : Slot) (j : Job) : Prop :=
  s.job? i = some j ∧ j.id = id ∧ ∀ k < i, ∀ b, s.job? k = some b → b.id ≠ id

/-- No slot holds a job with an id. -/
def NoJob (s : State) (id : Word) : Prop := ∀ i j, s.job? i = some j → j.id ≠ id

/-- The engine with the bit place it stands at taken. -/
def Segment.took (x : Segment) : Segment := { x with framer := { x.framer with taken := true } }

/-- The engine with both lines released by the part. -/
def Segment.freed (x : Segment) : Segment := { x with drvScl := false, drvSda := false }

/-- The engine making a stop from the low SCL, for an end or a retry (R9, R49). -/
def Segment.stopping (now : Nat) (r : Run) (why : StopWhy) (x : Segment) : Segment :=
  { x with drvSda := true, init := .running { r with sub := .stop why, closing := false, lowSince := some now } }

/-- The engine sending the first bit of its next byte in a sub-step (R49). -/
def Segment.sending (now : Nat) (r : Run) (sub : SubStep) (low : Bool) (x : Segment) : Segment :=
  { x with drvSda := low, init := .running { r with sub := sub, lowSince := some now } }

/-- The acknowledge bit of a byte in a sub-step has ended, and the part goes on with its job. -/
structure AckEnded (x : Segment) (r : Run) (sub : SubStep) : Prop where
  running : x.init = .running r
  place : r.sub = sub
  ongoing : r.closing = false
  ninth : x.framer.pos = 9
  low : x.scl = false
  fresh : x.framer.taken = false

/-- The running job loses the bus at a condition (R76, R77, R80, R81): from `u`, where the condition has been seen and a
transaction ended, both lines are released and the count rises by 1; beyond the limit (0 for a continuation) the job ends
ARB_LOST, a pending cancel ends it CANCELLED, and otherwise it is in the part `rest` of its backoff. In the finishing bit
of a segment reset the count stays and the job ends FLUSHED (R142). -/
def LosesAtCondition (c : Instr) (g : SegId) (r : Run) (j : Job) (rest : Nat → Backoff) (s u : State) : Prop :=
  ∀ k, k = { j with arbCount := min (j.arbCount + 1) 255 } →
    (r.closing = true →
        exec c s = .next (watchLines (leave g (finishJob r.slot .flushed true (u.setSeg g (u.seg g).freed))))) ∧
      (r.closing = false →
        ((if j.isContinuation then 0 else j.arbLimit) < k.arbCount →
            exec c s =
              .next
                (watchLines
                  (leave g (finishJob r.slot .arbLost true ((u.setSeg g (u.seg g).freed).setJob r.slot (some k)))))) ∧
          (k.arbCount ≤ (if j.isContinuation then 0 else j.arbLimit) →
            (j.cancelPending = true →
                exec c s =
                  .next
                    (watchLines
                      (leave g
                        (finishJob r.slot .cancelled true ((u.setSeg g (u.seg g).freed).setJob r.slot (some k)))))) ∧
              (j.cancelPending = false →
                exec c s =
                  .next
                    (watchLines
                      ((u.setJob r.slot (some k)).setSeg g
                        { (u.seg g).freed with
                          init := .backoff r.slot (rest ((u.seg g).cfg.retryInterval * 10 * k.arbCount)) })))))

/-- The engine `y` an SCL fall leaves of `x` where it is seen while the line monitor is FREE, before a collision is taken.
The monitor is UNKNOWN with no stop time, its window waiting (R13). The initiator and the responder set the bit after the fall
and a clearing round begins its pulse or its stop as at any falling edge (R2, R7, R8, R93, R94, R106, R112, R127, R142); the
idle watch waits (R97), and the quiet-low time is measured afresh (R86). The stretch measurement from the fall is log 1, a
fall in RESTART before its drive log 17, a high period cut short log 18, a byte whose ninth pulse has ended log 27, a stop
whose low period begins again log 29, a fall after a round's stop log 34. -/
structure FallsWhileFree (s : State) (x y : Segment) : Prop where
  levels : y.scl = false ∧ y.sda = x.sda
  monitor : y.mon = { line := .unknown, stopTime := none, idleSince := none }
  kept : y.cfg = x.cfg ∧ y.queue = x.queue ∧ y.entries = x.entries ∧ y.summary = x.summary ∧
    y.resetting = x.resetting ∧ y.disabling = x.disabling
  framing : y.framer =
    match x.resp with
    | .selectedRead t => if x.framer.pos = 9 ∧ t.preloaded = true then { x.framer with taken := true } else x.framer
    | _ => x.framer
  initiator : (∀ r, x.init = .running r → s.job? r.slot ≠ none) →
    y.init =
      match x.init with
      | .running r =>
        if r.closing then .running { r with sub := .stop (.ends .flushed), closing := false, lowSince := some s.now }
        else if r.drove ∧ (r.sub = .start ∨ r.sub = .restart) then
          .running { r with sub := .address, drove := false, lowSince := some s.now }
        else .running { r with lowSince := some s.now }
      | .held h => .held { h with lowSince := if h.closing = none then h.lowSince else some s.now }
      | k => k
  responder : y.resp =
    match x.resp with
    | .selectedWrite t => .selectedWrite (if x.framer.pos = 9 then { t with undo := none } else t)
    | .selectedRead t =>
      if x.framer.pos ≠ 9 then .selectedRead t
      else if t.preloaded then .selectedRead { t with preloaded := false }
      else if x.framer.kind = .data ∧ x.framer.ackHigh = true then
        .selectedRead { t with nacked := true, sender := 0xFF }
      else .selectedRead t
    | .mailWait t l w => .mailWait t l (if x.framer.pos = 9 then some s.now else w)
    | k => k
  clock : x.clear.isClearing = false →
    y.drvScl =
      match x.resp with
      | .mailWait _ _ _ => decide (x.framer.pos = 9) || x.drvScl
      | _ => x.drvScl
  initiatorBit : ∀ r j, x.init = .running r → s.job? r.slot = some j → x.resp.transaction? = none →
    x.clear.isClearing = false →
    y.drvSda =
      if r.closing then true
      else
        match r.sub with
        | .start | .restart => if r.drove then !j.addressByte.getLsbD 7 else x.drvSda
        | .address => decide (x.framer.pos < 8) && !j.addressByte.getLsbD (7 - x.framer.pos)
        | .write => decide (x.framer.pos < 8) && !j.payloadByte.getLsbD (7 - x.framer.pos)
        | .read => decide (x.framer.pos = 8) && j.acksRead x.framer.shift
        | .stop _ => x.drvSda
  responderBit : x.init.ownsBus = false → (∀ r, x.init = .running r → r.closing = false) → x.clear.isClearing = false →
    y.drvSda =
      match x.resp with
      | .selectedWrite t => decide (x.framer.pos = 8) && (decide (x.framer.kind = .address) || t.ackLow)
      | .selectedRead t =>
        if x.framer.pos = 9 then t.preloaded && !t.sender.getLsbD 7
        else if x.framer.kind = .address then decide (x.framer.pos = 8)
        else decide (x.framer.pos < 8) && !t.sender.getLsbD (7 - x.framer.pos)
      | .mailWait _ _ _ => decide (x.framer.pos = 8)
      | _ => x.drvSda
  watch : (x.clear = .normal → y.clear = .normal) ∧ ∀ w, x.clear = .stuck w → y.clear = .stuck none
  round : ∀ c, x.clear = .clearing c →
    (c.stage = .pulseHigh ∨ (c.stage = .pulseLow ∧ x.sda = false ∧ c.pulses < 9) →
        y.clear = .clearing { c with stage := .pulseLow, pulses := c.pulses + 1, lowSince := some s.now }) ∧
      (c.stage = .stopHigh ∨ (c.stage = .pulseLow ∧ x.sda = true) →
        y.clear = .clearing { c with stage := .stopLow, lowSince := some s.now } ∧ y.drvSda = true) ∧
      (c.stage = .pulseLow → x.sda = false → 9 ≤ c.pulses →
        y.drvScl = false ∧ y.drvSda = false ∧
          y.clear =
            if c.round < 3 then .clearing { c with pulses := 0, stage := .wait s.now, lowSince := none, stopAt := none }
            else .stuck none) ∧
      (c.stage = .stopLow →
        y.clear = .clearing { c with lowSince := some s.now } ∧
          ((∀ r, x.init ≠ .running r) → x.resp.transaction? = none → y.drvSda = x.drvSda)) ∧
      (c.stage = .stopDone ∨ (∃ since, c.stage = .wait since) → y.clear = .clearing c)
  quiet : y.quiet =
    if y.clear = .normal ∧ ((y.scl = false ∧ y.drvScl = false) ∨ (y.sda = false ∧ y.drvSda = false)) then
      some { since := s.now, limitMs := x.cfg.stuckMs }
    else none

/-- A phase entry of JOB_SUBMIT is well formed: a kind of the table, and a payload where the kind has one, as long as the
entry declares (R28, R184). -/
def RawEntry.formed (e : RawEntry) : Prop :=
  (e.kind = 0x01 ∧ e.payload.length = e.arg.toNat) ∨ ((e.kind = 0x02 ∨ e.kind = 0x03) ∧ e.payload = [])

/-- A phase entry of JOB_SUBMIT as it stands in the parameters (R184). -/
def RawEntry.bytes (e : RawEntry) : List Byte := e.target :: e.kind :: e.arg :: e.payload

/-- The rows that are events of the link, the lines or the time (log 4): not reset, not an answer to a request in hand,
and not a step that an edge has brought about. -/
def isEvent : Instr → Bool
  | .rxByte _ | .rxFramingError | .rxGapTimeout | .requestTaken | .txFrameStart | .txFrameEnd _ | .resendTimerExpiry
  | .startSeen _ _ | .stopSeen _ | .sclFallWhileFree _ | .busIdleWindowExpiry _ | .startDecision _ | .stopMade _
  | .stretchLimitExpiry _ | .backoffEnd _ | .holdLimitExpiry _ | .mailWaitExpiry _ | .stuckDetection _
  | .clearWaitExpiry _ | .clearingRoundEnd _ | .clearStretchExpiry _ | .idleWatchExpiry _ | .lineEdge _ _
  | .clearingPulse _ => true
  | _ => false

/-- The rows that are steps an edge has brought about (log 4). -/
def isOwed : Instr → Bool
  | .addressAck _ | .writeByteAck _ | .readByte _ | .lengthByte _ | .arbitrationLoss _ | .respAddressByte _
  | .windowWriteByte _ | .windowReadByte _ | .mailWriteByte _ | .mailReadByte _ => true
  | _ => false

/-- The part right after a full reset with a cause and straps (R44, R152, R162): time, lines and queue are kept. -/
structure AfterFullReset (c : Cause) (p : Straps) (s t : State) : Prop where
  time : t.now = s.now
  queue : t.pending = s.pending
  released : t.resetHeld = none
  engines : ∀ g, t.seg g = Segment.atReset (s.seg g).scl (s.seg g).sda
  slots : ∀ i, t.job? i = none
  link : t.link = Link.atReset (rateOf p)
  restarted :
    t.notices.queue = [{ seq := 0, kind := .restarted, source := .record, payload := [causeByte c] }] ∧
      t.notices.next = 1
  sending :
    t.notices.window = 4 ∧ t.notices.resendMs = 40 ∧ t.notices.sentLimit = 0 ∧ t.notices.sendPoint = 0 ∧
      t.notices.timer = none ∧ t.notices.expiries = 0 ∧ t.notices.silent = false ∧ t.notices.lastServed = 3
  records : freeRecords t = 23
  blocks : freeBlocks t = 64

/-- The part while RST is held low (R152, R162): every block at its reset values, nothing queued or sent, the rate
kept. -/
structure HeldInReset (c : Cause) (s t : State) : Prop where
  time : t.now = s.now
  queue : t.pending = s.pending
  held : t.resetHeld = some c
  engines : ∀ g, t.seg g = Segment.atReset (s.seg g).scl (s.seg g).sda
  slots : ∀ i, t.job? i = none
  link : t.link = Link.atReset s.link.rate
  quiet : t.notices.queue = [] ∧ attn t = false ∧ txdIdle t = true

/-! ## The invariant -/

/-- An address entry is as the spec bounds it: its window in canonical form, P at most 64, the mail wait limit at most
20 ms, at most 4 messages of 1 to 32 bytes, a deferred write inside the window (R100, R114, R117). -/
def Entry.ok (n : Entry) : Prop :=
  Memory.wf n.window ∧ n.protectFrom ≤ 64 ∧ n.mailWaitMs ≤ 20 ∧ n.outbox.length ≤ 4 ∧
    (∀ m ∈ n.outbox, 1 ≤ m.length ∧ m.length ≤ 32) ∧
    ∀ w ∈ n.deferred, w.offset + w.bytes.length ≤ Config.windowBytes

/-- A segment that is OFF is disabled and inert: it drives neither line, its responder is OFF, its bus-clear unit
NORMAL without an interval, its line monitor UNKNOWN with no stop time and no window (R1, R11, R12, R46, R86, R104). -/
def Segment.offOk (x : Segment) : Prop :=
  x.init = .off →
    x.cfg.enable = false ∧ x.disabling = false ∧ x.resetting = false ∧ x.drvScl = false ∧ x.drvSda = false ∧
      x.resp = .off ∧ x.clear = .normal ∧ x.quiet = none ∧ x.mon = Monitor.atReset

/-- A segment engine is as the spec bounds it. -/
def Segment.ok (x : Segment) : Prop := (∀ e, (x.entry e).ok) ∧ x.offOk

/-- The notice queue's numbers are consecutive up to the counter, and the sent limit and the send point lie within the
queue (R146, R153). -/
def Notices.ok (n : Notices) : Prop :=
  (∀ k (h : k < n.queue.length), n.queue[k].seq = n.next - BitVec.ofNat 16 (n.queue.length - k)) ∧
    n.sentLimit ≤ n.queue.length ∧ n.sendPoint ≤ n.queue.length

/-- The inbound buffer holds at most 4 frames and the reply cache at most one entry for each tag (R167, R169). -/
def Link.ok (l : Link) : Prop := l.inbound.length ≤ Config.inboundFrames ∧ (l.cache.map (·.tag)).Nodup

/-- Every part is as the spec bounds it. -/
structure Bounds (s : State) : Prop where
  engines : ∀ g, (s.seg g).ok
  notices : s.notices.ok
  link : s.link.ok

/-- One unit at a time drives the lines of a segment (R11, R92): the initiator in HELD and in RUNNING from the drive of its
start on, the responder in a transaction, the bus-clear unit in CLEARING. A line no unit drives is released, and a clearing
round drives SDA in its stop alone. A START not yet driven, which drives nothing, may stand beside a transaction: its start
ends the transaction before it drives (R105, R107, log 28). -/
structure Segment.exclusive (x : Segment) : Prop where
  responder : ∀ t, x.resp.transaction? = some t → x.init.ownsBus = false ∧ x.clear.isClearing = false
  initiator : x.init.drives = true → x.clear = .normal
  undriven : x.init.ownsBus = false → x.resp.transaction? = none → x.clear.isClearing = false →
    x.drvScl = false ∧ x.drvSda = false
  starting : ∀ r, x.init = .running r → r.sub = .start → r.drove = false → r.closing = false
  clearing : ∀ c, x.clear = .clearing c → x.drvScl = false ∧ (c.stage ≠ .stopLow → x.drvSda = false)

/-- The initiator is on its way out: its hold is closing, or its run finishes its bit for a segment reset or makes the
stop of an outcome already reached (R142). -/
def Initiator.leaving : Initiator → Bool
  | .running r =>
    match r.sub with
    | .stop (.ends _) => true
    | .stop .retry => false
    | .start | .address | .write | .read | .restart => r.closing
  | .held h => h.closing.isSome
  | .off | .idle | .waiting _ | .backoff _ _ => false

/-- A segment reset or a disable that has not ended waits for an initiator that is on its way out (R141, R142, R145). -/
def Segment.ending (x : Segment) : Prop := x.resetting = true ∨ x.disabling = true → x.init.leaving = true

/-- Two enabled entries of a segment have different addresses (R101). -/
def Segment.distinct (x : Segment) : Prop :=
  ∀ e k, (x.entry e).enable = true → (x.entry k).enable = true → (x.entry e).address = (x.entry k).address → e = k

/-- The job pool: jobs by slot, the sources of the notices, the queues and the current jobs. No two jobs have one id
(R31). The jobs in QUEUED are those of their segment's queue, each once; the CURRENT ones are the current jobs of their
segments; the FINISHED ones are those of a JOB_DONE notice, each of one (R36, R39, R42, R43, R46, R146). -/
structure Pool (jobs : Slot → Option Job) (sources : List Source) (queue : SegId → List Slot)
    (current : SegId → Option Slot) : Prop where
  ids : ∀ i k j b, jobs i = some j → jobs k = some b → j.id = b.id → i = k
  queued : ∀ g i, i ∈ queue g ↔ ∃ j, jobs i = some j ∧ j.seg = g ∧ j.status = .queued
  once : ∀ g, (queue g).Nodup
  current : ∀ g i, current g = some i ↔ ∃ j, jobs i = some j ∧ j.seg = g ∧ j.status = .current
  finished : ∀ i, .job i ∈ sources ↔ ∃ j c, jobs i = some j ∧ j.status = .finished c
  single : ∀ i, sources.count (.job i) ≤ 1

/-- The job pool of a state. -/
abbrev State.pool (s : State) : Prop :=
  Pool s.job? (s.notices.queue.map (·.source)) (fun g => (s.seg g).queue) (fun g => (s.seg g).init.slot?)

/-- What may hold a taken request whose reply is still to be made: the link unit, a job with a cancel pending, an address
entry with a deferred write (R136, R114, R172). -/
inductive Holder where
  | hand
  | cancel (i : Slot)
  | write (g : SegId) (e : EntryId)
  deriving DecidableEq, Repr

/-- Every holder, once. -/
def holders : List Holder :=
  .hand :: (slots.map .cancel ++ (List.finRange 4).flatMap (fun g => (List.finRange 4).map (.write g)))

/-- The reply a holder owes, with the age of its request's cache entry; a replay has none. -/
def State.owes (s : State) : Holder → Option (Option Nat)
  | .hand =>
    match s.link.inHand with
    | some (.fresh _ age) => some (some age)
    | some (.duplicate _ (some _)) => some none
    | _ => none
  | .cancel i => (s.job? i).bind (fun j => j.cancelReply.map (fun d => some d.age))
  | .write g e => ((s.seg g).entry e).deferred.map (fun w => some w.request.age)

/-- The replies owed: each has its place reserved, the held replies and the reserved places number at most 8, every
PENDING cache entry is of a request whose reply is owed, and the cache holds at most 16 entries, no two of one age (R136,
R169, R170, R172). -/
structure Owed (s : State) : Prop where
  reserved : s.link.reserved = (holders.filterMap s.owes).length
  places : s.link.replies.length + s.link.reserved ≤ Config.replyPlaces
  capacity : s.link.cache.length ≤ Config.cacheEntries
  pending : ∀ e ∈ s.link.cache, e.reply = none → ∃ h, s.owes h = some (some e.age)
  ages : (s.link.cache.map (·.age)).Nodup ∧ ∀ e ∈ s.link.cache, e.age < s.link.nextAge
  cancels : ∀ i j, s.job? i = some j → j.cancelReply ≠ none → j.cancelPending = true ∧ j.status = .current

/-- What every step keeps. -/
structure Inv (s : State) : Prop where
  bounds : Bounds s
  exclusive : ∀ g, (s.seg g).exclusive
  ending : ∀ g, (s.seg g).ending
  distinct : ∀ g, (s.seg g).distinct
  pool : s.pool
  owed : Owed s

end Sys2Proof.Machine
end

