-- ==== Sys2Proof/Certificates/Slice0/Obligations.lean ====
section
/-! DEFINITION. The statements for the provers. Words used in all of them stand in `Safety.lean`; the operations they
name (`answer`, `finishJob`, `claimEvent`, `leave`, …) are each pinned down by a statement of their own. -/

open Sys2Proof Sys2Proof.Machine

/-! ## Steps -/

/-- A step runs the command at the front of the queue with the queue's rest. -/
def Obligations.StepRunsFrontCommand : Prop :=
  ∀ (c : Instr) (rest : List Instr) (s : State), s.pending = c :: rest → step s = exec c { s with pending := rest }

/-- On an empty queue a step takes one count step of 10 µs, or none while an expiry is due and not taken; at a count step
only the second part of a backoff ends by itself (R10, R81). The model's choice: log 2; a request that could be taken and a
frame that could be begun do not hold time: logs 36 and 37. -/
def Obligations.EmptyQueueTakesOneCountStep : Prop :=
  ∀ s : State, s.pending = [] → Quiescent s →
    (due s = true → step s = .next s) ∧
      (due s = false →
        ∃ t, step s = .next t ∧ t = { s with now := s.now + 1, segs := t.segs } ∧
          ∀ g, t.seg g =
            match (s.seg g).init with
            | .backoff i (.busFree stop len) =>
              if Config.busFreeTime (s.seg g).cfg.grade ≤ (s.now + 1 - stop) * Config.tenthsPerStep then
                { s.seg g with init := .backoff i (.wait (s.now + 1) len) }
              else s.seg g
            | _ => s.seg g)

/-- Every command ends in a next state in every state, and it takes no time and leaves the commands that wait alone: the
model's choice, logs 1, 2 and 8, and log 3 where its event cannot come about. What edges and requests brought about is
taken before an event, and a request in hand is answered before a step that an edge has brought about: the model's choice,
log 4. At the end of a step the quiet-low intervals are up to date (R86). -/
def Obligations.EveryCommandCompletes : Prop :=
  (∀ (c : Instr) (s : State), ∃ t, exec c s = .next t ∧ t.pending = s.pending ∧ t.now = s.now) ∧
    (∀ (c : Instr) (s : State), isEvent c = true → exec c s = exec c (settle s)) ∧
    (∀ (c : Instr) (s : State), isOwed c = true → exec c s = exec c (answerInHand s)) ∧
    ∀ (c : Instr) (s t : State), (∀ p, c ≠ .rstRelease p) → exec c s = .next t → watchLines t = t

/-! ## Reset -/

/-- Power-up and RST (R44, R152, R162). The straps select one of four rates; a byte takes 86.8 µs at the lowest and 10.9 µs
at the highest (R162). That time, line levels and waiting commands are kept, and that a fall of RST keeps a cause already
pending, are the model's choice, log 8; that a release of RST that was not low changes nothing, log 3. -/
def Obligations.PowerOnAndRstReset : Prop :=
  ∀ (p : Straps) (s : State),
    (∃ t, exec (.powerOn false p) s = .next t ∧ AfterFullReset .powerOn p s t) ∧
      (∃ t, exec (.powerOn true p) s = .next t ∧ HeldInReset .powerOn s t) ∧
      (∃ t, exec .rstLow s = .next t ∧ HeldInReset (s.resetHeld.getD .resetPin) s t) ∧
      (∀ c, s.resetHeld = some c → ∃ t, exec (.rstRelease p) s = .next t ∧ AfterFullReset c p s t) ∧
      (s.resetHeld = none → exec (.rstRelease p) s = .next s) ∧
      (rateOf p).baud =
        (match p.baud1, p.baud0 with
        | false, false => 115200
        | false, true => 230400
        | true, false => 460800
        | true, true => 921600) ∧
      (rateOf ⟨false, false⟩).byteTime = 868 ∧ (rateOf ⟨true, true⟩).byteTime = 109

/-- The machine right after reset holds the values of R12, R16, R46, R92, R100, R104, R117, R150, R152, R164 to R172
(the levels of lines and straps: logs 6 and 7). -/
def Obligations.ResetValues : Prop :=
  State.reset.pending = [] ∧ State.reset.resetHeld = none ∧ attn State.reset = true ∧ txdIdle State.reset = true ∧
    freeSlots State.reset = 32 ∧ freeBlocks State.reset = 64 ∧ freeRecords State.reset = 23 ∧
    State.reset.notices =
      { queue := [{ seq := 0x0000, kind := .restarted, source := .record, payload := [0x01] }]
        next := 0x0001, window := 4, resendMs := 40, sentLimit := 0, sendPoint := 0, timer := none, expiries := 0,
        silent := false, lastServed := 3 } ∧
    State.reset.link.rx = .hunt ∧ State.reset.link.inbound = [] ∧ State.reset.link.cache = [] ∧
    State.reset.link.replies = [] ∧ State.reset.link.reserved = 0 ∧ State.reset.link.resetTaken = false ∧
    ∀ g : SegId,
      (State.reset.seg g).cfg =
          { enable := false, grade := .s100, stretchMs := 25, stuckMs := 35, holdMs := 10, arbRetry := 8,
            nackRetry := 2, retryInterval := 5, queueLimit := 8, recovery := true } ∧
        (State.reset.seg g).mon.line = .unknown ∧ (State.reset.seg g).mon.stopTime = none ∧
        (State.reset.seg g).queue = [] ∧ (State.reset.seg g).init = .off ∧ (State.reset.seg g).resp = .off ∧
        (State.reset.seg g).clear = .normal ∧ (State.reset.seg g).quiet = none ∧
        (State.reset.seg g).drvScl = false ∧ (State.reset.seg g).drvSda = false ∧
        (State.reset.seg g).summary.holds = false ∧
        ∀ e : EntryId,
          (State.reset.seg g).entry e =
              { enable := false, address := none, mode := .window, notify := false, protectFrom := 64,
                mailWaitMs := 0, pointer := 0, window := [], outbox := [], deferred := none } ∧
            ∀ i < 64, Memory.read i ((State.reset.seg g).entry e).window = 0x00

/-! ## Receiver -/

/-- The receiver takes each delivered byte in its state (R164), and is in HUNT after a full reset. -/
def Obligations.ReceiverAdvances : Prop :=
  (∀ (c : Cause) (p : Straps) (s : State), (fullReset c p s).link.rx = .hunt) ∧
    ∀ (b : Byte) (s : State), Quiescent s → s.resetHeld = none →
      match s.link.rx with
      | .hunt => exec (.rxByte b) s = .next (if b = 0xB7 then receiving .length s else s)
      | .length =>
        exec (.rxByte b) s =
          .next (if 3 ≤ b.toNat ∧ b.toNat ≤ 250 then receiving (.body b []) s else hunting s)
      | .body len got =>
        exec (.rxByte b) s =
          .next
            (if got.length + 1 < len.toNat then receiving (.body len (got ++ [b])) s
            else receiving (.check len (got ++ [b]) none) s)
      | .check len body none => exec (.rxByte b) s = .next (receiving (.check len body (some b)) s)
      | .check len body (some high) =>
        exec (.rxByte b) s = .next (checkFrame len body (wordOf high b) (hunting s)) ∧
          (checkFrame len body (wordOf high b) (hunting s)).link.rx = .hunt

/-- On RXD a byte is a start bit, 8 data bits least significant first, no parity bit and one stop bit: with a high stop bit
it is delivered, with a low one it is a framing error; a high line brings nothing, the bytes of a run sent back to back
arrive as they are, and a break is a framing error on each byte time (R162; the bits are no commands of their own: the
model's choice, log 33). A byte with a low stop bit discards the frame in progress (R162). A frame complete at its second
CRC byte is discarded if its CRC, its kind or the size of its body is wrong; an ACK is applied; a REQUEST joins the inbound
buffer if it has room and no DEV_RESET is taken; a valid frame ends link-silent (R158, R163, R166, R178); that the resend
timer stays stopped at that end, until the next notice begins transmission, is the model's reading, log 35. -/
def Obligations.FrameIsCheckedOrDiscarded : Prop :=
  (∀ ls : List Bool, rxdCommands (true :: ls) = rxdCommands ls) ∧
  (∀ (b : Byte) (stop : Bool) (ls : List Bool),
    rxdCommands
        (false :: b.getLsbD 0 :: b.getLsbD 1 :: b.getLsbD 2 :: b.getLsbD 3 :: b.getLsbD 4 :: b.getLsbD 5 :: b.getLsbD 6 ::
          b.getLsbD 7 :: stop :: ls) =
      (if stop then .rxByte b else .rxFramingError) :: rxdCommands ls) ∧
  (∀ bs : List Byte, rxdCommands (frameLevels bs) = bs.map .rxByte) ∧
  (∀ n : Nat, rxdCommands (List.replicate (10 * n) false) = List.replicate n .rxFramingError) ∧
  ∀ s : State, Quiescent s →
    exec .rxFramingError s = .next (hunting s) ∧
      ∀ (len : Byte) (body : List Byte) (high low : Byte), s.resetHeld = none → s.link.rx = .check len body (some high) →
        (crc (len :: body) ≠ wordOf high low → exec (.rxByte low) s = .next (hunting s)) ∧
          (crc (len :: body) = wordOf high low →
            (∀ a1 a0, body = [0x02, a1, a0] →
                exec (.rxByte low) s = .next (acknowledge (wordOf a1 a0) (woken (hunting s)))) ∧
              (∀ tag valid a1 a0 code params, body = 0x01 :: tag :: valid :: a1 :: a0 :: code :: params →
                exec (.rxByte low) s =
                  .next
                    (if s.link.resetTaken = false ∧ s.link.inbound.length < 4 then
                      { woken (hunting s) with
                        link :=
                          { (hunting s).link with
                            inbound :=
                              s.link.inbound ++
                                [{ tag := tag, ackValid := valid, ackSeq := wordOf a1 a0, code := code,
                                   params := params, crc := wordOf high low }] } }
                    else woken (hunting s))) ∧
              ((body.head? ≠ some 0x01 ∨ body.length < 6) → (body.head? ≠ some 0x02 ∨ body.length ≠ 3) →
                exec (.rxByte low) s = .next (hunting s)))

/-- The gap timer (R165): it is restarted at every byte delivered within a frame and stops when the frame is complete or
discarded, 2 ms are 200 count steps at every rate, and at 2 ms the frame is discarded and the receiver hunts; a byte
delivered then is examined by HUNT. Before 2 ms the expiry changes nothing: the model's choice, log 3. -/
def Obligations.GapTimer : Prop :=
  (∀ s : State, gapDue s = true ↔ ∃ since, s.link.gapSince = some since ∧ since + 200 ≤ s.now) ∧
    (∀ (b : Byte) (s t : State), Quiescent s → s.resetHeld = none → exec (.rxByte b) s = .next t →
      (t.link.rx ≠ .hunt → t.link.gapSince = some s.now) ∧
        (s.link.rx ≠ .hunt → t.link.rx = .hunt → t.link.gapSince = none)) ∧
    (∀ s : State, Quiescent s → gapDue s = true → exec .rxGapTimeout s = .next (hunting s)) ∧
    (∀ s : State, Quiescent s → gapDue s = false → exec .rxGapTimeout s = .next s) ∧
    ∀ (b : Byte) (s : State), Quiescent s → s.resetHeld = none → s.link.rx = .hunt →
      exec (.rxByte b) s = .next (if b = 0xB7 then receiving .length s else s)

/-- The CRC register ends at 0000h when run over a run of bytes followed by their CRC, and the nine bytes 31h to 39h
give 29B1h (R180). -/
def Obligations.CrcLeavesNoResidue : Prop :=
  crc [0x31, 0x32, 0x33, 0x34, 0x35, 0x36, 0x37, 0x38, 0x39] = 0x29B1 ∧
    ∀ bs : List Byte, crc (bs ++ wordBytes (crc bs)) = 0x0000

/-! ## Notices -/

/-- ATTN is asserted while the notice queue holds any entry, whatever has been sent and in link-silent too; it is
deasserted when an acknowledgement leaves none, asserted when an entry joins, and asserted after a full reset (R160). -/
def Obligations.AttnFollowsQueue : Prop :=
  (∀ s : State, attn s = true ↔ s.notices.queue ≠ []) ∧
    (∀ (a : Word) (s : State), (acknowledge a s).notices.queue = [] → attn (acknowledge a s) = false) ∧
    (∀ (kind : NoticeKind) (source : Source) (payload : List Byte) (s : State),
      attn (joinNotice kind source payload s) = true) ∧
    ∀ (c : Cause) (p : Straps) (s : State), attn (fullReset c p s) = true

/-- An acknowledgement naming A is valid when A minus the head's number, modulo 65536, is below the sent limit. It
retires the entries up to A, head first, frees what they refer to and sets the send state; any other changes nothing
(R44, R154, R156; in link-silent the timer stays stopped: log 13). A retirement takes the head off the queue and lowers the
sent limit and the send point by 1; a JOB_DONE frees its slot, any other entry releases its record, which may serve a
pending summary (R151: `EventPoolClaimsAndReleases` says what `releaseRecord` does). -/
def Obligations.AcknowledgementRetires : Prop :=
  (∀ s : State, retire 0 s = s ∧ (∀ n, retire (n + 1) s = retire n (retireHead s)) ∧
    (s.notices.queue = [] → retireHead s = s) ∧
    ∀ n rest u, s.notices.queue = n :: rest →
      u =
          { s with
            notices :=
              { s.notices with
                queue := rest, sentLimit := s.notices.sentLimit - 1, sendPoint := s.notices.sendPoint - 1 } } →
        (∀ i, n.source = .job i → retireHead s = u.setJob i none) ∧ (n.source = .record → retireHead s = releaseRecord u)) ∧
  ∀ (a : Word) (s : State), s.notices.ok →
    (s.notices.queue = [] → acknowledge a s = s) ∧
      ∀ h rest, s.notices.queue = h :: rest →
        (s.notices.sentLimit ≤ (a - h.seq).toNat → acknowledge a s = s) ∧
          ((a - h.seq).toNat < s.notices.sentLimit →
            acknowledge a s =
                { retire ((a - h.seq).toNat + 1) s with
                  notices :=
                    { (retire ((a - h.seq).toNat + 1) s).notices with
                      expiries := 0
                      timer :=
                        if (a - h.seq).toNat + 1 < s.notices.sentLimit ∧ s.notices.silent = false then
                          some { since := s.now, lenMs := s.notices.resendMs }
                        else none } } ∧
              (∃ more,
                (acknowledge a s).notices.queue = s.notices.queue.drop ((a - h.seq).toNat + 1) ++ more ∧
                  ∀ n ∈ more, n.kind = .segSummary ∧ n.source = .record) ∧
              (acknowledge a s).notices.sentLimit = s.notices.sentLimit - ((a - h.seq).toNat + 1) ∧
              (acknowledge a s).notices.sendPoint = s.notices.sendPoint - ((a - h.seq).toNat + 1) ∧
              (acknowledge a s).notices.expiries = 0 ∧
              (acknowledge a s).notices.timer =
                (if (a - h.seq).toNat + 1 < s.notices.sentLimit ∧ s.notices.silent = false then
                  some { since := s.now, lenMs := s.notices.resendMs }
                else none) ∧
              (acknowledge a s).notices.window = s.notices.window ∧
              (acknowledge a s).notices.resendMs = s.notices.resendMs ∧
              (acknowledge a s).notices.silent = s.notices.silent ∧
              (∀ i, (∃ n ∈ s.notices.queue.take ((a - h.seq).toNat + 1), n.source = .job i) →
                (acknowledge a s).job? i = none) ∧
              (∀ i, (∀ n ∈ s.notices.queue.take ((a - h.seq).toNat + 1), n.source ≠ .job i) →
                (acknowledge a s).job? i = s.job? i) ∧
              (acknowledge a s).link = s.link ∧ (acknowledge a s).resetHeld = s.resetHeld ∧
              ∀ g, (acknowledge a s).seg g = { s.seg g with summary := ((acknowledge a s).seg g).summary })

/-- An event claims a record and joins the notice queue, or folds into its segment's pending summary when no record is
free; a released record is handed to the first pending summary after the last served, or becomes free (R148 to R151). -/
def Obligations.EventPoolClaimsAndReleases : Prop :=
  (∀ (g : SegId) (ev : SegEvent) (s : State), 0 < freeRecords s →
    claimEvent g ev s =
      { s with
        notices :=
          { s.notices with
            queue :=
              s.notices.queue ++ [{ seq := s.notices.next, kind := ev.kind, source := .record, payload := ev.payload g }]
            next := s.notices.next + 1 } }) ∧
    (∀ (g : SegId) (ev : SegEvent) (s : State), freeRecords s = 0 →
      ∃ u, claimEvent g ev s = s.setSeg g { s.seg g with summary := u } ∧
        match ev with
        | .busStuck _ _ _ => u = { (s.seg g).summary with stuckSeen := true }
        | .busRecovered _ _ => u = { (s.seg g).summary with recoveredSeen := true }
        | .holdLapsed c => u = { (s.seg g).summary with lapsed := some c }
        | .windowWritten e first count =>
          u = { (s.seg g).summary with entries := u.entries } ∧
            (∀ k : EntryId, k ≠ e → u.entries[k] = (s.seg g).summary.entries[k]) ∧
            u.entries[e].takenCount = (s.seg g).summary.entries[e].takenCount ∧
            u.entries[e].emptyCount = (s.seg g).summary.entries[e].emptyCount ∧
            ∀ i < 64, u.entries[e].dirty.getLsbD i = true ↔
              (s.seg g).summary.entries[e].dirty.getLsbD i = true ∨ ∃ n < count, i = (first.val + n) % 64
        | .mailTaken e _ _ _ _ =>
          u = { (s.seg g).summary with entries := u.entries } ∧
            (∀ k : EntryId, k ≠ e → u.entries[k] = (s.seg g).summary.entries[k]) ∧
            u.entries[e] =
              { (s.seg g).summary.entries[e] with
                takenCount := min ((s.seg g).summary.entries[e].takenCount + 1) 255 }
        | .mailEmptyRead e _ _ =>
          u = { (s.seg g).summary with entries := u.entries } ∧
            (∀ k : EntryId, k ≠ e → u.entries[k] = (s.seg g).summary.entries[k]) ∧
            u.entries[e] =
              { (s.seg g).summary.entries[e] with
                emptyCount := min ((s.seg g).summary.entries[e].emptyCount + 1) 255 }) ∧
    (∀ s : State, (∀ g, (s.seg g).summary.holds = false) → releaseRecord s = s) ∧
    ∀ (k : SegId) (s : State), (s.seg (s.notices.lastServed + 1 + k)).summary.holds = true →
      (∀ j < k, (s.seg (s.notices.lastServed + 1 + j)).summary.holds = false) →
      releaseRecord s =
        { s.setSeg (s.notices.lastServed + 1 + k)
            { s.seg (s.notices.lastServed + 1 + k) with summary := Summary.empty } with
          notices :=
            { s.notices with
              queue :=
                s.notices.queue ++
                  [{ seq := s.notices.next, kind := .segSummary, source := .record,
                     payload :=
                      summaryPayload (s.notices.lastServed + 1 + k) (s.seg (s.notices.lastServed + 1 + k)).summary }]
              next := s.notices.next + 1
              lastServed := s.notices.lastServed + 1 + k } }

/-! ## Ends -/

/-- A job ends: its completion record is made, it is FINISHED, its slot joins the notice queue as JOB_DONE, and any
pending cancel reply is made, OK for CANCELLED and FINISHED otherwise, and FINISHED where a segment reset was taken in the
job's stop (R43, R63, R136, R138, R142). Nothing else changes. -/
def Obligations.JobFinishes : Prop :=
  ∀ (i : Slot) (o : JobOutcome) (running : Bool) (s : State) (j : Job) (c : Completion), s.job? i = some j →
    c =
        { outcome := o
          failPhase := if o = .done then none else some j.phaseIndex
          byteIndex :=
            (match o with
             | .dataNack | .lengthBad => some j.byteIndex
             | .cancelled | .flushed => if running = true then some j.byteIndex else none
             | _ => none)
          duration := (match j.startTime with | none => 0 | some t => min (s.now - t) 65535)
          results := j.results } →
      (finishJob i o running s).job? i = some { j with status := .finished c, cancelReply := none } ∧
        (∀ k, k ≠ i → (finishJob i o running s).job? k = s.job? k) ∧
        (finishJob i o running s).segs = s.segs ∧ (finishJob i o running s).now = s.now ∧
        (finishJob i o running s).pending = s.pending ∧ (finishJob i o running s).resetHeld = s.resetHeld ∧
        (finishJob i o running s).notices =
          { s.notices with
            queue :=
              s.notices.queue ++
                [{ seq := s.notices.next, kind := .jobDone, source := .job i, payload := jobDonePayload j c }]
            next := s.notices.next + 1 } ∧
        (j.cancelReply = none → (finishJob i o running s).link = s.link) ∧
        ∀ d body, j.cancelReply = some d →
          body =
              [0x81, d.tag, 0x21, if o = .cancelled ∧ j.resetTaken = false then 0x00 else 0x0D] ++ wordBytes j.id ++
                [outcomeByte o, 0x01] →
            (finishJob i o running s).link =
              { s.link with
                replies := s.link.replies ++ [{ body := body, devReset := false }]
                reserved := s.link.reserved - 1
                cache := s.link.cache.map (fun e => if e.age = d.age then { e with reply := some body } else e) }

/-- The initiator, not held, takes from the head of its queue: a continuation job finishes CHAIN_BROKEN and the queue is
examined again, any other job becomes CURRENT in WAITING, and with no job it is IDLE (R47). On leaving a job or a hold both
lines are released and the queue is examined at once (R62). Under a disable the queue is not examined: a transaction ends,
and the segment is OFF, or enabled as R20 gives where its enable field has been set meanwhile (R21, R98, R145; a transaction
that began while the disable was under way: the model's reading, log 19). -/
def Obligations.InitiatorExaminesQueue : Prop :=
  ∀ (g : SegId) (s : State),
    ((s.seg g).queue = [] → enterIdle g s = s.setSeg g { s.seg g with init := .idle }) ∧
      (∀ i rest j, (s.seg g).queue = i :: rest → s.job? i = some j →
        ((∃ c, j.chain = some c ∧ c.role ≠ .opening) →
            enterIdle g s = enterIdle g (finishJob i .chainBroken false (s.setSeg g { s.seg g with queue := rest }))) ∧
          ((∀ c, j.chain = some c → c.role = .opening) →
            enterIdle g s =
              (s.setJob i (some { j with status := .current })).setSeg g
                { s.seg g with queue := rest, init := .waiting i })) ∧
      ((s.seg g).disabling = false →
        leave g s =
          enterIdle g
            (s.setSeg g
              { (s.seg g).freed with
                resetting := false, quiet := if (s.seg g).resetting then none else (s.seg g).quiet })) ∧
      ((s.seg g).disabling = true → (s.seg g).cfg.enable = false → ((leave g s).seg g).isOff = true) ∧
      leave g s =
        endDisable g
          (toIdle g
            (s.setSeg g
              { (s.seg g).freed with
                resetting := false, quiet := if (s.seg g).resetting then none else (s.seg g).quiet })) ∧
      ((s.seg g).disabling = false → toIdle g s = enterIdle g s ∧ endDisable g s = s) ∧
      ((s.seg g).disabling = true →
        toIdle g s = s.setSeg g { s.seg g with init := .idle } ∧
          ∀ u x, u = endTransaction g true s →
            x =
                { (u.seg g).freed with
                  mon := { line := .unknown, stopTime := none, idleSince := none }
                  framer := Framer.atReset, clear := .normal, quiet := none, resetting := false, disabling := false } →
            (x.cfg.enable = false → endDisable g s = u.setSeg g { x with init := .off, resp := .off }) ∧
              (x.cfg.enable = true →
                endDisable g s =
                  u.setSeg g
                    { x with
                      init := .idle, resp := .listen
                      mon :=
                        { line := .unknown, stopTime := none,
                          idleSince := if x.scl = true ∧ x.sda = true then some s.now else none } }))

/-- The initiator in HELD for a chain takes the first continuation of that chain wherever it stands, and begins a
repeated start with its start time set and the grade and stretch limit read afresh; other jobs wait, and none is taken
while the hold is closing (R46, R68). -/
def Obligations.HoldTakesItsContinuation : Prop :=
  ∀ (g : SegId) (s : State) (h : Hold), (s.seg g).init = .held h →
    (h.closing ≠ none → takeContinuation g s = s) ∧
      ((∀ k ∈ (s.seg g).queue, ∀ b, s.job? k = some b → b.continuesChain h.chain = false) → takeContinuation g s = s) ∧
      ∀ before i after j, h.closing = none → (s.seg g).queue = before ++ i :: after →
        FirstContinuation h.chain s before i j →
        takeContinuation g s =
          (s.setJob i (some { j with status := .current, startTime := some s.now })).setSeg g
            { (s.seg g).freed with
              queue := before ++ after
              init :=
                .running
                  { slot := i, sub := .restart, drove := false, closing := false, grade := (s.seg g).cfg.grade,
                    stretchMs := (s.seg g).cfg.stretchMs, lowSince := some s.now } }

/-- A completed phase: before the last one a pending cancel makes a stop, and without one the part goes to RESTART for
the next phase; after the last one an OPEN or CONTINUE_OPEN job ends DONE in the hold of its chain, and any other job
goes to its stop (R55, R56, R67, R137). -/
def Obligations.PhaseCompletes : Prop :=
  ∀ (g : SegId) (r : Run) (s : State) (j : Job), s.job? r.slot = some j →
    (j.phaseIndex < j.phases.length →
        (j.cancelPending = true →
            phaseComplete g r j s = s.setSeg g ((s.seg g).stopping s.now r (.ends .cancelled))) ∧
          (j.cancelPending = false →
            phaseComplete g r j s =
              (s.setJob r.slot (some { j with phaseIndex := j.phaseIndex + 1, byteIndex := 0, readBuf := [] })).setSeg g
                { s.seg g with
                  drvSda := false
                  init := .running { r with sub := .restart, drove := false, lowSince := some s.now } })) ∧
      (j.phases.length ≤ j.phaseIndex →
        ((∀ c, j.chain = some c → c.role = .cont) →
            phaseComplete g r j s = s.setSeg g ((s.seg g).stopping s.now r (.ends .done))) ∧
          ∀ c, j.chain = some c → c.role ≠ .cont →
            phaseComplete g r j s =
              takeContinuation g
                ((finishJob r.slot .done true s).setSeg g
                  { s.seg g with
                    drvScl := true, drvSda := false
                    init :=
                      .held
                        { chain := c.id, since := s.now, grade := r.grade, stretchMs := r.stretchMs,
                          limitMs := (s.seg g).cfg.holdMs, closing := none, lowSince := none } }))

/-- A responder transaction ends: the lines are released and the responder is in LISTEN, the entry takes its end effect
(WINDOW_WRITTEN, MAIL_IN, MAIL_TAKEN with the message consumed, MAIL_EMPTY_READ, or none), then a deferred write is
applied and answered (R90, R107, R111, R114, R121, R126, R130). A segment reset discards a partial mail record (R143). A
byte whose ninth pulse has not ended is cut: the pointer and the window byte, or the mail record, are as before it (R4; the
model's reading beside R110 and R120, log 27). The place of the message bytes in MAIL_IN is the model's reading, log 12.
With no transaction in flight, IGNORE goes to LISTEN and nothing else happens. -/
def Obligations.TransactionEnds : Prop :=
  (∀ (g : SegId) (s u : State) (t : Transaction) (n : Entry) (a : Access) (z : Segment),
    (s.seg g).resp.transaction? = some t → z = { (s.seg g).freed with resp := .listen } →
    ((t.undo = none ∧ a = t.access ∧ u = s.setSeg g z) ∨
        (∃ got c i held got' c', t.undo = some (.window got c i held) ∧ t.access = .windowWrite got' c' ∧
          a = .windowWrite got c ∧
          u =
            s.setSeg g
              (z.setEntry t.entry
                { z.entry t.entry with
                  pointer := i, window := Memory.write i.val held (z.entry t.entry).window })) ∨
        ∃ bytes overlong address bytes' overlong', t.undo = some (.mail bytes overlong) ∧
          t.access = .mailWrite address bytes' overlong' ∧ a = .mailWrite address bytes overlong ∧ u = s.setSeg g z) →
    n = (u.seg g).entry t.entry →
      (a = .windowRead → ∀ b, endTransaction g b s = applyDeferred g t.entry u) ∧
        (∀ p, a = .windowWrite p none → ∀ b, endTransaction g b s = applyDeferred g t.entry u) ∧
        (∀ p c, a = .windowWrite p (some c) → ∀ b,
          endTransaction g b s =
            applyDeferred g t.entry
              (if n.notify then claimEvent g (.windowWritten t.entry c.first c.count) u else u)) ∧
        (∀ address bytes overlong, a = .mailWrite address bytes overlong →
          endTransaction g false s =
              applyDeferred g t.entry
                (joinNotice .mailIn .record
                  ([indexByte g, indexByte t.entry, address, byteOf bytes.length, flagByte overlong] ++ bytes) u) ∧
            endTransaction g true s = applyDeferred g t.entry (releaseRecord u)) ∧
        (∀ taken pad expired, a = .mailRead false taken pad expired → ∀ b,
          endTransaction g b s = applyDeferred g t.entry (claimEvent g (.mailEmptyRead t.entry pad expired) u)) ∧
        (∀ pad expired, a = .mailRead true 0 pad expired → ∀ b,
          endTransaction g b s = applyDeferred g t.entry u) ∧
        (∀ taken pad expired m rest, a = .mailRead true (taken + 1) pad expired → n.outbox = m :: rest → ∀ b,
          endTransaction g b s =
            applyDeferred g t.entry
              (claimEvent g (.mailTaken t.entry (taken + 1) m.length pad rest.length)
                (u.setSeg g ((u.seg g).setEntry t.entry { n with outbox := rest })))) ∧
        ∀ v : State,
          (((v.seg g).entry t.entry).deferred = none → applyDeferred g t.entry v = v) ∧
            ∀ w, ((v.seg g).entry t.entry).deferred = some w →
              applyDeferred g t.entry v =
                makeReply w.request codeWinWrite .ok [0x01] false
                  (v.setSeg g
                    ((v.seg g).setEntry t.entry
                      { (v.seg g).entry t.entry with
                        window := Memory.writeRun w.offset w.bytes ((v.seg g).entry t.entry).window
                        deferred := none }))) ∧
    (∀ (g : SegId) (s : State) (b : Bool), (s.seg g).resp.transaction? = none →
      ((s.seg g).resp = .ignore → endTransaction g b s = s.setSeg g { s.seg g with resp := .listen }) ∧
        ((s.seg g).resp ≠ .ignore → endTransaction g b s = s)) ∧
    ∀ (m : Memory), Memory.wf m →
      (∀ (i : Fin 64) (b : Byte), Memory.wf (Memory.write i.val b m) ∧
        ∀ k, Memory.read k (Memory.write i.val b m) = if k = i.val then b else Memory.read k m) ∧
        ∀ (offset : Nat) (bytes : List Byte), offset + bytes.length ≤ 64 →
          Memory.wf (Memory.writeRun offset bytes m) ∧
            (∀ k (h : k < bytes.length), Memory.read (offset + k) (Memory.writeRun offset bytes m) = bytes[k]) ∧
              ∀ k, (k < offset ∨ offset + bytes.length ≤ k) →
                Memory.read k (Memory.writeRun offset bytes m) = Memory.read k m

/-! ## Taking and answering requests -/

/-- A reply is made: it stands behind every reply made before it, in the place reserved for it, and completes the cache
entry of its request (R169, R171, R172, R181). Nothing else changes. -/
def Obligations.ReplyIsMade : Prop :=
  ∀ (r : Request) (d : Deferral) (rc : ReplyCode) (data : List Byte) (s : State),
    answer r d rc data s =
      { s with
        link :=
          { s.link with
            inHand := none
            replies :=
              s.link.replies ++ [{ body := [0x81, d.tag, r.code, replyByte rc] ++ data, devReset := false }]
            reserved := s.link.reserved - 1
            cache :=
              s.link.cache.map
                (fun e =>
                  if e.age = d.age then { e with reply := some ([0x81, d.tag, r.code, replyByte rc] ++ data) }
                  else e) } }

/-- The head of the inbound buffer is taken if the condition for its case holds: its ack field is applied, then a duplicate
is kept for its replay and any other request is recorded PENDING with a place reserved. An entry of the same tag is
replaced; with 16 entries the oldest COMPLETE one is evicted (R167 to R170, R172). How soon after an examination the row
comes is left to the queue: the model's choice, log 36. -/
def Obligations.RequestIsTaken : Prop :=
  ∀ (s u : State) (r : Request) (rest : List Request), Quiescent s → s.link.inHand = none →
    s.link.resetTaken = false → s.link.inbound = r :: rest →
    u =
        (if r.ackValid = 0x01 then acknowledge r.ackSeq { s with link := { s.link with inbound := rest } }
        else { s with link := { s.link with inbound := rest } }) →
      ((∀ e ∈ s.link.cache, ¬(e.tag = r.tag ∧ e.code = r.code ∧ e.crc = r.crc)) →
          (s.link.replies.length + s.link.reserved < 8 →
              exec .requestTaken s =
                .next
                  { u with
                    link :=
                      { s.link with
                        inbound := rest
                        cache :=
                          (if ∃ e ∈ s.link.cache, e.tag = r.tag then s.link.cache.filter (fun e => e.tag != r.tag)
                            else if s.link.cache.length < 16 then s.link.cache
                            else s.link.cache.eraseP (fun e => e.reply.isSome)) ++
                            [{ tag := r.tag, code := r.code, crc := r.crc, reply := none, age := s.link.nextAge }]
                        nextAge := s.link.nextAge + 1
                        reserved := s.link.reserved + 1
                        inHand := some (.fresh r s.link.nextAge) } }) ∧
            (8 ≤ s.link.replies.length + s.link.reserved → exec .requestTaken s = .next s)) ∧
        ∀ e, duplicateOf r s.link.cache = some e →
          (e.reply = none →
              exec .requestTaken s =
                .next { u with link := { s.link with inbound := rest, inHand := some (.duplicate r none) } }) ∧
            ∀ body, e.reply = some body →
              (s.link.replies.length + s.link.reserved < 8 →
                  exec .requestTaken s =
                    .next
                      { u with
                        link :=
                          { s.link with
                            inbound := rest, reserved := s.link.reserved + 1,
                            inHand := some (.duplicate r (some body)) } }) ∧
                (8 ≤ s.link.replies.length + s.link.reserved → exec .requestTaken s = .next s)

/-- A duplicate in hand is replayed byte for byte, or dropped when its entry was PENDING (R170); a request with an
unknown code or an ack-valid byte other than 00h and 01h is refused BAD_REQUEST (R174, R182). -/
def Obligations.DuplicateAndUnknownRequests : Prop :=
  ∀ (s : State) (r : Request), watchLines s = s →
    (∀ body, s.link.inHand = some (.duplicate r (some body)) →
        exec .duplicateRequest s =
          .next
            { s with
              link :=
                { s.link with
                  replies := s.link.replies ++ [{ body := body, devReset := false }]
                  reserved := s.link.reserved - 1
                  inHand := none } }) ∧
      (s.link.inHand = some (.duplicate r none) →
        exec .duplicateRequest s = .next { s with link := { s.link with inHand := none } }) ∧
      ∀ age, s.link.inHand = some (.fresh r age) →
        ((r.ackValid ≠ 0x00 ∧ r.ackValid ≠ 0x01) ∨
          r.code ∉ ([0x01, 0x02, 0x03, 0x10, 0x11, 0x12, 0x13, 0x20, 0x21, 0x22, 0x30, 0x31, 0x32, 0x33, 0x34] :
            List Byte)) →
        Answers .unknownRequest r age .badRequest [] s s

/-- DEV_RESET: the reply OK, the inbound buffer emptied, and no request taken until the full reset (R178). -/
def Obligations.DevResetAnswers : Prop :=
  ∀ (s : State) (r : Request) (age : Nat), InHandIs s 0x02 r age →
    (r.params ≠ [] → Answers .devReset r age .badRequest [] s s) ∧
      (r.params = [] →
        exec .devReset s =
          .next
            { s with
              link :=
                { s.link with
                  inHand := none
                  inbound := []
                  resetTaken := true
                  replies := s.link.replies ++ [{ body := [0x81, r.tag, 0x02, 0x00], devReset := true }]
                  reserved := s.link.reserved - 1
                  cache := completeEntry age [0x81, r.tag, 0x02, 0x00] s.link.cache } }) ∧
      ∀ u : State, Quiescent u → u.link.resetTaken = true → exec .requestTaken u = .next u

/-- DEV_INFO answers the figures of the part, and LINK_CONFIG sets the window and the resend time and answers them with the
number of entries sent and not acknowledged (R159, R176, R177, R189). DEV_INFO changes nothing but the reply. -/
def Obligations.DevInfoAndLinkConfigAnswer : Prop :=
  ∀ (s : State) (r : Request) (age : Nat),
    (InHandIs s 0x01 r age →
        (r.params = [] →
            Answers .devInfo r age .ok [0x54, 0x57, 0x34, 1, 4, 32, 64, 32, 24, 4, rateByte s.link.rate] s s) ∧
          (r.params ≠ [] → Answers .devInfo r age .badRequest [] s s)) ∧
      (InHandIs s 0x03 r age →
        (r.params.length ≠ 3 → Answers .linkConfig r age .badRequest [] s s) ∧
          ∀ w hi lo, r.params = [w, hi, lo] →
            (within 1 8 w.toNat ∧ within 5 500 (wordOf hi lo).toNat →
                Answers .linkConfig r age .ok [w, hi, lo, byteOf s.notices.sentLimit] s
                  { s with notices := { s.notices with window := w.toNat, resendMs := (wordOf hi lo).toNat } }) ∧
              (¬(within 1 8 w.toNat ∧ within 5 500 (wordOf hi lo).toNat) →
                Answers .linkConfig r age .badParam [] s s))

/-! ## Requests of the segments -/

/-- SEG_CONFIG: a refusal changes nothing; an accepted one replaces every field and makes the transition its enable field
asks for (R17, R20, R21, R145). That its reply stands behind those made inside a disable it begins is the model's choice,
log 32. -/
def Obligations.SegConfigApplies : Prop :=
  ∀ (s : State) (r : Request) (age : Nat), InHandIs s 0x10 r age →
    (∀ rc, segConfigParams r.params = .error rc → Answers .segConfig r age rc [] s s) ∧
      ∀ g cfg x, segConfigParams r.params = .ok (g, cfg) → x = { s.seg g with cfg := cfg } →
        ((s.seg g).disabling = true ∨ (cfg.enable = true ∧ (s.seg g).isOff = false) ∨
            (cfg.enable = false ∧ (s.seg g).isOff = true) →
          Answers .segConfig r age .ok [] s (withEngine g x s)) ∧
          ((s.seg g).disabling = false → cfg.enable = true → (s.seg g).isOff = true →
            Answers .segConfig r age .ok [] s
              (withEngine g
                { x with
                  init := .idle, resp := .listen, clear := .normal, quiet := none, framer := Framer.atReset
                  mon :=
                    { line := .unknown, stopTime := none, idleSince := if x.scl && x.sda then some s.now else none } }
                s)) ∧
          ((s.seg g).disabling = false → cfg.enable = false → (s.seg g).isOff = false →
            exec .segConfig s =
              .next
                (watchLines (answer r { tag := r.tag, age := age } .ok [] (disableSegment g (s.setSeg g x)))))

/-- A disable makes a segment reset (`SegResetAnswers` says what that does to jobs, transaction and lines); the segment is
OFF at once where the initiator does not own the bus, and the disable is under way otherwise (its end, when the initiator
has given up the bus, and the enable field set again meanwhile: see `InitiatorExaminesQueue`). In OFF both lines are
released, the monitor is UNKNOWN with no stop time, the bus-clear unit NORMAL and the queue empty (R21, R98, R145). -/
def Obligations.DisableTurnsOff : Prop :=
  ∀ (g : SegId) (s u : State), (s.seg g).isOff = false → (s.seg g).cfg.enable = false →
    u = segmentReset g (s.setSeg g { s.seg g with disabling := true }) →
    ((s.seg g).init.ownsBus = false →
        disableSegment g s =
            u.setSeg g
              { (u.seg g).freed with
                init := .off, resp := .off, mon := { line := .unknown, stopTime := none, idleSince := none }
                framer := Framer.atReset, clear := .normal, quiet := none, resetting := false, disabling := false } ∧
          ((disableSegment g s).seg g).init = .off ∧ ((disableSegment g s).seg g).resp = .off ∧
          ((disableSegment g s).seg g).drvScl = false ∧ ((disableSegment g s).seg g).drvSda = false ∧
          ((disableSegment g s).seg g).mon = { line := .unknown, stopTime := none, idleSince := none } ∧
          ((disableSegment g s).seg g).clear = .normal ∧ ((disableSegment g s).seg g).quiet = none ∧
          ((disableSegment g s).seg g).queue = [] ∧ ((disableSegment g s).seg g).cfg = (s.seg g).cfg ∧
          ((disableSegment g s).seg g).disabling = false ∧ ((disableSegment g s).seg g).resetting = false) ∧
      ((s.seg g).init.ownsBus = true →
        disableSegment g s = u ∧ ((disableSegment g s).seg g).isOff = false ∧ ((disableSegment g s).seg g).disabling = true ∧
          ((disableSegment g s).seg g).resetting = true ∧ ((disableSegment g s).seg g).refuses = true ∧
          ((disableSegment g s).seg g).queue = [])

/-- SEG_STATUS carries the segment as it stands and changes nothing but the reply (R22, R189). -/
def Obligations.SegStatusAnswers : Prop :=
  ∀ (s : State) (r : Request) (age : Nat), InHandIs s 0x11 r age →
    (r.params.length ≠ 1 → Answers .segStatus r age .badRequest [] s s) ∧
      (∀ b, r.params = [b] → 4 ≤ b.toNat → Answers .segStatus r age .badParam [] s s) ∧
      ∀ (g : SegId) (x : Segment), r.params = [indexByte g] → x = s.seg g →
        Answers .segStatus r age .ok
          ([flagByte x.cfg.enable, gradeByte x.cfg.grade, byteOf x.cfg.stretchMs, byteOf x.cfg.stuckMs,
              byteOf x.cfg.holdMs, byteOf x.cfg.arbRetry, byteOf x.cfg.nackRetry, byteOf x.cfg.retryInterval,
              byteOf x.cfg.queueLimit, flagByte x.cfg.recovery] ++
            [(if x.scl then 1 else 0) + (if x.sda then 2 else 0), lineByte x.mon.line] ++
            (match x.mon.stopTime with
             | none => [0x00, 0x00, 0x00]
             | some t => 0x01 :: countBytes (min (s.now - t) 65535)) ++
            [initiatorByte x.init, heldChainByte x.init] ++ wordBytes (currentId s x) ++
            [byteOf x.queue.length, byteOf (x.queue.length + if x.init.slot?.isSome then 1 else 0),
              responderByte x.resp, clearByte x.clear, roundByte x.clear, flagByte x.summary.holds])
          s s

/-- SEG_FLUSH finishes every queued job FLUSHED, head first, each as `JobFinishes` says, and ends a hold that is not closing
with a stop, whose drive of SDA ends the quiet-low interval; the current job is not touched (R86, R139, R140). -/
def Obligations.SegFlushEmptiesQueue : Prop :=
  (∀ (o : JobOutcome) (v : State), finishAll o [] v = v ∧
    ∀ i rest, finishAll o (i :: rest) v = finishAll o rest (finishJob i o false v)) ∧
  ∀ (s : State) (r : Request) (age : Nat), InHandIs s 0x12 r age →
    (r.params.length ≠ 1 → Answers .segFlush r age .badRequest [] s s) ∧
      (∀ b, r.params = [b] → 4 ≤ b.toNat → Answers .segFlush r age .badParam [] s s) ∧
      ∀ (g : SegId) (x : Segment), r.params = [indexByte g] → x = s.seg g →
        (x.cfg.enable = false ∨ x.disabling = true → Answers .segFlush r age .segOff [] s s) ∧
          (x.cfg.enable = true → x.disabling = false →
            (∀ h, x.init = .held h → h.closing = none →
                exec .segFlush s =
                  .next
                    (watchLines
                      (answer r { tag := r.tag, age := age } .ok [byteOf x.queue.length, 0x01]
                        ((finishAll .flushed x.queue (s.setSeg g { x with queue := [] })).setSeg g
                          { x with
                            queue := [], drvScl := false, drvSda := true, quiet := none,
                            init := .held { h with closing := some .order, lowSince := some s.now } })))) ∧
              ((∀ h, x.init = .held h → h.closing ≠ none) →
                exec .segFlush s =
                  .next
                    (watchLines
                      (answer r { tag := r.tag, age := age } .ok [byteOf x.queue.length, 0x00]
                        (finishAll .flushed x.queue (s.setSeg g { x with queue := [] }))))))

/-- SEG_RESET answers with the number of jobs it finishes FLUSHED, whether the initiator owned the bus, whether a
transaction was ended and the bus-clear state after it (R141). A transaction ends first; then a job in WAITING or BACKOFF
finishes FLUSHED, then the queued jobs head first, then a job in START with nothing driven (R141, R142). A job in the stop
of an outcome already reached keeps it and is marked, so that its pending cancel reply is FINISHED; any other RUNNING job
is to make a stop for FLUSHED, and an open hold begins its stop (R138, R142). The monitor is UNKNOWN with no stop time and
its window started, the measurement is discarded, and a STUCK unit begins round 1 (R14, R98, R144). Nothing else of the
segment changes: configuration and entries stand as the transaction's end left them. What a segment reset does holds of
every state; a disable makes the same one (R145, `DisableTurnsOff`). -/
def Obligations.SegResetAnswers : Prop :=
  (∀ (s : State) (r : Request) (age : Nat), InHandIs s 0x13 r age →
    (r.params.length ≠ 1 → Answers .segReset r age .badRequest [] s s) ∧
      ∀ b, r.params = [b] → 4 ≤ b.toNat → Answers .segReset r age .badParam [] s s) ∧
  ∀ (g : SegId) (s : State) (x y z : Segment) (u v : State) (count : Nat) (owned : Bool),
    x = s.seg g → u = endTransaction g true s →
    count =
        x.queue.length +
          (match x.init with
           | .waiting _ | .backoff _ _ => 1
           | .running k =>
             if k.closing then 0
             else
               (match k.sub with
                | .stop (.ends _) => 0
                | _ => 1)
           | _ => 0) →
    owned =
        (match x.init with
         | .running k => decide (k.sub ≠ .start) || k.drove
         | .held _ => true
         | _ => false) →
    v =
        (match x.init with
         | .waiting i | .backoff i _ => finishAll .flushed x.queue (finishJob i .flushed false u)
         | .running k =>
           (match k.sub with
            | .start =>
              if k.drove then finishAll .flushed x.queue u
              else finishJob k.slot .flushed true (finishAll .flushed x.queue u)
            | .stop (.ends _) =>
              finishAll .flushed x.queue
                (u.setJob k.slot ((u.job? k.slot).map (fun j => { j with resetTaken := true })))
            | _ => finishAll .flushed x.queue u)
         | _ => finishAll .flushed x.queue u) →
    z =
        { u.seg g with
          queue := []
          resetting := owned
          quiet := none
          mon :=
            { line := .unknown, stopTime := none,
              idleSince := if x.scl = true ∧ x.sda = true then some s.now else none }
          drvScl := (match x.init with
            | .held h => if h.closing = none then false else (u.seg g).drvScl
            | _ => (u.seg g).drvScl)
          drvSda := (match x.init with
            | .held h => if h.closing = none then true else (u.seg g).drvSda
            | _ => (u.seg g).drvSda)
          init := (match x.init with
            | .off => .off
            | .idle | .waiting _ | .backoff _ _ => .idle
            | .held h =>
              if h.closing = none then .held { h with closing := some .order, lowSince := some s.now } else .held h
            | .running k =>
              (match k.sub with
               | .start => if k.drove then .running { k with closing := true } else .idle
               | .stop (.ends _) => .running k
               | .stop .retry => .running { k with sub := .stop (.ends .flushed) }
               | _ => .running { k with closing := true })) } →
    y = (match x.clear with
      | .stuck _ => startRound s.now 1 z
      | _ => z) →
      segmentReset g s = v.setSeg g y ∧
        y.queue = [] ∧ y.cfg = x.cfg ∧ y.resetting = owned ∧
        (x.resp ≠ .off → y.resp = .listen) ∧ y.mon.line = .unknown ∧ y.mon.stopTime = none ∧
        (owned = false → y.init = if x.isOff then .off else .idle) ∧
        (x.clear = .normal → y.clear = .normal) ∧ (∀ c, x.clear = .clearing c → y.clear = .clearing c) ∧
        (∀ w, x.clear = .stuck w → ∃ c, y.clear = .clearing c ∧ c.round = 1 ∧ c.pulses = 0) ∧
        ∀ r age, InHandIs s 0x13 r age → r.params = [indexByte g] →
          (x.cfg.enable = false ∨ x.disabling = true → Answers .segReset r age .segOff [] s s) ∧
            (x.cfg.enable = true → x.disabling = false →
              exec .segReset s =
                .next
                  (watchLines
                    (answer r { tag := r.tag, age := age } .ok
                      [byteOf count, flagByte owned, flagByte x.resp.transaction?.isSome, clearByte y.clear]
                      (segmentReset g s))))

/-! ## Requests of the job pool -/

/-- JOB_SUBMIT is refused by the first condition of R27 that applies, and a refusal changes nothing (R27 to R33, R35). -/
def Obligations.JobSubmitRefusals : Prop :=
  ∀ (s : State) (r : Request) (age : Nat), InHandIs s 0x20 r age →
    (∀ rc, submitParams r.params = .error rc → Answers .jobSubmit r age rc [] s s) ∧
      ∀ u x, submitParams r.params = .ok u → x = s.seg u.seg →
        (x.cfg.enable = false ∨ x.disabling = true → Answers .jobSubmit r age .segOff [] s s) ∧
          (x.cfg.enable = true → x.disabling = false →
            (∀ i j, HoldsId s u.id i j →
                Answers .jobSubmit r age .dupJob [indexByte j.seg, jobStateByte j.status] s s) ∧
              (NoJob s u.id →
                (x.cfg.queueLimit ≤ x.liveCount →
                    Answers .jobSubmit r age .queueFull [byteOf x.liveCount, byteOf x.cfg.queueLimit] s s) ∧
                  (x.liveCount < x.cfg.queueLimit →
                    ((∀ i, s.job? i ≠ none) → Answers .jobSubmit r age .noSlot [] s s) ∧
                      ∀ i, s.job? i = none → freeBlocks s < blockCount u.phases →
                        Answers .jobSubmit r age .noSpace [byteOf (blockCount u.phases), byteOf (freeBlocks s)] s s)))

/-- JOB_SUBMIT that passes every check is admitted to the lowest free slot: the record is filled with absent limits
copied, the job joins its queue as QUEUED, an URGENT one after the last URGENT one, and the initiator looks at its queue
in IDLE and HELD (R25, R34, R35, R39, R47, R68). -/
def Obligations.JobSubmitAdmits : Prop :=
  ∀ (s t : State) (r : Request) (age : Nat) (u : Submission) (x : Segment) (i : Slot) (q : List Slot),
    InHandIs s 0x20 r age → submitParams r.params = .ok u → x = s.seg u.seg → x.cfg.enable = true →
    x.disabling = false → NoJob s u.id → x.liveCount < x.cfg.queueLimit → s.job? i = none →
    (∀ k < i, s.job? k ≠ none) → blockCount u.phases ≤ freeBlocks s →
    ((u.cls = .normal ∧ q = x.queue ++ [i]) ∨
      ∃ urgents others, u.cls = .urgent ∧ x.queue = urgents ++ others ∧ q = urgents ++ i :: others ∧
        (∀ k ∈ urgents, isUrgent s k = true) ∧ ∀ k ∈ others.head?, isUrgent s k = false) →
    t =
        (s.setJob i
          (some
            { id := u.id, seg := u.seg, cls := u.cls, arbLimit := u.arbLimit.getD x.cfg.arbRetry,
              nackLimit := u.nackLimit.getD x.cfg.nackRetry, chain := u.chain, phases := u.phases, status := .queued,
              arbCount := 0, nackCount := 0, deferCount := 0, phaseIndex := 1, byteIndex := 0, startTime := none,
              cancelPending := false, cancelReply := none, resetTaken := false, results := [], readBuf := [] })).setSeg u.seg
          { x with queue := q } →
      exec .jobSubmit s =
        .next
          (watchLines
            (lookAtQueue u.seg
              (answer r { tag := r.tag, age := age } .ok
                (wordBytes u.id ++
                  [byteOf (blockCount u.phases), byteOf (t.seg u.seg).liveCount, byteOf (freeSlots t),
                    byteOf (freeBlocks t)])
                t))) ∧
        ∀ v g, (((v.seg g).init = .idle → lookAtQueue g v = enterIdle g v) ∧
          (∀ h, (v.seg g).init = .held h → lookAtQueue g v = takeContinuation g v) ∧
          ((v.seg g).init.slot?.isSome = true → lookAtQueue g v = v))

/-- JOB_CANCEL answers by the state of the job: NOT_LIVE, FINISHED, BUSY, at once for a job that is QUEUED or waits
between attempts, and deferred for a RUNNING one (R133 to R136). -/
def Obligations.JobCancelAnswers : Prop :=
  ∀ (s : State) (r : Request) (age : Nat), InHandIs s 0x21 r age →
    (∀ rc, jobIdParams r.params = .error rc → Answers .jobCancel r age rc [] s s) ∧
      ∀ id, jobIdParams r.params = .ok id →
        (NoJob s id → Answers .jobCancel r age .notLive [] s s) ∧
          ∀ i j, HoldsId s id i j →
            (∀ c, j.status = .finished c →
                Answers .jobCancel r age .finished (wordBytes j.id ++ [outcomeByte c.outcome, 0x00]) s s) ∧
              (j.status = .queued →
                exec .jobCancel s =
                  .next
                    (watchLines
                      (answer r { tag := r.tag, age := age } .ok (wordBytes j.id ++ [0x06, 0x00])
                        (finishJob i .cancelled false
                          (s.setSeg j.seg { s.seg j.seg with queue := (s.seg j.seg).queue.erase i }))))) ∧
              (j.status = .current →
                ((∀ k, (s.seg j.seg).init = .running k → k.slot ≠ i) →
                    exec .jobCancel s =
                      .next
                        (watchLines
                          (toIdle j.seg
                            (answer r { tag := r.tag, age := age } .ok (wordBytes j.id ++ [0x06, 0x00])
                              (finishJob i .cancelled false
                                (s.setJob i (some { j with results := [], readBuf := [] }))))))) ∧
                  ∀ k, (s.seg j.seg).init = .running k → k.slot = i →
                    (j.cancelPending = true → Answers .jobCancel r age .busy (wordBytes j.id) s s) ∧
                      (j.cancelPending = false →
                        exec .jobCancel s =
                          .next
                            { s.setJob i
                                (some
                                  { j with
                                    cancelPending := true, cancelReply := some { tag := r.tag, age := age } }) with
                              link := { s.link with inHand := none } }))

/-- JOB_QUERY carries the items of the job's state and changes nothing but the reply (R45, R189). -/
def Obligations.JobQueryAnswers : Prop :=
  ∀ (s : State) (r : Request) (age : Nat), InHandIs s 0x22 r age →
    (r.params.length ≠ 2 → Answers .jobQuery r age .badRequest [] s s) ∧
      (r.params = [0x00, 0x00] → Answers .jobQuery r age .badParam [] s s) ∧
      ∀ id, r.params = wordBytes id → id ≠ 0 →
        (NoJob s id → Answers .jobQuery r age .notLive [] s s) ∧
          ∀ i j, HoldsId s id i j →
            (j.status = .queued → ∀ before after, (s.seg j.seg).queue = before ++ i :: after → i ∉ before →
                Answers .jobQuery r age .ok
                  (wordBytes j.id ++ [indexByte j.seg, classByte j.cls, 0x01, byteOf (before.length + 1)] ++
                    chainBytes j.chain)
                  s s) ∧
              (j.status = .current →
                Answers .jobQuery r age .ok
                  (wordBytes j.id ++
                    [indexByte j.seg, classByte j.cls, 0x02, initiatorByte (s.seg j.seg).init, byteOf j.phaseIndex,
                      byteOf j.byteIndex, byteOf j.arbCount, byteOf j.nackCount, byteOf j.deferCount] ++
                    (match j.startTime with
                     | none => [0x00, 0x00, 0x00]
                     | some t => 0x01 :: countBytes (min (s.now - t) 65535)) ++
                    flagByte j.cancelPending :: chainBytes j.chain)
                  s s) ∧
              ∀ c n before after, j.status = .finished c → s.notices.queue = before ++ n :: after →
                n.source = .job i → (∀ m ∈ before, m.source ≠ .job i) →
                Answers .jobQuery r age .ok
                  (wordBytes j.id ++
                    [indexByte j.seg, classByte j.cls, 0x03, outcomeByte c.outcome, failPhaseByte c.failPhase,
                      byteIndexByte c.byteIndex, byteOf j.arbCount, byteOf j.nackCount, byteOf j.deferCount] ++
                    countBytes c.duration ++ wordBytes n.seq)
                  s s

/-! ## Requests of the responders -/

/-- RESP_SET: BUSY for a transaction in flight on the entry, DUP_ADDR for an enabled address another enabled entry of
the segment has; a SET replaces the settings and, with a new mode, discards the outbox and sets the pointer to 0; a CLEAR
sets the reset values. Window bytes are kept, and no other entry changes (R101, R102, R189). -/
def Obligations.RespSetChangesEntry : Prop :=
  ∀ (s : State) (r : Request) (age : Nat), InHandIs s 0x30 r age →
    (∀ rc, respSetParams r.params = .error rc → Answers .respSet r age rc [] s s) ∧
      ∀ g e v n, respSetParams r.params = .ok (g, e, v) → n = (s.seg g).entry e →
        ((s.seg g).inFlight e = true → Answers .respSet r age .busy [] s s) ∧
          ((s.seg g).inFlight e = false →
            (∀ w k, v = some w → w.enable = true → k ≠ e → ((s.seg g).entry k).enable = true →
                ((s.seg g).entry k).address = some w.address → Answers .respSet r age .dupAddr [] s s) ∧
              (∀ w, v = some w →
                (w.enable = true → ∀ k, k ≠ e → ((s.seg g).entry k).enable = true →
                  ((s.seg g).entry k).address ≠ some w.address) →
                (w.mode = n.mode →
                    Answers .respSet r age .ok
                      [flagByte w.enable, w.address, modeByte w.mode, flagByte w.notify, byteOf w.protectFrom,
                        byteOf w.mailWaitMs, byteOf n.pointer.val, byteOf n.outbox.length, 0x00]
                      s
                      (s.setSeg g
                        ((s.seg g).setEntry e
                          { n with
                            enable := w.enable, address := some w.address, notify := w.notify,
                            protectFrom := w.protectFrom, mailWaitMs := w.mailWaitMs }))) ∧
                  (w.mode ≠ n.mode →
                    Answers .respSet r age .ok
                      [flagByte w.enable, w.address, modeByte w.mode, flagByte w.notify, byteOf w.protectFrom,
                        byteOf w.mailWaitMs, 0x00, 0x00, byteOf n.outbox.length]
                      s
                      (s.setSeg g
                        ((s.seg g).setEntry e
                          { n with
                            enable := w.enable, address := some w.address, mode := w.mode, notify := w.notify,
                            protectFrom := w.protectFrom, mailWaitMs := w.mailWaitMs, pointer := 0,
                            outbox := [] })))) ∧
              (v = none →
                Answers .respSet r age .ok
                  [0x00, 0x00, 0x00, 0x00, 64, 0x00, 0x00, 0x00, byteOf n.outbox.length] s
                  (s.setSeg g
                    ((s.seg g).setEntry e
                      { n with
                        enable := false, address := none, mode := .window, notify := false, protectFrom := 64,
                        mailWaitMs := 0, pointer := 0, outbox := [] }))))

/-- WIN_WRITE is refused BUSY while a write is deferred, deferred while a transaction on the entry is in flight, and
applied at once otherwise: the bytes stand from the offset on, and every other byte of the window is as before (R114). -/
def Obligations.WinWriteAppliesOrDefers : Prop :=
  ∀ (s : State) (r : Request) (age : Nat), InHandIs s 0x31 r age →
    (∀ rc, winWriteParams r.params = .error rc → Answers .winWrite r age rc [] s s) ∧
      ∀ g e offset bytes n, winWriteParams r.params = .ok (g, e, offset, bytes) → n = (s.seg g).entry e →
        Memory.wf n.window →
        (n.deferred ≠ none → Answers .winWrite r age .busy [] s s) ∧
          (n.deferred = none → (s.seg g).inFlight e = true →
            exec .winWrite s =
              .next
                { s.setSeg g
                    ((s.seg g).setEntry e
                      { n with
                        deferred :=
                          some { offset := offset, bytes := bytes, request := { tag := r.tag, age := age } } }) with
                  link := { s.link with inHand := none } }) ∧
          (n.deferred = none → (s.seg g).inFlight e = false →
            ∃ w, Answers .winWrite r age .ok [0x00] s (s.setSeg g ((s.seg g).setEntry e { n with window := w })) ∧
              Memory.wf w ∧ (∀ k (h : k < bytes.length), Memory.read (offset + k) w = bytes[k]) ∧
                ∀ a, (a < offset ∨ offset + bytes.length ≤ a) → Memory.read a w = Memory.read a n.window)

/-- WIN_READ carries the pointer and the bytes as they stand and changes nothing but the reply (R113, R189). -/
def Obligations.WinReadAnswers : Prop :=
  ∀ (s : State) (r : Request) (age : Nat), InHandIs s 0x32 r age →
    (r.params.length ≠ 4 → Answers .winRead r age .badRequest [] s s) ∧
      ∀ bg be bo bl, r.params = [bg, be, bo, bl] →
        (¬(bg.toNat < 4 ∧ be.toNat < 4 ∧ within 1 64 bl.toNat ∧ bo.toNat + bl.toNat ≤ 64) →
            Answers .winRead r age .badParam [] s s) ∧
          ∀ g e, bg = indexByte g → be = indexByte e → within 1 64 bl.toNat → bo.toNat + bl.toNat ≤ 64 →
            Answers .winRead r age .ok
              (byteOf ((s.seg g).entry e).pointer.val ::
                (List.range bl.toNat).map (fun k => Memory.read (bo.toNat + k) ((s.seg g).entry e).window))
              s s

/-- MAIL_POST: the refusals in their order, or the message at the tail of the outbox; a read that waits for mail takes it
at once, its first byte loaded and the clock released; a first bit of 0 driven on SDA ends the quiet-low interval (R86,
R123, R128, R189; a post before the clock is held: log 14). -/
def Obligations.MailPostAppends : Prop :=
  ∀ (s : State) (r : Request) (age : Nat), InHandIs s 0x33 r age →
    (∀ rc, mailPostParams r.params = .error rc → Answers .mailPost r age rc [] s s) ∧
      ∀ g e bytes n x, mailPostParams r.params = .ok (g, e, bytes) → n = (s.seg g).entry e → x = s.seg g →
        (n.mode = .window → Answers .mailPost r age .entryMode [] s s) ∧
          (n.mode = .mailbox →
            (4 ≤ n.outbox.length → Answers .mailPost r age .outboxFull [byteOf n.outbox.length] s s) ∧
              (n.outbox.length < 4 →
                (freeBlocks s = 0 → Answers .mailPost r age .noSpace [0x00] s s) ∧
                  (0 < freeBlocks s →
                    ((∀ t l since, x.resp = .mailWait t l since → t.entry ≠ e) →
                        Answers .mailPost r age .ok
                          [byteOf (n.outbox.length + 1), 0x00, byteOf (freeBlocks s - 1)] s
                          (s.setSeg g (x.setEntry e { n with outbox := n.outbox ++ [bytes] }))) ∧
                      (∀ t l since, x.resp = .mailWait t l (some since) → t.entry = e →
                        Answers .mailPost r age .ok
                          [byteOf (n.outbox.length + 1), 0x01, byteOf (freeBlocks s - 1)] s
                          (withEngine g
                            ({ x.took with
                                drvScl := false, drvSda := bitLow (bytes.headD 0xFF) 1
                                quiet := if bitLow (bytes.headD 0xFF) 1 then none else x.quiet
                                resp :=
                                  .selectedRead
                                    { t with
                                      access := .mailRead true 1 0 false, sender := bytes.headD 0xFF,
                                      preloaded := false } }.setEntry
                              e { n with outbox := n.outbox ++ [bytes] })
                            s)) ∧
                      ∀ t l, x.resp = .mailWait t l none → t.entry = e →
                        Answers .mailPost r age .ok
                          [byteOf (n.outbox.length + 1), 0x01, byteOf (freeBlocks s - 1)] s
                          (withEngine g
                            ({ x with
                                resp :=
                                  .selectedRead
                                    { t with
                                      access := .mailRead true 1 0 false, sender := bytes.headD 0xFF,
                                      preloaded := true } }.setEntry
                              e { n with outbox := n.outbox ++ [bytes] })
                            s))))

/-- MAIL_WITHDRAW removes every message but the bound one of a read in flight (R124, R189). -/
def Obligations.MailWithdrawRemoves : Prop :=
  ∀ (s : State) (r : Request) (age : Nat), InHandIs s 0x34 r age →
    (r.params.length ≠ 2 → Answers .mailWithdraw r age .badRequest [] s s) ∧
      (∀ bg be, r.params = [bg, be] → ¬(bg.toNat < 4 ∧ be.toNat < 4) →
        Answers .mailWithdraw r age .badParam [] s s) ∧
      ∀ g e n, r.params = [indexByte g, indexByte e] → n = (s.seg g).entry e →
        (n.mode = .window → Answers .mailWithdraw r age .entryMode [] s s) ∧
          (n.mode = .mailbox →
            ((s.seg g).bound e = false →
                Answers .mailWithdraw r age .ok [byteOf n.outbox.length, 0x00] s
                  (s.setSeg g ((s.seg g).setEntry e { n with outbox := [] }))) ∧
              ∀ m rest, (s.seg g).bound e = true → n.outbox = m :: rest →
                Answers .mailWithdraw r age .ok [byteOf rest.length, 0x01] s
                  (s.setSeg g ((s.seg g).setEntry e { n with outbox := [m] })))

/-! ## Sending -/

/-- The arbiter sends the oldest held reply before any notice. The notice offered stands at the send point: a resend within
the sent limit, or a new send below the window W; none in link-silent. A new send raises the sent limit, every send raises
the send point and starts a stopped timer (R153, R154, R158, R173). A frame is B7h, the length of the body, the body, and
the CRC of length and body, high byte first (R179). On TXD its bytes follow back to back, each a start bit, 8 data bits
least significant first and one stop bit; with no frame TXD is high (R162). How soon a free TXD is used is left to the
queue: the model's choice, log 37. -/
def Obligations.FrameStarts : Prop :=
  (∀ body : List Byte,
    frameOf body =
      0xB7 :: byteOf body.length ::
        (body ++
          [(crc (byteOf body.length :: body)).extractLsb' 8 8, (crc (byteOf body.length :: body)).extractLsb' 0 8])) ∧
  (∀ s : State, s.link.tx = none → txdIdle s = true ∧ txdLevels s = []) ∧
  (∀ (s : State) (t : Transmission), s.link.tx = some t →
    txdLevels s =
      t.frame.flatMap fun b =>
        [false, b.getLsbD 0, b.getLsbD 1, b.getLsbD 2, b.getLsbD 3, b.getLsbD 4, b.getLsbD 5, b.getLsbD 6, b.getLsbD 7,
          true]) ∧
  ∀ s : State, Quiescent s →
    (s.link.tx ≠ none → exec .txFrameStart s = .next s) ∧
      (∀ p rest, s.link.tx = none → s.link.replies = p :: rest →
        exec .txFrameStart s =
          .next
            { s with
              link := { s.link with tx := some { frame := frameOf p.body, isReply := true, devReset := p.devReset } } }) ∧
      (s.link.tx = none → s.link.replies = [] →
        (s.notices.silent = true ∨ s.notices.queue.length ≤ s.notices.sendPoint ∨
            s.notices.sentLimit < s.notices.sendPoint ∨
            (s.notices.sendPoint = s.notices.sentLimit ∧ s.notices.window ≤ s.notices.sentLimit) →
          exec .txFrameStart s = .next s) ∧
          ∀ n, s.notices.silent = false → s.notices.queue[s.notices.sendPoint]? = some n →
            (s.notices.sendPoint < s.notices.sentLimit ∨
              (s.notices.sendPoint = s.notices.sentLimit ∧ s.notices.sentLimit < s.notices.window)) →
            exec .txFrameStart s =
              .next
                { s with
                  notices :=
                    { s.notices with
                      sentLimit := max s.notices.sentLimit (s.notices.sendPoint + 1)
                      sendPoint := s.notices.sendPoint + 1
                      timer :=
                        if s.notices.timer = none then some { since := s.now, lenMs := s.notices.resendMs }
                        else s.notices.timer }
                  link :=
                    { s.link with
                      tx :=
                        some
                          { frame := frameOf (0x82 :: wordBytes n.seq ++ noticeByte n.kind :: n.payload)
                            isReply := false
                            devReset := false } } })

/-- At the end of a transmission TXD is free; a reply leaves its place, and the reply of a taken DEV_RESET is followed by
a full reset with the cause RESET_REQUEST (R172, R173, R178). That the reset keeps time and waiting commands is the model's
choice, log 8, and that the row carries the straps it samples, log 7. -/
def Obligations.FrameEnds : Prop :=
  ∀ (p : Straps) (s : State) (t : Transmission), Quiescent s → s.link.tx = some t →
    (t.isReply = false → exec (.txFrameEnd p) s = .next { s with link := { s.link with tx := none } }) ∧
      (t.isReply = true → t.devReset = false →
        exec (.txFrameEnd p) s =
          .next { s with link := { s.link with tx := none, replies := s.link.replies.tail } }) ∧
      (t.isReply = true → t.devReset = true →
        ∃ u, exec (.txFrameEnd p) s = .next u ∧ AfterFullReset .resetRequest p s u)

/-- The resend timer has expired: a go-back with the timer restarted, or link-silent at the sixteenth expiry, with the
sent limit as it was (R155, R158). Before it is due nothing happens: the model's choice, log 3. -/
def Obligations.ResendExpiryGoesBack : Prop :=
  ∀ s : State, Quiescent s →
    (∀ m, s.notices.timer = some m → m.since + m.lenMs * 100 ≤ s.now →
        (s.notices.expiries + 1 < 16 →
            exec .resendTimerExpiry s =
              .next
                { s with
                  notices :=
                    { s.notices with
                      expiries := s.notices.expiries + 1, sendPoint := 0,
                      timer := some { since := s.now, lenMs := s.notices.resendMs } } }) ∧
          (16 ≤ s.notices.expiries + 1 →
            exec .resendTimerExpiry s =
              .next
                { s with
                  notices := { s.notices with expiries := s.notices.expiries + 1, silent := true, timer := none } })) ∧
      (∀ m, s.notices.timer = some m → s.now < m.since + m.lenMs * 100 → exec .resendTimerExpiry s = .next s) ∧
      (s.notices.timer = none → exec .resendTimerExpiry s = .next s)

/-! ## The lines -/

/-- A start: the monitor is BUSY and keeps its stop time, an address byte is framed, and the responder is in LISTEN (R3,
R13). Made by the part, it is the drive of SDA for its own start or repeated start (R7, R8). Made by another initiator, it
ends a transaction (R107). A start not yet driven collides with it: the job is deferred to WAITING, or ends CANCELLED if a
cancel is pending (R72, R138). A job in ADDRESS, WRITE, READ or RESTART loses the bus and, if it backs off, waits for the
winner's stop (R76, R80, R81). The part's own start ends a transaction left in flight before it drives: the model's reading,
log 28. That the row says who made the start is the model's choice, log 24, and so is the order in a start that ends a
transaction and a collided job with a pending cancel, the transaction first, log 39. At a segment that is OFF only the level
is seen (R1, R22). -/
def Obligations.StartSeenTakesBus : Prop :=
  (∀ (g : SegId) (s : State) (x : Segment), Quiescent s → x = s.seg g → x.isOff = true → x.scl = true → x.sda = true →
    exec (.startSeen g .outside) s = .next (withEngine g { x with sda := false } s) ∧
      exec (.startSeen g .part) s = .next s) ∧
  ∀ (g : SegId) (s u : State) (x y : Segment), Quiescent s → x = s.seg g → x.isOff = false → x.scl = true →
    x.sda = true →
    y =
        { x with
          sda := false
          mon := { x.mon with line := .busy, idleSince := none }
          framer := { kind := .address, pos := 0, shift := 0, ackHigh := true, taken := false }
          clear := (match x.clear with | .stuck _ => .stuck none | c => c) } →
    u =
        endTransaction g false
          (s.setSeg g
            { y with
              quiet :=
                if x.clear.isNormal = true ∧ x.drvSda = false then some { since := s.now, limitMs := x.cfg.stuckMs }
                else none }) →
      ((x.resp = .listen ∨ x.resp = .ignore) → (∀ r, x.init ≠ .running r) →
          exec (.startSeen g .outside) s =
            .next
              (withEngine g
                { y with
                  resp := .listen
                  quiet :=
                    if x.clear.isNormal = true ∧ x.drvSda = false then
                      some { since := s.now, limitMs := x.cfg.stuckMs }
                    else none }
                s)) ∧
        ((∀ r, x.init = .running r → (r.sub = .start ∧ r.drove = true) ∨ ∃ why, r.sub = .stop why) →
          exec (.startSeen g .outside) s = .next (watchLines u)) ∧
        (∀ r j k, x.init = .running r → r.sub = .start → r.drove = false → s.job? r.slot = some j →
          k = { j with deferCount := min (j.deferCount + 1) 255 } →
          (j.cancelPending = false →
              exec (.startSeen g .outside) s =
                .next
                  (watchLines ((u.setJob r.slot (some k)).setSeg g { u.seg g with init := .waiting r.slot }))) ∧
            (j.cancelPending = true →
              exec (.startSeen g .outside) s =
                .next (watchLines (enterIdle g (finishJob r.slot .cancelled true (u.setJob r.slot (some k))))))) ∧
        (∀ r j, x.init = .running r → (r.sub = .address ∨ r.sub = .write ∨ r.sub = .read ∨ r.sub = .restart) →
          s.job? r.slot = some j → LosesAtCondition (.startSeen g .outside) g r j .winnerStop s u) ∧
        ∀ r, x.init = .running r → (r.sub = .start ∨ r.sub = .restart) → r.drove = false → r.closing = false →
          ((x.resp = .listen ∨ x.resp = .ignore) →
              exec (.startSeen g .part) s =
                .next
                  (withEngine g
                    { y with
                      drvSda := true, resp := .listen, init := .running { r with drove := true }, quiet := none }
                    s)) ∧
            ∀ w, w = endTransaction g false s → x.resp.transaction? ≠ none →
              exec (.startSeen g .part) s =
                .next
                  (watchLines
                    (w.setSeg g
                      { w.seg g with
                        sda := false, drvSda := true, init := .running { r with drove := true }
                        mon := { x.mon with line := .busy, idleSince := none }
                        framer := { kind := .address, pos := 0, shift := 0, ackHigh := true, taken := false }
                        clear := (match x.clear with | .stuck _ => .stuck none | c => c)
                        quiet := none }))

/-- A stop: the monitor is FREE with the stop time, no byte is framed, and the responder is in LISTEN; a backoff that waited
for it goes on with the bus-free time (R3, R13, R81). It ends a transaction (R107). A job in ADDRESS, WRITE, READ or
RESTART, which did not make it, loses the bus and, if it backs off, waits out the bus-free time (R76, R80, R81); a job in
START or in its own stop goes on. A clearing round in its stop releases SDA and notes the time of the stop (R94, R96). That
STOP_MADE comes before the stop it makes is the model's choice, log 24, and that the release of SDA for a round's stop is
the stop it makes, log 26. At a segment that is OFF only the level is seen (R1, R22). -/
def Obligations.StopSeenFreesBus : Prop :=
  (∀ (g : SegId) (s : State) (x : Segment), Quiescent s → x = s.seg g → x.isOff = true → x.scl = true → x.sda = false →
    x.drvSda = false → exec (.stopSeen g) s = .next (withEngine g { x with sda := true } s)) ∧
  ∀ (g : SegId) (s u : State) (x y : Segment), Quiescent s → x = s.seg g → x.isOff = false → x.scl = true →
    x.sda = false → (x.drvSda = false ∨ ∃ c, x.clear = .clearing c ∧ c.stage = .stopLow) →
    y =
        { x with
          sda := true
          drvSda := false
          mon := { line := .free, stopTime := some s.now, idleSince := none }
          framer := { kind := .none, pos := 0, shift := 0, ackHigh := true, taken := false }
          init :=
            (match x.init with
             | .backoff i (.winnerStop len) => .backoff i (.busFree s.now len)
             | k => k)
          clear :=
            (match x.clear with
             | .stuck _ => .stuck (some s.now)
             | .clearing c =>
               .clearing (if c.stage = .stopLow then { c with stage := .stopDone, stopAt := some s.now } else c)
             | .normal => .normal)
          quiet := none } →
    u = endTransaction g false (s.setSeg g y) →
      ((x.resp = .listen ∨ x.resp = .ignore) → (∀ r, x.init ≠ .running r) →
          exec (.stopSeen g) s = .next (withEngine g { y with resp := .listen } s)) ∧
        ((∀ r, x.init = .running r → r.sub = .start ∨ ∃ why, r.sub = .stop why) →
          exec (.stopSeen g) s = .next (watchLines u)) ∧
        ∀ r j, x.init = .running r → (r.sub = .address ∨ r.sub = .write ∨ r.sub = .read ∨ r.sub = .restart) →
          s.job? r.slot = some j → LosesAtCondition (.stopSeen g) g r j (.busFree s.now) s u

/-- A fall of SCL while FREE: the monitor is UNKNOWN with no stop time, its window waiting, and each unit takes the edge
(R13; `FallsWhileFree` says what each does). A start not yet driven is given up as a collision: the job is deferred to
WAITING, or ends CANCELLED if a cancel is pending, and the initiator, which has driven nothing, examines its queue (R72,
R138). In UNKNOWN the bus-idle window of 100 µs on high lines gives FREE with no stop time, and a backoff that waited for
FREE goes on with its retry wait (R14, R81). Before 100 µs, or with no window running, the expiry changes nothing: the
model's choice, log 3. -/
def Obligations.MonitorLeavesAndReachesFree : Prop :=
  ∀ (g : SegId) (s : State) (x : Segment), Quiescent s → x = s.seg g → x.isOff = false →
    (x.scl = true → x.mon.line = .free →
        ∃ y, FallsWhileFree s x y ∧
          ((∀ r, x.init = .running r → r.sub = .start → r.drove = true) →
            exec (.sclFallWhileFree g) s = .next (withEngine g y s)) ∧
          ∀ r j k, x.init = .running r → r.sub = .start → r.drove = false → r.closing = false →
            s.job? r.slot = some j → k = { j with deferCount := min (j.deferCount + 1) 255 } →
            (j.cancelPending = true →
                exec (.sclFallWhileFree g) s =
                  .next
                    (watchLines
                      (enterIdle g (finishJob r.slot .cancelled true ((s.setSeg g y).setJob r.slot (some k)))))) ∧
              (j.cancelPending = false →
                exec (.sclFallWhileFree g) s =
                  .next (withEngine g { y with init := .waiting r.slot } (s.setJob r.slot (some k))))) ∧
      (x.mon.line = .unknown →
        (∀ since, x.mon.idleSince = some since → since + 10 ≤ s.now →
            exec (.busIdleWindowExpiry g) s =
              .next
                (withEngine g
                  { x with
                    mon := { line := .free, stopTime := none, idleSince := none }
                    init :=
                      (match x.init with
                       | .backoff i (.winnerStop len) => .backoff i (.wait s.now len)
                       | k => k) }
                  s)) ∧
          (∀ since, x.mon.idleSince = some since → s.now < since + 10 →
            exec (.busIdleWindowExpiry g) s = .next s) ∧
          (x.mon.idleSince = none → exec (.busIdleWindowExpiry g) s = .next s))

/-- An edge with no condition: the level it leaves, the monitor (in UNKNOWN the window starts afresh if both lines are
high; in BUSY nothing), the bit positions at a rising SCL (R2, R13, R14), and the bit the part sets after a falling SCL:
the next bit of an address or write byte most significant first, SDA released for an acknowledge it samples, and the
acknowledge it gives (R2, R50, R51, R53, R106, R110, R112, R127). In FREE both lines are high, and each edge is an event of
its own. At a segment that is OFF only the level is seen (R1, R22).
What the edge does to each unit: START or RESTART, its start driven, goes on to ADDRESS with the first bit (R7, R8), and
the finishing bit of a segment reset to its stop (R142); the stretch measurement of the initiator and of a clearing round is
discarded at a rise (R60, R93); the responder notes the reader's NACK, and holds SCL in MAIL_WAIT (R112, R125, R127); the
clearing unit counts a pulse and drives its stop (R93, R94); the idle watch starts again (R97); the quiet-low time is
measured afresh (R86).
The model's choices in it: the stretch measurement, of the initiator and of a round, is counted from the falling edge of SCL
(log 1), where R60 and R93 count from the part's release; a fall in RESTART before SDA is driven begins another low period
(log 17); a clearing pulse whose high period is cut short ends at the fall (log 18); the responder drops what it kept of a byte whose ninth pulse has ended (R4, log 27); a fall in
a stop under way, the initiator's or a round's, begins its low period again with SDA low (log 29); a fall after a round's
stop leaves the round as it is (log 34); the level a line is seen at changes by its edges alone, so SDA is sampled as seen
even where the part drives it (log 38). -/
def Obligations.LineEdgeIsSeen : Prop :=
  ∀ (g : SegId) (e : Edge) (s : State) (x : Segment), Quiescent s → x = s.seg g → x.canEdge e = true →
    (x.isOff = true → exec (.lineEdge g e) s = .next (withEngine g (setLevel e x) s)) ∧
      (x.isOff = false → x.mon.line ≠ .free →
        (∀ r, x.init = .running r → r.sub = .start → r.drove = true) →
        ∃ y, exec (.lineEdge g e) s = .next (withEngine g y s) ∧
          y.scl = (match e with | .sclRise => true | .sclFall => false | _ => x.scl) ∧
          y.sda = (match e with | .sdaRise => true | .sdaFall => false | _ => x.sda) ∧
          y.mon =
              (if x.mon.line = .unknown then
                { x.mon with idleSince := if y.scl = true ∧ y.sda = true then some s.now else none }
              else x.mon) ∧
          y.cfg = x.cfg ∧ y.queue = x.queue ∧ y.entries = x.entries ∧ y.summary = x.summary ∧
          (e = .sclRise →
            y.framer.kind = (if x.framer.kind ≠ .none ∧ 9 ≤ x.framer.pos then .data else x.framer.kind) ∧
              (x.framer.kind ≠ .none →
                y.framer.pos = (if 9 ≤ x.framer.pos then 1 else x.framer.pos + 1) ∧
                  (x.framer.pos < 8 → ∀ k < 7, y.framer.shift.getLsbD (k + 1) = x.framer.shift.getLsbD k) ∧
                  (x.framer.pos ≠ 8 → y.framer.shift.getLsbD 0 = x.sda) ∧
                  (x.framer.pos = 8 → y.framer.ackHigh = x.sda ∧ y.framer.shift = x.framer.shift))) ∧
          (∀ r j, e = .sclFall → x.init = .running r → r.closing = false → s.job? r.slot = some j →
            (x.resp = .listen ∨ x.resp = .ignore) → x.clear = .normal →
            (r.sub = .address → x.framer.pos < 8 → y.drvSda = !j.addressByte.getLsbD (7 - x.framer.pos)) ∧
              (r.sub = .write → x.framer.pos < 8 → y.drvSda = !j.payloadByte.getLsbD (7 - x.framer.pos)) ∧
              (r.sub = .address ∨ r.sub = .write → 8 ≤ x.framer.pos → y.drvSda = false) ∧
              (r.sub = .read → x.framer.pos = 8 → y.drvSda = j.acksRead x.framer.shift) ∧
              (r.sub = .read → x.framer.pos ≠ 8 → y.drvSda = false)) ∧
          (∀ t, e = .sclFall → x.resp = .selectedWrite t → x.init.ownsBus = false → x.clear = .normal →
            y.drvSda =
              (decide (x.framer.pos = 8) && (decide (x.framer.kind = .address) || t.ackLow))) ∧
          (∀ t, e = .sclFall → x.resp = .selectedRead t → x.init.ownsBus = false → x.clear = .normal →
            x.framer.kind = .data → x.framer.pos < 8 → y.drvSda = !t.sender.getLsbD (7 - x.framer.pos)) ∧
          (∀ t, e = .sclFall → x.resp = .selectedRead t → x.init.ownsBus = false → x.clear = .normal →
            (x.framer.kind = .address → x.framer.pos < 9 → y.drvSda = decide (x.framer.pos = 8)) ∧
              (x.framer.kind = .data → x.framer.pos = 8 → y.drvSda = false) ∧
              (9 = x.framer.pos → y.drvSda = (t.preloaded && !t.sender.getLsbD 7))) ∧
          (∀ t l w, e = .sclFall → x.resp = .mailWait t l w → x.init.ownsBus = false → x.clear = .normal →
            y.drvSda = decide (x.framer.pos = 8)) ∧
          y.resetting = x.resetting ∧ y.disabling = x.disabling ∧
          (e = .sclRise → y.framer.taken = (if x.framer.kind = .none then x.framer.taken else false)) ∧
          (e ≠ .sclRise → x.resp.transaction? = none → y.framer = x.framer) ∧
          (e = .sdaRise ∨ e = .sdaFall → y.init = x.init ∧ y.resp = x.resp ∧ y.drvScl = x.drvScl ∧ y.drvSda = x.drvSda) ∧
          (e = .sclRise →
            y.init =
                (match x.init with
                 | .running r => .running { r with lowSince := none }
                 | .held h => .held { h with lowSince := none }
                 | k => k) ∧
              y.resp = x.resp ∧ y.drvScl = x.drvScl ∧ y.drvSda = x.drvSda) ∧
          (e = .sclFall → (∀ r, x.init = .running r → s.job? r.slot ≠ none) →
            y.init =
              (match x.init with
               | .running r =>
                 if r.closing then
                   .running { r with sub := .stop (.ends .flushed), closing := false, lowSince := some s.now }
                 else if r.drove ∧ (r.sub = .start ∨ r.sub = .restart) then
                   .running { r with sub := .address, drove := false, lowSince := some s.now }
                 else .running { r with lowSince := some s.now }
               | .held h => .held { h with lowSince := if h.closing = none then h.lowSince else some s.now }
               | k => k)) ∧
          (∀ r j, e = .sclFall → x.init = .running r → s.job? r.slot = some j →
            (x.resp = .listen ∨ x.resp = .ignore) → x.clear = .normal →
            (r.closing = true → y.drvSda = true) ∧
              (r.closing = false → (r.sub = .start ∨ r.sub = .restart) → r.drove = true →
                y.drvSda = !j.addressByte.getLsbD 7) ∧
              (r.closing = false → ∀ why, r.sub = .stop why → y.drvSda = x.drvSda)) ∧
          (e = .sclFall →
            y.resp =
              (match x.resp with
               | .selectedWrite t => .selectedWrite (if x.framer.pos = 9 then { t with undo := none } else t)
               | .selectedRead t =>
                 if x.framer.pos ≠ 9 then .selectedRead t
                 else if t.preloaded then .selectedRead { t with preloaded := false }
                 else if x.framer.kind = .data ∧ x.framer.ackHigh = true then
                   .selectedRead { t with nacked := true, sender := 0xFF }
                 else .selectedRead t
               | .mailWait t l w => .mailWait t l (if x.framer.pos = 9 then some s.now else w)
               | k => k)) ∧
          (e = .sclFall → x.clear.isClearing = false →
            y.drvScl =
              (match x.resp with
               | .mailWait _ _ _ => decide (x.framer.pos = 9) || x.drvScl
               | _ => x.drvScl)) ∧
          (x.clear = .normal → y.clear = .normal) ∧
          (∀ w, x.clear = .stuck w → y.clear = .stuck (if y.scl = true ∧ y.sda = true then some s.now else none)) ∧
          (∀ c, x.clear = .clearing c →
            (e = .sdaRise ∨ e = .sdaFall → y.clear = .clearing c) ∧
              (e = .sclRise → y.clear = .clearing { c with lowSince := none }) ∧
              (e = .sclFall → c.stage = .pulseHigh ∨ (c.stage = .pulseLow ∧ x.sda = false ∧ c.pulses < 9) →
                y.clear =
                  .clearing { c with stage := .pulseLow, pulses := c.pulses + 1, lowSince := some s.now }) ∧
              (e = .sclFall → c.stage = .stopHigh ∨ (c.stage = .pulseLow ∧ x.sda = true) →
                y.clear = .clearing { c with stage := .stopLow, lowSince := some s.now } ∧ y.drvSda = true) ∧
              (e = .sclFall → c.stage = .pulseLow → x.sda = false → 9 ≤ c.pulses →
                y.drvScl = false ∧ y.drvSda = false ∧
                  y.clear =
                    if c.round < 3 then
                      .clearing { c with pulses := 0, stage := .wait s.now, lowSince := none, stopAt := none }
                    else .stuck none) ∧
              (e = .sclFall → c.stage = .stopLow →
                y.clear = .clearing { c with lowSince := some s.now } ∧
                  ((∀ r, x.init ≠ .running r) → x.resp.transaction? = none → y.drvSda = x.drvSda)) ∧
              (e = .sclFall → c.stage = .stopDone ∨ (∃ since, c.stage = .wait since) → y.clear = .clearing c)) ∧
          y.quiet =
            (if y.clear = .normal ∧ ((y.scl = false ∧ y.drvScl = false) ∨ (y.sda = false ∧ y.drvSda = false)) then
              some { since := s.now, limitMs := x.cfg.stuckMs }
            else none))

/-! ## The initiator -/

/-- The decision to start: the monitor FREE, the bus-free time elapsed, the bus-clear unit NORMAL. The start time is
recorded once, progress and read space are reset, and the grade and stretch limit of the segment are read (R10, R18,
R48, R59). While a condition fails the job waits. -/
def Obligations.StartIsDecided : Prop :=
  ∀ (g : SegId) (s : State) (x : Segment) (i : Slot) (j : Job), Quiescent s → x = s.seg g → x.init = .waiting i →
    s.job? i = some j →
    ((x.mon.line = .free ∧ x.clear = .normal ∧
          (∀ t, x.mon.stopTime = some t → Config.busFreeTime x.cfg.grade ≤ (s.now - t) * 100) →
        exec (.startDecision g) s =
          .next
            (withEngine g
              { x with
                init :=
                  .running
                    { slot := i, sub := .start, drove := false, closing := false, grade := x.cfg.grade,
                      stretchMs := x.cfg.stretchMs, lowSince := none } }
              (s.setJob i
                (some
                  { j with
                    startTime := some (j.startTime.getD s.now), phaseIndex := 1, byteIndex := 0, results := [],
                    readBuf := [] })))) ∧
      (x.mon.line ≠ .free ∨ x.clear ≠ .normal ∨
          (∃ t, x.mon.stopTime = some t ∧ (s.now - t) * 100 < Config.busFreeTime x.cfg.grade) →
        exec (.startDecision g) s = .next s))

/-- The acknowledge of an address byte. ACK: a write goes on to its first payload byte, an empty one is complete, a read
goes on to receive. NACK: a stop, for ADDR_NACK with the retry count at the limit (0 for a continuation), else for the
retry. A pending cancel makes the stop CANCELLED unless the job's own end was reached (R50, R51, R57, R137). -/
def Obligations.AddressAckDecides : Prop :=
  ∀ (g : SegId) (s : State) (x : Segment) (r : Run) (j : Job), NoneInHand s → x = s.seg g → AckEnded x r .address →
    s.job? r.slot = some j →
    (x.framer.ackHigh = true →
        ((if j.isContinuation then 0 else j.nackLimit) ≤ j.nackCount →
            exec (.addressAck g) s = .next (withEngine g (x.took.stopping s.now r (.ends .addrNack)) s)) ∧
          (j.nackCount < (if j.isContinuation then 0 else j.nackLimit) →
            exec (.addressAck g) s =
              .next
                (withEngine g
                  (x.took.stopping s.now r (if j.cancelPending then .ends .cancelled else .retry)) s))) ∧
      (x.framer.ackHigh = false → ∀ p, j.phases[j.phaseIndex - 1]? = some p →
        (p.kind = .write [] →
            exec (.addressAck g) s = .next (watchLines (phaseComplete g r j (s.setSeg g x.took)))) ∧
          (p.kind ≠ .write [] → j.cancelPending = true →
            exec (.addressAck g) s = .next (withEngine g (x.took.stopping s.now r (.ends .cancelled)) s)) ∧
          (∀ b bs, p.kind = .write (b :: bs) → j.cancelPending = false → j.byteIndex = 0 →
            exec (.addressAck g) s =
              .next (withEngine g (x.took.sending s.now r .write (!b.getLsbD 7)) s)) ∧
          (((∃ n, p.kind = .read n) ∨ ∃ m, p.kind = .countedRead m) → j.cancelPending = false →
            exec (.addressAck g) s = .next (withEngine g (x.took.sending s.now r .read false) s)))

/-- The acknowledge of a write byte. ACK: the byte index rises by 1, and the next payload byte follows or the phase is
complete. NACK: a stop for DATA_NACK, whatever the limits and a pending cancel (R51, R52, R137). -/
def Obligations.WriteByteAckDecides : Prop :=
  ∀ (g : SegId) (s : State) (x : Segment) (r : Run) (j k : Job) (p : Phase) (bs : List Byte), NoneInHand s →
    x = s.seg g → AckEnded x r .write → s.job? r.slot = some j → j.phases[j.phaseIndex - 1]? = some p →
    p.kind = .write bs → k = { j with byteIndex := j.byteIndex + 1 } →
      (x.framer.ackHigh = true →
          exec (.writeByteAck g) s = .next (withEngine g (x.took.stopping s.now r (.ends .dataNack)) s)) ∧
        (x.framer.ackHigh = false →
          (bs.length ≤ k.byteIndex →
              exec (.writeByteAck g) s =
                .next (watchLines (phaseComplete g r k ((s.setSeg g x.took).setJob r.slot (some k))))) ∧
            ∀ h : k.byteIndex < bs.length,
              exec (.writeByteAck g) s =
                .next
                  (withEngine g
                    (if j.cancelPending then x.took.stopping s.now r (.ends .cancelled)
                    else x.took.sending s.now r .write (!bs[k.byteIndex].getLsbD 7))
                    (s.setJob r.slot (some k))))

/-- A received byte is stored and counted when its acknowledge bit has ended, and the phase is complete at its last byte
with its read result (R53, R54, R64). The length byte of a counted read is accepted from 1 to the maximum; otherwise the
part makes its stop for LENGTH_BAD with nothing counted (R54). A pending cancel makes a stop CANCELLED where bytes
remain (R137). -/
def Obligations.ReadAndLengthBytes : Prop :=
  ∀ (g : SegId) (s : State) (x : Segment) (r : Run) (j k : Job) (p : Phase), NoneInHand s → x = s.seg g →
    AckEnded x r .read → s.job? r.slot = some j → j.phases[j.phaseIndex - 1]? = some p →
    k = { j with readBuf := j.readBuf ++ [x.framer.shift], byteIndex := j.byteIndex + 1 } →
      (∀ total, (p.kind = .read total ∨
            ∃ m n rest, p.kind = .countedRead m ∧ j.readBuf = n :: rest ∧ total = n.toNat + 1 ∧ 0 < j.byteIndex) →
          (k.byteIndex < total →
              exec (.readByte g) s =
                .next
                  (withEngine g
                    (if j.cancelPending then x.took.stopping s.now r (.ends .cancelled)
                    else x.took.sending s.now r .read false)
                    (s.setJob r.slot (some k)))) ∧
            (total ≤ k.byteIndex → ∀ l, l = { k with results := k.results ++ [{ phase := k.phaseIndex, bytes := k.readBuf }] } →
              exec (.readByte g) s =
                .next (watchLines (phaseComplete g r l ((s.setSeg g x.took).setJob r.slot (some l)))))) ∧
        ∀ m, p.kind = .countedRead m → j.byteIndex = 0 →
          (within 1 m x.framer.shift.toNat →
              exec (.lengthByte g) s =
                .next
                  (withEngine g
                    (if j.cancelPending then x.took.stopping s.now r (.ends .cancelled)
                    else x.took.sending s.now r .read false)
                    (s.setJob r.slot (some k)))) ∧
            (¬within 1 m x.framer.shift.toNat →
              exec (.lengthByte g) s = .next (withEngine g (x.took.stopping s.now r (.ends .lengthBad)) s))

/-- The stop is made when the part releases SDA with SCL high. A job whose outcome was reached ends with it (R62); after an
address NACK the retry count rises by 1 and the backoff of the retry interval times that number begins, or a pending cancel
ends the job (R57, R58, R138); a lapsed hold ends with HOLD_LAPSED, any other without (R69, R140). The model's choices in
it: HOLD_LAPSED is made before the queue is examined, so it joins ahead of the CHAIN_BROKEN jobs found there (log 11), and
STOP_MADE is the release of SDA, ahead of the stop seen (logs 24 and 26), whether or not SDA has been seen low (log 38). -/
def Obligations.StopIsMade : Prop :=
  ∀ (g : SegId) (s : State) (x : Segment), Quiescent s → x = s.seg g → x.scl = true → x.drvSda = true →
    (∀ r o, x.init = .running r → r.sub = .stop (.ends o) →
        exec (.stopMade g) s = .next (watchLines (leave g (finishJob r.slot o true (s.setSeg g x.freed))))) ∧
      (∀ r j k, x.init = .running r → r.sub = .stop .retry → s.job? r.slot = some j →
        k = { j with nackCount := min (j.nackCount + 1) 255 } →
        (j.cancelPending = true →
            exec (.stopMade g) s =
              .next (watchLines (leave g (finishJob r.slot .cancelled true (s.setSeg g x.freed))))) ∧
          (j.cancelPending = false →
            exec (.stopMade g) s =
              .next
                (withEngine g
                  { x.freed with
                    init :=
                      if x.cfg.retryInterval * 10 * k.nackCount = 0 then .waiting r.slot
                      else .backoff r.slot (.wait s.now (x.cfg.retryInterval * 10 * k.nackCount)) }
                  (s.setJob r.slot (some k))))) ∧
      (∀ h, x.init = .held h → h.closing = some .lapse →
        exec (.stopMade g) s =
          .next (watchLines (leave g (claimEvent g (.holdLapsed h.chain) (s.setSeg g x.freed))))) ∧
      ∀ h, x.init = .held h → h.closing = some .order →
        exec (.stopMade g) s = .next (watchLines (leave g (s.setSeg g x.freed)))

/-- An arbitration loss: the part sees SDA low at a rising SCL where it sends a 1. It releases both lines and the count
rises by 1; beyond the limit (0 for a continuation) the job ends ARB_LOST, a pending cancel ends it CANCELLED, and
otherwise it is in BACKOFF for the winner's stop, the bus-free time and the retry interval times the count (R75, R77,
R80, R81). In the finishing bit of a segment reset the count stays and the job ends FLUSHED (R142). -/
def Obligations.ArbitrationLossDecides : Prop :=
  ∀ (g : SegId) (s : State) (x : Segment) (r : Run) (j k : Job), NoneInHand s → x = s.seg g → x.init = .running r →
    x.scl = true → x.drvSda = false →
    (((r.sub = .address ∨ r.sub = .write) ∧ within 1 8 x.framer.pos ∧ x.framer.shift.getLsbD 0 = false) ∨
      (r.sub = .read ∧ x.framer.pos = 9 ∧ x.framer.ackHigh = false) ∨
      (r.sub = .restart ∧ r.drove = false ∧ x.sda = false)) →
    s.job? r.slot = some j → k = { j with arbCount := min (j.arbCount + 1) 255 } →
      (r.closing = true →
          exec (.arbitrationLoss g) s =
            .next (watchLines (leave g (finishJob r.slot .flushed true (s.setSeg g x.freed))))) ∧
        (r.closing = false →
          ((if j.isContinuation then 0 else j.arbLimit) < k.arbCount →
              exec (.arbitrationLoss g) s =
                .next
                  (watchLines
                    (leave g (finishJob r.slot .arbLost true ((s.setSeg g x.freed).setJob r.slot (some k)))))) ∧
            (k.arbCount ≤ (if j.isContinuation then 0 else j.arbLimit) →
              (j.cancelPending = true →
                  exec (.arbitrationLoss g) s =
                    .next
                      (watchLines
                        (leave g (finishJob r.slot .cancelled true ((s.setSeg g x.freed).setJob r.slot (some k)))))) ∧
                (j.cancelPending = false → x.mon.line ≠ .free →
                  exec (.arbitrationLoss g) s =
                    .next
                      (withEngine g
                        { x.freed with
                          init := .backoff r.slot (.winnerStop (x.cfg.retryInterval * 10 * k.arbCount)) }
                        (s.setJob r.slot (some k))))))

/-- The stretch limit of a run: both lines are released and the job ends STRETCH_TIMEOUT, or with the outcome its stop had
reached, or FLUSHED under a segment reset (R60, R61, R142); of a hold's stop: the lapse is completed (R69, R140). The retry
wait of a backoff ends in WAITING (R58, R81). A hold lapses at its limit: the part makes a stop, whose drive of SDA ends the
quiet-low interval (R69, R86). The model's choices in it: HOLD_LAPSED is made before the queue is examined, so it joins
ahead of the CHAIN_BROKEN jobs found there (log 11); a cancel pending in the stop before a retry does not act where the
stretch limit ends that stop, and the job ends STRETCH_TIMEOUT (log 23); the low time is counted from the falling edge of
SCL (log 1); before their limits BACKOFF_END and HOLD_LIMIT_EXPIRY change nothing (log 3). -/
def Obligations.InitiatorLimitsExpire : Prop :=
  ∀ (g : SegId) (s : State) (x : Segment), Quiescent s → x = s.seg g →
    (∀ r since o, x.init = .running r → r.lowSince = some since → since + r.stretchMs * 100 ≤ s.now →
        o =
            (if r.closing then .flushed
            else match r.sub with
              | .stop (.ends o) => o
              | _ => .stretchTimeout) →
        exec (.stretchLimitExpiry g) s =
          .next (watchLines (leave g (finishJob r.slot o true (s.setSeg g x.freed))))) ∧
      (∀ h since, x.init = .held h → h.lowSince = some since → since + h.stretchMs * 100 ≤ s.now →
        (h.closing = some .lapse →
            exec (.stretchLimitExpiry g) s =
              .next (watchLines (leave g (claimEvent g (.holdLapsed h.chain) (s.setSeg g x.freed))))) ∧
          (h.closing = some .order →
            exec (.stretchLimitExpiry g) s = .next (watchLines (leave g (s.setSeg g x.freed))))) ∧
      (∀ i since len, x.init = .backoff i (.wait since len) →
        (since + len ≤ s.now → exec (.backoffEnd g) s = .next (withEngine g { x with init := .waiting i } s)) ∧
          (s.now < since + len → exec (.backoffEnd g) s = .next s)) ∧
      ∀ h, x.init = .held h → h.closing = none →
        (h.since + h.limitMs * 100 ≤ s.now →
            exec (.holdLimitExpiry g) s =
              .next
                (withEngine g
                  { x with
                    drvScl := false, drvSda := true, quiet := none,
                    init := .held { h with closing := some .lapse, lowSince := some s.now } }
                  s)) ∧
          (s.now < h.since + h.limitMs * 100 → exec (.holdLimitExpiry g) s = .next s)

/-! ## The responder -/

/-- Position 8 of an address byte: the responder ignores a byte while its own initiator drives, one in a clearing round and
one that matches no enabled entry (R92, R105; in CLEARING also a byte under way at the detection, in which the pulses count
on: the model's reading, log 31); the line monitor has no say in it (log 28). A matched window is selected; a matched
mailbox is selected for a write when an event record is free, and for a read when it has mail, or waits for it under a wait
limit (R106, R118, R119, R127). Where the initiator loses the bus at that bit, the loss comes first and the byte is then
compared like any other (R78). -/
def Obligations.AddressByteSelects : Prop :=
  (∀ (g : SegId) (s : State) (x : Segment), NoneInHand s → x = s.seg g → x.resp = .listen →
    x.framer.kind = .address → x.framer.pos = 8 → x.scl = true → x.framer.taken = false → x.lossSeen = false →
    ((∃ r, x.init = .running r) ∨ (∃ h, x.init = .held h) ∨ x.clear.isClearing = true ∨
          (∀ e, (x.entry e).enable = true → (x.entry e).address ≠ some (x.framer.shift >>> 1)) →
        exec (.respAddressByte g) s = .next (withEngine g { x.took with resp := .ignore } s)) ∧
      ∀ e n, (∀ r, x.init ≠ .running r) → (∀ h, x.init ≠ .held h) → x.clear.isClearing = false →
        n = x.entry e → n.enable = true → n.address = some (x.framer.shift >>> 1) →
        (∀ k, k ≠ e → (x.entry k).enable = true → (x.entry k).address ≠ some (x.framer.shift >>> 1)) →
        exec (.respAddressByte g) s =
          .next
            (withEngine g
              { x.took with
                resp :=
                  match n.mode, x.framer.shift.getLsbD 0 with
                  | .window, false => .selectedWrite (freshTransaction e (.windowWrite false none))
                  | .window, true => .selectedRead (freshTransaction e .windowRead)
                  | .mailbox, false =>
                    if 0 < freeRecords s then
                      .selectedWrite (freshTransaction e (.mailWrite (x.framer.shift >>> 1) [] false))
                    else .ignore
                  | .mailbox, true =>
                    if n.outbox ≠ [] then .selectedRead (freshTransaction e (.mailRead true 0 0 false))
                    else if n.mailWaitMs = 0 then .ignore
                    else .mailWait (freshTransaction e (.mailRead false 0 0 false)) n.mailWaitMs none }
              s)) ∧
    ∀ (g : SegId) (s t : State), NoneInHand s → exec (.arbitrationLoss g) s = .next t →
      exec (.respAddressByte g) s = exec (.respAddressByte g) t

/-- A byte of an outside window write: the first sets the pointer modulo 64; each later one is stored below the protect
boundary and discarded at it and above, and the pointer advances with its wrap. It is acknowledged, and the run of
changes since the first changing store is recorded (R109 to R111). A byte of an outside window read is loaded from the
pointer, which advances; its first bit is set on SDA (R112). No other byte of the window changes. What
stood before a byte is kept until its ninth pulse ends, for a condition to take it back (R4; the model's reading, log
27). -/
def Obligations.WindowBytesMove : Prop :=
  ∀ (g : SegId) (s : State) (x : Segment) (t : Transaction) (n : Entry), NoneInHand s → x = s.seg g →
    n = x.entry t.entry → x.framer.taken = false →
    (∀ got c, x.resp = .selectedWrite t → x.framer.kind = .data → x.framer.pos = 8 → x.scl = true →
        t.access = .windowWrite got c →
        (got = false →
            exec (.windowWriteByte g) s =
              .next
                (withEngine g
                  ({ x.took with
                      resp :=
                        .selectedWrite
                          { t with
                            access := .windowWrite true none, ackLow := true
                            undo :=
                              some (.window false c n.pointer (Memory.read n.pointer.val n.window)) } }.setEntry
                    t.entry { n with pointer := Fin.ofNat 64 x.framer.shift.toNat })
                  s)) ∧
          (got = true → Memory.wf n.window →
            ∃ w d, exec (.windowWriteByte g) s =
                  .next
                    (withEngine g
                      ({ x.took with
                          resp :=
                            .selectedWrite
                              { t with
                                access := .windowWrite true d, ackLow := true
                                undo :=
                                  some (.window true c n.pointer (Memory.read n.pointer.val n.window)) } }.setEntry
                        t.entry { n with window := w, pointer := n.pointer + 1 })
                      s) ∧
              Memory.wf w ∧ (∀ a, a ≠ n.pointer.val → Memory.read a w = Memory.read a n.window) ∧
              Memory.read n.pointer.val w =
                (if n.pointer.val < n.protectFrom then x.framer.shift else Memory.read n.pointer.val n.window) ∧
              d =
                (match c with
                 | none =>
                   if Memory.read n.pointer.val w ≠ Memory.read n.pointer.val n.window then
                     some { first := n.pointer, steps := 1, count := 1 }
                   else none
                 | some c =>
                   some
                     { first := c.first, steps := c.steps + 1,
                       count :=
                         if Memory.read n.pointer.val w ≠ Memory.read n.pointer.val n.window then min (c.steps + 1) 64
                         else c.count }))) ∧
      (x.resp = .selectedRead t → x.framer.pos = 9 → x.scl = false → t.nacked = false → t.preloaded = false →
        t.access = .windowRead →
        ∀ b, b = Memory.read n.pointer.val n.window →
          exec (.windowReadByte g) s =
            .next
              (withEngine g
                ({ x.took with drvSda := !b.getLsbD 7, resp := .selectedRead { t with sender := b } }.setEntry
                  t.entry { n with pointer := n.pointer + 1 })
                s))

/-- A byte of an outside mailbox write is appended and acknowledged while fewer than 32 are held, and NACKed and
discarded with the overlong flag set from then on (R120). A read of a mailbox loads the next byte of its bound message,
or FFh with the pad count raised, and the first bit is set on SDA (R125, R129). What
stood before a byte is kept until its ninth pulse ends, for a condition to take it back (R4; the model's reading, log
27). -/
def Obligations.MailboxBytesMove : Prop :=
  ∀ (g : SegId) (s : State) (x : Segment) (t : Transaction), NoneInHand s → x = s.seg g → x.framer.taken = false →
    (∀ a bytes overlong, x.resp = .selectedWrite t → x.framer.kind = .data → x.framer.pos = 8 → x.scl = true →
        t.access = .mailWrite a bytes overlong →
        (bytes.length < 32 →
            exec (.mailWriteByte g) s =
              .next
                (withEngine g
                  { x.took with
                    resp :=
                      .selectedWrite
                        { t with
                          access := .mailWrite a (bytes ++ [x.framer.shift]) overlong, ackLow := true
                          undo := some (.mail bytes overlong) } }
                  s)) ∧
          (32 ≤ bytes.length →
            exec (.mailWriteByte g) s =
              .next
                (withEngine g
                  { x.took with
                    resp :=
                      .selectedWrite
                        { t with
                          access := .mailWrite a bytes true, ackLow := false, undo := some (.mail bytes overlong) } }
                  s))) ∧
      ∀ bound k pad expired, x.resp = .selectedRead t → x.framer.pos = 9 → x.scl = false → t.nacked = false →
        t.preloaded = false → t.access = .mailRead bound k pad expired →
        (∀ m rest b, bound = true → (x.entry t.entry).outbox = m :: rest → m[k]? = some b →
            exec (.mailReadByte g) s =
              .next
                (withEngine g
                  { x.took with
                    drvSda := !b.getLsbD 7
                    resp := .selectedRead { t with sender := b, access := .mailRead bound (k + 1) pad expired } }
                  s)) ∧
          ((bound = true → ∀ m rest, (x.entry t.entry).outbox = m :: rest → m.length ≤ k) →
            exec (.mailReadByte g) s =
              .next
                (withEngine g
                  { x.took with
                    drvSda := false
                    resp :=
                      .selectedRead { t with sender := 0xFF, access := .mailRead bound k (min (pad + 1) 255) expired } }
                  s))

/-- The wait for mail expires at the limit read at selection: FFh is loaded as the first byte with the pad count 1 and
the wait-expired flag set, and the clock is released (R129). Before that nothing happens: the model's choice,
log 3. -/
def Obligations.MailWaitExpires : Prop :=
  ∀ (g : SegId) (s : State) (x : Segment) (t : Transaction) (limitMs since : Nat), Quiescent s → x = s.seg g →
    x.resp = .mailWait t limitMs (some since) →
    (since + limitMs * 100 ≤ s.now →
        exec (.mailWaitExpiry g) s =
          .next
            (withEngine g
              { x.took.freed with
                resp := .selectedRead { t with access := .mailRead false 0 1 true, sender := 0xFF } }
              s)) ∧
      (s.now < since + limitMs * 100 → exec (.mailWaitExpiry g) s = .next s)

/-! ## The bus-clear unit -/

/-- The quiet-low interval of a segment that is not OFF, its unit NORMAL: it begins when a line is low that the part does
not drive, with the stuck limit then in force, goes on while that lasts, and ends when it does not (R86, R87). While a
segment reset has not ended none begins but at an edge: the model's reading, log 15. The interval that the part's own drive
of SDA discards where it ends a hold of SCL is stated in `SegFlushEmptiesQueue`, `MailPostAppends` and
`InitiatorLimitsExpire`. A stuck detection: the quiet-low time has reached the limit its interval keeps. A running job ends
BUS_STUCK (or with the outcome its stop had reached, or FLUSHED under a segment reset) and a hold ends, with both lines
released; a waiting job stays. A transaction ends as at a stop. Then BUS_STUCK is made with the lines found low, and the
unit begins round 1, or is STUCK, by the recovery enable (R86 to R91, R93); under a disable the segment is OFF instead,
without rounds (the model's reading, log 19). The jobs that an examined queue ends come before the transaction's events and
BUS_STUCK: the model's choice, log 11. Steps at the queue and at the end of a disable: `InitiatorExaminesQueue`. -/
def Obligations.StuckDetectionEnds : Prop :=
  (∀ (s : State), (∃ segs, watchLines s = { s with segs := segs }) ∧
    ∀ (g : SegId) (x y : Segment), x = s.seg g → y = (watchLines s).seg g →
      y = { x with quiet := y.quiet } ∧
        ((x.init = .off ∨ x.clear ≠ .normal ∨
            ((x.scl = true ∨ x.drvScl = true) ∧ (x.sda = true ∨ x.drvSda = true)) → y.quiet = none) ∧
          (x.init ≠ .off → x.clear = .normal →
            ((x.scl = false ∧ x.drvScl = false) ∨ (x.sda = false ∧ x.drvSda = false)) →
            (∀ q, x.quiet = some q → y.quiet = some q) ∧
              (x.quiet = none → x.resetting = false →
                y.quiet = some { since := s.now, limitMs := x.cfg.stuckMs }) ∧
              (x.quiet = none → x.resetting = true → y.quiet = none)))) ∧
  ∀ (g : SegId) (s u : State) (x : Segment) (q : Quiet), Quiescent s → x = s.seg g → x.isOff = false →
    x.clear = .normal → x.quietLow = true → x.quiet = some q → q.since + q.limitMs * 100 ≤ s.now →
    u =
        s.setSeg g
          { x.freed with resetting := false, quiet := if x.resetting then none else x.quiet } →
      ∃ v, exec (.stuckDetection g) s =
            .next
              (watchLines
                (endDisable g
                  (modSeg g (enterClearing s.now)
                    (claimEvent g
                      (.busStuck (!x.scl && !x.drvScl) (!x.sda && !x.drvSda) x.cfg.recovery)
                      (endTransaction g false v))))) ∧
        (∀ r, x.init = .running r →
          v =
            toIdle g
              (finishJob r.slot
                (if r.closing then .flushed
                else match r.sub with
                  | .stop (.ends o) => o
                  | _ => .busStuck)
                true u)) ∧
        (∀ h, x.init = .held h →
          v = toIdle g (if h.closing = some .lapse then claimEvent g (.holdLapsed h.chain) u else u)) ∧
        ((∀ r, x.init ≠ .running r) → (∀ h, x.init ≠ .held h) → v = s) ∧
        ∀ y : Segment,
          (y.cfg.recovery = false →
              enterClearing s.now y =
                { y with clear := .stuck (if y.scl && y.sda then some s.now else none), quiet := none }) ∧
            (y.cfg.recovery = true → enterClearing s.now y = startRound s.now 1 y)

/-- The clearing rounds. A round fails at once on a low SCL, goes to its stop on a high SDA and makes a pulse otherwise, at
most nine; a failed round 1 or 2 is followed by a wait of 10 ms, a failed round 3 leaves the unit STUCK; an expiry of the
round's stretch limit fails it; with both lines high after its stop the segment is recovered, with BUS_RECOVERED and the
monitor FREE, and where either is low, or SDA has not risen for the stop, the round fails (R93 to R96; that
CLEARING_ROUND_END is the release of an SDA that stays low, log 26). In STUCK 100 µs of high lines recover the segment with
round 0, and a transaction in flight ends first (R97). A backoff that waited for FREE goes on (R81). CLEAR_WAIT_EXPIRY
before 10 ms, and CLEARING_ROUND_END in a round's stop before its high period, change nothing: the model's choice, log 3.
That IGNORE stays at a recovery on idle lines is the model's reading, log 20; that round 1 fails at once on SCL that the
part itself was holding, and makes a pulse on SDA that the part itself was driving low, log 30. -/
def Obligations.ClearingRounds : Prop :=
  ∀ (g : SegId) (s : State) (x : Segment), Quiescent s → x = s.seg g →
    (∀ n, startRound s.now n x =
        { x with
          quiet := none
          drvScl := if x.scl then x.drvScl else false
          drvSda := if x.scl then x.drvSda else false
          clear :=
            if x.scl then
              .clearing
                { round := n, pulses := 0, stage := if x.sda then .stopHigh else .pulseHigh, grade := x.cfg.grade,
                  stretchMs := x.cfg.stretchMs, lowSince := none, stopAt := none }
            else if n < 3 then
              .clearing
                { round := n, pulses := 0, stage := .wait s.now, grade := x.cfg.grade, stretchMs := x.cfg.stretchMs,
                  lowSince := none, stopAt := none }
            else .stuck none }) ∧
      (∀ c since, x.clear = .clearing c → c.stage = .wait since →
        (since + 1000 ≤ s.now →
            exec (.clearWaitExpiry g) s = .next (withEngine g (startRound s.now (c.round + 1) x) s)) ∧
          (s.now < since + 1000 → exec (.clearWaitExpiry g) s = .next s)) ∧
      (∀ c, x.clear = .clearing c →
        ∀ failed : Segment,
          failed =
              { x.freed with
                clear :=
                  if c.round < 3 then
                    .clearing { c with pulses := 0, stage := .wait s.now, lowSince := none, stopAt := none }
                  else .stuck (if x.scl && x.sda then some s.now else none) } →
            (∀ since, c.lowSince = some since → since + c.stretchMs * 100 ≤ s.now →
                exec (.clearStretchExpiry g) s = .next (withEngine g failed s)) ∧
              (c.stage = .pulseLow → x.scl = true →
                exec (.clearingPulse g) s =
                  .next
                    (withEngine g
                      (if x.sda then { x with clear := .clearing { c with stage := .stopHigh } }
                      else if c.pulses < 9 then { x with clear := .clearing { c with stage := .pulseHigh } }
                      else failed)
                      s)) ∧
              (c.stage = .stopLow →
                (x.scl = true → x.sda = false → exec (.clearingRoundEnd g) s = .next (withEngine g failed s)) ∧
                  (x.scl = false ∨ x.sda = true → exec (.clearingRoundEnd g) s = .next s)) ∧
              (c.stage = .stopDone →
                (x.scl = true → x.sda = true → x.mon.line = .free →
                    exec (.clearingRoundEnd g) s =
                      .next
                        (watchLines
                          (claimEvent g (.busRecovered c.round c.pulses) (s.setSeg g { x with clear := .normal })))) ∧
                  (x.scl = true → x.sda = true → x.mon.line ≠ .free →
                    exec (.clearingRoundEnd g) s =
                      .next
                        (watchLines
                          (claimEvent g (.busRecovered c.round c.pulses)
                            (s.setSeg g
                              (freeBackoff s.now
                                { x with
                                  clear := .normal
                                  mon := { line := .free, stopTime := c.stopAt, idleSince := none } }))))) ∧
                  (x.scl = false ∨ x.sda = false →
                    exec (.clearingRoundEnd g) s = .next (withEngine g failed s)))) ∧
      (∀ y : Segment, y.mon.line = .free →
        freeBackoff s.now y =
          { y with
            init :=
              (match y.init, y.mon.stopTime with
               | .backoff i (.winnerStop len), some t => .backoff i (.busFree t len)
               | .backoff i (.winnerStop len), none => .backoff i (.wait s.now len)
               | k, _ => k) }) ∧
      (∀ since u, x.clear = .stuck (some since) → since + 10 ≤ s.now → x.resp.transaction? ≠ none →
        u = endTransaction g false s →
        exec (.idleWatchExpiry g) s =
          .next
            (watchLines
              (claimEvent g (.busRecovered 0 0)
                (u.setSeg g
                  (if x.mon.line = .free then { u.seg g with clear := .normal }
                  else
                    freeBackoff s.now
                      { u.seg g with
                        clear := .normal, mon := { line := .free, stopTime := none, idleSince := none } }))))) ∧
      ∀ since, x.clear = .stuck (some since) → since + 10 ≤ s.now →
        (x.resp = .listen ∨ x.resp = .ignore) →
        exec (.idleWatchExpiry g) s =
          .next
            (watchLines
              (claimEvent g (.busRecovered 0 0)
                (s.setSeg g
                  (if x.mon.line = .free then { x with clear := .normal }
                  else
                    freeBackoff s.now
                      { x with clear := .normal, mon := { line := .free, stopTime := none, idleSince := none } }))))

/-! ## Headline statements -/

/-- Every request's parameters are read back as the host laid them out, with every value the layouts allow, and nothing
else is read as that request. A reader answers values, BAD_REQUEST or BAD_PARAM and no third code, values exactly on their
own bytes, and BAD_REQUEST exactly where the length does not match or the bytes are not one job record (R28, R182 to R185);
so BAD_PARAM on the rest (R29). -/
def Obligations.RequestParametersRoundTrip : Prop :=
  (∀ bs w ms, linkConfigParams bs = .ok (w, ms) ↔ linkConfigInRange w ms ∧ bs = linkConfigBytes w ms) ∧
    (∀ bs, linkConfigParams bs = .error .badRequest ↔ bs.length ≠ 3) ∧
    (∀ bs g c, segConfigParams bs = .ok (g, c) ↔ c.inRange ∧ bs = segConfigBytes g c) ∧
    (∀ bs, segConfigParams bs = .error .badRequest ↔ bs.length ≠ 11) ∧
    (∀ bs g, segParams bs = .ok g ↔ bs = [indexByte g]) ∧ (∀ bs, segParams bs = .error .badRequest ↔ bs.length ≠ 1) ∧
    (∀ bs id, jobIdParams bs = .ok id ↔ id ≠ 0 ∧ bs = wordBytes id) ∧
    (∀ bs, jobIdParams bs = .error .badRequest ↔ bs.length ≠ 2) ∧
    (∀ bs u, submitParams bs = .ok u ↔ u.inRange ∧ bs = submitBytes u) ∧
    (∀ bs, submitParams bs = .error .badRequest ↔
      ¬∃ hi lo g cls arb nack chain role count, ∃ es : List RawEntry,
          bs = hi :: lo :: g :: cls :: arb :: nack :: chain :: role :: count :: es.flatMap RawEntry.bytes ∧
            es.length = count.toNat ∧ ∀ e ∈ es, e.formed) ∧
    (∀ bs g e v, respSetParams bs = .ok (g, e, v) ↔ (∀ w ∈ v, w.inRange) ∧ bs = respSetBytes g e v) ∧
    (∀ bs, respSetParams bs = .error .badRequest ↔
      bs.length < 3 ∨ (bs[2]? = some 0x01 ∧ bs.length ≠ 9) ∨ (bs[2]? = some 0x02 ∧ bs.length ≠ 3)) ∧
    (∀ bs g e offset bytes,
      winWriteParams bs = .ok (g, e, offset, bytes) ↔
        within 1 64 bytes.length ∧ offset + bytes.length ≤ 64 ∧ bs = winWriteBytes g e offset bytes) ∧
    (∀ bs, winWriteParams bs = .error .badRequest ↔
      ¬∃ g e offset count bytes, bs = g :: e :: offset :: count :: bytes ∧ bytes.length = count.toNat) ∧
    (∀ bs g e offset len,
      winReadParams bs = .ok (g, e, offset, len) ↔
        within 1 64 len ∧ offset + len ≤ 64 ∧ bs = winReadBytes g e offset len) ∧
    (∀ bs, winReadParams bs = .error .badRequest ↔ bs.length ≠ 4) ∧
    (∀ bs g e bytes,
      mailPostParams bs = .ok (g, e, bytes) ↔ within 1 32 bytes.length ∧ bs = mailPostBytes g e bytes) ∧
    (∀ bs, mailPostParams bs = .error .badRequest ↔
      ¬∃ g e count bytes, bs = g :: e :: count :: bytes ∧ bytes.length = count.toNat) ∧
    (∀ bs g e, mailWithdrawParams bs = .ok (g, e) ↔ bs = [indexByte g, indexByte e]) ∧
    (∀ bs, mailWithdrawParams bs = .error .badRequest ↔ bs.length ≠ 2) ∧
    ∀ bs rc,
      linkConfigParams bs = .error rc ∨ segConfigParams bs = .error rc ∨ segParams bs = .error rc ∨
          jobIdParams bs = .error rc ∨ submitParams bs = .error rc ∨ respSetParams bs = .error rc ∨
          winWriteParams bs = .error rc ∨ winReadParams bs = .error rc ∨ mailPostParams bs = .error rc ∨
          mailWithdrawParams bs = .error rc →
        rc = .badRequest ∨ rc = .badParam

/-- The invariant holds at reset. -/
def Obligations.InvariantHoldsAtReset : Prop := Inv State.reset

/-- Every step keeps the invariant. The bounds: windows stay in canonical form with the bounds of their entries, a segment
that is OFF drives nothing and keeps the reset state of its units, the notice queue's numbers are consecutive with the sent
limit and the send point within it, and the inbound buffer and the reply cache keep their bounds (R1, R11, R12, R46, R100,
R104, R117, R146, R153, R167, R169). The lines: one unit at a time drives a segment, and what no unit drives is released
(R11, R92); a segment reset or a disable that has not ended waits for an initiator on its way out (R141, R142, R145). The
addresses of a segment's enabled entries differ (R101). The pool: job ids are distinct, the QUEUED jobs are those of the
queues, each once, the CURRENT ones are the current jobs, the FINISHED ones are those with a JOB_DONE notice, one each (R31,
R36, R39, R42, R43, R46, R146). The replies: each reply owed has its place reserved, the held replies and the reserved
places number at most 8, the cache holds at most 16 entries, and each PENDING one is of a request whose reply is owed (R136,
R169, R170, R172). -/
def Obligations.InvariantKeptByEveryStep : Prop := ∀ s t : State, Inv s → step s = .next t → Inv t

/-- The pools never run over: the event records held by notices and by mailbox writes in flight number at most 24, and
the data blocks held by jobs and outbox messages at most 64, after every step from a state where they do (R36, R37,
R148). Where they do and the invariant holds, the notice queue holds at most 56 entries (R146). -/
def Obligations.PoolsNeverRunOver : Prop :=
  (heldRecords State.reset ≤ 24 ∧ heldBlocks State.reset ≤ 64) ∧
    (∀ s t : State, step s = .next t →
      (heldRecords s ≤ 24 → heldRecords t ≤ 24) ∧ (heldBlocks s ≤ 64 → heldBlocks t ≤ 64)) ∧
    ∀ s : State, Inv s → heldRecords s ≤ 24 → s.notices.queue.length ≤ 56
end

