-- ==== Sys2Proof/Laws/State.lean ====
section
/-! SUPPORT. One lemma for each field and each update of the state, and what the end of every step does. -/

namespace Sys2Proof.Machine

/-! ## Engines -/

@[simp] theorem seg_setSeg (s : State) (g : SegId) (x : Segment) : (s.setSeg g x).seg g = x := by
  simp [State.seg, State.setSeg]

theorem seg_setSeg_ne (s : State) {g h : SegId} (x : Segment) (hne : h ≠ g) : (s.setSeg g x).seg h = s.seg h := by
  have : g.val ≠ h.val := fun e => hne (Fin.ext e.symm)
  simp [State.seg, State.setSeg, this]

theorem seg_setSeg_eq (s : State) (g h : SegId) (x : Segment) :
    (s.setSeg g x).seg h = if h = g then x else s.seg h := by
  by_cases e : h = g
  · subst e; simp
  · simp [e, seg_setSeg_ne]

@[simp] theorem setSeg_now (s : State) (g : SegId) (x : Segment) : (s.setSeg g x).now = s.now := rfl
@[simp] theorem setSeg_jobs (s : State) (g : SegId) (x : Segment) : (s.setSeg g x).jobs = s.jobs := rfl
@[simp] theorem setSeg_job? (s : State) (g : SegId) (x : Segment) (i : Slot) : (s.setSeg g x).job? i = s.job? i := rfl
@[simp] theorem setSeg_notices (s : State) (g : SegId) (x : Segment) : (s.setSeg g x).notices = s.notices := rfl
@[simp] theorem setSeg_link (s : State) (g : SegId) (x : Segment) : (s.setSeg g x).link = s.link := rfl
@[simp] theorem setSeg_resetHeld (s : State) (g : SegId) (x : Segment) : (s.setSeg g x).resetHeld = s.resetHeld := rfl
@[simp] theorem setSeg_pending (s : State) (g : SegId) (x : Segment) : (s.setSeg g x).pending = s.pending := rfl

/-- Two states with the same engines, seen one at a time, have the same engines. -/
theorem segs_ext {a b : Vector Segment 4} (h : ∀ g : SegId, a[g] = b[g]) : a = b := by
  apply Vector.ext
  intro i hi
  exact h ⟨i, hi⟩

@[simp] theorem setSeg_seg (s : State) (g : SegId) : s.setSeg g (s.seg g) = s := by
  cases s
  simp [State.setSeg, State.seg]

@[simp] theorem setSeg_setSeg (s : State) (g : SegId) (x y : Segment) : (s.setSeg g x).setSeg g y = s.setSeg g y := by
  simp [State.setSeg]

@[simp] theorem seg_modSeg (s : State) (g : SegId) (f : Segment → Segment) : (modSeg g f s).seg g = f (s.seg g) := by
  simp [modSeg]

theorem seg_modSeg_ne (s : State) {g h : SegId} (f : Segment → Segment) (hne : h ≠ g) :
    (modSeg g f s).seg h = s.seg h := seg_setSeg_ne s _ hne

theorem seg_modSeg_eq (s : State) (g h : SegId) (f : Segment → Segment) :
    (modSeg g f s).seg h = if h = g then f (s.seg g) else s.seg h := seg_setSeg_eq s g h _

@[simp] theorem modSeg_now (s : State) (g : SegId) (f : Segment → Segment) : (modSeg g f s).now = s.now := rfl
@[simp] theorem modSeg_jobs (s : State) (g : SegId) (f : Segment → Segment) : (modSeg g f s).jobs = s.jobs := rfl
@[simp] theorem modSeg_job? (s : State) (g : SegId) (f : Segment → Segment) (i : Slot) :
    (modSeg g f s).job? i = s.job? i := rfl
@[simp] theorem modSeg_notices (s : State) (g : SegId) (f : Segment → Segment) : (modSeg g f s).notices = s.notices := rfl
@[simp] theorem modSeg_link (s : State) (g : SegId) (f : Segment → Segment) : (modSeg g f s).link = s.link := rfl
@[simp] theorem modSeg_resetHeld (s : State) (g : SegId) (f : Segment → Segment) :
    (modSeg g f s).resetHeld = s.resetHeld := rfl
@[simp] theorem modSeg_pending (s : State) (g : SegId) (f : Segment → Segment) : (modSeg g f s).pending = s.pending := rfl

/-! ## Slots -/

@[simp] theorem job?_setJob (s : State) (i : Slot) (j : Option Job) : (s.setJob i j).job? i = j := by
  simp [State.job?, State.setJob]

theorem job?_setJob_ne (s : State) {i k : Slot} (j : Option Job) (hne : k ≠ i) : (s.setJob i j).job? k = s.job? k := by
  have : i.val ≠ k.val := fun e => hne (Fin.ext e.symm)
  simp [State.job?, State.setJob, this]

theorem job?_setJob_eq (s : State) (i k : Slot) (j : Option Job) :
    (s.setJob i j).job? k = if k = i then j else s.job? k := by
  by_cases e : k = i
  · subst e; simp
  · simp [e, job?_setJob_ne]

@[simp] theorem setJob_now (s : State) (i : Slot) (j : Option Job) : (s.setJob i j).now = s.now := rfl
@[simp] theorem setJob_segs (s : State) (i : Slot) (j : Option Job) : (s.setJob i j).segs = s.segs := rfl
@[simp] theorem setJob_seg (s : State) (i : Slot) (j : Option Job) (g : SegId) : (s.setJob i j).seg g = s.seg g := rfl
@[simp] theorem setJob_notices (s : State) (i : Slot) (j : Option Job) : (s.setJob i j).notices = s.notices := rfl
@[simp] theorem setJob_link (s : State) (i : Slot) (j : Option Job) : (s.setJob i j).link = s.link := rfl
@[simp] theorem setJob_resetHeld (s : State) (i : Slot) (j : Option Job) : (s.setJob i j).resetHeld = s.resetHeld := rfl
@[simp] theorem setJob_pending (s : State) (i : Slot) (j : Option Job) : (s.setJob i j).pending = s.pending := rfl

@[simp] theorem job?_modJob (s : State) (i : Slot) (f : Job → Job) : (modJob i f s).job? i = (s.job? i).map f := by
  simp [modJob]

theorem job?_modJob_ne (s : State) {i k : Slot} (f : Job → Job) (hne : k ≠ i) : (modJob i f s).job? k = s.job? k :=
  job?_setJob_ne s _ hne

@[simp] theorem modJob_now (s : State) (i : Slot) (f : Job → Job) : (modJob i f s).now = s.now := rfl
@[simp] theorem modJob_segs (s : State) (i : Slot) (f : Job → Job) : (modJob i f s).segs = s.segs := rfl
@[simp] theorem modJob_seg (s : State) (i : Slot) (f : Job → Job) (g : SegId) : (modJob i f s).seg g = s.seg g := rfl
@[simp] theorem modJob_notices (s : State) (i : Slot) (f : Job → Job) : (modJob i f s).notices = s.notices := rfl
@[simp] theorem modJob_link (s : State) (i : Slot) (f : Job → Job) : (modJob i f s).link = s.link := rfl
@[simp] theorem modJob_resetHeld (s : State) (i : Slot) (f : Job → Job) : (modJob i f s).resetHeld = s.resetHeld := rfl
@[simp] theorem modJob_pending (s : State) (i : Slot) (f : Job → Job) : (modJob i f s).pending = s.pending := rfl

/-! ## Entries -/

@[simp] theorem entry_setEntry (x : Segment) (e : EntryId) (n : Entry) : (x.setEntry e n).entry e = n := by
  simp [Segment.entry, Segment.setEntry]

theorem entry_setEntry_ne (x : Segment) {e k : EntryId} (n : Entry) (hne : k ≠ e) :
    (x.setEntry e n).entry k = x.entry k := by
  have : e.val ≠ k.val := fun h => hne (Fin.ext h.symm)
  simp [Segment.entry, Segment.setEntry, this]

theorem entry_setEntry_eq (x : Segment) (e k : EntryId) (n : Entry) :
    (x.setEntry e n).entry k = if k = e then n else x.entry k := by
  by_cases h : k = e
  · subst h; simp
  · simp [h, entry_setEntry_ne]

@[simp] theorem modEntry_now (s : State) (g : SegId) (e : EntryId) (f : Entry → Entry) : (modEntry g e f s).now = s.now := rfl
@[simp] theorem modEntry_jobs (s : State) (g : SegId) (e : EntryId) (f : Entry → Entry) :
    (modEntry g e f s).jobs = s.jobs := rfl
@[simp] theorem modEntry_notices (s : State) (g : SegId) (e : EntryId) (f : Entry → Entry) :
    (modEntry g e f s).notices = s.notices := rfl
@[simp] theorem modEntry_link (s : State) (g : SegId) (e : EntryId) (f : Entry → Entry) :
    (modEntry g e f s).link = s.link := rfl
@[simp] theorem modEntry_pending (s : State) (g : SegId) (e : EntryId) (f : Entry → Entry) :
    (modEntry g e f s).pending = s.pending := rfl

/-! ## The end of a step -/

@[simp] theorem seg_watchLines (s : State) (g : SegId) : (watchLines s).seg g = watchSegment s.now (s.seg g) := by
  match g with
  | 0 => simp [watchLines, seg_modSeg_ne]
  | 1 => simp [watchLines, seg_modSeg_ne]
  | 2 => simp [watchLines, seg_modSeg_ne]
  | 3 => simp [watchLines, seg_modSeg_ne]

@[simp] theorem watchLines_now (s : State) : (watchLines s).now = s.now := rfl
@[simp] theorem watchLines_jobs (s : State) : (watchLines s).jobs = s.jobs := rfl
@[simp] theorem watchLines_job? (s : State) (i : Slot) : (watchLines s).job? i = s.job? i := rfl
@[simp] theorem watchLines_notices (s : State) : (watchLines s).notices = s.notices := rfl
@[simp] theorem watchLines_link (s : State) : (watchLines s).link = s.link := rfl
@[simp] theorem watchLines_resetHeld (s : State) : (watchLines s).resetHeld = s.resetHeld := rfl
@[simp] theorem watchLines_pending (s : State) : (watchLines s).pending = s.pending := rfl

/-- Two states that agree in every field and at every engine are the same. -/
theorem State.ext_segs {s t : State} (hn : s.now = t.now) (hs : ∀ g, s.seg g = t.seg g) (hj : s.jobs = t.jobs)
    (ho : s.notices = t.notices) (hl : s.link = t.link) (hr : s.resetHeld = t.resetHeld)
    (hp : s.pending = t.pending) : s = t := by
  cases s; cases t
  simp only [State.mk.injEq]
  exact ⟨hn, segs_ext hs, hj, ho, hl, hr, hp⟩

/-- The lines have been looked at exactly when no engine would change. -/
theorem watchLines_eq_iff (s : State) : watchLines s = s ↔ ∀ g, watchSegment s.now (s.seg g) = s.seg g := by
  constructor
  · intro h g
    have := seg_watchLines s g
    rw [h] at this
    exact this.symm
  · intro h
    exact State.ext_segs rfl (fun g => by simp [h g]) rfl rfl rfl rfl rfl

/-- A step that leaves time and engines alone leaves the lines looked at. -/
theorem watchLines_of_segs {s t : State} (h : watchLines s = s) (hs : t.segs = s.segs) (hn : t.now = s.now) :
    watchLines t = t := by
  rw [watchLines_eq_iff] at *
  intro g
  have : t.seg g = s.seg g := by simp [State.seg, hs]
  rw [this, hn]
  exact h g

/-! ## The end of the part's own hold of SCL: only the drives and the quiet-low interval -/

@[simp] theorem letClockGo_cfg (low : Bool) (x : Segment) : (letClockGo low x).cfg = x.cfg := rfl
@[simp] theorem letClockGo_scl (low : Bool) (x : Segment) : (letClockGo low x).scl = x.scl := rfl
@[simp] theorem letClockGo_sda (low : Bool) (x : Segment) : (letClockGo low x).sda = x.sda := rfl
@[simp] theorem letClockGo_mon (low : Bool) (x : Segment) : (letClockGo low x).mon = x.mon := rfl
@[simp] theorem letClockGo_framer (low : Bool) (x : Segment) : (letClockGo low x).framer = x.framer := rfl
@[simp] theorem letClockGo_queue (low : Bool) (x : Segment) : (letClockGo low x).queue = x.queue := rfl
@[simp] theorem letClockGo_init (low : Bool) (x : Segment) : (letClockGo low x).init = x.init := rfl
@[simp] theorem letClockGo_resp (low : Bool) (x : Segment) : (letClockGo low x).resp = x.resp := rfl
@[simp] theorem letClockGo_entries (low : Bool) (x : Segment) : (letClockGo low x).entries = x.entries := rfl
@[simp] theorem letClockGo_clear (low : Bool) (x : Segment) : (letClockGo low x).clear = x.clear := rfl
@[simp] theorem letClockGo_resetting (low : Bool) (x : Segment) : (letClockGo low x).resetting = x.resetting := rfl
@[simp] theorem letClockGo_disabling (low : Bool) (x : Segment) : (letClockGo low x).disabling = x.disabling := rfl
@[simp] theorem letClockGo_summary (low : Bool) (x : Segment) : (letClockGo low x).summary = x.summary := rfl
@[simp] theorem letClockGo_drvScl (low : Bool) (x : Segment) : (letClockGo low x).drvScl = false := rfl
@[simp] theorem letClockGo_drvSda (low : Bool) (x : Segment) : (letClockGo low x).drvSda = low := rfl
@[simp] theorem letClockGo_quiet (low : Bool) (x : Segment) :
    (letClockGo low x).quiet = if low then none else x.quiet := rfl

end Sys2Proof.Machine
end

