-- ==== Sys2Proof/Laws/Clock.lean ====
section
/-! SUPPORT. No operation touches the queue of commands or takes time. -/

namespace Sys2Proof.Machine

@[simp] theorem joinNotice_pending (kind : NoticeKind) (source : Source) (payload : List Byte) (s : State) : (joinNotice kind source payload s).pending = s.pending := rfl

@[simp] theorem joinNotice_now (kind : NoticeKind) (source : Source) (payload : List Byte) (s : State) : (joinNotice kind source payload s).now = s.now := rfl

@[simp] theorem claimEvent_pending (g : SegId) (ev : SegEvent) (s : State) : (claimEvent g ev s).pending = s.pending := by
  unfold claimEvent; (try dsimp only); (repeat' split) <;> first | (simp; done) | rfl

@[simp] theorem claimEvent_now (g : SegId) (ev : SegEvent) (s : State) : (claimEvent g ev s).now = s.now := by
  unfold claimEvent; (try dsimp only); (repeat' split) <;> first | (simp; done) | rfl

@[simp] theorem releaseRecord_pending (s : State) : (releaseRecord s).pending = s.pending := by
  unfold releaseRecord; (try dsimp only); (repeat' split) <;> first | (simp; done) | rfl

@[simp] theorem releaseRecord_now (s : State) : (releaseRecord s).now = s.now := by
  unfold releaseRecord; (try dsimp only); (repeat' split) <;> first | (simp; done) | rfl

@[simp] theorem retireHead_pending (s : State) : (retireHead s).pending = s.pending := by
  unfold retireHead; (try dsimp only); (repeat' split) <;> first | (simp; done) | rfl

@[simp] theorem retireHead_now (s : State) : (retireHead s).now = s.now := by
  unfold retireHead; (try dsimp only); (repeat' split) <;> first | (simp; done) | rfl

@[simp] theorem retire_pending (n : Nat) (s : State) : (retire n s).pending = s.pending := by
  induction n generalizing s with
  | zero => simp [retire]
  | succ n ih => simp only [retire]; (repeat' split) <;> simp [*]

@[simp] theorem retire_now (n : Nat) (s : State) : (retire n s).now = s.now := by
  induction n generalizing s with
  | zero => simp [retire]
  | succ n ih => simp only [retire]; (repeat' split) <;> simp [*]

@[simp] theorem afterAck_pending (s : State) : (afterAck s).pending = s.pending := rfl

@[simp] theorem afterAck_now (s : State) : (afterAck s).now = s.now := rfl

@[simp] theorem acknowledge_pending (a : Word) (s : State) : (acknowledge a s).pending = s.pending := by
  unfold acknowledge; (try dsimp only); (repeat' split) <;> first | (simp; done) | rfl

@[simp] theorem acknowledge_now (a : Word) (s : State) : (acknowledge a s).now = s.now := by
  unfold acknowledge; (try dsimp only); (repeat' split) <;> first | (simp; done) | rfl

@[simp] theorem makeReply_pending (d : Deferral) (code : Byte) (rc : ReplyCode) (data : List Byte) (b : Bool) (s : State) : (makeReply d code rc data b s).pending = s.pending := rfl

@[simp] theorem makeReply_now (d : Deferral) (code : Byte) (rc : ReplyCode) (data : List Byte) (b : Bool) (s : State) : (makeReply d code rc data b s).now = s.now := rfl

@[simp] theorem finishJob_pending (i : Slot) (o : JobOutcome) (b : Bool) (s : State) : (finishJob i o b s).pending = s.pending := by
  unfold finishJob; (try dsimp only); (repeat' split) <;> first | (simp; done) | rfl

@[simp] theorem finishJob_now (i : Slot) (o : JobOutcome) (b : Bool) (s : State) : (finishJob i o b s).now = s.now := by
  unfold finishJob; (try dsimp only); (repeat' split) <;> first | (simp; done) | rfl

@[simp] theorem finishAll_pending (o : JobOutcome) (l : List Slot) (s : State) : (finishAll o l s).pending = s.pending := by
  induction l generalizing s with
  | nil => simp [finishAll]
  | cons i l ih => simp only [finishAll]; (repeat' split) <;> simp [*]

@[simp] theorem finishAll_now (o : JobOutcome) (l : List Slot) (s : State) : (finishAll o l s).now = s.now := by
  induction l generalizing s with
  | nil => simp [finishAll]
  | cons i l ih => simp only [finishAll]; (repeat' split) <;> simp [*]

@[simp] theorem examineQueue_pending (g : SegId) (l : List Slot) (s : State) : (examineQueue g l s).pending = s.pending := by
  induction l generalizing s with
  | nil => simp [examineQueue]
  | cons i l ih => simp only [examineQueue]; (repeat' split) <;> simp [*]

@[simp] theorem examineQueue_now (g : SegId) (l : List Slot) (s : State) : (examineQueue g l s).now = s.now := by
  induction l generalizing s with
  | nil => simp [examineQueue]
  | cons i l ih => simp only [examineQueue]; (repeat' split) <;> simp [*]

@[simp] theorem enterIdle_pending (g : SegId) (s : State) : (enterIdle g s).pending = s.pending := by
  unfold enterIdle; (try dsimp only); (repeat' split) <;> first | (simp; done) | rfl

@[simp] theorem enterIdle_now (g : SegId) (s : State) : (enterIdle g s).now = s.now := by
  unfold enterIdle; (try dsimp only); (repeat' split) <;> first | (simp; done) | rfl

@[simp] theorem takeContinuation_pending (g : SegId) (s : State) : (takeContinuation g s).pending = s.pending := by
  unfold takeContinuation; (try dsimp only); (repeat' split) <;> first | (simp; done) | rfl

@[simp] theorem takeContinuation_now (g : SegId) (s : State) : (takeContinuation g s).now = s.now := by
  unfold takeContinuation; (try dsimp only); (repeat' split) <;> first | (simp; done) | rfl

@[simp] theorem enterHeld_pending (g : SegId) (c : Byte) (r : Run) (s : State) : (enterHeld g c r s).pending = s.pending := by
  unfold enterHeld; (try dsimp only); (repeat' split) <;> first | (simp; done) | rfl

@[simp] theorem enterHeld_now (g : SegId) (c : Byte) (r : Run) (s : State) : (enterHeld g c r s).now = s.now := by
  unfold enterHeld; (try dsimp only); (repeat' split) <;> first | (simp; done) | rfl

@[simp] theorem closeHold_pending (g : SegId) (w : HoldEnd) (h : Hold) (s : State) : (closeHold g w h s).pending = s.pending := rfl

@[simp] theorem closeHold_now (g : SegId) (w : HoldEnd) (h : Hold) (s : State) : (closeHold g w h s).now = s.now := rfl

@[simp] theorem beginStop_pending (g : SegId) (r : Run) (w : StopWhy) (s : State) : (beginStop g r w s).pending = s.pending := rfl

@[simp] theorem beginStop_now (g : SegId) (r : Run) (w : StopWhy) (s : State) : (beginStop g r w s).now = s.now := rfl

@[simp] theorem applyDeferred_pending (g : SegId) (e : EntryId) (s : State) : (applyDeferred g e s).pending = s.pending := by
  unfold applyDeferred; (try dsimp only); (repeat' split) <;> first | (simp; done) | rfl

@[simp] theorem applyDeferred_now (g : SegId) (e : EntryId) (s : State) : (applyDeferred g e s).now = s.now := by
  unfold applyDeferred; (try dsimp only); (repeat' split) <;> first | (simp; done) | rfl

@[simp] theorem endAccess_pending (g : SegId) (t : Transaction) (b : Bool) (s : State) : (endAccess g t b s).pending = s.pending := by
  unfold endAccess; (try dsimp only); (repeat' split) <;> first | (simp; done) | rfl

@[simp] theorem endAccess_now (g : SegId) (t : Transaction) (b : Bool) (s : State) : (endAccess g t b s).now = s.now := by
  unfold endAccess; (try dsimp only); (repeat' split) <;> first | (simp; done) | rfl

@[simp] theorem cutByte_pending (g : SegId) (t : Transaction) (s : State) : (cutByte g t s).pending = s.pending := by
  unfold cutByte; split <;> rfl

@[simp] theorem cutByte_now (g : SegId) (t : Transaction) (s : State) : (cutByte g t s).now = s.now := by
  unfold cutByte; split <;> rfl

@[simp] theorem endTransaction_pending (g : SegId) (b : Bool) (s : State) : (endTransaction g b s).pending = s.pending := by
  unfold endTransaction; (try dsimp only); (repeat' split) <;> first | (simp; done) | rfl

@[simp] theorem endTransaction_now (g : SegId) (b : Bool) (s : State) : (endTransaction g b s).now = s.now := by
  unfold endTransaction; (try dsimp only); (repeat' split) <;> first | (simp; done) | rfl

@[simp] theorem goOff_pending (g : SegId) (s : State) : (goOff g s).pending = s.pending := by
  unfold goOff; (try dsimp only); (repeat' split) <;> first | (simp; done) | rfl

@[simp] theorem goOff_now (g : SegId) (s : State) : (goOff g s).now = s.now := by
  unfold goOff; (try dsimp only); (repeat' split) <;> first | (simp; done) | rfl

@[simp] theorem toIdle_pending (g : SegId) (s : State) : (toIdle g s).pending = s.pending := by
  unfold toIdle; (try dsimp only); (repeat' split) <;> first | (simp; done) | rfl

@[simp] theorem toIdle_now (g : SegId) (s : State) : (toIdle g s).now = s.now := by
  unfold toIdle; (try dsimp only); (repeat' split) <;> first | (simp; done) | rfl

@[simp] theorem endDisable_pending (g : SegId) (s : State) : (endDisable g s).pending = s.pending := by
  unfold endDisable; (try dsimp only); (repeat' split) <;> first | (simp; done) | rfl

@[simp] theorem endDisable_now (g : SegId) (s : State) : (endDisable g s).now = s.now := by
  unfold endDisable; (try dsimp only); (repeat' split) <;> first | (simp; done) | rfl

@[simp] theorem leave_pending (g : SegId) (s : State) : (leave g s).pending = s.pending := by
  unfold leave; (try dsimp only); (repeat' split) <;> first | (simp; done) | rfl

@[simp] theorem leave_now (g : SegId) (s : State) : (leave g s).now = s.now := by
  unfold leave; (try dsimp only); (repeat' split) <;> first | (simp; done) | rfl

@[simp] theorem endRun_pending (g : SegId) (i : Slot) (o : JobOutcome) (s : State) : (endRun g i o s).pending = s.pending := by
  unfold endRun; (try dsimp only); (repeat' split) <;> first | (simp; done) | rfl

@[simp] theorem endRun_now (g : SegId) (i : Slot) (o : JobOutcome) (s : State) : (endRun g i o s).now = s.now := by
  unfold endRun; (try dsimp only); (repeat' split) <;> first | (simp; done) | rfl

@[simp] theorem enterHunt_pending (s : State) : (enterHunt s).pending = s.pending := rfl

@[simp] theorem enterHunt_now (s : State) : (enterHunt s).now = s.now := rfl

@[simp] theorem withinFrame_pending (rx : Receiver) (s : State) : (withinFrame rx s).pending = s.pending := rfl

@[simp] theorem withinFrame_now (rx : Receiver) (s : State) : (withinFrame rx s).now = s.now := rfl

@[simp] theorem endSilent_pending (s : State) : (endSilent s).pending = s.pending := by
  unfold endSilent; (try dsimp only); (repeat' split) <;> first | (simp; done) | rfl

@[simp] theorem endSilent_now (s : State) : (endSilent s).now = s.now := by
  unfold endSilent; (try dsimp only); (repeat' split) <;> first | (simp; done) | rfl

@[simp] theorem placeRequest_pending (r : Request) (s : State) : (placeRequest r s).pending = s.pending := by
  unfold placeRequest; (try dsimp only); (repeat' split) <;> first | (simp; done) | rfl

@[simp] theorem placeRequest_now (r : Request) (s : State) : (placeRequest r s).now = s.now := by
  unfold placeRequest; (try dsimp only); (repeat' split) <;> first | (simp; done) | rfl

@[simp] theorem acceptFrame_pending (l : List Byte) (c : Word) (s : State) : (acceptFrame l c s).pending = s.pending := by
  unfold acceptFrame; (try dsimp only); (repeat' split) <;> first | (simp; done) | rfl

@[simp] theorem acceptFrame_now (l : List Byte) (c : Word) (s : State) : (acceptFrame l c s).now = s.now := by
  unfold acceptFrame; (try dsimp only); (repeat' split) <;> first | (simp; done) | rfl

@[simp] theorem checkFrame_pending (n : Byte) (l : List Byte) (c : Word) (s : State) : (checkFrame n l c s).pending = s.pending := by
  unfold checkFrame; (try dsimp only); (repeat' split) <;> first | (simp; done) | rfl

@[simp] theorem checkFrame_now (n : Byte) (l : List Byte) (c : Word) (s : State) : (checkFrame n l c s).now = s.now := by
  unfold checkFrame; (try dsimp only); (repeat' split) <;> first | (simp; done) | rfl

@[simp] theorem receiveByte_pending (b : Byte) (s : State) : (receiveByte b s).pending = s.pending := by
  unfold receiveByte; (try dsimp only); (repeat' split) <;> first | (simp; done) | rfl

@[simp] theorem receiveByte_now (b : Byte) (s : State) : (receiveByte b s).now = s.now := by
  unfold receiveByte; (try dsimp only); (repeat' split) <;> first | (simp; done) | rfl

@[simp] theorem receive_pending (b : Byte) (s : State) : (receive b s).pending = s.pending := by
  unfold receive; (try dsimp only); (repeat' split) <;> first | (simp; done) | rfl

@[simp] theorem receive_now (b : Byte) (s : State) : (receive b s).now = s.now := by
  unfold receive; (try dsimp only); (repeat' split) <;> first | (simp; done) | rfl

@[simp] theorem gapExpires_pending (s : State) : (gapExpires s).pending = s.pending := by
  unfold gapExpires; (try dsimp only); (repeat' split) <;> first | (simp; done) | rfl

@[simp] theorem gapExpires_now (s : State) : (gapExpires s).now = s.now := by
  unfold gapExpires; (try dsimp only); (repeat' split) <;> first | (simp; done) | rfl

@[simp] theorem applyAckField_pending (r : Request) (s : State) : (applyAckField r s).pending = s.pending := by
  unfold applyAckField; (try dsimp only); (repeat' split) <;> first | (simp; done) | rfl

@[simp] theorem applyAckField_now (r : Request) (s : State) : (applyAckField r s).now = s.now := by
  unfold applyAckField; (try dsimp only); (repeat' split) <;> first | (simp; done) | rfl

@[simp] theorem takeHead_pending (r : Request) (l : List Request) (s : State) : (takeHead r l s).pending = s.pending := by
  unfold takeHead; (try dsimp only); (repeat' split) <;> first | (simp; done) | rfl

@[simp] theorem takeHead_now (r : Request) (l : List Request) (s : State) : (takeHead r l s).now = s.now := by
  unfold takeHead; (try dsimp only); (repeat' split) <;> first | (simp; done) | rfl

@[simp] theorem takeRequest_pending (s : State) : (takeRequest s).pending = s.pending := by
  unfold takeRequest; (try dsimp only); (repeat' split) <;> first | (simp; done) | rfl

@[simp] theorem takeRequest_now (s : State) : (takeRequest s).now = s.now := by
  unfold takeRequest; (try dsimp only); (repeat' split) <;> first | (simp; done) | rfl

@[simp] theorem settleDuplicate_pending (s : State) : (settleDuplicate s).pending = s.pending := by
  unfold settleDuplicate; (try dsimp only); (repeat' split) <;> first | (simp; done) | rfl

@[simp] theorem settleDuplicate_now (s : State) : (settleDuplicate s).now = s.now := by
  unfold settleDuplicate; (try dsimp only); (repeat' split) <;> first | (simp; done) | rfl

@[simp] theorem letGo_pending (s : State) : (letGo s).pending = s.pending := rfl

@[simp] theorem letGo_now (s : State) : (letGo s).now = s.now := rfl

@[simp] theorem answer_pending (r : Request) (d : Deferral) (rc : ReplyCode) (l : List Byte) (s : State) : (answer r d rc l s).pending = s.pending := by
  unfold answer; (try dsimp only); (repeat' split) <;> first | (simp; done) | rfl

@[simp] theorem answer_now (r : Request) (d : Deferral) (rc : ReplyCode) (l : List Byte) (s : State) : (answer r d rc l s).now = s.now := by
  unfold answer; (try dsimp only); (repeat' split) <;> first | (simp; done) | rfl

@[simp] theorem refuseUnknown_pending (s : State) : (refuseUnknown s).pending = s.pending := by
  unfold refuseUnknown; (try dsimp only); (repeat' split) <;> first | (simp; done) | rfl

@[simp] theorem refuseUnknown_now (s : State) : (refuseUnknown s).now = s.now := by
  unfold refuseUnknown; (try dsimp only); (repeat' split) <;> first | (simp; done) | rfl

theorem withRequest_pending {f : Request → Deferral → State → State} (code : Byte)
    (h : ∀ r d s, (f r d s).pending = s.pending) (s : State) : (withRequest code f s).pending = s.pending := by
  unfold withRequest; (repeat' split) <;> simp [h]

theorem withRequest_now {f : Request → Deferral → State → State} (code : Byte)
    (h : ∀ r d s, (f r d s).now = s.now) (s : State) : (withRequest code f s).now = s.now := by
  unfold withRequest; (repeat' split) <;> simp [h]

@[simp] theorem answerDevInfo_pending (r : Request) (d : Deferral) (s : State) : (answerDevInfo r d s).pending = s.pending := by
  unfold answerDevInfo; (try dsimp only); (repeat' split) <;> first | (simp; done) | rfl

@[simp] theorem answerDevInfo_now (r : Request) (d : Deferral) (s : State) : (answerDevInfo r d s).now = s.now := by
  unfold answerDevInfo; (try dsimp only); (repeat' split) <;> first | (simp; done) | rfl

@[simp] theorem answerDevReset_pending (r : Request) (d : Deferral) (s : State) : (answerDevReset r d s).pending = s.pending := by
  unfold answerDevReset; (try dsimp only); (repeat' split) <;> first | (simp; done) | rfl

@[simp] theorem answerDevReset_now (r : Request) (d : Deferral) (s : State) : (answerDevReset r d s).now = s.now := by
  unfold answerDevReset; (try dsimp only); (repeat' split) <;> first | (simp; done) | rfl

@[simp] theorem answerLinkConfig_pending (r : Request) (d : Deferral) (s : State) : (answerLinkConfig r d s).pending = s.pending := by
  unfold answerLinkConfig; (try dsimp only); (repeat' split) <;> first | (simp; done) | rfl

@[simp] theorem answerLinkConfig_now (r : Request) (d : Deferral) (s : State) : (answerLinkConfig r d s).now = s.now := by
  unfold answerLinkConfig; (try dsimp only); (repeat' split) <;> first | (simp; done) | rfl

@[simp] theorem startNotice_pending (n : Notice) (s : State) : (startNotice n s).pending = s.pending := rfl

@[simp] theorem startNotice_now (n : Notice) (s : State) : (startNotice n s).now = s.now := rfl

@[simp] theorem startReply_pending (p : Reply) (s : State) : (startReply p s).pending = s.pending := rfl

@[simp] theorem startReply_now (p : Reply) (s : State) : (startReply p s).now = s.now := rfl

@[simp] theorem startFrame_pending (s : State) : (startFrame s).pending = s.pending := by
  unfold startFrame; (try dsimp only); (repeat' split) <;> first | (simp; done) | rfl

@[simp] theorem startFrame_now (s : State) : (startFrame s).now = s.now := by
  unfold startFrame; (try dsimp only); (repeat' split) <;> first | (simp; done) | rfl

@[simp] theorem endFrame_pending (p : Straps) (s : State) : (endFrame p s).pending = s.pending := by
  unfold endFrame; (try dsimp only); (repeat' split) <;> first | (simp; done) | rfl

@[simp] theorem endFrame_now (p : Straps) (s : State) : (endFrame p s).now = s.now := by
  unfold endFrame; (try dsimp only); (repeat' split) <;> first | (simp; done) | rfl

@[simp] theorem resendExpires_pending (s : State) : (resendExpires s).pending = s.pending := by
  unfold resendExpires; (try dsimp only); (repeat' split) <;> first | (simp; done) | rfl

@[simp] theorem resendExpires_now (s : State) : (resendExpires s).now = s.now := by
  unfold resendExpires; (try dsimp only); (repeat' split) <;> first | (simp; done) | rfl

@[simp] theorem fullReset_pending (c : Cause) (p : Straps) (s : State) : (fullReset c p s).pending = s.pending := rfl

@[simp] theorem fullReset_now (c : Cause) (p : Straps) (s : State) : (fullReset c p s).now = s.now := rfl

@[simp] theorem holdReset_pending (c : Cause) (s : State) : (holdReset c s).pending = s.pending := rfl

@[simp] theorem holdReset_now (c : Cause) (s : State) : (holdReset c s).now = s.now := rfl

@[simp] theorem powerUp_pending (b : Bool) (p : Straps) (s : State) : (powerUp b p s).pending = s.pending := by
  unfold powerUp; (try dsimp only); (repeat' split) <;> first | (simp; done) | rfl

@[simp] theorem powerUp_now (b : Bool) (p : Straps) (s : State) : (powerUp b p s).now = s.now := by
  unfold powerUp; (try dsimp only); (repeat' split) <;> first | (simp; done) | rfl

@[simp] theorem rstFalls_pending (s : State) : (rstFalls s).pending = s.pending := rfl

@[simp] theorem rstFalls_now (s : State) : (rstFalls s).now = s.now := rfl

@[simp] theorem rstRises_pending (p : Straps) (s : State) : (rstRises p s).pending = s.pending := by
  unfold rstRises; (try dsimp only); (repeat' split) <;> first | (simp; done) | rfl

@[simp] theorem rstRises_now (p : Straps) (s : State) : (rstRises p s).now = s.now := by
  unfold rstRises; (try dsimp only); (repeat' split) <;> first | (simp; done) | rfl

@[simp] theorem flushQueue_pending (g : SegId) (s : State) : (flushQueue g s).pending = s.pending := by
  unfold flushQueue; (try dsimp only); (repeat' split) <;> first | (simp; done) | rfl

@[simp] theorem flushQueue_now (g : SegId) (s : State) : (flushQueue g s).now = s.now := by
  unfold flushQueue; (try dsimp only); (repeat' split) <;> first | (simp; done) | rfl

@[simp] theorem flushCurrent_pending (g : SegId) (i : Slot) (b : Bool) (s : State) : (flushCurrent g i b s).pending = s.pending := by
  unfold flushCurrent; (try dsimp only); (repeat' split) <;> first | (simp; done) | rfl

@[simp] theorem flushCurrent_now (g : SegId) (i : Slot) (b : Bool) (s : State) : (flushCurrent g i b s).now = s.now := by
  unfold flushCurrent; (try dsimp only); (repeat' split) <;> first | (simp; done) | rfl

@[simp] theorem resetInitiator_pending (g : SegId) (s : State) : (resetInitiator g s).pending = s.pending := by
  unfold resetInitiator; (try dsimp only); (repeat' split) <;> first | (simp; done) | rfl

@[simp] theorem resetInitiator_now (g : SegId) (s : State) : (resetInitiator g s).now = s.now := by
  unfold resetInitiator; (try dsimp only); (repeat' split) <;> first | (simp; done) | rfl

@[simp] theorem flushStart_pending (g : SegId) (s : State) : (flushStart g s).pending = s.pending := by
  unfold flushStart; (try dsimp only); (repeat' split) <;> first | (simp; done) | rfl

@[simp] theorem flushStart_now (g : SegId) (s : State) : (flushStart g s).now = s.now := by
  unfold flushStart; (try dsimp only); (repeat' split) <;> first | (simp; done) | rfl

@[simp] theorem segmentReset_pending (g : SegId) (s : State) : (segmentReset g s).pending = s.pending := by
  unfold segmentReset; (try dsimp only); (repeat' split) <;> first | (simp; done) | rfl

@[simp] theorem segmentReset_now (g : SegId) (s : State) : (segmentReset g s).now = s.now := by
  unfold segmentReset; (try dsimp only); (repeat' split) <;> first | (simp; done) | rfl

@[simp] theorem disableSegment_pending (g : SegId) (s : State) : (disableSegment g s).pending = s.pending := by
  unfold disableSegment; (try dsimp only); (repeat' split) <;> first | (simp; done) | rfl

@[simp] theorem disableSegment_now (g : SegId) (s : State) : (disableSegment g s).now = s.now := by
  unfold disableSegment; (try dsimp only); (repeat' split) <;> first | (simp; done) | rfl

@[simp] theorem applyEnable_pending (g : SegId) (b : Bool) (s : State) : (applyEnable g b s).pending = s.pending := by
  unfold applyEnable; (try dsimp only); (repeat' split) <;> first | (simp; done) | rfl

@[simp] theorem applyEnable_now (g : SegId) (b : Bool) (s : State) : (applyEnable g b s).now = s.now := by
  unfold applyEnable; (try dsimp only); (repeat' split) <;> first | (simp; done) | rfl

@[simp] theorem answerSegConfig_pending (r : Request) (d : Deferral) (s : State) : (answerSegConfig r d s).pending = s.pending := by
  unfold answerSegConfig; (try dsimp only); (repeat' split) <;> first | (simp; done) | rfl

@[simp] theorem answerSegConfig_now (r : Request) (d : Deferral) (s : State) : (answerSegConfig r d s).now = s.now := by
  unfold answerSegConfig; (try dsimp only); (repeat' split) <;> first | (simp; done) | rfl

@[simp] theorem answerSegStatus_pending (r : Request) (d : Deferral) (s : State) : (answerSegStatus r d s).pending = s.pending := by
  unfold answerSegStatus; (try dsimp only); (repeat' split) <;> first | (simp; done) | rfl

@[simp] theorem answerSegStatus_now (r : Request) (d : Deferral) (s : State) : (answerSegStatus r d s).now = s.now := by
  unfold answerSegStatus; (try dsimp only); (repeat' split) <;> first | (simp; done) | rfl

@[simp] theorem flushHold_pending (g : SegId) (s : State) : (flushHold g s).pending = s.pending := by
  unfold flushHold; (try dsimp only); (repeat' split) <;> first | (simp; done) | rfl

@[simp] theorem flushHold_now (g : SegId) (s : State) : (flushHold g s).now = s.now := by
  unfold flushHold; (try dsimp only); (repeat' split) <;> first | (simp; done) | rfl

@[simp] theorem answerSegFlush_pending (r : Request) (d : Deferral) (s : State) : (answerSegFlush r d s).pending = s.pending := by
  unfold answerSegFlush; (try dsimp only); (repeat' split) <;> first | (simp; done) | rfl

@[simp] theorem answerSegFlush_now (r : Request) (d : Deferral) (s : State) : (answerSegFlush r d s).now = s.now := by
  unfold answerSegFlush; (try dsimp only); (repeat' split) <;> first | (simp; done) | rfl

@[simp] theorem answerSegReset_pending (r : Request) (d : Deferral) (s : State) : (answerSegReset r d s).pending = s.pending := by
  unfold answerSegReset; (try dsimp only); (repeat' split) <;> first | (simp; done) | rfl

@[simp] theorem answerSegReset_now (r : Request) (d : Deferral) (s : State) : (answerSegReset r d s).now = s.now := by
  unfold answerSegReset; (try dsimp only); (repeat' split) <;> first | (simp; done) | rfl

@[simp] theorem placeJob_pending (i : Slot) (u : Submission) (s : State) : (placeJob i u s).pending = s.pending := by
  unfold placeJob; (try dsimp only); (repeat' split) <;> first | (simp; done) | rfl

@[simp] theorem placeJob_now (i : Slot) (u : Submission) (s : State) : (placeJob i u s).now = s.now := by
  unfold placeJob; (try dsimp only); (repeat' split) <;> first | (simp; done) | rfl

@[simp] theorem lookAtQueue_pending (g : SegId) (s : State) : (lookAtQueue g s).pending = s.pending := by
  unfold lookAtQueue; (try dsimp only); (repeat' split) <;> first | (simp; done) | rfl

@[simp] theorem lookAtQueue_now (g : SegId) (s : State) : (lookAtQueue g s).now = s.now := by
  unfold lookAtQueue; (try dsimp only); (repeat' split) <;> first | (simp; done) | rfl

@[simp] theorem answerJobSubmit_pending (r : Request) (d : Deferral) (s : State) : (answerJobSubmit r d s).pending = s.pending := by
  unfold answerJobSubmit; (try dsimp only); (repeat' split) <;> first | (simp; done) | rfl

@[simp] theorem answerJobSubmit_now (r : Request) (d : Deferral) (s : State) : (answerJobSubmit r d s).now = s.now := by
  unfold answerJobSubmit; (try dsimp only); (repeat' split) <;> first | (simp; done) | rfl

@[simp] theorem cancelQueued_pending (r : Request) (d : Deferral) (i : Slot) (j : Job) (s : State) : (cancelQueued r d i j s).pending = s.pending := by
  unfold cancelQueued; (try dsimp only); (repeat' split) <;> first | (simp; done) | rfl

@[simp] theorem cancelQueued_now (r : Request) (d : Deferral) (i : Slot) (j : Job) (s : State) : (cancelQueued r d i j s).now = s.now := by
  unfold cancelQueued; (try dsimp only); (repeat' split) <;> first | (simp; done) | rfl

@[simp] theorem cancelWaiting_pending (r : Request) (d : Deferral) (i : Slot) (j : Job) (s : State) : (cancelWaiting r d i j s).pending = s.pending := by
  unfold cancelWaiting; (try dsimp only); (repeat' split) <;> first | (simp; done) | rfl

@[simp] theorem cancelWaiting_now (r : Request) (d : Deferral) (i : Slot) (j : Job) (s : State) : (cancelWaiting r d i j s).now = s.now := by
  unfold cancelWaiting; (try dsimp only); (repeat' split) <;> first | (simp; done) | rfl

@[simp] theorem deferCancel_pending (d : Deferral) (i : Slot) (s : State) : (deferCancel d i s).pending = s.pending := by
  unfold deferCancel; (try dsimp only); (repeat' split) <;> first | (simp; done) | rfl

@[simp] theorem deferCancel_now (d : Deferral) (i : Slot) (s : State) : (deferCancel d i s).now = s.now := by
  unfold deferCancel; (try dsimp only); (repeat' split) <;> first | (simp; done) | rfl

@[simp] theorem answerJobCancel_pending (r : Request) (d : Deferral) (s : State) : (answerJobCancel r d s).pending = s.pending := by
  unfold answerJobCancel; (try dsimp only); (repeat' split) <;> first | (simp; done) | rfl

@[simp] theorem answerJobCancel_now (r : Request) (d : Deferral) (s : State) : (answerJobCancel r d s).now = s.now := by
  unfold answerJobCancel; (try dsimp only); (repeat' split) <;> first | (simp; done) | rfl

@[simp] theorem answerJobQuery_pending (r : Request) (d : Deferral) (s : State) : (answerJobQuery r d s).pending = s.pending := by
  unfold answerJobQuery; (try dsimp only); (repeat' split) <;> first | (simp; done) | rfl

@[simp] theorem answerJobQuery_now (r : Request) (d : Deferral) (s : State) : (answerJobQuery r d s).now = s.now := by
  unfold answerJobQuery; (try dsimp only); (repeat' split) <;> first | (simp; done) | rfl

@[simp] theorem answerRespSet_pending (r : Request) (d : Deferral) (s : State) : (answerRespSet r d s).pending = s.pending := by
  unfold answerRespSet; (try dsimp only); (repeat' split) <;> first | (simp; done) | rfl

@[simp] theorem answerRespSet_now (r : Request) (d : Deferral) (s : State) : (answerRespSet r d s).now = s.now := by
  unfold answerRespSet; (try dsimp only); (repeat' split) <;> first | (simp; done) | rfl

@[simp] theorem answerWinWrite_pending (r : Request) (d : Deferral) (s : State) : (answerWinWrite r d s).pending = s.pending := by
  unfold answerWinWrite; (try dsimp only); (repeat' split) <;> first | (simp; done) | rfl

@[simp] theorem answerWinWrite_now (r : Request) (d : Deferral) (s : State) : (answerWinWrite r d s).now = s.now := by
  unfold answerWinWrite; (try dsimp only); (repeat' split) <;> first | (simp; done) | rfl

@[simp] theorem answerWinRead_pending (r : Request) (d : Deferral) (s : State) : (answerWinRead r d s).pending = s.pending := by
  unfold answerWinRead; (try dsimp only); (repeat' split) <;> first | (simp; done) | rfl

@[simp] theorem answerWinRead_now (r : Request) (d : Deferral) (s : State) : (answerWinRead r d s).now = s.now := by
  unfold answerWinRead; (try dsimp only); (repeat' split) <;> first | (simp; done) | rfl

@[simp] theorem post_pending (g : SegId) (e : EntryId) (l : List Byte) (s : State) : (post g e l s).pending = s.pending := by
  unfold post; (try dsimp only); (repeat' split) <;> first | (simp; done) | rfl

@[simp] theorem post_now (g : SegId) (e : EntryId) (l : List Byte) (s : State) : (post g e l s).now = s.now := by
  unfold post; (try dsimp only); (repeat' split) <;> first | (simp; done) | rfl

@[simp] theorem answerMailPost_pending (r : Request) (d : Deferral) (s : State) : (answerMailPost r d s).pending = s.pending := by
  unfold answerMailPost; (try dsimp only); (repeat' split) <;> first | (simp; done) | rfl

@[simp] theorem answerMailPost_now (r : Request) (d : Deferral) (s : State) : (answerMailPost r d s).now = s.now := by
  unfold answerMailPost; (try dsimp only); (repeat' split) <;> first | (simp; done) | rfl

@[simp] theorem answerMailWithdraw_pending (r : Request) (d : Deferral) (s : State) : (answerMailWithdraw r d s).pending = s.pending := by
  unfold answerMailWithdraw; (try dsimp only); (repeat' split) <;> first | (simp; done) | rfl

@[simp] theorem answerMailWithdraw_now (r : Request) (d : Deferral) (s : State) : (answerMailWithdraw r d s).now = s.now := by
  unfold answerMailWithdraw; (try dsimp only); (repeat' split) <;> first | (simp; done) | rfl

@[simp] theorem decideStart_pending (g : SegId) (s : State) : (decideStart g s).pending = s.pending := by
  unfold decideStart; (try dsimp only); (repeat' split) <;> first | (simp; done) | rfl

@[simp] theorem decideStart_now (g : SegId) (s : State) : (decideStart g s).now = s.now := by
  unfold decideStart; (try dsimp only); (repeat' split) <;> first | (simp; done) | rfl

@[simp] theorem collide_pending (g : SegId) (s : State) : (collide g s).pending = s.pending := by
  unfold collide; (try dsimp only); (repeat' split) <;> first | (simp; done) | rfl

@[simp] theorem collide_now (g : SegId) (s : State) : (collide g s).now = s.now := by
  unfold collide; (try dsimp only); (repeat' split) <;> first | (simp; done) | rfl

@[simp] theorem beginRestart_pending (g : SegId) (r : Run) (s : State) : (beginRestart g r s).pending = s.pending := by
  unfold beginRestart; (try dsimp only); (repeat' split) <;> first | (simp; done) | rfl

@[simp] theorem beginRestart_now (g : SegId) (r : Run) (s : State) : (beginRestart g r s).now = s.now := by
  unfold beginRestart; (try dsimp only); (repeat' split) <;> first | (simp; done) | rfl

@[simp] theorem phaseComplete_pending (g : SegId) (r : Run) (j : Job) (s : State) : (phaseComplete g r j s).pending = s.pending := by
  unfold phaseComplete; (try dsimp only); (repeat' split) <;> first | (simp; done) | rfl

@[simp] theorem phaseComplete_now (g : SegId) (r : Run) (j : Job) (s : State) : (phaseComplete g r j s).now = s.now := by
  unfold phaseComplete; (try dsimp only); (repeat' split) <;> first | (simp; done) | rfl

@[simp] theorem goOn_pending (g : SegId) (r : Run) (j : Job) (b : SubStep) (s : State) : (goOn g r j b s).pending = s.pending := by
  unfold goOn; (try dsimp only); (repeat' split) <;> first | (simp; done) | rfl

@[simp] theorem goOn_now (g : SegId) (r : Run) (j : Job) (b : SubStep) (s : State) : (goOn g r j b s).now = s.now := by
  unfold goOn; (try dsimp only); (repeat' split) <;> first | (simp; done) | rfl

@[simp] theorem addressAcked_pending (g : SegId) (r : Run) (j : Job) (s : State) : (addressAcked g r j s).pending = s.pending := by
  unfold addressAcked; (try dsimp only); (repeat' split) <;> first | (simp; done) | rfl

@[simp] theorem addressAcked_now (g : SegId) (r : Run) (j : Job) (s : State) : (addressAcked g r j s).now = s.now := by
  unfold addressAcked; (try dsimp only); (repeat' split) <;> first | (simp; done) | rfl

@[simp] theorem addressNacked_pending (g : SegId) (r : Run) (j : Job) (s : State) : (addressNacked g r j s).pending = s.pending := by
  unfold addressNacked; (try dsimp only); (repeat' split) <;> first | (simp; done) | rfl

@[simp] theorem addressNacked_now (g : SegId) (r : Run) (j : Job) (s : State) : (addressNacked g r j s).now = s.now := by
  unfold addressNacked; (try dsimp only); (repeat' split) <;> first | (simp; done) | rfl

@[simp] theorem addressAck_pending (g : SegId) (s : State) : (addressAck g s).pending = s.pending := by
  unfold addressAck; (try dsimp only); (repeat' split) <;> first | (simp; done) | rfl

@[simp] theorem addressAck_now (g : SegId) (s : State) : (addressAck g s).now = s.now := by
  unfold addressAck; (try dsimp only); (repeat' split) <;> first | (simp; done) | rfl

@[simp] theorem writeByteAck_pending (g : SegId) (s : State) : (writeByteAck g s).pending = s.pending := by
  unfold writeByteAck; (try dsimp only); (repeat' split) <;> first | (simp; done) | rfl

@[simp] theorem writeByteAck_now (g : SegId) (s : State) : (writeByteAck g s).now = s.now := by
  unfold writeByteAck; (try dsimp only); (repeat' split) <;> first | (simp; done) | rfl

@[simp] theorem readByte_pending (g : SegId) (s : State) : (readByte g s).pending = s.pending := by
  unfold readByte; (try dsimp only); (repeat' split) <;> first | (simp; done) | rfl

@[simp] theorem readByte_now (g : SegId) (s : State) : (readByte g s).now = s.now := by
  unfold readByte; (try dsimp only); (repeat' split) <;> first | (simp; done) | rfl

@[simp] theorem lengthByte_pending (g : SegId) (s : State) : (lengthByte g s).pending = s.pending := by
  unfold lengthByte; (try dsimp only); (repeat' split) <;> first | (simp; done) | rfl

@[simp] theorem lengthByte_now (g : SegId) (s : State) : (lengthByte g s).now = s.now := by
  unfold lengthByte; (try dsimp only); (repeat' split) <;> first | (simp; done) | rfl

@[simp] theorem retryAfterStop_pending (g : SegId) (i : Slot) (s : State) : (retryAfterStop g i s).pending = s.pending := by
  unfold retryAfterStop; (try dsimp only); (repeat' split) <;> first | (simp; done) | rfl

@[simp] theorem retryAfterStop_now (g : SegId) (i : Slot) (s : State) : (retryAfterStop g i s).now = s.now := by
  unfold retryAfterStop; (try dsimp only); (repeat' split) <;> first | (simp; done) | rfl

@[simp] theorem endHold_pending (g : SegId) (h : Hold) (s : State) : (endHold g h s).pending = s.pending := by
  unfold endHold; (try dsimp only); (repeat' split) <;> first | (simp; done) | rfl

@[simp] theorem endHold_now (g : SegId) (h : Hold) (s : State) : (endHold g h s).now = s.now := by
  unfold endHold; (try dsimp only); (repeat' split) <;> first | (simp; done) | rfl

@[simp] theorem makeStop_pending (g : SegId) (s : State) : (makeStop g s).pending = s.pending := by
  unfold makeStop; (try dsimp only); (repeat' split) <;> first | (simp; done) | rfl

@[simp] theorem makeStop_now (g : SegId) (s : State) : (makeStop g s).now = s.now := by
  unfold makeStop; (try dsimp only); (repeat' split) <;> first | (simp; done) | rfl

@[simp] theorem backOff_pending (g : SegId) (i : Slot) (n : Nat) (s : State) : (backOff g i n s).pending = s.pending := by
  unfold backOff; (try dsimp only); (repeat' split) <;> first | (simp; done) | rfl

@[simp] theorem backOff_now (g : SegId) (i : Slot) (n : Nat) (s : State) : (backOff g i n s).now = s.now := by
  unfold backOff; (try dsimp only); (repeat' split) <;> first | (simp; done) | rfl

@[simp] theorem loseBus_pending (g : SegId) (s : State) : (loseBus g s).pending = s.pending := by
  unfold loseBus; (try dsimp only); (repeat' split) <;> first | (simp; done) | rfl

@[simp] theorem loseBus_now (g : SegId) (s : State) : (loseBus g s).now = s.now := by
  unfold loseBus; (try dsimp only); (repeat' split) <;> first | (simp; done) | rfl

@[simp] theorem arbitrationLoss_pending (g : SegId) (s : State) : (arbitrationLoss g s).pending = s.pending := by
  unfold arbitrationLoss; (try dsimp only); (repeat' split) <;> first | (simp; done) | rfl

@[simp] theorem arbitrationLoss_now (g : SegId) (s : State) : (arbitrationLoss g s).now = s.now := by
  unfold arbitrationLoss; (try dsimp only); (repeat' split) <;> first | (simp; done) | rfl

@[simp] theorem loseByCondition_pending (g : SegId) (s : State) : (loseByCondition g s).pending = s.pending := by
  unfold loseByCondition; (try dsimp only); (repeat' split) <;> first | (simp; done) | rfl

@[simp] theorem loseByCondition_now (g : SegId) (s : State) : (loseByCondition g s).now = s.now := by
  unfold loseByCondition; (try dsimp only); (repeat' split) <;> first | (simp; done) | rfl

@[simp] theorem stretchExpires_pending (g : SegId) (s : State) : (stretchExpires g s).pending = s.pending := by
  unfold stretchExpires; (try dsimp only); (repeat' split) <;> first | (simp; done) | rfl

@[simp] theorem stretchExpires_now (g : SegId) (s : State) : (stretchExpires g s).now = s.now := by
  unfold stretchExpires; (try dsimp only); (repeat' split) <;> first | (simp; done) | rfl

@[simp] theorem backoffEnds_pending (g : SegId) (s : State) : (backoffEnds g s).pending = s.pending := by
  unfold backoffEnds; (try dsimp only); (repeat' split) <;> first | (simp; done) | rfl

@[simp] theorem backoffEnds_now (g : SegId) (s : State) : (backoffEnds g s).now = s.now := by
  unfold backoffEnds; (try dsimp only); (repeat' split) <;> first | (simp; done) | rfl

@[simp] theorem holdExpires_pending (g : SegId) (s : State) : (holdExpires g s).pending = s.pending := by
  unfold holdExpires; (try dsimp only); (repeat' split) <;> first | (simp; done) | rfl

@[simp] theorem holdExpires_now (g : SegId) (s : State) : (holdExpires g s).now = s.now := by
  unfold holdExpires; (try dsimp only); (repeat' split) <;> first | (simp; done) | rfl

@[simp] theorem respAddressByte_pending (g : SegId) (s : State) : (respAddressByte g s).pending = s.pending := by
  unfold respAddressByte; (try dsimp only); (repeat' split) <;> first | (simp; done) | rfl

@[simp] theorem respAddressByte_now (g : SegId) (s : State) : (respAddressByte g s).now = s.now := by
  unfold respAddressByte; (try dsimp only); (repeat' split) <;> first | (simp; done) | rfl

@[simp] theorem windowWriteByte_pending (g : SegId) (s : State) : (windowWriteByte g s).pending = s.pending := by
  unfold windowWriteByte; (try dsimp only); (repeat' split) <;> first | (simp; done) | rfl

@[simp] theorem windowWriteByte_now (g : SegId) (s : State) : (windowWriteByte g s).now = s.now := by
  unfold windowWriteByte; (try dsimp only); (repeat' split) <;> first | (simp; done) | rfl

@[simp] theorem windowReadByte_pending (g : SegId) (s : State) : (windowReadByte g s).pending = s.pending := by
  unfold windowReadByte; (try dsimp only); (repeat' split) <;> first | (simp; done) | rfl

@[simp] theorem windowReadByte_now (g : SegId) (s : State) : (windowReadByte g s).now = s.now := by
  unfold windowReadByte; (try dsimp only); (repeat' split) <;> first | (simp; done) | rfl

@[simp] theorem mailWriteByte_pending (g : SegId) (s : State) : (mailWriteByte g s).pending = s.pending := by
  unfold mailWriteByte; (try dsimp only); (repeat' split) <;> first | (simp; done) | rfl

@[simp] theorem mailWriteByte_now (g : SegId) (s : State) : (mailWriteByte g s).now = s.now := by
  unfold mailWriteByte; (try dsimp only); (repeat' split) <;> first | (simp; done) | rfl

@[simp] theorem mailReadByte_pending (g : SegId) (s : State) : (mailReadByte g s).pending = s.pending := by
  unfold mailReadByte; (try dsimp only); (repeat' split) <;> first | (simp; done) | rfl

@[simp] theorem mailReadByte_now (g : SegId) (s : State) : (mailReadByte g s).now = s.now := by
  unfold mailReadByte; (try dsimp only); (repeat' split) <;> first | (simp; done) | rfl

@[simp] theorem mailWaitExpires_pending (g : SegId) (s : State) : (mailWaitExpires g s).pending = s.pending := by
  unfold mailWaitExpires; (try dsimp only); (repeat' split) <;> first | (simp; done) | rfl

@[simp] theorem mailWaitExpires_now (g : SegId) (s : State) : (mailWaitExpires g s).now = s.now := by
  unfold mailWaitExpires; (try dsimp only); (repeat' split) <;> first | (simp; done) | rfl

@[simp] theorem stuckInitiator_pending (g : SegId) (s : State) : (stuckInitiator g s).pending = s.pending := by
  unfold stuckInitiator; (try dsimp only); (repeat' split) <;> first | (simp; done) | rfl

@[simp] theorem stuckInitiator_now (g : SegId) (s : State) : (stuckInitiator g s).now = s.now := by
  unfold stuckInitiator; (try dsimp only); (repeat' split) <;> first | (simp; done) | rfl

@[simp] theorem stuckDetected_pending (g : SegId) (s : State) : (stuckDetected g s).pending = s.pending := by
  unfold stuckDetected; (try dsimp only); (repeat' split) <;> first | (simp; done) | rfl

@[simp] theorem stuckDetected_now (g : SegId) (s : State) : (stuckDetected g s).now = s.now := by
  unfold stuckDetected; (try dsimp only); (repeat' split) <;> first | (simp; done) | rfl

@[simp] theorem clearWaitExpires_pending (g : SegId) (s : State) : (clearWaitExpires g s).pending = s.pending := by
  unfold clearWaitExpires; (try dsimp only); (repeat' split) <;> first | (simp; done) | rfl

@[simp] theorem clearWaitExpires_now (g : SegId) (s : State) : (clearWaitExpires g s).now = s.now := by
  unfold clearWaitExpires; (try dsimp only); (repeat' split) <;> first | (simp; done) | rfl

@[simp] theorem clearingPulse_pending (g : SegId) (s : State) : (clearingPulse g s).pending = s.pending := by
  unfold clearingPulse; (try dsimp only); (repeat' split) <;> first | (simp; done) | rfl

@[simp] theorem clearingPulse_now (g : SegId) (s : State) : (clearingPulse g s).now = s.now := by
  unfold clearingPulse; (try dsimp only); (repeat' split) <;> first | (simp; done) | rfl

@[simp] theorem roundEnds_pending (g : SegId) (s : State) : (roundEnds g s).pending = s.pending := by
  unfold roundEnds; (try dsimp only); (repeat' split) <;> first | (simp; done) | rfl

@[simp] theorem roundEnds_now (g : SegId) (s : State) : (roundEnds g s).now = s.now := by
  unfold roundEnds; (try dsimp only); (repeat' split) <;> first | (simp; done) | rfl

@[simp] theorem clearStretchExpires_pending (g : SegId) (s : State) : (clearStretchExpires g s).pending = s.pending := by
  unfold clearStretchExpires; (try dsimp only); (repeat' split) <;> first | (simp; done) | rfl

@[simp] theorem clearStretchExpires_now (g : SegId) (s : State) : (clearStretchExpires g s).now = s.now := by
  unfold clearStretchExpires; (try dsimp only); (repeat' split) <;> first | (simp; done) | rfl

@[simp] theorem endLeftTransaction_pending (g : SegId) (s : State) : (endLeftTransaction g s).pending = s.pending := by
  unfold endLeftTransaction; (try dsimp only); (repeat' split) <;> first | (simp; done) | rfl

@[simp] theorem endLeftTransaction_now (g : SegId) (s : State) : (endLeftTransaction g s).now = s.now := by
  unfold endLeftTransaction; (try dsimp only); (repeat' split) <;> first | (simp; done) | rfl

@[simp] theorem idleWatchExpires_pending (g : SegId) (s : State) : (idleWatchExpires g s).pending = s.pending := by
  unfold idleWatchExpires; (try dsimp only); (repeat' split) <;> first | (simp; done) | rfl

@[simp] theorem idleWatchExpires_now (g : SegId) (s : State) : (idleWatchExpires g s).now = s.now := by
  unfold idleWatchExpires; (try dsimp only); (repeat' split) <;> first | (simp; done) | rfl

@[simp] theorem seeEdge_pending (g : SegId) (e : Edge) (s : State) : (seeEdge g e s).pending = s.pending := by
  unfold seeEdge; (try dsimp only); (repeat' split) <;> first | (simp; done) | rfl

@[simp] theorem seeEdge_now (g : SegId) (e : Edge) (s : State) : (seeEdge g e s).now = s.now := by
  unfold seeEdge; (try dsimp only); (repeat' split) <;> first | (simp; done) | rfl

@[simp] theorem lineEdge_pending (g : SegId) (e : Edge) (s : State) : (lineEdge g e s).pending = s.pending := by
  unfold lineEdge; (try dsimp only); (repeat' split) <;> first | (simp; done) | rfl

@[simp] theorem lineEdge_now (g : SegId) (e : Edge) (s : State) : (lineEdge g e s).now = s.now := by
  unfold lineEdge; (try dsimp only); (repeat' split) <;> first | (simp; done) | rfl

@[simp] theorem sclFallsWhileFree_pending (g : SegId) (s : State) : (sclFallsWhileFree g s).pending = s.pending := by
  unfold sclFallsWhileFree; (try dsimp only); (repeat' split) <;> first | (simp; done) | rfl

@[simp] theorem sclFallsWhileFree_now (g : SegId) (s : State) : (sclFallsWhileFree g s).now = s.now := by
  unfold sclFallsWhileFree; (try dsimp only); (repeat' split) <;> first | (simp; done) | rfl

@[simp] theorem startFromOutside_pending (g : SegId) (s : State) : (startFromOutside g s).pending = s.pending := by
  unfold startFromOutside; (try dsimp only); (repeat' split) <;> first | (simp; done) | rfl

@[simp] theorem startFromOutside_now (g : SegId) (s : State) : (startFromOutside g s).now = s.now := by
  unfold startFromOutside; (try dsimp only); (repeat' split) <;> first | (simp; done) | rfl

@[simp] theorem startFromPart_pending (g : SegId) (s : State) : (startFromPart g s).pending = s.pending := by
  unfold startFromPart; (try dsimp only); (repeat' split) <;> first | (simp; done) | rfl

@[simp] theorem startFromPart_now (g : SegId) (s : State) : (startFromPart g s).now = s.now := by
  unfold startFromPart; (try dsimp only); (repeat' split) <;> first | (simp; done) | rfl

@[simp] theorem startSeen_pending (g : SegId) (m : Maker) (s : State) : (startSeen g m s).pending = s.pending := by
  unfold startSeen; (try dsimp only); (repeat' split) <;> first | (simp; done) | rfl

@[simp] theorem startSeen_now (g : SegId) (m : Maker) (s : State) : (startSeen g m s).now = s.now := by
  unfold startSeen; (try dsimp only); (repeat' split) <;> first | (simp; done) | rfl

@[simp] theorem stopSeen_pending (g : SegId) (s : State) : (stopSeen g s).pending = s.pending := by
  unfold stopSeen; (try dsimp only); (repeat' split) <;> first | (simp; done) | rfl

@[simp] theorem stopSeen_now (g : SegId) (s : State) : (stopSeen g s).now = s.now := by
  unfold stopSeen; (try dsimp only); (repeat' split) <;> first | (simp; done) | rfl

@[simp] theorem windowExpires_pending (g : SegId) (s : State) : (windowExpires g s).pending = s.pending := by
  unfold windowExpires; (try dsimp only); (repeat' split) <;> first | (simp; done) | rfl

@[simp] theorem windowExpires_now (g : SegId) (s : State) : (windowExpires g s).now = s.now := by
  unfold windowExpires; (try dsimp only); (repeat' split) <;> first | (simp; done) | rfl

@[simp] theorem answerByPool_pending (s : State) : (answerByPool s).pending = s.pending := by
  unfold answerByPool; simp [withRequest_pending]

@[simp] theorem answerByPool_now (s : State) : (answerByPool s).now = s.now := by
  unfold answerByPool; simp [withRequest_now]

@[simp] theorem answerByResponder_pending (s : State) : (answerByResponder s).pending = s.pending := by
  unfold answerByResponder; simp [withRequest_pending]

@[simp] theorem answerByResponder_now (s : State) : (answerByResponder s).now = s.now := by
  unfold answerByResponder; simp [withRequest_now]

@[simp] theorem answerInHand_pending (s : State) : (answerInHand s).pending = s.pending := by
  unfold answerInHand; simp

@[simp] theorem answerInHand_now (s : State) : (answerInHand s).now = s.now := by
  unfold answerInHand; simp

@[simp] theorem settleSegment_pending (g : SegId) (s : State) : (settleSegment g s).pending = s.pending := by
  unfold settleSegment; (try dsimp only); (repeat' split) <;> first | (simp; done) | rfl

@[simp] theorem settleSegment_now (g : SegId) (s : State) : (settleSegment g s).now = s.now := by
  unfold settleSegment; (try dsimp only); (repeat' split) <;> first | (simp; done) | rfl

@[simp] theorem settle_pending (s : State) : (settle s).pending = s.pending := by
  unfold settle; (try dsimp only); (repeat' split) <;> first | (simp; done) | rfl

@[simp] theorem settle_now (s : State) : (settle s).now = s.now := by
  unfold settle; (try dsimp only); (repeat' split) <;> first | (simp; done) | rfl

end Sys2Proof.Machine
end

