-- ==== Sys2Proof/Laws/Memory.lean ====
section
/-! SUPPORT. What reading and writing a window do, and that every write keeps the canonical form. -/

namespace Sys2Proof.Machine

/-- An index below every listed one reads as 00h. -/
theorem read_of_lt {a : Nat} {m : Memory} (h : ∀ c ∈ m, a < c.1) : Memory.read a m = 0 := by
  induction m with
  | nil => rfl
  | cons c rest ih =>
    have hc := h c (by simp)
    have : a ≠ c.1 := by omega
    obtain ⟨k, v⟩ := c
    simp only [Memory.read]
    simp only at this
    simp [this, ih (fun d hd => h d (by simp [hd]))]

/-- Every cell of a written window is the new one or an old one. -/
theorem mem_write {a : Nat} {b : Byte} {m : Memory} {c : Host.Cell} (h : c ∈ Memory.write a b m) :
    (c = (a, b) ∧ b ≠ 0) ∨ c ∈ m := by
  induction m with
  | nil =>
    simp only [Memory.write] at h
    split at h <;> simp_all
  | cons d rest ih =>
    obtain ⟨k, v⟩ := d
    simp only [Memory.write] at h
    split at h
    · split at h <;> simp_all
    · split at h
      · split at h <;> simp_all
        rcases h with h | h <;> simp [h]
      · simp only [List.mem_cons] at h ⊢
        rcases h with h | h
        · exact Or.inr (Or.inl h)
        · rcases ih h with h | h
          · exact Or.inl h
          · exact Or.inr (Or.inr h)

/-- A write keeps the cells rising. -/
theorem write_sorted {a : Nat} {b : Byte} {m : Memory} (h : m.Pairwise (fun c d => c.1 < d.1)) :
    (Memory.write a b m).Pairwise (fun c d => c.1 < d.1) := by
  induction m with
  | nil =>
    simp only [Memory.write]
    split <;> simp
  | cons d rest ih =>
    obtain ⟨k, v⟩ := d
    rw [List.pairwise_cons] at h
    simp only [Memory.write]
    split
    · rename_i hlt
      split
      · exact List.pairwise_cons.2 h
      · refine List.pairwise_cons.2 ⟨fun c hc => ?_, List.pairwise_cons.2 h⟩
        rcases List.mem_cons.1 hc with e | hc
        · subst e; exact hlt
        · exact Nat.lt_trans hlt (h.1 c hc)
    · split
      · rename_i _ heq
        split
        · exact h.2
        · exact List.pairwise_cons.2 ⟨fun c hc => by subst heq; exact h.1 c hc, h.2⟩
      · refine List.pairwise_cons.2 ⟨fun c hc => ?_, ih h.2⟩
        rcases mem_write hc with ⟨e, _⟩ | hc
        · subst e; simp only; omega
        · exact h.1 c hc

/-- A write below the size of a window keeps the canonical form. -/
theorem write_wf {a : Nat} {b : Byte} {m : Memory} (ha : a < Config.windowBytes) (h : Memory.wf m) :
    Memory.wf (Memory.write a b m) := by
  refine ⟨write_sorted h.1, fun c hc => ?_⟩
  rcases mem_write hc with ⟨e, hb⟩ | hc
  · subst e; exact ⟨hb, ha⟩
  · exact h.2 c hc

/-- A run of writes inside the window keeps the canonical form. -/
theorem writeRun_wf {a : Nat} {bs : List Byte} {m : Memory} (ha : a + bs.length ≤ Config.windowBytes)
    (h : Memory.wf m) : Memory.wf (Memory.writeRun a bs m) := by
  induction bs generalizing a m with
  | nil => exact h
  | cons b rest ih =>
    simp only [List.length_cons] at ha
    exact ih (by omega) (write_wf (by omega) h)

/-- Reading after a write: the new byte at its index, the old one elsewhere. -/
theorem read_write {a k : Nat} {b : Byte} {m : Memory} (h : m.Pairwise (fun c d => c.1 < d.1)) :
    Memory.read k (Memory.write a b m) = if k = a then b else Memory.read k m := by
  induction m with
  | nil =>
    simp only [Memory.write]
    split
    · rename_i hb; subst hb; simp [Memory.read]
    · simp [Memory.read]
  | cons d rest ih =>
    obtain ⟨j, v⟩ := d
    rw [List.pairwise_cons] at h
    have hrest : a ≤ j → Memory.read a rest = 0 := fun e => read_of_lt (fun c hc => Nat.lt_of_le_of_lt e (h.1 c hc))
    have hr := ih h.2
    grind [Memory.write, Memory.read]

/-- Reading after a run of writes: the bytes of the run from its index on, the old ones elsewhere. -/
theorem read_writeRun {a k : Nat} {bs : List Byte} {m : Memory} (h : m.Pairwise (fun c d => c.1 < d.1)) :
    Memory.read k (Memory.writeRun a bs m) = if a ≤ k then (bs[k - a]?).getD (Memory.read k m) else Memory.read k m := by
  induction bs generalizing a m with
  | nil => simp [Memory.writeRun]
  | cons b rest ih =>
    rw [Memory.writeRun, ih (write_sorted h), read_write h]
    rcases Nat.lt_trichotomy k a with hk | hk | hk
    · have h1 : ¬a ≤ k := by omega
      have h2 : ¬a + 1 ≤ k := by omega
      have h3 : k ≠ a := by omega
      simp [h1, h2, h3]
    · subst hk
      have h2 : ¬k + 1 ≤ k := by omega
      simp [h2]
    · obtain ⟨n, rfl⟩ : ∃ n, k = a + 1 + n := ⟨k - (a + 1), by omega⟩
      have h1 : a ≤ a + 1 + n := by omega
      have h3 : a + 1 + n ≠ a := by omega
      have h4 : a + 1 + n - a = n + 1 := by omega
      have h5 : a + 1 + n - (a + 1) = n := by omega
      simp [h1, h3, h4, h5]

/-- The window after reset is in canonical form. -/
theorem wf_nil : Memory.wf [] := by simp [Memory.wf]

end Sys2Proof.Machine
end

