-- ==== Sys2Proof/Laws/Bounds.lean ====
section
/-! SUPPORT. The bounds of the invariant through every shared operation. -/

namespace Sys2Proof.Machine

/-! ## Parts of the bounds -/

/-- An engine with the same entries is ok if it is inert when OFF. -/
theorem Segment.ok.of_entries {x y : Segment} (h : x.ok) (he : y.entries = x.entries) (ho : y.offOk) : y.ok :=
  ⟨fun e => by have := h.1 e; simpa [Segment.entry, he] using this, ho⟩

/-- An engine that is not OFF needs its entries alone. -/
theorem Segment.offOk.of_on {x : Segment} (h : x.init ≠ .off) : x.offOk := fun e => absurd e h

/-- An entry replaced by an ok one keeps the engine ok. -/
theorem Segment.ok.setEntry {x : Segment} (h : x.ok) (e : EntryId) {n : Entry} (hn : n.ok) : (x.setEntry e n).ok := by
  refine ⟨fun k => ?_, h.2⟩
  rw [entry_setEntry_eq]
  split
  · exact hn
  · exact h.1 k

theorem Bounds.setSeg {s : State} (h : Bounds s) (g : SegId) {x : Segment} (hx : x.ok) : Bounds (s.setSeg g x) := by
  refine ⟨fun k => ?_, h.notices, h.link⟩
  rw [seg_setSeg_eq]
  split
  · exact hx
  · exact h.engines k

theorem Bounds.modSeg {s : State} (h : Bounds s) (g : SegId) {f : Segment → Segment} (hf : (f (s.seg g)).ok) :
    Bounds (modSeg g f s) := h.setSeg g hf

theorem Bounds.modEntry {s : State} (h : Bounds s) (g : SegId) (e : EntryId) {f : Entry → Entry}
    (hf : (f ((s.seg g).entry e)).ok) : Bounds (modEntry g e f s) :=
  h.modSeg g ((h.engines g).setEntry e hf)

@[simp] theorem setJob_bounds {s : State} (h : Bounds s) (i : Slot) (j : Option Job) : Bounds (s.setJob i j) :=
  ⟨h.engines, h.notices, h.link⟩

@[simp] theorem modJob_bounds {s : State} (h : Bounds s) (i : Slot) (f : Job → Job) : Bounds (modJob i f s) :=
  ⟨h.engines, h.notices, h.link⟩

/-- A new link unit that is ok. -/
theorem Bounds.withLink {s : State} (h : Bounds s) {l : Link} (hl : l.ok) : Bounds { s with link := l } :=
  ⟨h.engines, h.notices, hl⟩

/-- A new notice unit that is ok. -/
theorem Bounds.withNotices {s : State} (h : Bounds s) {n : Notices} (hn : n.ok) : Bounds { s with notices := n } :=
  ⟨h.engines, hn, h.link⟩

/-! ## Notices and records -/

theorem Notices.ok.join {n : Notices} (h : n.ok) (kind : NoticeKind) (source : Source) (payload : List Byte) :
    Notices.ok
      { n with
        queue := n.queue ++ [{ seq := n.next, kind := kind, source := source, payload := payload }]
        next := n.next + 1 } := by
  obtain ⟨h1, h2, h3⟩ := h
  refine ⟨fun k hk => ?_, ?_, ?_⟩
  · simp only [List.length_append, List.length_cons, List.length_nil] at hk ⊢
    rw [List.getElem_append]
    split
    · rename_i hlt
      have e : n.queue.length + (0 + 1) - k = (n.queue.length - k) + 1 := by omega
      rw [h1 k hlt, e, BitVec.ofNat_add]
      simp only [BitVec.sub_eq_add_neg]
      bv_omega
    · have : k = n.queue.length := by omega
      subst this
      simp [BitVec.add_sub_cancel]
  · simp only [List.length_append, List.length_cons, List.length_nil]; omega
  · simp only [List.length_append, List.length_cons, List.length_nil]; omega

@[simp] theorem joinNotice_bounds {s : State} (h : Bounds s) (kind : NoticeKind) (source : Source) (payload : List Byte) :
    Bounds (joinNotice kind source payload s) := h.withNotices (h.notices.join kind source payload)

@[simp] theorem claimEvent_bounds {s : State} (h : Bounds s) (g : SegId) (ev : SegEvent) : Bounds (claimEvent g ev s) := by
  unfold claimEvent
  split
  · exact joinNotice_bounds h _ _ _
  · exact h.modSeg g ((h.engines g).of_entries rfl (h.engines g).2)

@[simp] theorem releaseRecord_bounds {s : State} (h : Bounds s) : Bounds (releaseRecord s) := by
  unfold releaseRecord
  split
  · exact h
  · rename_i g _
    have h1 : Bounds (joinNotice .segSummary .record (summaryPayload g (s.seg g).summary) s) := joinNotice_bounds h _ _ _
    have h2 := h1.modSeg g (f := fun x => { x with summary := Summary.empty })
      ((h1.engines g).of_entries rfl (h1.engines g).2)
    exact h2.withNotices h2.notices

theorem Notices.ok.tail {n : Notices} {a : Notice} {rest : List Notice} (h : n.ok) (hq : n.queue = a :: rest) :
    Notices.ok { n with queue := rest, sentLimit := n.sentLimit - 1, sendPoint := n.sendPoint - 1 } := by
  obtain ⟨h1, h2, h3⟩ := h
  refine ⟨fun k hk => ?_, ?_, ?_⟩
  · have := h1 (k + 1) (by simp [hq]; simpa using hk)
    simp only [hq, List.getElem_cons_succ, List.length_cons] at this
    rw [this]
    have e : rest.length + 1 - (k + 1) = rest.length - k := by omega
    rw [e]
  · simp only [hq, List.length_cons] at h2 ⊢; omega
  · simp only [hq, List.length_cons] at h3 ⊢; omega

@[simp] theorem retireHead_bounds {s : State} (h : Bounds s) : Bounds (retireHead s) := by
  unfold retireHead
  split
  · exact h
  · rename_i n rest hq
    have h1 := h.withNotices (h.notices.tail hq)
    dsimp only
    split
    · exact setJob_bounds h1 _ _
    · exact releaseRecord_bounds h1

@[simp] theorem retire_bounds {s : State} (h : Bounds s) (n : Nat) : Bounds (retire n s) := by
  induction n generalizing s with
  | zero => exact h
  | succ n ih => exact ih (retireHead_bounds h)

@[simp] theorem afterAck_bounds {s : State} (h : Bounds s) : Bounds (afterAck s) := h.withNotices h.notices

@[simp] theorem acknowledge_bounds {s : State} (h : Bounds s) (a : Word) : Bounds (acknowledge a s) := by
  unfold acknowledge; split <;> simp [h]

/-! ## Replies and jobs -/

theorem completeEntry_tags (age : Nat) (body : List Byte) (c : List CacheEntry) :
    (completeEntry age body c).map (·.tag) = c.map (·.tag) := by
  simp only [completeEntry, List.map_map]
  congr 1
  funext e
  simp only [Function.comp]
  split <;> rfl

@[simp] theorem makeReply_bounds {s : State} (h : Bounds s) (d : Deferral) (code : Byte) (rc : ReplyCode) (data : List Byte)
    (b : Bool) : Bounds (makeReply d code rc data b s) :=
  h.withLink ⟨h.link.1, by rw [completeEntry_tags]; exact h.link.2⟩

@[simp] theorem finishJob_bounds {s : State} (h : Bounds s) (i : Slot) (o : JobOutcome) (b : Bool) :
    Bounds (finishJob i o b s) := by
  unfold finishJob; split
  · exact h
  · dsimp only
    split
    · exact joinNotice_bounds (setJob_bounds h _ _) _ _ _
    · exact makeReply_bounds (joinNotice_bounds (setJob_bounds h _ _) _ _ _) _ _ _ _ _

@[simp] theorem finishAll_bounds {s : State} (h : Bounds s) (o : JobOutcome) (l : List Slot) : Bounds (finishAll o l s) := by
  induction l generalizing s with
  | nil => exact h
  | cons i l ih => exact ih (finishJob_bounds h i o false)

/-! ## Engines -/

/-- Close a goal that a changed engine is ok. -/
theorem Segment.ok.on {x y : Segment} (h : x.ok) (he : y.entries = x.entries) (hi : y.init ≠ .off) : y.ok :=
  h.of_entries he (.of_on hi)

theorem freeBackoff_ok {x : Segment} (h : x.ok) (now : Nat) : (freeBackoff now x).ok := by
  unfold freeBackoff
  (repeat' split) <;> first | exact h | exact h.on rfl (by simp)

theorem resetMonitor_ok {x : Segment} (h : x.ok) (now : Nat) (hx : x.init ≠ .off) : (resetMonitor now x).ok :=
  h.on rfl hx

theorem monitorFree_ok {x : Segment} (h : x.ok) (stop : Option Nat) (now : Nat) (hx : x.init ≠ .off) :
    (monitorFree stop now x).ok := by
  unfold monitorFree
  apply freeBackoff_ok
  exact h.on rfl hx

theorem watchSegment_ok {x : Segment} (h : x.ok) (now : Nat) : (watchSegment now x).ok := by
  refine h.of_entries rfl (fun e => ?_)
  obtain ⟨h1, h2, h3, h4, h5, h6, h7, h8, h9⟩ := h.2 e
  have e' : x.init = .off := e
  have : x.measures = false := by simp [Segment.measures, Segment.isOff, e']
  exact ⟨h1, h2, h3, h4, h5, h6, h7, by simp [watchSegment, this], h9⟩

theorem restartQuiet_ok {x : Segment} (h : x.ok) (now : Nat) : (restartQuiet now x).ok := by
  refine h.of_entries rfl (fun e => ?_)
  obtain ⟨h1, h2, h3, h4, h5, h6, h7, h8, h9⟩ := h.2 e
  have e' : x.init = .off := e
  have : x.measures = false := by simp [Segment.measures, Segment.isOff, e']
  exact ⟨h1, h2, h3, h4, h5, h6, h7, by simp [restartQuiet, this], h9⟩

theorem releaseLines_ok {x : Segment} (h : x.ok) : (releaseLines x).ok :=
  h.of_entries rfl (fun e => by
    obtain ⟨h1, h2, h3, _, _, h6, h7, h8, h9⟩ := h.2 e
    exact ⟨h1, h2, h3, rfl, rfl, h6, h7, h8, h9⟩)

theorem leaveLines_ok {x : Segment} (h : x.ok) : (leaveLines x).ok :=
  h.of_entries rfl (fun e => by
    obtain ⟨h1, h2, h3, _, _, h6, h7, h8, h9⟩ := h.2 e
    exact ⟨h1, h2, rfl, rfl, rfl, h6, h7, by simp [leaveLines, h8], h9⟩)

@[simp] theorem watchLines_bounds {s : State} (h : Bounds s) : Bounds (watchLines s) :=
  ⟨fun g => by rw [seg_watchLines]; exact watchSegment_ok (h.engines g) _, h.notices, h.link⟩

/-! ## Initiator -/

theorem examineQueue_bounds {s : State} (h : Bounds s) (g : SegId) (l : List Slot) : Bounds (examineQueue g l s) := by
  induction l generalizing s with
  | nil => exact h.modSeg g ((h.engines g).on rfl (by simp))
  | cons i l ih =>
    unfold examineQueue
    split
    · exact ih h
    · split
      · exact ih (finishJob_bounds (h.modSeg g ((h.engines g).of_entries rfl (h.engines g).2)) _ _ _)
      · exact (setJob_bounds h _ _).modSeg g ((h.engines g).on rfl (by simp))

@[simp] theorem enterIdle_bounds {s : State} (h : Bounds s) (g : SegId) : Bounds (enterIdle g s) := examineQueue_bounds h g _

@[simp] theorem takeContinuation_bounds {s : State} (h : Bounds s) (g : SegId) : Bounds (takeContinuation g s) := by
  unfold takeContinuation
  dsimp only
  repeat' split
  all_goals first
    | exact h
    | exact (modJob_bounds h _ _).modSeg g ((h.engines g).on rfl (by simp))

@[simp] theorem enterHeld_bounds {s : State} (h : Bounds s) (g : SegId) (c : Byte) (r : Run) : Bounds (enterHeld g c r s) :=
  takeContinuation_bounds (h.modSeg g ((h.engines g).on rfl (by simp))) g

@[simp] theorem closeHold_bounds {s : State} (h : Bounds s) (g : SegId) (w : HoldEnd) (k : Hold) : Bounds (closeHold g w k s) :=
  h.modSeg g ((h.engines g).on rfl (by simp))

@[simp] theorem beginStop_bounds {s : State} (h : Bounds s) (g : SegId) (r : Run) (w : StopWhy) : Bounds (beginStop g r w s) :=
  h.modSeg g ((h.engines g).on rfl (by simp [stopFrom]))

/-! ## Responder -/

theorem applyDeferred_ok {n : Entry} (h : n.ok) {w : DeferredWrite} (hw : n.deferred = some w) :
    Entry.ok { n with window := Memory.writeRun w.offset w.bytes n.window, deferred := none } := by
  obtain ⟨h1, h2, h3, h4, h5, h6⟩ := h
  exact ⟨writeRun_wf (h6 w (by simp [hw])) h1, h2, h3, h4, h5, by simp⟩

@[simp] theorem applyDeferred_bounds {s : State} (h : Bounds s) (g : SegId) (e : EntryId) : Bounds (applyDeferred g e s) := by
  unfold applyDeferred
  split
  · exact h
  · rename_i w hw
    exact makeReply_bounds (h.modEntry g e (applyDeferred_ok ((h.engines g).1 e) hw)) _ _ _ _ _

/-- An outbox that is a part of an ok one. -/
theorem Entry.ok.outbox {n : Entry} (h : n.ok) {q : List (List Byte)} (hl : q.length ≤ n.outbox.length)
    (hm : ∀ m ∈ q, m ∈ n.outbox) : Entry.ok { n with outbox := q } := by
  obtain ⟨h1, h2, h3, h4, h5, h6⟩ := h
  exact ⟨h1, h2, h3, Nat.le_trans hl h4, fun m hm' => h5 m (hm m hm'), h6⟩

@[simp] theorem endAccess_bounds {s : State} (h : Bounds s) (g : SegId) (t : Transaction) (b : Bool) :
    Bounds (endAccess g t b s) := by
  unfold endAccess
  dsimp only
  repeat' split
  all_goals first
    | exact h
    | exact claimEvent_bounds h _ _
    | exact releaseRecord_bounds h
    | exact joinNotice_bounds h _ _ _
    | skip
  rename_i hq
  refine claimEvent_bounds (h.modEntry g _ (((h.engines g).1 _).outbox ?_ ?_)) _ _
  · simp [hq]
  · intro m hm; simp [hq, hm]

@[simp] theorem cutByte_bounds {s : State} (h : Bounds s) (g : SegId) (t : Transaction) : Bounds (cutByte g t s) := by
  unfold cutByte
  split
  · obtain ⟨h1, h2⟩ := (h.engines g).1 t.entry
    exact h.modEntry g t.entry ⟨write_wf (Fin.isLt _) h1, h2⟩
  · exact h

@[simp] theorem endTransaction_bounds {s : State} (h : Bounds s) (g : SegId) (b : Bool) : Bounds (endTransaction g b s) := by
  unfold endTransaction
  dsimp only
  split
  · rename_i t ht
    have hx : (s.seg g).init ≠ .off := fun e => by
      have := ((h.engines g).2 e).2.2.2.2.2.1
      rw [this] at ht
      simp [Responder.transaction?] at ht
    exact applyDeferred_bounds (endAccess_bounds (cutByte_bounds (h.modSeg g ((h.engines g).on rfl hx)) _ _) _ _ _) _ _
  · split
    · rename_i _ hr
      have hx : (s.seg g).init ≠ .off := fun e => by
        have := ((h.engines g).2 e).2.2.2.2.2.1
        rw [this] at hr
        simp at hr
      exact h.modSeg g ((h.engines g).on rfl hx)
    · exact h

/-! ## Leaving a job -/

theorem enableSegment_ok {x : Segment} (h : ∀ e, (x.entry e).ok) (now : Nat) : (enableSegment now x).ok :=
  ⟨h, .of_on (by simp [enableSegment, resetMonitor])⟩

theorem turnOff_ok {x : Segment} (h : x.ok) (now : Nat) : (turnOff now x).ok := by
  unfold turnOff
  dsimp only
  split
  · apply enableSegment_ok
    exact h.1
  · rename_i hc
    exact ⟨h.1, fun _ => ⟨by simpa using hc, rfl, rfl, rfl, rfl, rfl, rfl, rfl, rfl⟩⟩

@[simp] theorem goOff_bounds {s : State} (h : Bounds s) (g : SegId) : Bounds (goOff g s) := by
  have h1 := endTransaction_bounds h g true
  exact h1.modSeg g (turnOff_ok (h1.engines g) _)

@[simp] theorem toIdle_bounds {s : State} (h : Bounds s) (g : SegId) : Bounds (toIdle g s) := by
  unfold toIdle
  split
  · exact h.modSeg g ((h.engines g).on rfl (by simp))
  · exact enterIdle_bounds h g

@[simp] theorem endDisable_bounds {s : State} (h : Bounds s) (g : SegId) : Bounds (endDisable g s) := by
  unfold endDisable; split
  · exact goOff_bounds h g
  · exact h

@[simp] theorem leave_bounds {s : State} (h : Bounds s) (g : SegId) : Bounds (leave g s) :=
  endDisable_bounds (toIdle_bounds (h.modSeg g (leaveLines_ok (h.engines g))) g) g

@[simp] theorem endRun_bounds {s : State} (h : Bounds s) (g : SegId) (i : Slot) (o : JobOutcome) : Bounds (endRun g i o s) :=
  leave_bounds (finishJob_bounds h i o true) g

end Sys2Proof.Machine
end

