-- ==== Sys2Proof/Laws/BoundsUnits.lean ====
section
/-! SUPPORT. The bounds of the invariant through the operations of every unit. -/

namespace Sys2Proof.Machine

/-! ## Reset -/

theorem entryAtReset_ok : Entry.atReset.ok :=
  ⟨⟨List.Pairwise.nil, by simp [Entry.atReset]⟩, by decide, by decide, by decide, by simp [Entry.atReset],
    by simp [Entry.atReset]⟩

theorem segmentAtReset_ok (scl sda : Bool) : (Segment.atReset scl sda).ok := by
  refine ⟨fun e => ?_, fun _ => ⟨rfl, rfl, rfl, rfl, rfl, rfl, rfl, rfl, rfl⟩⟩
  have : (Segment.atReset scl sda).entry e = Entry.atReset := by simp [Segment.atReset, Segment.entry]
  rw [this]
  exact entryAtReset_ok

@[simp] theorem seg_fullReset (c : Cause) (p : Straps) (s : State) (g : SegId) :
    (fullReset c p s).seg g = Segment.atReset (s.seg g).scl (s.seg g).sda := by
  simp [fullReset, State.seg, resetSegment]

@[simp] theorem seg_holdReset (c : Cause) (s : State) (g : SegId) :
    (holdReset c s).seg g = Segment.atReset (s.seg g).scl (s.seg g).sda := by
  simp [holdReset, State.seg, resetSegment]

theorem linkAtReset_ok (r : Rate) : (Link.atReset r).ok := ⟨by simp [Link.atReset], by simp [Link.atReset]⟩

@[simp] theorem fullReset_bounds (c : Cause) (p : Straps) (s : State) : Bounds (fullReset c p s) := by
  refine ⟨fun g => by rw [seg_fullReset]; exact segmentAtReset_ok _ _, ⟨fun k hk => ?_, Nat.zero_le _, Nat.zero_le _⟩,
    linkAtReset_ok _⟩
  · simp only [fullReset, noticesAfterReset, List.length_cons, List.length_nil] at hk ⊢
    have : k = 0 := by omega
    subst this
    rfl

@[simp] theorem holdReset_bounds (c : Cause) (s : State) : Bounds (holdReset c s) :=
  ⟨fun g => by rw [seg_holdReset]; exact segmentAtReset_ok _ _,
    ⟨fun k hk => absurd hk (by simp [holdReset, noticesInReset]), by simp [holdReset, noticesInReset],
      by simp [holdReset, noticesInReset]⟩,
    linkAtReset_ok _⟩

@[simp] theorem powerUp_bounds (b : Bool) (p : Straps) (s : State) : Bounds (powerUp b p s) := by
  unfold powerUp; split <;> simp

@[simp] theorem rstFalls_bounds (s : State) : Bounds (rstFalls s) := holdReset_bounds _ _

@[simp] theorem rstRises_bounds {s : State} (h : Bounds s) (p : Straps) : Bounds (rstRises p s) := by
  unfold rstRises; split <;> simp [h]

/-! ## Receiver -/

@[simp] theorem enterHunt_bounds {s : State} (h : Bounds s) : Bounds (enterHunt s) := h.withLink h.link

@[simp] theorem withinFrame_bounds {s : State} (h : Bounds s) (rx : Receiver) : Bounds (withinFrame rx s) := h.withLink h.link

@[simp] theorem endSilent_bounds {s : State} (h : Bounds s) : Bounds (endSilent s) := by
  unfold endSilent; split
  · exact h.withNotices ⟨h.notices.1, h.notices.2.1, Nat.zero_le _⟩
  · exact h

@[simp] theorem placeRequest_bounds {s : State} (h : Bounds s) (r : Request) : Bounds (placeRequest r s) := by
  unfold placeRequest; split
  · rename_i hc
    simp only [Bool.and_eq_true, decide_eq_true_eq] at hc
    refine h.withLink ⟨?_, h.link.2⟩
    simp only [List.length_append, List.length_cons, List.length_nil]
    omega
  · exact h

@[simp] theorem acceptFrame_bounds {s : State} (h : Bounds s) (body : List Byte) (c : Word) : Bounds (acceptFrame body c s) := by
  unfold acceptFrame
  repeat' split
  all_goals first
    | exact h
    | exact acknowledge_bounds h _
    | exact placeRequest_bounds h _

@[simp] theorem checkFrame_bounds {s : State} (h : Bounds s) (len : Byte) (body : List Byte) (c : Word) :
    Bounds (checkFrame len body c s) := by
  unfold checkFrame; split
  · exact acceptFrame_bounds (endSilent_bounds h) _ _
  · exact h

@[simp] theorem receive_bounds {s : State} (h : Bounds s) (b : Byte) : Bounds (receive b s) := by
  unfold receive receiveByte
  repeat' split
  all_goals first
    | exact h
    | exact withinFrame_bounds h _
    | exact enterHunt_bounds h
    | exact checkFrame_bounds (enterHunt_bounds h) _ _ _

@[simp] theorem gapExpires_bounds {s : State} (h : Bounds s) : Bounds (gapExpires s) := by
  unfold gapExpires; split
  · exact enterHunt_bounds h
  · exact h

/-! ## Requests -/

theorem makeRoom_nodup {tag : Byte} {c : List CacheEntry} (h : (c.map (·.tag)).Nodup) :
    ((makeRoom tag c).map (·.tag)).Nodup ∧ tag ∉ (makeRoom tag c).map (·.tag) := by
  unfold makeRoom
  split
  · refine ⟨h.sublist (List.filter_sublist.map _), ?_⟩
    simp
  · rename_i hc
    have hc' : tag ∉ c.map (·.tag) := by
      intro hm
      apply hc
      simp only [List.mem_map] at hm
      obtain ⟨e, he, rfl⟩ := hm
      simp only [List.any_eq_true, beq_iff_eq]
      exact ⟨e, he, rfl⟩
    split
    · exact ⟨h, hc'⟩
    · exact ⟨h.sublist ((List.eraseP_sublist).map _), fun hm => hc' (((List.eraseP_sublist).map _).subset hm)⟩

theorem recordRequest_ok {l : Link} (h : l.ok) (r : Request) : (recordRequest r l).ok := by
  refine ⟨h.1, ?_⟩
  obtain ⟨h1, h2⟩ := makeRoom_nodup (tag := r.tag) h.2
  simp only [recordRequest, List.map_append, List.map_cons, List.map_nil]
  rw [List.nodup_append]
  refine ⟨h1, by simp, ?_⟩
  intro a ha b hb
  simp only [List.mem_singleton] at hb
  subst hb
  intro e
  subst e
  exact h2 ha

@[simp] theorem takeHead_bounds {s : State} (h : Bounds s) {r : Request} {rest : List Request}
    (hr : rest.length ≤ Config.inboundFrames) : Bounds (takeHead r rest s) := by
  have h1 : Bounds { s with link := { s.link with inbound := rest } } := h.withLink ⟨hr, h.link.2⟩
  have h2 : Bounds (applyAckField r { s with link := { s.link with inbound := rest } }) := by
    unfold applyAckField; split
    · exact acknowledge_bounds h1 _
    · exact h1
  unfold takeHead
  dsimp only
  split
  · exact h2.withLink h2.link
  · exact h2.withLink (recordRequest_ok h2.link _)

@[simp] theorem takeRequest_bounds {s : State} (h : Bounds s) : Bounds (takeRequest s) := by
  unfold takeRequest
  split
  · exact h
  · split
    · exact h
    · rename_i r rest hq
      split
      · refine takeHead_bounds h ?_
        have := h.link.1
        rw [hq] at this
        simp only [List.length_cons] at this
        omega
      · exact h

@[simp] theorem settleDuplicate_bounds {s : State} (h : Bounds s) : Bounds (settleDuplicate s) := by
  unfold settleDuplicate
  repeat' split
  all_goals first
    | exact h
    | exact h.withLink h.link

@[simp] theorem letGo_bounds {s : State} (h : Bounds s) : Bounds (letGo s) := h.withLink h.link

@[simp] theorem answer_bounds {s : State} (h : Bounds s) (r : Request) (d : Deferral) (rc : ReplyCode) (data : List Byte) :
    Bounds (answer r d rc data s) := makeReply_bounds (letGo_bounds h) _ _ _ _ _

/-- A block that keeps the bounds keeps it where it answers. -/
theorem withRequest_bounds {s : State} (h : Bounds s) (code : Byte) {f : Request → Deferral → State → State}
    (hf : ∀ r d, Bounds (f r d s)) : Bounds (withRequest code f s) := by
  unfold withRequest
  repeat' split
  all_goals first
    | exact h
    | exact hf _ _

@[simp] theorem refuseUnknown_bounds {s : State} (h : Bounds s) : Bounds (refuseUnknown s) := by
  unfold refuseUnknown
  repeat' split
  all_goals first
    | exact h
    | exact answer_bounds h _ _ _ _

theorem answerDevInfo_bounds {s : State} (h : Bounds s) (r : Request) (d : Deferral) : Bounds (answerDevInfo r d s) := by
  unfold answerDevInfo; split <;> exact answer_bounds h _ _ _ _

theorem answerDevReset_bounds {s : State} (h : Bounds s) (r : Request) (d : Deferral) : Bounds (answerDevReset r d s) := by
  unfold answerDevReset; split
  · exact answer_bounds h _ _ _ _
  · have h1 := makeReply_bounds (letGo_bounds h) d r.code .ok [] true
    exact h1.withLink ⟨Nat.zero_le _, h1.link.2⟩

theorem answerLinkConfig_bounds {s : State} (h : Bounds s) (r : Request) (d : Deferral) : Bounds (answerLinkConfig r d s) := by
  unfold answerLinkConfig; split
  · exact answer_bounds h _ _ _ _
  · apply answer_bounds
    exact h.withNotices h.notices

/-! ## Sending -/

theorem offered_next {n : Notices} {a : Notice} (h : n.offered = some a) : n.sendPoint < n.queue.length := by
  unfold Notices.offered at h
  repeat' split at h
  all_goals first
    | exact (List.getElem?_eq_some_iff.mp h).1
    | simp at h

theorem startFrame_bounds {s : State} (h : Bounds s) : Bounds (startFrame s) := by
  unfold startFrame
  split
  · exact h
  · split
    · exact h.withLink h.link
    · split
      · rename_i n hn
        have hl := offered_next hn
        have hk : s.notices.sendPoint < s.notices.sentLimit ∨ s.notices.sendPoint = s.notices.sentLimit := by
          unfold Notices.offered at hn
          repeat' split at hn
          all_goals first
            | (left; assumption)
            | (right; exact (by assumption : _ ∧ _).1)
            | simp at hn
        refine ⟨h.engines, ⟨h.notices.1, ?_, ?_⟩, h.link⟩
        · show (if s.notices.sendPoint < s.notices.sentLimit then s.notices.sentLimit else s.notices.sentLimit + 1) ≤
            s.notices.queue.length
          split
          · exact h.notices.2.1
          · omega
        · show s.notices.sendPoint + 1 ≤ s.notices.queue.length
          omega
      · exact h

theorem endFrame_bounds {s : State} (h : Bounds s) (p : Straps) : Bounds (endFrame p s) := by
  unfold endFrame
  repeat' split
  all_goals first
    | exact h
    | exact fullReset_bounds _ _ _
    | exact h.withLink h.link

theorem resendExpires_bounds {s : State} (h : Bounds s) : Bounds (resendExpires s) := by
  unfold resendExpires
  dsimp only
  repeat' split
  all_goals first
    | exact h
    | exact h.withNotices h.notices
    | exact h.withNotices ⟨h.notices.1, h.notices.2.1, Nat.zero_le _⟩

end Sys2Proof.Machine
end

