-- ==== Sys2Proof/Laws/BoundsSegments.lean ====
section
/-! SUPPORT. The bounds of the invariant through the requests and the events of the segments. -/

namespace Sys2Proof.Machine

/-! ## A segment that is not OFF stays so -/

theorem isOff_eq_false {x : Segment} : x.isOff = false ↔ x.init ≠ .off := by
  unfold Segment.isOff; split <;> simp_all

@[simp] theorem seg_joinNotice (kind : NoticeKind) (source : Source) (payload : List Byte) (s : State) (g : SegId) :
    (joinNotice kind source payload s).seg g = s.seg g := rfl

@[simp] theorem seg_makeReply (d : Deferral) (code : Byte) (rc : ReplyCode) (data : List Byte) (b : Bool) (s : State)
    (g : SegId) : (makeReply d code rc data b s).seg g = s.seg g := rfl

@[simp] theorem seg_letGo (s : State) (g : SegId) : (letGo s).seg g = s.seg g := rfl

@[simp] theorem seg_answer (r : Request) (d : Deferral) (rc : ReplyCode) (data : List Byte) (s : State) (g : SegId) :
    (answer r d rc data s).seg g = s.seg g := rfl

@[simp] theorem seg_finishJob (i : Slot) (o : JobOutcome) (b : Bool) (s : State) (g : SegId) :
    (finishJob i o b s).seg g = s.seg g := by
  unfold finishJob; (repeat' split) <;> rfl

@[simp] theorem seg_finishAll (o : JobOutcome) (l : List Slot) (s : State) (g : SegId) :
    (finishAll o l s).seg g = s.seg g := by
  induction l generalizing s with
  | nil => rfl
  | cons i l ih => simp [finishAll, ih]

@[simp] theorem init_modEntry (g : SegId) (e : EntryId) (f : Entry → Entry) (s : State) (k : SegId) :
    ((modEntry g e f s).seg k).init = (s.seg k).init := by
  rw [modEntry, seg_modSeg_eq]; split
  · subst k; rfl
  · rfl

@[simp] theorem init_claimEvent (g : SegId) (ev : SegEvent) (s : State) (k : SegId) :
    ((claimEvent g ev s).seg k).init = (s.seg k).init := by
  unfold claimEvent; split
  · rfl
  · rw [seg_modSeg_eq]; split
    · subst k; rfl
    · rfl

@[simp] theorem init_releaseRecord (s : State) (k : SegId) : ((releaseRecord s).seg k).init = (s.seg k).init := by
  unfold releaseRecord; split
  · rfl
  · rename_i g _
    dsimp only
    show ((modSeg g (fun x => { x with summary := Summary.empty }) _).seg k).init = _
    rw [seg_modSeg_eq]; split
    · subst k; rfl
    · rfl

@[simp] theorem init_applyDeferred (g : SegId) (e : EntryId) (s : State) (k : SegId) :
    ((applyDeferred g e s).seg k).init = (s.seg k).init := by
  unfold applyDeferred; split <;> simp

@[simp] theorem init_cutByte (g : SegId) (t : Transaction) (s : State) (k : SegId) :
    ((cutByte g t s).seg k).init = (s.seg k).init := by
  unfold cutByte; split <;> simp

@[simp] theorem init_endAccess (g : SegId) (t : Transaction) (b : Bool) (s : State) (k : SegId) :
    ((endAccess g t b s).seg k).init = (s.seg k).init := by
  unfold endAccess; dsimp only; (repeat' split) <;> simp

/-- The end of a transaction leaves the initiators alone. -/
@[simp] theorem init_endTransaction (g : SegId) (b : Bool) (s : State) (k : SegId) :
    ((endTransaction g b s).seg k).init = (s.seg k).init := by
  unfold endTransaction
  dsimp only
  repeat' split
  · simp only [init_applyDeferred, init_endAccess, init_cutByte, seg_modSeg_eq]; split
    · subst k; rfl
    · rfl
  · rw [seg_modSeg_eq]; split
    · subst k; rfl
    · rfl
  · rfl

theorem examineQueue_on (g : SegId) (l : List Slot) (s : State) (h : (s.seg g).init ≠ .off) :
    ((examineQueue g l s).seg g).init ≠ .off := by
  induction l generalizing s with
  | nil => simp [examineQueue]
  | cons i l ih =>
    unfold examineQueue
    split
    · exact ih _ h
    · split
      · exact ih _ (by simpa using h)
      · simp

theorem toIdle_on (g : SegId) (s : State) (h : (s.seg g).init ≠ .off) : ((toIdle g s).seg g).init ≠ .off := by
  unfold toIdle; split
  · simp
  · exact examineQueue_on g _ s h

theorem resetInitiator_on (g : SegId) (s : State) (h : (s.seg g).init ≠ .off) :
    ((resetInitiator g s).seg g).init ≠ .off := by
  unfold resetInitiator flushCurrent closeHold
  (repeat' split) <;> first | exact h | simp

theorem flushStart_on (g : SegId) (s : State) (h : (s.seg g).init ≠ .off) :
    ((flushStart g s).seg g).init ≠ .off := by
  unfold flushStart flushCurrent
  (repeat' split) <;> first | exact h | simp

theorem flushQueue_on (g : SegId) (s : State) (h : (s.seg g).init ≠ .off) :
    ((flushQueue g s).seg g).init ≠ .off := by
  simpa [flushQueue] using h

/-! ## Segment reset and SEG_CONFIG -/

theorem failRound_ok {x : Segment} (h : x.ok) (now : Nat) (c : Clearing) (hx : x.init ≠ .off) :
    (failRound now c x).ok := by
  unfold failRound; dsimp only; split <;> exact h.on rfl hx

theorem startRound_ok {x : Segment} (h : x.ok) (now round : Nat) (hx : x.init ≠ .off) :
    (startRound now round x).ok := by
  unfold startRound; dsimp only; split
  · refine failRound_ok ?_ _ _ ?_
    · exact h.on rfl hx
    · exact hx
  · exact h.on rfl hx

theorem resetLines_ok {x : Segment} (h : x.ok) (now : Nat) (hx : x.init ≠ .off) : (resetLines now x).ok := by
  unfold resetLines resetClear
  split
  · refine startRound_ok ?_ _ _ ?_
    · exact h.on rfl hx
    · exact hx
  · exact h.on rfl hx
  · exact h.on rfl hx

@[simp] theorem flushQueue_bounds {s : State} (h : Bounds s) (g : SegId) : Bounds (flushQueue g s) :=
  finishAll_bounds (h.modSeg g ((h.engines g).of_entries rfl (h.engines g).2)) _ _

@[simp] theorem resetInitiator_bounds {s : State} (h : Bounds s) (g : SegId) : Bounds (resetInitiator g s) := by
  unfold resetInitiator flushCurrent
  repeat' split
  all_goals first
    | exact h
    | exact finishJob_bounds (h.modSeg g ((h.engines g).on rfl (by simp))) _ _ _
    | exact closeHold_bounds h _ _ _
    | exact modJob_bounds h _ _
    | exact h.modSeg g ((h.engines g).on rfl (by simp))

@[simp] theorem flushStart_bounds {s : State} (h : Bounds s) (g : SegId) : Bounds (flushStart g s) := by
  unfold flushStart flushCurrent
  repeat' split
  all_goals first
    | exact h
    | exact finishJob_bounds (h.modSeg g ((h.engines g).on rfl (by simp))) _ _ _

theorem segmentReset_bounds {s : State} (h : Bounds s) (g : SegId) (hx : (s.seg g).init ≠ .off) :
    Bounds (segmentReset g s) := by
  have h1 := flushStart_bounds (flushQueue_bounds (resetInitiator_bounds (endTransaction_bounds h g true) g) g) g
  exact h1.modSeg g (resetLines_ok (h1.engines g) _
    (flushStart_on _ _ (flushQueue_on _ _ (resetInitiator_on _ _ (by rw [init_endTransaction]; exact hx)))))

theorem disableSegment_bounds {s : State} (h : Bounds s) (g : SegId) (hx : (s.seg g).init ≠ .off) :
    Bounds (disableSegment g s) := by
  have h1 := segmentReset_bounds (h.modSeg g (f := fun x => { x with disabling := true }) ((h.engines g).on rfl hx)) g
    (by simpa using hx)
  unfold disableSegment
  dsimp only
  split
  · exact h1
  · exact goOff_bounds h1 g

theorem replaceConfig_bounds {s : State} (h : Bounds s) (g : SegId) (cfg : SegConfig) :
    Bounds (applyEnable g cfg.enable (modSeg g (fun x => { x with cfg := cfg }) s)) := by
  by_cases hx : (s.seg g).init = .off
  · obtain ⟨h1, h2, h3, h4, h5, h6, h7, h8, h9⟩ := (h.engines g).2 hx
    unfold applyEnable
    have hd : ((modSeg g (fun x => { x with cfg := cfg }) s).seg g).disabling = false := by simpa using h2
    have ho : Segment.isOff ((modSeg g (fun x => { x with cfg := cfg }) s).seg g) = true := by
      simp [Segment.isOff, hx]
    simp only [hd, ho, Bool.false_eq_true, if_false, if_true]
    cases he : cfg.enable with
    | true =>
      simp only [if_true, modSeg, seg_setSeg, setSeg_setSeg]
      refine h.setSeg g (enableSegment_ok ?_ _)
      exact (h.engines g).1
    | false =>
      simp only [Bool.false_eq_true, if_false]
      exact h.modSeg g ((h.engines g).of_entries rfl (fun _ => ⟨he, h2, h3, h4, h5, h6, h7, h8, h9⟩))
  · have h1 : Bounds (modSeg g (fun x => { x with cfg := cfg }) s) := h.modSeg g ((h.engines g).on rfl hx)
    have hon : Segment.isOff ((modSeg g (fun x => { x with cfg := cfg }) s).seg g) = false := by
      rw [isOff_eq_false]; simpa using hx
    unfold applyEnable
    dsimp only
    simp only [hon, Bool.false_eq_true, if_false]
    split
    · exact h1
    · split
      · exact h1
      · exact disableSegment_bounds h1 g (by simpa using hx)

theorem answerSegConfig_bounds {s : State} (h : Bounds s) (r : Request) (d : Deferral) : Bounds (answerSegConfig r d s) := by
  unfold answerSegConfig; split
  · exact answer_bounds h _ _ _ _
  · exact answer_bounds (replaceConfig_bounds h _ _) _ _ _ _

theorem answerSegStatus_bounds {s : State} (h : Bounds s) (r : Request) (d : Deferral) : Bounds (answerSegStatus r d s) := by
  unfold answerSegStatus; split <;> exact answer_bounds h _ _ _ _

@[simp] theorem flushHold_bounds {s : State} (h : Bounds s) (g : SegId) : Bounds (flushHold g s) := by
  unfold flushHold
  repeat' split
  all_goals first
    | exact h
    | exact closeHold_bounds h _ _ _

theorem answerSegFlush_bounds {s : State} (h : Bounds s) (r : Request) (d : Deferral) : Bounds (answerSegFlush r d s) := by
  unfold answerSegFlush; split
  · exact answer_bounds h _ _ _ _
  · dsimp only; split
    · exact answer_bounds h _ _ _ _
    · exact answer_bounds (flushHold_bounds (flushQueue_bounds h _) _) _ _ _ _

theorem answerSegReset_bounds {s : State} (h : Bounds s) (r : Request) (d : Deferral) : Bounds (answerSegReset r d s) := by
  unfold answerSegReset; split
  · exact answer_bounds h _ _ _ _
  · dsimp only; split
    · exact answer_bounds h _ _ _ _
    · rename_i g _ hr
      refine answer_bounds (segmentReset_bounds h g (fun e => ?_)) _ _ _ _
      have := ((h.engines g).2 e).1
      simp [Segment.refuses, this] at hr

/-! ## Jobs -/

@[simp] theorem placeJob_bounds {s : State} (h : Bounds s) (i : Slot) (u : Submission) : Bounds (placeJob i u s) := by
  have h1 := setJob_bounds h i (some (admittedJob (s.seg u.seg).cfg u))
  exact h1.modSeg _ ((h1.engines _).of_entries rfl (h1.engines _).2)

@[simp] theorem lookAtQueue_bounds {s : State} (h : Bounds s) (g : SegId) : Bounds (lookAtQueue g s) := by
  unfold lookAtQueue; split
  · exact enterIdle_bounds h g
  · exact takeContinuation_bounds h g
  · exact h

theorem answerJobSubmit_bounds {s : State} (h : Bounds s) (r : Request) (d : Deferral) : Bounds (answerJobSubmit r d s) := by
  unfold answerJobSubmit; split
  · exact answer_bounds h _ _ _ _
  · split
    · exact answer_bounds h _ _ _ _
    · exact lookAtQueue_bounds (answer_bounds (placeJob_bounds h _ _) _ _ _ _) _

theorem answerJobCancel_bounds {s : State} (h : Bounds s) (r : Request) (d : Deferral) : Bounds (answerJobCancel r d s) := by
  unfold answerJobCancel cancelQueued cancelWaiting deferCancel
  repeat' split
  all_goals first
    | exact answer_bounds h _ _ _ _
    | exact letGo_bounds (modJob_bounds h _ _)
    | exact toIdle_bounds (answer_bounds (finishJob_bounds (modJob_bounds h _ _) _ _ _) _ _ _ _) _
    | exact answer_bounds (finishJob_bounds (h.modSeg _ ((h.engines _).of_entries rfl (h.engines _).2)) _ _ _) _ _ _ _

theorem answerJobQuery_bounds {s : State} (h : Bounds s) (r : Request) (d : Deferral) : Bounds (answerJobQuery r d s) := by
  unfold answerJobQuery; (repeat' split) <;> exact answer_bounds h _ _ _ _

/-! ## Responder requests -/

theorem numberOf_range {lo hi : Nat} {b : Byte} {n : Nat} (h : numberOf lo hi b = some n) :
    n = b.toNat ∧ lo ≤ n ∧ n ≤ hi := by
  unfold numberOf at h
  split at h
  · simp only [Option.some.injEq] at h; subst h; simp_all
  · simp at h

theorem respSet_range {bs : List Byte} {g : SegId} {e : EntryId} {v : EntrySettings}
    (h : respSetParams bs = .ok (g, e, some v)) : v.protectFrom ≤ 64 ∧ v.mailWaitMs ≤ 20 := by
  unfold respSetParams orBadParam at h
  repeat' split at h
  all_goals try (simp at h; done)
  all_goals
    rename_i hb
    simp only [Option.bind_eq_bind, Option.bind_eq_some_iff, Option.some.injEq, Except.ok.injEq] at h hb
  · obtain ⟨_, _, _, _, _, _, _, _, _, _, _, _, p, hp, w, hw, hv⟩ := hb
    subst hv
    simp only [Prod.mk.injEq, Option.some.injEq] at h
    obtain ⟨_, _, rfl⟩ := h
    exact ⟨(numberOf_range hp).2.2, (numberOf_range hw).2.2⟩
  · obtain ⟨_, _, _, _, hv⟩ := hb
    subst hv
    simp at h

theorem winWrite_range {bs : List Byte} {g : SegId} {e : EntryId} {a : Nat} {l : List Byte}
    (h : winWriteParams bs = .ok (g, e, a, l)) : a + l.length ≤ Config.windowBytes := by
  unfold winWriteParams orBadParam at h
  repeat' split at h
  all_goals try (simp at h; done)
  rename_i hb
  simp only [Option.bind_eq_bind, Option.bind_eq_some_iff, Except.ok.injEq] at h hb
  obtain ⟨_, _, _, _, n, hn, hv⟩ := hb
  split at hv
  · simp only [Option.some.injEq] at hv
    subst hv
    simp only [Prod.mk.injEq] at h
    obtain ⟨_, _, rfl, rfl⟩ := h
    have := (numberOf_range hn).1
    rename_i hl _ _ _
    omega
  · simp at hv

theorem mailPost_range {bs : List Byte} {g : SegId} {e : EntryId} {l : List Byte}
    (h : mailPostParams bs = .ok (g, e, l)) : 1 ≤ l.length ∧ l.length ≤ 32 := by
  unfold mailPostParams orBadParam at h
  repeat' split at h
  all_goals try (simp at h; done)
  rename_i hb
  simp only [Option.bind_eq_bind, Option.bind_eq_some_iff, Option.some.injEq, Except.ok.injEq] at h hb
  obtain ⟨_, _, _, _, n, hn, hv⟩ := hb
  subst hv
  simp only [Prod.mk.injEq] at h
  obtain ⟨_, _, rfl⟩ := h
  have := numberOf_range hn
  omega

theorem settledEntry_ok {n : Entry} (h : n.ok) {v : Option EntrySettings}
    (hv : ∀ w ∈ v, w.protectFrom ≤ 64 ∧ w.mailWaitMs ≤ 20) : (settledEntry v n).ok := by
  obtain ⟨h1, h2, h3, h4, h5, h6⟩ := h
  cases v with
  | none => exact ⟨h1, Nat.le_refl _, Nat.zero_le _, Nat.zero_le _, by simp [settledEntry, clearEntry], h6⟩
  | some w =>
    obtain ⟨hp, hw⟩ := hv w rfl
    unfold settledEntry setEntryTo
    dsimp only
    split
    · exact ⟨h1, hp, hw, h4, h5, h6⟩
    · exact ⟨h1, hp, hw, by simp, by simp, h6⟩

theorem answerRespSet_bounds {s : State} (h : Bounds s) (r : Request) (d : Deferral) : Bounds (answerRespSet r d s) := by
  unfold answerRespSet
  split
  · exact answer_bounds h _ _ _ _
  · rename_i g e v hp
    dsimp only
    repeat' split
    · exact answer_bounds h _ _ _ _
    · exact answer_bounds h _ _ _ _
    · refine answer_bounds (h.modEntry g e (settledEntry_ok ((h.engines g).1 e) ?_)) _ _ _ _
      intro w hw
      cases hw
      exact respSet_range hp

theorem answerWinWrite_bounds {s : State} (h : Bounds s) (r : Request) (d : Deferral) : Bounds (answerWinWrite r d s) := by
  unfold answerWinWrite
  split
  · exact answer_bounds h _ _ _ _
  · rename_i g e a l hp
    have hr := winWrite_range hp
    obtain ⟨h1, h2, h3, h4, h5, h6⟩ := (h.engines g).1 e
    dsimp only
    repeat' split
    · exact answer_bounds h _ _ _ _
    · exact letGo_bounds (h.modEntry g e ⟨h1, h2, h3, h4, h5, by simpa using hr⟩)
    · exact answer_bounds (h.modEntry g e ⟨writeRun_wf hr h1, h2, h3, h4, h5, h6⟩) _ _ _ _

theorem answerWinRead_bounds {s : State} (h : Bounds s) (r : Request) (d : Deferral) : Bounds (answerWinRead r d s) := by
  unfold answerWinRead; split <;> exact answer_bounds h _ _ _ _

theorem onOf_mailWait {x : Segment} (h : x.ok) {t : Transaction} {l : Nat} {a : Option Nat}
    (hr : x.resp = .mailWait t l a) : x.init ≠ .off := fun e => by
  have := (h.2 e).2.2.2.2.2.1
  rw [this] at hr
  simp at hr

theorem serveWaiting_ok {x : Segment} (h : x.ok) (e : EntryId) (b : Byte) : (serveWaiting e b x).ok := by
  unfold serveWaiting
  split
  · rename_i hr
    have hx := onOf_mailWait h hr
    dsimp only
    repeat' split
    all_goals first
      | exact h
      | exact h.on rfl hx
  · exact h

theorem post_bounds {s : State} (h : Bounds s) (g : SegId) (e : EntryId) {l : List Byte} (h1 : 1 ≤ l.length)
    (h2 : l.length ≤ 32) (hq : ((s.seg g).entry e).outbox.length < 4) : Bounds (post g e l s) := by
  obtain ⟨k1, k2, k3, k4, k5, k6⟩ := (h.engines g).1 e
  have hm : Bounds (modEntry g e (fun n => { n with outbox := n.outbox ++ [l] }) s) := by
    refine h.modEntry g e ⟨k1, k2, k3, ?_, ?_, k6⟩
    · simp only [List.length_append, List.length_cons, List.length_nil]; omega
    · intro m hm
      simp only [List.mem_append, List.mem_singleton] at hm
      rcases hm with hm | rfl
      · exact k5 m hm
      · exact ⟨h1, h2⟩
  exact hm.modSeg g (serveWaiting_ok (hm.engines g) _ _)

theorem answerMailPost_bounds {s : State} (h : Bounds s) (r : Request) (d : Deferral) : Bounds (answerMailPost r d s) := by
  unfold answerMailPost
  split
  · exact answer_bounds h _ _ _ _
  · rename_i g e l hp
    obtain ⟨h1, h2⟩ := mailPost_range hp
    dsimp only
    repeat' split
    · exact answer_bounds h _ _ _ _
    · exact answer_bounds h _ _ _ _
    · exact answer_bounds h _ _ _ _
    · rename_i hq _
      refine answer_bounds (post_bounds h g e h1 h2 ?_) _ _ _ _
      simp only [Config.outboxMessages] at hq
      omega

theorem answerMailWithdraw_bounds {s : State} (h : Bounds s) (r : Request) (d : Deferral) :
    Bounds (answerMailWithdraw r d s) := by
  unfold answerMailWithdraw
  split
  · exact answer_bounds h _ _ _ _
  · rename_i g e hp
    dsimp only
    split
    · exact answer_bounds h _ _ _ _
    · refine answer_bounds (h.modEntry g e (((h.engines g).1 e).outbox ?_ ?_)) _ _ _ _
      · unfold keptMessages; split
        · simp only [List.length_take]; omega
        · simp
      · unfold keptMessages; split
        · intro m hm; exact List.mem_of_mem_take hm
        · simp

/-! ## Initiator -/

theorem decideStart_bounds {s : State} (h : Bounds s) (g : SegId) : Bounds (decideStart g s) := by
  unfold decideStart; split
  · exact h
  · exact (modJob_bounds h _ _).modSeg g ((h.engines g).on rfl (by simp))

@[simp] theorem collide_bounds {s : State} (h : Bounds s) (g : SegId) : Bounds (collide g s) := by
  unfold collide
  dsimp only
  repeat' split
  all_goals first
    | exact h
    | exact modJob_bounds h _ _
    | exact enterIdle_bounds (finishJob_bounds (modJob_bounds h _ _) _ _ _) _
    | exact (modJob_bounds h _ _).modSeg g ((h.engines g).on rfl (by simp))

theorem runFalls_ok {x : Segment} (h : x.ok) (now : Nat) (j : Job) (r : Run) :
    (runFalls now j r x).ok := by
  unfold runFalls stopFrom sendBit releaseBit
  (repeat' split) <;> exact h.on rfl (by simp)

theorem initiatorFalls_ok {x : Segment} (h : x.ok) (now : Nat) (j : Option Job) : (initiatorFalls now j x).ok := by
  unfold initiatorFalls
  repeat' split
  all_goals first
    | exact h
    | exact h.on rfl (by simp)
    | exact runFalls_ok h _ _ _

theorem initiatorRises_ok {x : Segment} (h : x.ok) : (initiatorRises x).ok := by
  unfold initiatorRises; (repeat' split) <;> first | exact h | exact h.on rfl (by simp)

theorem driveStart_ok {x : Segment} (h : x.ok) : (driveStart x).ok := by
  unfold driveStart; (repeat' split) <;> first | exact h | exact h.on rfl (by simp)

theorem tookBit_bounds {s : State} (h : Bounds s) (g : SegId) : Bounds (modSeg g tookBit s) :=
  h.modSeg g ((h.engines g).of_entries rfl (h.engines g).2)

theorem beginRestart_bounds {s : State} (h : Bounds s) (g : SegId) (r : Run) : Bounds (beginRestart g r s) :=
  (modJob_bounds h _ _).modSeg g ((h.engines g).on rfl (by simp))

theorem phaseComplete_bounds {s : State} (h : Bounds s) (g : SegId) (r : Run) (j : Job) : Bounds (phaseComplete g r j s) := by
  unfold phaseComplete
  repeat' split
  all_goals first
    | exact enterHeld_bounds (finishJob_bounds h _ _ _) _ _ _
    | exact beginStop_bounds h _ _ _
    | exact beginRestart_bounds h _ _

theorem goOn_bounds {s : State} (h : Bounds s) (g : SegId) (r : Run) (j : Job) (sub : SubStep) : Bounds (goOn g r j sub s) := by
  unfold goOn; split
  · exact beginStop_bounds h _ _ _
  · exact h.modSeg g ((h.engines g).on rfl (by simp [sendBit]))

theorem addressAck_bounds {s : State} (h : Bounds s) (g : SegId) : Bounds (addressAck g s) := by
  unfold addressAck addressNacked addressAcked
  dsimp only
  repeat' split
  all_goals first
    | exact h
    | exact beginStop_bounds (tookBit_bounds h g) _ _ _
    | exact phaseComplete_bounds (tookBit_bounds h g) _ _ _
    | exact goOn_bounds (tookBit_bounds h g) _ _ _ _

theorem writeByteAck_bounds {s : State} (h : Bounds s) (g : SegId) : Bounds (writeByteAck g s) := by
  unfold writeByteAck
  dsimp only
  repeat' split
  all_goals first
    | exact h
    | exact beginStop_bounds (tookBit_bounds h g) _ _ _
    | exact phaseComplete_bounds (setJob_bounds (tookBit_bounds h g) _ _) _ _ _
    | exact goOn_bounds (setJob_bounds (tookBit_bounds h g) _ _) _ _ _ _

theorem readByte_bounds {s : State} (h : Bounds s) (g : SegId) : Bounds (readByte g s) := by
  unfold readByte
  dsimp only
  repeat' split
  all_goals first
    | exact h
    | exact phaseComplete_bounds (setJob_bounds (tookBit_bounds h g) _ _) _ _ _
    | exact goOn_bounds (setJob_bounds (tookBit_bounds h g) _ _) _ _ _ _

theorem lengthByte_bounds {s : State} (h : Bounds s) (g : SegId) : Bounds (lengthByte g s) := by
  unfold lengthByte
  dsimp only
  repeat' split
  all_goals first
    | exact h
    | exact beginStop_bounds (tookBit_bounds h g) _ _ _
    | exact goOn_bounds (setJob_bounds (tookBit_bounds h g) _ _) _ _ _ _

theorem released_bounds {s : State} (h : Bounds s) (g : SegId) : Bounds (modSeg g releaseLines s) :=
  h.modSeg g (releaseLines_ok (h.engines g))

theorem retryAfterStop_bounds {s : State} (h : Bounds s) (g : SegId) (i : Slot) : Bounds (retryAfterStop g i s) := by
  unfold retryAfterStop
  dsimp only
  repeat' split
  · exact h
  · exact endRun_bounds h _ _ _
  · refine (setJob_bounds h _ _).modSeg g ((h.engines g).on rfl ?_)
    dsimp only
    split <;> simp

theorem endHold_bounds {s : State} (h : Bounds s) (g : SegId) (k : Hold) : Bounds (endHold g k s) := by
  unfold endHold; split
  · exact leave_bounds (claimEvent_bounds h _ _) _
  · exact leave_bounds h _

theorem makeStop_bounds {s : State} (h : Bounds s) (g : SegId) : Bounds (makeStop g s) := by
  unfold makeStop
  dsimp only
  repeat' split
  all_goals first
    | exact h
    | exact endRun_bounds (released_bounds h g) _ _ _
    | exact retryAfterStop_bounds (released_bounds h g) _ _
    | exact endHold_bounds (released_bounds h g) _ _

theorem backOff_bounds {s : State} (h : Bounds s) (g : SegId) (i : Slot) (n : Nat) : Bounds (backOff g i n s) := by
  refine h.modSeg g ?_
  apply freeBackoff_ok
  exact (h.engines g).on rfl (by simp)

@[simp] theorem loseBus_bounds {s : State} (h : Bounds s) (g : SegId) : Bounds (loseBus g s) := by
  have h1 := released_bounds h g
  unfold loseBus
  split
  · dsimp only
    split
    · exact endRun_bounds h1 _ _ _
    · split
      · exact h1
      · split
        · exact endRun_bounds (setJob_bounds h1 _ _) _ _ _
        · split
          · exact endRun_bounds (setJob_bounds h1 _ _) _ _ _
          · exact backOff_bounds (setJob_bounds h1 _ _) _ _ _
  · exact h

theorem arbitrationLoss_bounds {s : State} (h : Bounds s) (g : SegId) : Bounds (arbitrationLoss g s) := by
  unfold arbitrationLoss; split
  · exact loseBus_bounds h g
  · exact h

@[simp] theorem loseByCondition_bounds {s : State} (h : Bounds s) (g : SegId) : Bounds (loseByCondition g s) := by
  unfold loseByCondition; split
  · exact loseBus_bounds h g
  · exact h

theorem stretchExpires_bounds {s : State} (h : Bounds s) (g : SegId) : Bounds (stretchExpires g s) := by
  unfold stretchExpires
  dsimp only
  repeat' split
  all_goals first
    | exact h
    | exact endRun_bounds (released_bounds h g) _ _ _
    | exact endHold_bounds (released_bounds h g) _ _

theorem backoffEnds_bounds {s : State} (h : Bounds s) (g : SegId) : Bounds (backoffEnds g s) := by
  unfold backoffEnds; split
  · exact h
  · exact h.modSeg g ((h.engines g).on rfl (by simp))

theorem holdExpires_bounds {s : State} (h : Bounds s) (g : SegId) : Bounds (holdExpires g s) := by
  unfold holdExpires; split
  · exact h
  · exact closeHold_bounds h _ _ _

/-! ## Responder -/

theorem onOf_resp {x : Segment} (h : x.ok) (hr : x.resp ≠ .off) : x.init ≠ .off := fun e =>
  hr (h.2 e).2.2.2.2.2.1

theorem onOf_receives {x : Segment} (h : x.ok) {t : Transaction} (hr : x.receives? = some t) : x.init ≠ .off := by
  refine onOf_resp h (fun e => ?_)
  simp [Segment.receives?, e] at hr

theorem onOf_loads {x : Segment} (h : x.ok) {t : Transaction} (hr : x.loads? = some t) : x.init ≠ .off := by
  refine onOf_resp h (fun e => ?_)
  simp [Segment.loads?, e] at hr

theorem respAddressByte_bounds {s : State} (h : Bounds s) (g : SegId) : Bounds (respAddressByte g s) := by
  unfold respAddressByte
  dsimp only
  split
  · rename_i hc
    have hx : (s.seg g).init ≠ .off := onOf_resp (h.engines g) (fun e => by simp [Segment.addressEnded, e] at hc)
    exact h.modSeg g ((h.engines g).on rfl hx)
  · exact h

/-- An engine whose responder or framing alone has changed, and which is not OFF. -/
theorem serve_bounds {s : State} (h : Bounds s) (g : SegId) {f : Segment → Segment} (hx : (s.seg g).init ≠ .off)
    (he : (f (s.seg g)).entries = (s.seg g).entries) (hi : (f (s.seg g)).init = (s.seg g).init) :
    Bounds (modSeg g f s) := h.modSeg g ((h.engines g).on he (by rw [hi]; exact hx))

theorem windowWriteByte_bounds {s : State} (h : Bounds s) (g : SegId) : Bounds (windowWriteByte g s) := by
  unfold windowWriteByte
  dsimp only
  repeat' split
  all_goals first
    | exact h
    | skip
  · rename_i t ht _ _ _
    have hx := onOf_receives (h.engines g) ht
    obtain ⟨h1, h2, h3, h4, h5, h6⟩ := (h.engines g).1 t.entry
    refine serve_bounds (h.modEntry g t.entry ?_) g (by simpa using hx) rfl rfl
    exact ⟨h1, h2, h3, h4, h5, h6⟩
  · rename_i t ht _ _ _
    have hx := onOf_receives (h.engines g) ht
    obtain ⟨h1, h2, h3, h4, h5, h6⟩ := (h.engines g).1 t.entry
    refine serve_bounds (h.modEntry g t.entry ?_) g (by simpa using hx) rfl rfl
    refine ⟨?_, h2, h3, h4, h5, h6⟩
    unfold windowStore
    dsimp only
    split
    · exact write_wf (by simp only [Config.windowBytes]; omega) h1
    · exact h1

theorem windowReadByte_bounds {s : State} (h : Bounds s) (g : SegId) : Bounds (windowReadByte g s) := by
  unfold windowReadByte
  dsimp only
  repeat' split
  all_goals first
    | exact h
    | skip
  rename_i t ht _ _
  have hx := onOf_loads (h.engines g) ht
  obtain ⟨h1, h2, h3, h4, h5, h6⟩ := (h.engines g).1 t.entry
  refine serve_bounds (h.modEntry g t.entry ?_) g (by simpa using hx) rfl rfl
  exact ⟨h1, h2, h3, h4, h5, h6⟩

theorem mailWriteByte_bounds {s : State} (h : Bounds s) (g : SegId) : Bounds (mailWriteByte g s) := by
  unfold mailWriteByte
  dsimp only
  repeat' split
  all_goals first
    | exact h
    | exact serve_bounds h g (onOf_receives (h.engines g) (by assumption)) rfl rfl

theorem mailReadByte_bounds {s : State} (h : Bounds s) (g : SegId) : Bounds (mailReadByte g s) := by
  unfold mailReadByte
  dsimp only
  split
  · rename_i t ht
    have hx := onOf_loads (h.engines g) ht
    repeat' split
    all_goals first
      | exact h
      | exact serve_bounds h g hx rfl rfl
  · exact h

theorem mailWaitExpires_bounds {s : State} (h : Bounds s) (g : SegId) : Bounds (mailWaitExpires g s) := by
  unfold mailWaitExpires
  split
  · exact h
  · rename_i t ht
    refine serve_bounds h g (onOf_resp (h.engines g) (fun e => ?_)) rfl rfl
    simp [Segment.mailWaitDue?, e] at ht

theorem responderFalls_ok {x : Segment} (h : x.ok) (now : Nat) : (responderFalls now x).ok := by
  by_cases hr : x.resp = .off
  · simpa [responderFalls, hr] using h
  · have hx := onOf_resp h hr
    unfold responderFalls writerFalls readerFalls waiterFalls
    (repeat' split) <;> first | exact h | exact h.on rfl hx

/-! ## Bus-clear unit -/

theorem onOf_clear {x : Segment} (h : x.ok) (hc : x.clear ≠ .normal) : x.init ≠ .off := fun e =>
  hc (h.2 e).2.2.2.2.2.2.1

theorem pulseEnds_ok {x : Segment} (h : x.ok) (now : Nat) : (pulseEnds now x).ok := by
  unfold pulseEnds
  split
  · rename_i c hc
    have hx := onOf_clear h (by simp [hc])
    repeat' split
    all_goals first
      | exact h
      | exact h.on rfl hx
      | exact failRound_ok h _ _ hx
  · exact h

theorem clearFalls_ok {x : Segment} (h : x.ok) (now : Nat) : (clearFalls now x).ok := by
  have h1 := pulseEnds_ok h now
  unfold clearFalls stageFalls
  split
  · rename_i c hc
    have hx := onOf_clear h1 (by simp [hc])
    (repeat' split) <;> first | exact h1 | exact h1.on rfl hx
  · exact h1

theorem clearRises_ok {x : Segment} (h : x.ok) : (clearRises x).ok := by
  unfold clearRises
  split
  · rename_i c hc
    have hx := onOf_clear h (by simp [hc])
    (repeat' split) <;> first | exact h | exact h.on rfl hx
  · exact h

theorem clearStops_ok {x : Segment} (h : x.ok) (now : Nat) : (clearStops now x).ok := by
  unfold clearStops
  split
  · rename_i c hc
    have hx := onOf_clear h (by simp [hc])
    (repeat' split) <;> first | exact h | exact h.on rfl hx
  · exact h

theorem restartWatch_ok {x : Segment} (h : x.ok) (now : Nat) : (restartWatch now x).ok := by
  unfold restartWatch
  split
  · rename_i c hc
    have hx := onOf_clear h (by simp [hc])
    exact h.on rfl hx
  · exact h
  · exact h

theorem enterClearing_ok {x : Segment} (h : x.ok) (now : Nat) (hx : x.init ≠ .off) : (enterClearing now x).ok := by
  unfold enterClearing; split
  · exact startRound_ok h _ _ hx
  · exact h.on rfl hx

theorem stuckInitiator_on (g : SegId) (s : State) (h : (s.seg g).init ≠ .off) :
    ((stuckInitiator g s).seg g).init ≠ .off := by
  unfold stuckInitiator
  repeat' split
  all_goals first
    | exact h
    | exact toIdle_on _ _ (by simpa [leaveLines, releaseLines] using h)

theorem stuckInitiator_bounds {s : State} (h : Bounds s) (g : SegId) : Bounds (stuckInitiator g s) := by
  have h1 : Bounds (modSeg g leaveLines s) := h.modSeg g (leaveLines_ok (h.engines g))
  unfold stuckInitiator
  split
  · exact toIdle_bounds (finishJob_bounds h1 _ _ _) _
  · split
    · exact toIdle_bounds (claimEvent_bounds h1 _ _) _
    · exact toIdle_bounds h1 _
  · exact h

theorem stuckDetected_bounds {s : State} (h : Bounds s) (g : SegId) : Bounds (stuckDetected g s) := by
  unfold stuckDetected
  dsimp only
  split
  · rename_i hd
    have hx : (s.seg g).init ≠ .off := by
      intro e
      have : (s.seg g).measures = false := by simp [Segment.measures, Segment.isOff, e]
      unfold Segment.stuckDue at hd
      split at hd <;> simp [this] at hd
    have h1 := claimEvent_bounds (endTransaction_bounds (stuckInitiator_bounds h g) g false) g (stuckEvent (s.seg g))
    refine endDisable_bounds (h1.modSeg g (enterClearing_ok (h1.engines g) _ ?_)) g
    rw [init_claimEvent, init_endTransaction]
    exact stuckInitiator_on g s hx
  · exact h

theorem clearWaitExpires_bounds {s : State} (h : Bounds s) (g : SegId) : Bounds (clearWaitExpires g s) := by
  unfold clearWaitExpires; split
  · exact h
  · rename_i c hc
    refine h.modSeg g (startRound_ok (h.engines g) _ _ (onOf_clear (h.engines g) (fun e => ?_)))
    simp [Segment.clearWaitDue?, e] at hc

theorem clearingPulse_bounds {s : State} (h : Bounds s) (g : SegId) : Bounds (clearingPulse g s) := by
  unfold clearingPulse; split
  · exact h.modSeg g (pulseEnds_ok (h.engines g) _)
  · exact h

theorem recover_ok {x : Segment} (h : x.ok) (stop : Option Nat) (now : Nat) (hx : x.init ≠ .off) :
    (recover stop now x).ok := by
  unfold recover; split
  · exact h.on rfl hx
  · refine monitorFree_ok ?_ _ _ ?_
    · exact h.on rfl hx
    · exact hx

theorem roundEnds_bounds {s : State} (h : Bounds s) (g : SegId) : Bounds (roundEnds g s) := by
  unfold roundEnds
  dsimp only
  split
  · exact h
  · rename_i c hc
    have hx := onOf_clear (h.engines g) (fun e => by simp [Segment.roundDone?, e] at hc)
    split
    · exact claimEvent_bounds (h.modSeg g (recover_ok (h.engines g) _ _ hx)) _ _
    · exact h.modSeg g (failRound_ok (h.engines g) _ _ hx)

theorem clearStretchExpires_bounds {s : State} (h : Bounds s) (g : SegId) : Bounds (clearStretchExpires g s) := by
  unfold clearStretchExpires; split
  · exact h
  · rename_i c hc
    refine h.modSeg g (failRound_ok (h.engines g) _ _ (onOf_clear (h.engines g) (fun e => ?_)))
    simp [Segment.clearStretchDue?, e] at hc

theorem idleWatchExpires_bounds {s : State} (h : Bounds s) (g : SegId) : Bounds (idleWatchExpires g s) := by
  unfold idleWatchExpires endLeftTransaction
  split
  · rename_i hd
    have hx := onOf_clear (h.engines g) (fun e => by simp [Segment.idleWatchDue, e] at hd)
    split
    · have h1 := endTransaction_bounds h g false
      exact claimEvent_bounds (h1.modSeg g (recover_ok (h1.engines g) _ _ (by rw [init_endTransaction]; exact hx))) _ _
    · exact claimEvent_bounds (h.modSeg g (recover_ok (h.engines g) _ _ hx)) _ _
  · exact h

/-! ## Lines -/

theorem setLevel_ok {x : Segment} (h : x.ok) (e : Edge) : (setLevel e x).ok := by
  unfold setLevel; split <;> exact h.of_entries rfl h.2

theorem unitsEdge_ok {x : Segment} (h : x.ok) (now : Nat) (j : Option Job) (e : Edge) : (unitsEdge now j e x).ok := by
  cases e
  · apply clearRises_ok
    apply initiatorRises_ok
    exact h.of_entries rfl h.2
  · exact clearFalls_ok (responderFalls_ok (initiatorFalls_ok h now j) now) now
  · exact h
  · exact h

theorem edgeAt_ok {x : Segment} (h : x.ok) (now : Nat) (j : Option Job) (e : Edge) (hx : x.init ≠ .off) :
    (edgeAt now j e x).ok := by
  have h1 : (setLevel e x).ok := setLevel_ok h e
  have e1 : (setLevel e x).init ≠ .off := by unfold setLevel; split <;> exact hx
  have h2 : (monitorEdge now (setLevel e x)).ok := by
    unfold monitorEdge resetMonitor
    split
    · exact h1.on rfl e1
    · split
      · exact h1
      · exact h1.on rfl e1
    · exact h1
  have h3 := unitsEdge_ok h2 now j e
  exact restartQuiet_ok (restartWatch_ok h3 _) _

@[simp] theorem seeEdge_bounds {s : State} (h : Bounds s) (g : SegId) (e : Edge) (hx : (s.seg g).init ≠ .off) :
    Bounds (seeEdge g e s) := collide_bounds (h.modSeg g (edgeAt_ok (h.engines g) _ _ _ hx)) g

theorem lineEdge_bounds {s : State} (h : Bounds s) (g : SegId) (e : Edge) : Bounds (lineEdge g e s) := by
  unfold lineEdge
  dsimp only
  repeat' split
  · exact h.modSeg g (setLevel_ok (h.engines g) _)
  · exact h
  · rename_i ho _
    exact seeEdge_bounds h g e (isOff_eq_false.mp (by simpa using ho))
  · exact h

theorem sclFallsWhileFree_bounds {s : State} (h : Bounds s) (g : SegId) : Bounds (sclFallsWhileFree g s) := by
  unfold sclFallsWhileFree
  dsimp only
  split
  · rename_i hc
    simp only [Bool.and_eq_true, Bool.not_eq_true'] at hc
    exact seeEdge_bounds h g _ (isOff_eq_false.mp hc.1.2)
  · exact h

theorem startAt_ok {x : Segment} (h : x.ok) (now : Nat) (hx : x.init ≠ .off) : (startAt now x).ok := by
  unfold startAt monitorStart
  refine restartQuiet_ok (restartWatch_ok ?_ _) _
  exact h.on rfl hx

theorem driveStart_on {x : Segment} (hx : x.init ≠ .off) : (driveStart x).init ≠ .off := by
  unfold driveStart; split <;> first | exact hx | simp

theorem startSeen_bounds {s : State} (h : Bounds s) (g : SegId) (m : Maker) : Bounds (startSeen g m s) := by
  unfold startSeen startFromOutside startFromPart
  dsimp only
  split
  · split
    · cases m
      · exact h
      · exact h.modSeg g (setLevel_ok (h.engines g) _)
    · rename_i ho
      have hx := isOff_eq_false.mp (by simpa using ho)
      cases m
      · dsimp only
        split
        · have k := endTransaction_bounds h g false
          exact k.modSeg g
            (startAt_ok (driveStart_ok (k.engines g)) _ (driveStart_on (by rw [init_endTransaction]; exact hx)))
        · exact h
      · exact loseByCondition_bounds
          (collide_bounds (endTransaction_bounds (h.modSeg g (startAt_ok (h.engines g) _ hx)) _ _) _) _
  · exact h

theorem stopAt_ok {x : Segment} (h : x.ok) (now : Nat) (hx : x.init ≠ .off) : (stopAt now x).ok := by
  unfold stopAt
  refine restartQuiet_ok (restartWatch_ok (clearStops_ok (monitorFree_ok ?_ _ _ ?_) _) _) _
  · exact h.on rfl hx
  · exact hx

theorem stopSeen_bounds {s : State} (h : Bounds s) (g : SegId) : Bounds (stopSeen g s) := by
  unfold stopSeen
  dsimp only
  split
  · split
    · exact h.modSeg g (setLevel_ok (h.engines g) _)
    · rename_i ho
      have hx := isOff_eq_false.mp (by simpa using ho)
      exact loseByCondition_bounds (endTransaction_bounds (h.modSeg g (stopAt_ok (h.engines g) _ hx)) _ _) _
  · exact h

theorem windowExpires_bounds {s : State} (h : Bounds s) (g : SegId) : Bounds (windowExpires g s) := by
  unfold windowExpires
  split
  · rename_i hd
    refine h.modSeg g (monitorFree_ok (h.engines g) _ _ (fun e => ?_))
    unfold Segment.windowDue Segment.isOff at hd
    rw [e] at hd
    split at hd <;> simp at hd
  · exact h

end Sys2Proof.Machine
end

