-- ==== Sys2Proof/Laws/BoundsSettle.lean ====
section
/-! SUPPORT. The bounds of the invariant through what is taken before an event and through the idle step. -/

namespace Sys2Proof.Machine

@[simp] theorem answerInHand_bounds {s : State} (h : Bounds s) : Bounds (answerInHand s) := by
  unfold answerInHand answerByResponder answerByPool
  have h1 := refuseUnknown_bounds (settleDuplicate_bounds h)
  have h2 := withRequest_bounds h1 codeDevInfo (fun r d => answerDevInfo_bounds h1 r d)
  have h3 := withRequest_bounds h2 codeDevReset (fun r d => answerDevReset_bounds h2 r d)
  have h4 := withRequest_bounds h3 codeLinkConfig (fun r d => answerLinkConfig_bounds h3 r d)
  have h5 := withRequest_bounds h4 codeSegConfig (fun r d => answerSegConfig_bounds h4 r d)
  have h6 := withRequest_bounds h5 codeSegStatus (fun r d => answerSegStatus_bounds h5 r d)
  have h7 := withRequest_bounds h6 codeSegFlush (fun r d => answerSegFlush_bounds h6 r d)
  have h8 := withRequest_bounds h7 codeSegReset (fun r d => answerSegReset_bounds h7 r d)
  have h9 := withRequest_bounds h8 codeJobSubmit (fun r d => answerJobSubmit_bounds h8 r d)
  have h10 := withRequest_bounds h9 codeJobCancel (fun r d => answerJobCancel_bounds h9 r d)
  have h11 := withRequest_bounds h10 codeJobQuery (fun r d => answerJobQuery_bounds h10 r d)
  have h12 := withRequest_bounds h11 codeRespSet (fun r d => answerRespSet_bounds h11 r d)
  have h13 := withRequest_bounds h12 codeWinWrite (fun r d => answerWinWrite_bounds h12 r d)
  have h14 := withRequest_bounds h13 codeWinRead (fun r d => answerWinRead_bounds h13 r d)
  have h15 := withRequest_bounds h14 codeMailPost (fun r d => answerMailPost_bounds h14 r d)
  exact withRequest_bounds h15 codeMailWithdraw (fun r d => answerMailWithdraw_bounds h15 r d)

@[simp] theorem settleSegment_bounds {s : State} (h : Bounds s) (g : SegId) : Bounds (settleSegment g s) :=
  mailReadByte_bounds
    (windowReadByte_bounds
      (mailWriteByte_bounds
        (windowWriteByte_bounds
          (readByte_bounds
            (lengthByte_bounds
              (writeByteAck_bounds (addressAck_bounds (respAddressByte_bounds (arbitrationLoss_bounds h g) g) g) g) g) g) g) g) g) g

@[simp] theorem settle_bounds {s : State} (h : Bounds s) : Bounds (settle s) :=
  settleSegment_bounds (settleSegment_bounds (settleSegment_bounds (settleSegment_bounds (answerInHand_bounds h) 0) 1) 2) 3

theorem countBackoff_ok {x : Segment} (h : x.ok) (now : Nat) : (countBackoff now x).ok := by
  unfold countBackoff
  split
  · split
    · exact h.on rfl (by simp)
    · exact h
  · exact h

theorem countStep_bounds {s : State} (h : Bounds s) : Bounds (countStep s) :=
  ⟨fun g => by
    have : (countStep s).seg g = countBackoff (s.now + 1) (s.seg g) := by simp [countStep, State.seg]
    rw [this]
    exact countBackoff_ok (h.engines g) _, h.notices, h.link⟩

theorem idle_bounds {s : State} (h : Bounds s) : Bounds (idle s) := by
  unfold idle
  dsimp only
  split
  · exact watchLines_bounds (settle_bounds h)
  · exact countStep_bounds (watchLines_bounds (settle_bounds h))

/-- An event that keeps the bounds, as a step. -/
theorem asEvent_bounds {s t : State} {f : State → State} (hf : ∀ u, Bounds u → Bounds (f u)) (h : Bounds s)
    (e : asEvent f s = .next t) : Bounds t := by
  cases e
  exact watchLines_bounds (hf _ (settle_bounds h))

theorem asOwed_bounds {s t : State} {f : State → State} (hf : ∀ u, Bounds u → Bounds (f u)) (h : Bounds s)
    (e : asOwed f s = .next t) : Bounds t := by
  cases e
  exact watchLines_bounds (hf _ (answerInHand_bounds h))

theorem asRequest_bounds {s t : State} {f : State → State} (hf : ∀ u, Bounds u → Bounds (f u)) (h : Bounds s)
    (e : asRequest f s = .next t) : Bounds t := by
  cases e
  exact watchLines_bounds (hf _ h)

end Sys2Proof.Machine
end

