-- ==== Sys2Proof/Laws/Pool.lean ====
section
/-! SUPPORT. The job pool and the owed replies as plain data: what the end of a job, the choice of the next one, an
admission and a retirement do to the pool, and what an answer does to what is owed. -/

namespace Sys2Proof.Machine

/-! ## The pool -/

/-- What a job says of the pool and of the replies owed. -/
def Job.tag (j : Job) : Word × SegId × JobState × Option Deferral × Bool :=
  (j.id, j.seg, j.status, j.cancelReply, j.cancelPending)

theorem Job.tag_eq {j k : Job} : j.tag = k.tag ↔
    j.id = k.id ∧ j.seg = k.seg ∧ j.status = k.status ∧ j.cancelReply = k.cancelReply ∧
      j.cancelPending = k.cancelPending := by
  simp [Job.tag, Prod.ext_iff]

theorem tag_of_map {a b : Option Job} (h : b.map Job.tag = a.map Job.tag) {k : Job} (hk : b = some k) :
    ∃ j, a = some j ∧ j.tag = k.tag := by
  subst hk
  cases a with
  | none => simp at h
  | some j => exact ⟨j, rfl, by simpa using h.symm⟩

/-- What a job says of the pool. -/
def Job.place (j : Job) : Word × SegId × JobState := (j.id, j.seg, j.status)

theorem place_of_tag {a b : Option Job} (h : b.map Job.tag = a.map Job.tag) : b.map Job.place = a.map Job.place := by
  have : ∀ o : Option Job, o.map Job.place = (o.map Job.tag).map (fun t => (t.1, t.2.1, t.2.2.1)) := by
    intro o; cases o <;> rfl
  rw [this, this, h]

theorem place_of_map {a b : Option Job} (h : b.map Job.place = a.map Job.place) {k : Job} (hk : b = some k) :
    ∃ j, a = some j ∧ j.id = k.id ∧ j.seg = k.seg ∧ j.status = k.status := by
  subst hk
  cases a with
  | none => simp at h
  | some j =>
    simp only [Option.map_some, Option.some.injEq, Job.place, Prod.mk.injEq] at h
    exact ⟨j, rfl, h.1.symm, h.2.1.symm, h.2.2.symm⟩

/-- The slot a notice refers to. -/
def Source.slot? : Source → Option Slot
  | .job i => some i
  | .record => none

variable {jobs jobs' : Slot → Option Job} {src src' : List Source} {q q' : SegId → List Slot}
  {c c' : SegId → Option Slot}

/-- The pool speaks of places, of the JOB_DONE sources, the queues and the current jobs alone. -/
theorem Pool.same (h : Pool jobs src q c) (hj : ∀ i, (jobs' i).map Job.place = (jobs i).map Job.place)
    (hs : ∀ i, src'.count (.job i) = src.count (.job i)) (hq : ∀ g, q' g = q g) (hc : ∀ g, c' g = c g) :
    Pool jobs' src' q' c' := by
  have back : ∀ i j, jobs' i = some j → ∃ k, jobs i = some k ∧ k.id = j.id ∧ k.seg = j.seg ∧ k.status = j.status := by
    exact fun i j e => place_of_map (hj i) e
  have forth : ∀ i j, jobs i = some j → ∃ k, jobs' i = some k ∧ k.id = j.id ∧ k.seg = j.seg ∧ k.status = j.status := by
    exact fun i j e => place_of_map (hj i).symm e
  refine ⟨fun i k j b h1 h2 h3 => ?_, fun g i => ?_, fun g => by rw [hq]; exact h.once g, fun g i => ?_, fun i => ?_,
    fun i => by rw [hs]; exact h.single i⟩
  · obtain ⟨x, hx, e1, _⟩ := back i j h1
    obtain ⟨y, hy, e2, _⟩ := back k b h2
    exact h.ids i k x y hx hy (by rw [e1, e2, h3])
  · rw [hq, h.queued]
    constructor
    · rintro ⟨j, e, h1, h2⟩
      obtain ⟨k, hk, _, e2, e3⟩ := forth i j e
      exact ⟨k, hk, by rw [e2, h1], by rw [e3, h2]⟩
    · rintro ⟨j, e, h1, h2⟩
      obtain ⟨k, hk, _, e2, e3⟩ := back i j e
      exact ⟨k, hk, by rw [e2, h1], by rw [e3, h2]⟩
  · rw [hc, h.current]
    constructor
    · rintro ⟨j, e, h1, h2⟩
      obtain ⟨k, hk, _, e2, e3⟩ := forth i j e
      exact ⟨k, hk, by rw [e2, h1], by rw [e3, h2]⟩
    · rintro ⟨j, e, h1, h2⟩
      obtain ⟨k, hk, _, e2, e3⟩ := back i j e
      exact ⟨k, hk, by rw [e2, h1], by rw [e3, h2]⟩
  · rw [← List.count_pos_iff, hs, List.count_pos_iff, h.finished]
    constructor
    · rintro ⟨j, x, e, h1⟩
      obtain ⟨k, hk, _, _, e3⟩ := forth i j e
      exact ⟨k, x, hk, by rw [e3, h1]⟩
    · rintro ⟨j, x, e, h1⟩
      obtain ⟨k, hk, _, _, e3⟩ := back i j e
      exact ⟨k, x, hk, by rw [e3, h1]⟩

/-- A slot's job is replaced. -/
def Sets (i : Slot) (k : Option Job) (jobs jobs' : Slot → Option Job) : Prop := ∀ m, jobs' m = if m = i then k else jobs m

theorem Sets.at {i : Slot} {k : Option Job} (h : Sets i k jobs jobs') : jobs' i = k := by rw [h, if_pos rfl]

theorem Sets.ne {i m : Slot} {k : Option Job} (h : Sets i k jobs jobs') (e : m ≠ i) : jobs' m = jobs m := by
  rw [h, if_neg e]

/-- The ids stay distinct where a slot keeps its id, or takes one that no job has. -/
theorem Pool.setIds (h : Pool jobs src q c) {i : Slot} {k : Job} (hs : Sets i (some k) jobs jobs')
    (hk : ∀ m b, jobs m = some b → b.id = k.id → m = i) (m n : Slot) (j b : Job) (h1 : jobs' m = some j)
    (h2 : jobs' n = some b) (h3 : j.id = b.id) : m = n := by
  by_cases em : m = i
  · by_cases en : n = i
    · rw [em, en]
    · rw [em, hs.at] at h1
      rw [hs.ne en] at h2
      cases h1
      rw [em]
      exact (hk n b h2 h3.symm).symm
  · rw [hs.ne em] at h1
    by_cases en : n = i
    · rw [en, hs.at] at h2
      cases h2
      rw [en]
      exact hk m j h1 h3
    · rw [hs.ne en] at h2
      exact h.ids m n j b h1 h2 h3

/-- A live job becomes FINISHED: it leaves its place, and its slot joins the notices (R43). -/
theorem Pool.finish (h : Pool jobs src q c) {i : Slot} {j k : Job} {x : Completion} (hj : jobs i = some j)
    (hl : ∀ x, j.status ≠ .finished x) (hs : Sets i (some k) jobs jobs') (hid : k.id = j.id)
    (hk : k.status = .finished x) (hq : ∀ g m, m ∈ q' g ↔ m ∈ q g ∧ m ≠ i) (hn : ∀ g, (q' g).Nodup)
    (hc : ∀ g m, c' g = some m ↔ c g = some m ∧ m ≠ i) : Pool jobs' (src ++ [.job i]) q' c' := by
  have hi : Source.job i ∉ src := by
    intro hm
    obtain ⟨j', y, e, hy⟩ := (h.finished i).mp hm
    rw [hj] at e
    cases e
    exact hl y hy
  refine ⟨h.setIds hs (fun m b hb e => h.ids m i b j hb hj (e.trans hid)), fun g m => ?_, hn, fun g m => ?_, fun m => ?_,
    fun m => ?_⟩
  · rw [hq, h.queued]
    by_cases e : m = i
    · subst e
      simp [hs.at, hk]
    · simp [hs.ne e, e]
  · rw [hc, h.current]
    by_cases e : m = i
    · subst e
      simp [hs.at, hk]
    · simp [hs.ne e, e]
  · simp only [List.mem_append, List.mem_singleton, Source.job.injEq]
    by_cases e : m = i
    · subst e
      simp only [or_true, hs.at, true_iff]
      exact ⟨k, x, rfl, hk⟩
    · simp only [e, or_false, h.finished, hs.ne e]
  · by_cases e : m = i
    · subst e
      rw [List.count_append, List.count_eq_zero.mpr hi]
      simp
    · rw [List.count_append, List.count_eq_zero (l := [Source.job i]) |>.mpr (by simp [e])]
      exact h.single m

/-- A QUEUED job becomes the CURRENT one of its segment (R47, R68). -/
theorem Pool.take (h : Pool jobs src q c) {i : Slot} {j k : Job} (hj : jobs i = some j) (hl : j.status = .queued)
    (hs : Sets i (some k) jobs jobs') (hid : k.id = j.id) (hg : k.seg = j.seg) (hk : k.status = .current)
    (hq : ∀ g m, m ∈ q' g ↔ m ∈ q g ∧ m ≠ i) (hn : ∀ g, (q' g).Nodup)
    (hc : ∀ g m, c' g = some m ↔ (c g = some m ∧ m ≠ i) ∨ (g = j.seg ∧ m = i)) : Pool jobs' src q' c' := by
  refine ⟨h.setIds hs (fun m b hb e => h.ids m i b j hb hj (e.trans hid)), fun g m => ?_, hn, fun g m => ?_, fun m => ?_,
    h.single⟩
  · rw [hq, h.queued]
    by_cases e : m = i
    · subst e
      simp [hs.at, hk]
    · simp [hs.ne e, e]
  · rw [hc, h.current]
    by_cases e : m = i
    · subst e
      simp only [hs.at, ne_eq, not_true, and_false, false_or, and_true]
      constructor
      · rintro rfl
        exact ⟨k, rfl, hg, hk⟩
      · rintro ⟨k', e, e', _⟩
        cases e
        exact e'.symm.trans hg
    · simp [hs.ne e, e]
  · rw [h.finished]
    by_cases e : m = i
    · subst e
      simp [hs.at, hk, hj, hl]
    · simp [hs.ne e]

/-- A job is admitted into a free slot, under an id that no job has (R34). -/
theorem Pool.place (h : Pool jobs src q c) {i : Slot} {k : Job} (hj : jobs i = none)
    (hs : Sets i (some k) jobs jobs') (hid : ∀ m b, jobs m = some b → b.id ≠ k.id) (hk : k.status = .queued)
    (hq : ∀ g m, m ∈ q' g ↔ m ∈ q g ∨ (g = k.seg ∧ m = i)) (hn : ∀ g, (q' g).Nodup) (hc : ∀ g, c' g = c g) :
    Pool jobs' src q' c' := by
  refine ⟨h.setIds hs (fun m b hb e => absurd e (hid m b hb)), fun g m => ?_, hn, fun g m => ?_, fun m => ?_, h.single⟩
  · rw [hq, h.queued]
    by_cases e : m = i
    · subst e
      simp only [hj, hs.at, and_true, Option.some.injEq]
      constructor
      · rintro (⟨j, e, _⟩ | rfl)
        · simp at e
        · exact ⟨k, rfl, rfl, hk⟩
      · rintro ⟨k', rfl, e, _⟩
        exact .inr e.symm
    · simp [hs.ne e, e]
  · rw [hc, h.current]
    by_cases e : m = i
    · subst e
      simp [hs.at, hk, hj]
    · simp [hs.ne e]
  · rw [h.finished]
    by_cases e : m = i
    · subst e
      simp [hs.at, hk, hj]
    · simp [hs.ne e]

/-- A JOB_DONE is retired: its slot is freed (R44). -/
theorem Pool.free {i : Slot} (h : Pool jobs (.job i :: src) q c) (hs : Sets i none jobs jobs') : Pool jobs' src q c := by
  obtain ⟨j, x, hj, hx⟩ := (h.finished i).mp (by simp)
  have hi : Source.job i ∉ src := by
    have := h.single i
    rw [List.count_cons_self] at this
    exact List.count_eq_zero.mp (by omega)
  refine ⟨fun m n a b h1 h2 h3 => ?_, fun g m => ?_, h.once, fun g m => ?_, fun m => ?_, fun m => ?_⟩
  · have em : m ≠ i := fun e => by rw [e, hs.at] at h1; simp at h1
    have en : n ≠ i := fun e => by rw [e, hs.at] at h2; simp at h2
    rw [hs.ne em] at h1
    rw [hs.ne en] at h2
    exact h.ids m n a b h1 h2 h3
  · rw [h.queued]
    by_cases e : m = i
    · subst e
      simp [hs.at, hj, hx]
    · simp [hs.ne e]
  · rw [h.current]
    by_cases e : m = i
    · subst e
      simp [hs.at, hj, hx]
    · simp [hs.ne e]
  · by_cases e : m = i
    · subst e
      simp [hs.at, hi]
    · have := h.finished m
      simp only [List.mem_cons, Source.job.injEq, e, false_or] at this
      rw [this, hs.ne e]
  · exact Nat.le_trans (List.count_le_count_cons) (h.single m)

/-- The notices number at most one for each job slot beside those that hold a record (R146). -/
theorem Pool.length_le (h : Pool jobs src q c) : src.length ≤ src.count .record + Config.jobSlots := by
  have split : src.length = src.count .record + (src.filterMap Source.slot?).length := by
    clear h
    induction src with
    | nil => rfl
    | cons a l ih =>
      cases a with
      | job i =>
        rw [List.filterMap_cons_some (f := Source.slot?) (b := i) rfl, List.length_cons, List.length_cons, ih,
          List.count_cons]
        simp
        omega
      | record =>
        rw [List.filterMap_cons_none (f := Source.slot?) rfl, List.length_cons, ih, List.count_cons]
        simp
        omega
  have nodup : (src.filterMap Source.slot?).Nodup := by
    rw [List.nodup_iff_count]
    intro i
    refine Nat.le_trans (Nat.le_of_eq ?_) (h.single i)
    clear h split
    induction src with
    | nil => rfl
    | cons a l ih =>
      cases a with
      | job k =>
        rw [List.filterMap_cons_some (f := Source.slot?) (b := k) rfl, List.count_cons, List.count_cons, ih]
        simp
      | record =>
        rw [List.filterMap_cons_none (f := Source.slot?) rfl, List.count_cons, ih]
        simp
  have := nodup.length_le_of_subset (l₂ := slots) (fun i _ => by simp [slots, List.mem_finRange])
  have e : slots.length = Config.jobSlots := by simp [slots, Config.jobSlots]
  omega

/-! ## What is owed -/

theorem mem_holders (x : Holder) : x ∈ holders := by
  cases x with
  | hand => simp [holders]
  | cancel i => simp [holders, slots, List.mem_finRange]
  | write g e => simp [holders, List.mem_flatMap, List.mem_finRange]

theorem nodup_holders : holders.Nodup := by decide

/-- The number of owed replies falls by 1 where one holder is discharged. -/
theorem owes_discharge {α : Type} {f f' : Holder → Option α} {x : Holder} (hx : (f x).isSome) (hx' : f' x = none)
    (ho : ∀ y, y ≠ x → f' y = f y) : (holders.filterMap f).length = (holders.filterMap f').length + 1 := by
  have gen : ∀ l : List Holder, l.Nodup →
      (x ∈ l → (l.filterMap f).length = (l.filterMap f').length + 1) ∧
        (x ∉ l → (l.filterMap f).length = (l.filterMap f').length) := by
    intro l
    induction l with
    | nil => simp
    | cons a l ih =>
      intro hn
      rw [List.nodup_cons] at hn
      obtain ⟨i1, i2⟩ := ih hn.2
      by_cases e : a = x
      · subst e
        refine ⟨fun _ => ?_, fun h => absurd (List.mem_cons_self) h⟩
        obtain ⟨v, hv⟩ := Option.isSome_iff_exists.mp hx
        rw [List.filterMap_cons_some hv, List.filterMap_cons_none hx', List.length_cons, i2 hn.1]
      · have step : ∀ n, (l.filterMap f).length = (l.filterMap f').length + n →
            ((a :: l).filterMap f).length = ((a :: l).filterMap f').length + n := by
          intro n hl
          have ha := ho a e
          cases hv : f a with
          | none => rw [List.filterMap_cons_none hv, List.filterMap_cons_none (ha.trans hv)]; exact hl
          | some v =>
            rw [List.filterMap_cons_some hv, List.filterMap_cons_some (ha.trans hv), List.length_cons, List.length_cons]
            omega
        exact ⟨fun h => step 1 (i1 (by simpa [Ne.symm e] using h)),
          fun h => step 0 (by rw [i2 (by simpa [Ne.symm e] using h)]; rfl)⟩
  exact (gen holders nodup_holders).1 (mem_holders x)

/-- The number of owed replies stays where one holder hands its debt to another. -/
theorem owes_transfer {α : Type} {f f' : Holder → Option α} {x y : Holder} (hy : f y = none)
    (hx' : f' x = none) (hy' : f' y = f x) (ho : ∀ z, z ≠ x → z ≠ y → f' z = f z) :
    (holders.filterMap f').length = (holders.filterMap f).length := by
  cases hx : f x with
  | none =>
    have : ∀ z, f' z = f z := by
      intro z
      by_cases e1 : z = x
      · rw [e1, hx', hx]
      · by_cases e2 : z = y
        · rw [e2, hy', hx, hy]
        · exact ho z e1 e2
    rw [funext this]
  | some v =>
    have h1 := owes_discharge (f := f) (f' := fun z => if z = x then none else f z) (x := x) (by simp [hx]) (by simp)
      (fun z hz => by simp [hz])
    have h2 := owes_discharge (f := f') (f' := fun z => if z = x then none else f z) (x := y) (by simp [hy', hx])
      (by simp [hy]) (fun z hz => by
        by_cases e : z = x
        · simp [e, hx']
        · simp [e, ho z e hz])
    omega

end Sys2Proof.Machine
end

