-- ==== Sys2Proof/Laws/Steps.lean ====
section
/-! SUPPORT. What a step adds around the operation of its command, in the states the statements speak of. -/

namespace Sys2Proof.Machine

/-- An event with nothing owed is its operation, then the look at the lines. -/
theorem asEvent_of_quiescent {s : State} (h : Quiescent s) (f : State → State) :
    asEvent f s = .next (watchLines (f s)) := by rw [asEvent, h.1]

/-- An event that touches neither time nor engines is its operation alone. -/
theorem asEvent_of_segs {s : State} (h : Quiescent s) {f : State → State} (hs : (f s).segs = s.segs)
    (hn : (f s).now = s.now) : asEvent f s = .next (f s) := by
  rw [asEvent_of_quiescent h, watchLines_of_segs h.2 hs hn]

/-- A request that touches neither time nor engines is its operation alone. -/
theorem asRequest_of_segs {s : State} (h : watchLines s = s) {f : State → State} (hs : (f s).segs = s.segs)
    (hn : (f s).now = s.now) : asRequest f s = .next (f s) := by
  rw [asRequest, watchLines_of_segs h hs hn]

/-- With the lines looked at, replacing one engine leaves that one to look at. -/
theorem watchLines_setSeg {s : State} (h : watchLines s = s) (g : SegId) (x : Segment) :
    watchLines (s.setSeg g x) = withEngine g x s := by
  rw [watchLines_eq_iff] at h
  refine State.ext_segs rfl (fun k => ?_) rfl rfl rfl rfl rfl
  rw [seg_watchLines, withEngine, setSeg_now, seg_setSeg_eq, seg_setSeg_eq]
  split
  · rfl
  · exact h k

/-- A second look at an interval changes nothing. -/
theorem watchSegment_idem (now : Nat) (x : Segment) : watchSegment now (watchSegment now x) = watchSegment now x := by
  have h1 : ∀ q, (({ x with quiet := q } : Segment).measures && ({ x with quiet := q } : Segment).quietLow) =
      (x.measures && x.quietLow) := fun _ => rfl
  unfold watchSegment
  simp only [h1]
  cases x.measures && x.quietLow <;> cases x.quiet <;> cases x.resetting <;> rfl

/-- A second look at the lines changes nothing. -/
theorem watchLines_idem (s : State) : watchLines (watchLines s) = watchLines s := by
  rw [watchLines_eq_iff]
  intro g
  rw [seg_watchLines]
  exact watchSegment_idem s.now (s.seg g)

/-- The look at the lines passes what changes neither time nor engines. -/
theorem watchLines_congr {s t : State} (hn : t.now = s.now) (hs : t.segs = s.segs) :
    watchLines t = { t with segs := (watchLines s).segs } := by
  refine State.ext_segs rfl (fun k => ?_) rfl rfl rfl rfl rfl
  have e1 : t.seg k = s.seg k := by simp [State.seg, hs]
  exact (seg_watchLines t k).trans (by rw [e1, hn]; exact (seg_watchLines s k).symm)

theorem withRequest_none {s : State} (h : s.link.inHand = none) (code : Byte)
    (f : Request → Deferral → State → State) : withRequest code f s = s := by
  simp [withRequest, h]

/-- With no request in hand nothing is answered. -/
theorem answerInHand_none {s : State} (h : s.link.inHand = none) : answerInHand s = s := by
  have h1 : settleDuplicate s = s := by simp [settleDuplicate, h]
  have h2 : refuseUnknown s = s := by simp [refuseUnknown, h]
  simp [answerInHand, answerByPool, answerByResponder, h1, h2, withRequest_none h]

/-- A step that an edge has brought about, with no request in hand. -/
theorem asOwed_of_none {s : State} (h : NoneInHand s) (f : State → State) :
    asOwed f s = .next (watchLines (f s)) := by rw [asOwed, answerInHand_none h.1]

/-- The block whose code the request in hand has answers it. -/
theorem withRequest_inHand {s : State} {code : Byte} {r : Request} {age : Nat} (h : InHandIs s code r age)
    (f : Request → Deferral → State → State) : withRequest code f s = f r { tag := r.tag, age := age } s := by
  obtain ⟨h1, h2, h3, _⟩ := h
  simp [withRequest, h1, h2, h3]

/-! ## What leaves the lines looked at -/

/-- Replacing a summary leaves the lines looked at. -/
theorem watchLines_summary {s : State} (h : watchLines s = s) (g : SegId) (u : Summary) :
    watchLines (modSeg g (fun x => { x with summary := u }) s) = modSeg g (fun x => { x with summary := u }) s := by
  rw [watchLines_eq_iff] at *
  intro k
  rw [seg_modSeg_eq]
  split
  · rename_i e
    subst e
    have := h k
    exact congrArg (fun y : Segment => { y with summary := u }) this
  · exact h k

theorem watchLines_joinNotice {s : State} (h : watchLines s = s) (kind : NoticeKind) (source : Source)
    (payload : List Byte) : watchLines (joinNotice kind source payload s) = joinNotice kind source payload s :=
  watchLines_of_segs h rfl rfl

theorem watchLines_claimEvent {s : State} (h : watchLines s = s) (g : SegId) (ev : SegEvent) :
    watchLines (claimEvent g ev s) = claimEvent g ev s := by
  unfold claimEvent
  split
  · exact watchLines_joinNotice h _ _ _
  · exact watchLines_summary h g (foldEvent ev (s.seg g).summary)

theorem watchLines_releaseRecord {s : State} (h : watchLines s = s) :
    watchLines (releaseRecord s) = releaseRecord s := by
  unfold releaseRecord
  split
  · exact h
  · exact watchLines_of_segs (watchLines_summary (watchLines_joinNotice h _ _ _) _ _) rfl rfl

theorem watchLines_retireHead {s : State} (h : watchLines s = s) : watchLines (retireHead s) = retireHead s := by
  unfold retireHead
  split
  · exact h
  · dsimp only
    split
    · exact watchLines_of_segs h rfl rfl
    · exact watchLines_releaseRecord (watchLines_of_segs h rfl rfl)

theorem watchLines_retire {s : State} (h : watchLines s = s) (n : Nat) : watchLines (retire n s) = retire n s := by
  induction n generalizing s with
  | zero => exact h
  | succ n ih => exact ih (watchLines_retireHead h)

theorem watchLines_acknowledge {s : State} (h : watchLines s = s) (a : Word) :
    watchLines (acknowledge a s) = acknowledge a s := by
  unfold acknowledge
  split
  · exact h
  · exact watchLines_of_segs (watchLines_retire h _) rfl rfl

theorem finishJob_segs (i : Slot) (o : JobOutcome) (running : Bool) (s : State) :
    (finishJob i o running s).segs = s.segs := by
  unfold finishJob
  split
  · rfl
  · dsimp only
    split <;> rfl

theorem watchLines_finishJob {s : State} (h : watchLines s = s) (i : Slot) (o : JobOutcome) (running : Bool) :
    watchLines (finishJob i o running s) = finishJob i o running s :=
  watchLines_of_segs h (finishJob_segs i o running s) (finishJob_now i o running s)

/-- An answer leaves the lines looked at. -/
theorem watchLines_answer {s : State} (h : watchLines s = s) (r : Request) (d : Deferral) (rc : ReplyCode)
    (data : List Byte) : watchLines (answer r d rc data s) = answer r d rc data s := watchLines_of_segs h rfl rfl

/-- The look at the lines passes an answer. -/
theorem watchLines_answer_comm (s : State) (r : Request) (d : Deferral) (rc : ReplyCode) (data : List Byte) :
    watchLines (answer r d rc data s) = answer r d rc data (watchLines s) := watchLines_congr rfl rfl

end Sys2Proof.Machine
end

