-- ==== Sys2Proof/Laws/Lines.lean ====
section
/-! SUPPORT. What the units of a segment engine may change at an edge, said once for each of them. -/

namespace Sys2Proof.Machine

/-- The units of an engine take an edge: nothing but the initiator, the responder, the bus-clear unit, the drive of the
lines, the framing and the quiet-low interval differs. -/
structure UnitsOnly (x y : Segment) : Prop where
  cfg : y.cfg = x.cfg
  scl : y.scl = x.scl
  sda : y.sda = x.sda
  mon : y.mon = x.mon
  queue : y.queue = x.queue
  entries : y.entries = x.entries
  summary : y.summary = x.summary
  resetting : y.resetting = x.resetting
  disabling : y.disabling = x.disabling
  kind : y.framer.kind = x.framer.kind
  pos : y.framer.pos = x.framer.pos
  shift : y.framer.shift = x.framer.shift
  ackHigh : y.framer.ackHigh = x.framer.ackHigh

theorem UnitsOnly.refl (x : Segment) : UnitsOnly x x :=
  ⟨rfl, rfl, rfl, rfl, rfl, rfl, rfl, rfl, rfl, rfl, rfl, rfl, rfl⟩

theorem UnitsOnly.trans {x y z : Segment} (h : UnitsOnly x y) (k : UnitsOnly y z) : UnitsOnly x z :=
  ⟨k.cfg.trans h.cfg, k.scl.trans h.scl, k.sda.trans h.sda, k.mon.trans h.mon, k.queue.trans h.queue,
    k.entries.trans h.entries, k.summary.trans h.summary, k.resetting.trans h.resetting,
    k.disabling.trans h.disabling, k.kind.trans h.kind, k.pos.trans h.pos, k.shift.trans h.shift,
    k.ackHigh.trans h.ackHigh⟩

theorem runFalls_units (now : Nat) (j : Job) (r : Run) (x : Segment) : UnitsOnly x (runFalls now j r x) := by
  unfold runFalls
  (repeat' split) <;> exact ⟨rfl, rfl, rfl, rfl, rfl, rfl, rfl, rfl, rfl, rfl, rfl, rfl, rfl⟩

theorem initiatorFalls_units (now : Nat) (j : Option Job) (x : Segment) :
    UnitsOnly x (initiatorFalls now j x) := by
  unfold initiatorFalls
  (repeat' split) <;>
    first
    | exact runFalls_units _ _ _ _
    | exact ⟨rfl, rfl, rfl, rfl, rfl, rfl, rfl, rfl, rfl, rfl, rfl, rfl, rfl⟩

theorem responderFalls_units (now : Nat) (x : Segment) : UnitsOnly x (responderFalls now x) := by
  unfold responderFalls writerFalls readerFalls waiterFalls
  (repeat' split) <;> exact ⟨rfl, rfl, rfl, rfl, rfl, rfl, rfl, rfl, rfl, rfl, rfl, rfl, rfl⟩

theorem pulseEnds_units (now : Nat) (x : Segment) : UnitsOnly x (pulseEnds now x) := by
  unfold pulseEnds failRound
  dsimp only
  (repeat' split) <;> exact ⟨rfl, rfl, rfl, rfl, rfl, rfl, rfl, rfl, rfl, rfl, rfl, rfl, rfl⟩

theorem clearFalls_units (now : Nat) (x : Segment) : UnitsOnly x (clearFalls now x) := by
  refine (pulseEnds_units now x).trans ?_
  unfold clearFalls stageFalls
  (repeat' split) <;> exact ⟨rfl, rfl, rfl, rfl, rfl, rfl, rfl, rfl, rfl, rfl, rfl, rfl, rfl⟩

theorem unitsFall_units (now : Nat) (j : Option Job) (x : Segment) : UnitsOnly x (unitsFall now j x) :=
  (initiatorFalls_units now j x).trans ((responderFalls_units now _).trans (clearFalls_units now _))

theorem initiatorRises_units (x : Segment) : UnitsOnly x (initiatorRises x) := by
  unfold initiatorRises
  (repeat' split) <;> exact ⟨rfl, rfl, rfl, rfl, rfl, rfl, rfl, rfl, rfl, rfl, rfl, rfl, rfl⟩

theorem clearRises_units (x : Segment) : UnitsOnly x (clearRises x) := by
  unfold clearRises
  (repeat' split) <;> exact ⟨rfl, rfl, rfl, rfl, rfl, rfl, rfl, rfl, rfl, rfl, rfl, rfl, rfl⟩

theorem restartWatch_units (now : Nat) (x : Segment) : UnitsOnly x (restartWatch now x) := by
  unfold restartWatch
  split <;> exact ⟨rfl, rfl, rfl, rfl, rfl, rfl, rfl, rfl, rfl, rfl, rfl, rfl, rfl⟩

theorem restartQuiet_units (now : Nat) (x : Segment) : UnitsOnly x (restartQuiet now x) :=
  ⟨rfl, rfl, rfl, rfl, rfl, rfl, rfl, rfl, rfl, rfl, rfl, rfl, rfl⟩

/-- No unit but the initiator touches the initiator at an edge. -/
theorem responderFalls_init (now : Nat) (x : Segment) : (responderFalls now x).init = x.init := by
  unfold responderFalls writerFalls readerFalls waiterFalls
  (repeat' split) <;> rfl

theorem clearFalls_init (now : Nat) (x : Segment) : (clearFalls now x).init = x.init := by
  have h : (pulseEnds now x).init = x.init := by
    unfold pulseEnds failRound
    dsimp only
    (repeat' split) <;> rfl
  rw [← h]
  unfold clearFalls stageFalls
  (repeat' split) <;> rfl

theorem clearRises_init (x : Segment) : (clearRises x).init = x.init := by
  unfold clearRises
  (repeat' split) <;> rfl

theorem restartWatch_init (now : Nat) (x : Segment) : (restartWatch now x).init = x.init := by
  unfold restartWatch
  split <;> rfl

end Sys2Proof.Machine
end

