-- ==== Sys2Proof/Laws/Operations.lean ====
section
/-! SUPPORT. What the shared operations leave as it was, and the value of those that can be said in one line. -/

namespace Sys2Proof.Machine

/-! ## Notices and the link unit -/

theorem releaseRecord_link (s : State) : (releaseRecord s).link = s.link := by
  unfold releaseRecord
  split <;> rfl

theorem retireHead_link (s : State) : (retireHead s).link = s.link := by
  unfold retireHead
  split
  · rfl
  · dsimp only
    split
    · rfl
    · exact releaseRecord_link _

theorem retire_link (n : Nat) (s : State) : (retire n s).link = s.link := by
  induction n generalizing s with
  | zero => rfl
  | succ n ih => exact (ih _).trans (retireHead_link s)

/-- An acknowledgement leaves the link unit alone. -/
theorem acknowledge_link (a : Word) (s : State) : (acknowledge a s).link = s.link := by
  unfold acknowledge
  split
  · rfl
  · exact retire_link _ s

theorem watchLines_endSilent {s : State} (h : watchLines s = s) : watchLines (endSilent s) = endSilent s := by
  unfold endSilent
  split
  · exact watchLines_of_segs h rfl rfl
  · exact h

/-- A checked frame leaves the lines looked at. -/
theorem watchLines_checkFrame {s : State} (h : watchLines s = s) (len : Byte) (body : List Byte) (c : Word) :
    watchLines (checkFrame len body c s) = checkFrame len body c s := by
  unfold checkFrame
  split
  · have h' := watchLines_endSilent h
    unfold acceptFrame
    split
    · exact watchLines_acknowledge h' _
    · split
      · unfold placeRequest
        split
        · exact watchLines_of_segs h' rfl rfl
        · exact h'
      · exact h'
  · exact h

/-- A checked frame leaves the receiver and its gap timer alone. -/
theorem checkFrame_receiver (len : Byte) (body : List Byte) (c : Word) (s : State) :
    (checkFrame len body c s).link.rx = s.link.rx ∧ (checkFrame len body c s).link.gapSince = s.link.gapSince := by
  have h : (endSilent s).link = s.link := by
    unfold endSilent
    split <;> rfl
  unfold checkFrame
  split
  · unfold acceptFrame
    split
    · rw [acknowledge_link, h]
      exact ⟨rfl, rfl⟩
    · split
      · unfold placeRequest
        split <;> rw [← h] <;> exact ⟨rfl, rfl⟩
      · rw [h]
        exact ⟨rfl, rfl⟩
  · exact ⟨rfl, rfl⟩

/-! ## Jobs -/

/-- The end of a job leaves every engine alone. -/
@[simp] theorem finishJob_seg (i : Slot) (o : JobOutcome) (running : Bool) (s : State) (g : SegId) :
    (finishJob i o running s).seg g = s.seg g := by simp [State.seg, finishJob_segs]

@[simp] theorem finishAll_seg (o : JobOutcome) (l : List Slot) (s : State) (g : SegId) :
    (finishAll o l s).seg g = s.seg g := by
  induction l generalizing s with
  | nil => rfl
  | cons i l ih => simp [finishAll, ih]

/-- A flush of the queue changes nothing at its engine but the queue. -/
theorem flushQueue_seg (g : SegId) (s : State) : (flushQueue g s).seg g = { s.seg g with queue := [] } := by
  simp [flushQueue]

/-- The examination of a queue leaves the disable alone. -/
theorem examineQueue_disabling (g : SegId) (l : List Slot) (s : State) :
    ((examineQueue g l s).seg g).disabling = (s.seg g).disabling := by
  induction l generalizing s with
  | nil => simp [examineQueue]
  | cons i l ih =>
    simp only [examineQueue]
    split
    · exact ih _
    · split
      · rw [ih]
        simp
      · simp

/-! ## Transactions -/

/-- With no transaction in flight its end only returns IGNORE to LISTEN. -/
theorem endTransaction_none {g : SegId} {x : Segment} (h : x.resp = .listen ∨ x.resp = .ignore) (byReset : Bool)
    (s : State) : endTransaction g byReset (s.setSeg g x) = s.setSeg g { x with resp := .listen } := by
  unfold endTransaction
  rcases h with h | h
  · simp [h, Responder.transaction?]
    rw [← h]
  · simp [h, Responder.transaction?, modSeg]

/-! ## Conditions -/

/-- What a start does at the lines of an enabled segment. -/
theorem startAt_eq (now : Nat) (x : Segment) (h : x.scl = true) (on : x.isOff = false) :
    startAt now x =
      { x with
        sda := false
        mon := { x.mon with line := .busy, idleSince := none }
        framer := { kind := .address, pos := 0, shift := 0, ackHigh := true, taken := false }
        clear := (match x.clear with | .stuck _ => .stuck none | c => c)
        quiet :=
          if x.clear.isNormal = true ∧ x.drvSda = false then some { since := now, limitMs := x.cfg.stuckMs }
          else none } := by
  unfold startAt restartQuiet restartWatch monitorStart
  cases hc : x.clear <;> simp [Segment.measures, Segment.quietLow, Segment.highSince, h, Framer.started]
  all_goals
    simp only [Segment.isOff] at on ⊢
    simp [on, BusClear.isNormal]

/-- What a stop does at the lines of an enabled segment. -/
theorem stopAt_eq (now : Nat) (x : Segment) (h : x.scl = true) :
    stopAt now x =
      { x with
        sda := true
        mon := { line := .free, stopTime := some now, idleSince := none }
        framer := { kind := .none, pos := 0, shift := 0, ackHigh := true, taken := false }
        init :=
          (match x.init with
           | .backoff i (.winnerStop len) => .backoff i (.busFree now len)
           | k => k)
        clear :=
          (match x.clear with
           | .stuck _ => .stuck (some now)
           | .clearing c =>
             .clearing (if c.stage = .stopLow then { c with stage := .stopDone, stopAt := some now } else c)
           | .normal => .normal)
        drvSda := !x.makesRoundStop && x.drvSda
        quiet := none } := by
  rcases x with ⟨cfg, scl, sda, dc, dd, mon, fr, q, init, resp, en, clear, qu, rs, ds, su⟩
  simp only at h
  subst h
  rcases init with _ | _ | _ | _ | ⟨i, b⟩ | _ <;> try cases b
  all_goals
    rcases clear with _ | ⟨rd, pu, stage, gr, sm, ls, sa⟩ | _ <;> try cases stage
  all_goals
    simp [stopAt, restartQuiet, restartWatch, clearStops, monitorFree, freeBackoff, Segment.quietLow,
      Segment.highSince, Framer.atReset, Segment.makesRoundStop]

/-! ## Edges -/

/-- At an edge only the units touch the initiator. -/
theorem edgeAt_init (now : Nat) (j : Option Job) (e : Edge) (x : Segment) :
    (edgeAt now j e x).init = (unitsEdge now j e (monitorEdge now (setLevel e x))).init := by
  simp [edgeAt, restartQuiet, restartWatch_init]

theorem edgeAt_units (now : Nat) (j : Option Job) (e : Edge) (x : Segment) :
    UnitsOnly (unitsEdge now j e (monitorEdge now (setLevel e x))) (edgeAt now j e x) :=
  (restartWatch_units _ _).trans (restartQuiet_units _ _)

theorem edgeAt_drvSda (now : Nat) (j : Option Job) (e : Edge) (x : Segment) :
    (edgeAt now j e x).drvSda = (unitsEdge now j e (monitorEdge now (setLevel e x))).drvSda := by
  simp only [edgeAt, restartQuiet]
  unfold restartWatch
  split <;> rfl

theorem monitorEdge_init (now : Nat) (x : Segment) : (monitorEdge now x).init = x.init := by
  unfold monitorEdge resetMonitor
  (repeat' split) <;> rfl

theorem setLevel_init (e : Edge) (x : Segment) : (setLevel e x).init = x.init := by cases e <;> rfl

theorem clearFalls_normal (now : Nat) {x : Segment} (h : x.clear = .normal) : clearFalls now x = x := by
  simp [clearFalls, pulseEnds, stageFalls, h]

theorem responderFalls_none (now : Nat) {x : Segment} (h : x.resp = .listen ∨ x.resp = .ignore) :
    responderFalls now x = x := by
  rcases h with h | h <;> simp [responderFalls, h]

theorem initiatorFalls_others (now : Nat) (j : Option Job) (x : Segment) :
    (initiatorFalls now j x).resp = x.resp ∧ (initiatorFalls now j x).clear = x.clear := by
  unfold initiatorFalls runFalls
  constructor <;> (repeat' split) <;> rfl

/-! ## Acknowledge bits -/

/-- The run whose acknowledge bit has ended is the one in hand. -/
theorem ackedRun_eq {x : Segment} {r : Run} {sub : SubStep} (h : AckEnded x r sub) : x.ackedRun? sub = some r := by
  simp [Segment.ackedRun?, h.running, h.place, h.ongoing, Segment.ackEnded, h.ninth, h.low, h.fresh]

end Sys2Proof.Machine
end

