-- ==== Sys2Proof/Laws/Frames.lean ====
section
/-! SUPPORT. What the end of a transaction and the end of a job leave as they were. -/

namespace Sys2Proof.Machine

/-! ## The engines through the end of a transaction -/

/-- The end of a transaction touches an engine at most here: its responder, its drive of the lines, its entries and its
summary. -/
structure ResponderOnly (x y : Segment) : Prop where
  cfg : y.cfg = x.cfg
  scl : y.scl = x.scl
  sda : y.sda = x.sda
  mon : y.mon = x.mon
  framer : y.framer = x.framer
  queue : y.queue = x.queue
  init : y.init = x.init
  clear : y.clear = x.clear
  quiet : y.quiet = x.quiet
  resetting : y.resetting = x.resetting
  disabling : y.disabling = x.disabling

theorem ResponderOnly.refl (x : Segment) : ResponderOnly x x := ⟨rfl, rfl, rfl, rfl, rfl, rfl, rfl, rfl, rfl, rfl, rfl⟩

theorem ResponderOnly.trans {x y z : Segment} (h : ResponderOnly x y) (k : ResponderOnly y z) : ResponderOnly x z :=
  ⟨k.cfg.trans h.cfg, k.scl.trans h.scl, k.sda.trans h.sda, k.mon.trans h.mon, k.framer.trans h.framer,
    k.queue.trans h.queue, k.init.trans h.init, k.clear.trans h.clear, k.quiet.trans h.quiet,
    k.resetting.trans h.resetting, k.disabling.trans h.disabling⟩

/-- A change of one engine that touches the responder's fields alone. -/
theorem modSeg_only (g k : SegId) {f : Segment → Segment} (s : State) (h : ResponderOnly (s.seg g) (f (s.seg g))) :
    ResponderOnly (s.seg k) ((modSeg g f s).seg k) := by
  rw [seg_modSeg_eq]
  split
  · rename_i e
    exact e ▸ h
  · exact .refl _

theorem claimEvent_only (g k : SegId) (ev : SegEvent) (s : State) :
    ResponderOnly (s.seg k) ((claimEvent g ev s).seg k) := by
  unfold claimEvent
  split
  · exact .refl _
  · exact modSeg_only g k s ⟨rfl, rfl, rfl, rfl, rfl, rfl, rfl, rfl, rfl, rfl, rfl⟩

theorem releaseRecord_only (k : SegId) (s : State) : ResponderOnly (s.seg k) ((releaseRecord s).seg k) := by
  unfold releaseRecord
  split
  · exact .refl _
  · rename_i g _
    exact modSeg_only g k (f := fun x => { x with summary := Summary.empty })
      (joinNotice .segSummary .record (summaryPayload g (s.seg g).summary) s)
      ⟨rfl, rfl, rfl, rfl, rfl, rfl, rfl, rfl, rfl, rfl, rfl⟩

theorem modEntry_only (g k : SegId) (e : EntryId) (f : Entry → Entry) (s : State) :
    ResponderOnly (s.seg k) ((modEntry g e f s).seg k) :=
  modSeg_only g k s ⟨rfl, rfl, rfl, rfl, rfl, rfl, rfl, rfl, rfl, rfl, rfl⟩

theorem applyDeferred_only (g k : SegId) (e : EntryId) (s : State) :
    ResponderOnly (s.seg k) ((applyDeferred g e s).seg k) := by
  unfold applyDeferred
  split
  · exact .refl _
  · rename_i w _
    exact modEntry_only g k e
      (fun n => { n with window := Memory.writeRun w.offset w.bytes n.window, deferred := none }) s

theorem endAccess_only (g k : SegId) (t : Transaction) (b : Bool) (s : State) :
    ResponderOnly (s.seg k) ((endAccess g t b s).seg k) := by
  unfold endAccess
  dsimp only
  repeat' split
  all_goals first
    | exact .refl _
    | exact claimEvent_only _ _ _ _
    | exact releaseRecord_only _ _
    | exact (modEntry_only _ _ _ _ _).trans (claimEvent_only _ _ _ _)

theorem cutByte_only (g k : SegId) (t : Transaction) (s : State) :
    ResponderOnly (s.seg k) ((cutByte g t s).seg k) := by
  unfold cutByte
  split
  · exact modEntry_only _ _ _ _ _
  · exact .refl _

theorem endTransaction_only (g k : SegId) (b : Bool) (s : State) :
    ResponderOnly (s.seg k) ((endTransaction g b s).seg k) := by
  unfold endTransaction
  dsimp only
  split
  · refine (modSeg_only g k (f := fun x => { releaseLines x with resp := .listen }) s
      ⟨rfl, rfl, rfl, rfl, rfl, rfl, rfl, rfl, rfl, rfl, rfl⟩).trans ?_
    exact (cutByte_only _ _ _ _).trans ((endAccess_only _ _ _ _ _).trans (applyDeferred_only _ _ _ _))
  · split
    · exact modSeg_only g k s ⟨rfl, rfl, rfl, rfl, rfl, rfl, rfl, rfl, rfl, rfl, rfl⟩
    · exact .refl _

/-! ## The responder through the end of a transaction -/

@[simp] theorem resp_claimEvent (g k : SegId) (ev : SegEvent) (s : State) :
    ((claimEvent g ev s).seg k).resp = (s.seg k).resp := by
  unfold claimEvent
  split
  · rfl
  · rw [seg_modSeg_eq]; split
    · rename_i e; subst e; rfl
    · rfl

@[simp] theorem resp_releaseRecord (s : State) (k : SegId) : ((releaseRecord s).seg k).resp = (s.seg k).resp := by
  unfold releaseRecord
  split
  · rfl
  · rename_i g _
    dsimp only
    show ((modSeg g (fun x => { x with summary := Summary.empty }) _).seg k).resp = _
    rw [seg_modSeg_eq]; split
    · rename_i e; subst e; rfl
    · rfl

@[simp] theorem resp_modEntry (g k : SegId) (e : EntryId) (f : Entry → Entry) (s : State) :
    ((modEntry g e f s).seg k).resp = (s.seg k).resp := by
  rw [modEntry, seg_modSeg_eq]; split
  · rename_i e; subst e; rfl
  · rfl

@[simp] theorem resp_applyDeferred (g k : SegId) (e : EntryId) (s : State) :
    ((applyDeferred g e s).seg k).resp = (s.seg k).resp := by
  unfold applyDeferred
  split
  · rfl
  · rename_i w _
    exact resp_modEntry g k e
      (fun n => { n with window := Memory.writeRun w.offset w.bytes n.window, deferred := none }) s

@[simp] theorem resp_endAccess (g k : SegId) (t : Transaction) (b : Bool) (s : State) :
    ((endAccess g t b s).seg k).resp = (s.seg k).resp := by
  unfold endAccess; dsimp only; (repeat' split) <;> first | rfl | simp

@[simp] theorem resp_cutByte (g k : SegId) (t : Transaction) (s : State) :
    ((cutByte g t s).seg k).resp = (s.seg k).resp := by
  unfold cutByte; split <;> simp

/-- After the end of a transaction the responder is in LISTEN, or OFF as before. -/
theorem resp_endTransaction (g : SegId) (b : Bool) (s : State) :
    ((endTransaction g b s).seg g).resp = if (s.seg g).resp = .off then .off else .listen := by
  unfold endTransaction
  dsimp only
  cases h : (s.seg g).resp <;> simp [Responder.transaction?, h]

/-! ## The jobs through the end of a transaction -/

@[simp] theorem claimEvent_jobs (g : SegId) (ev : SegEvent) (s : State) : (claimEvent g ev s).jobs = s.jobs := by
  unfold claimEvent; split <;> rfl

@[simp] theorem releaseRecord_jobs (s : State) : (releaseRecord s).jobs = s.jobs := by
  unfold releaseRecord; split <;> rfl

@[simp] theorem applyDeferred_jobs (g : SegId) (e : EntryId) (s : State) : (applyDeferred g e s).jobs = s.jobs := by
  unfold applyDeferred; split <;> rfl

@[simp] theorem endAccess_jobs (g : SegId) (t : Transaction) (b : Bool) (s : State) :
    (endAccess g t b s).jobs = s.jobs := by
  unfold endAccess; dsimp only; (repeat' split) <;> first | rfl | simp

@[simp] theorem cutByte_jobs (g : SegId) (t : Transaction) (s : State) : (cutByte g t s).jobs = s.jobs := by
  unfold cutByte; split <;> rfl

/-- The end of a transaction leaves the jobs alone. -/
@[simp] theorem endTransaction_jobs (g : SegId) (b : Bool) (s : State) : (endTransaction g b s).jobs = s.jobs := by
  unfold endTransaction
  dsimp only
  (repeat' split) <;> simp

@[simp] theorem endTransaction_job? (g : SegId) (b : Bool) (s : State) (i : Slot) :
    (endTransaction g b s).job? i = s.job? i := by simp [State.job?]

/-! ## The end of a job beside a changed engine -/

theorem finishJob_setSeg (i : Slot) (o : JobOutcome) (b : Bool) (s : State) (g : SegId) (x : Segment) :
    finishJob i o b (s.setSeg g x) = (finishJob i o b s).setSeg g x := by
  unfold finishJob
  rw [setSeg_job?]
  split
  · rfl
  · dsimp only
    split <;> rfl

theorem finishAll_setSeg (o : JobOutcome) (l : List Slot) (s : State) (g : SegId) (x : Segment) :
    finishAll o l (s.setSeg g x) = (finishAll o l s).setSeg g x := by
  induction l generalizing s with
  | nil => rfl
  | cons i l ih => simp only [finishAll, finishJob_setSeg, ih]

theorem setJob_setSeg (s : State) (g : SegId) (x : Segment) (i : Slot) (j : Option Job) :
    (s.setSeg g x).setJob i j = (s.setJob i j).setSeg g x := rfl

end Sys2Proof.Machine
end

