-- ==== Sys2Proof/Laws/Owed.lean ====
section
/-! SUPPORT. Nothing is owed once everything owed has been taken: `settle` and `answerInHand` are idempotent, so that an
event may be stated with or without what was owed before it (log 4). -/

namespace Sys2Proof.Machine

/-! ## The request in hand -/

@[simp] theorem finishJob_inHand (i : Slot) (o : JobOutcome) (b : Bool) (s : State) :
    (finishJob i o b s).link.inHand = s.link.inHand := by
  unfold finishJob; split
  · rfl
  · dsimp only; split <;> rfl

@[simp] theorem claimEvent_inHand (g : SegId) (ev : SegEvent) (s : State) :
    (claimEvent g ev s).link.inHand = s.link.inHand := by
  unfold claimEvent; split <;> rfl

@[simp] theorem releaseRecord_inHand (s : State) : (releaseRecord s).link.inHand = s.link.inHand := by
  rw [releaseRecord_link]

@[simp] theorem applyDeferred_inHand (g : SegId) (e : EntryId) (s : State) :
    (applyDeferred g e s).link.inHand = s.link.inHand := by
  unfold applyDeferred; split <;> rfl

@[simp] theorem endAccess_inHand (g : SegId) (t : Transaction) (b : Bool) (s : State) :
    (endAccess g t b s).link.inHand = s.link.inHand := by
  unfold endAccess; dsimp only; (repeat' split) <;> first | rfl | simp

@[simp] theorem cutByte_inHand (g : SegId) (t : Transaction) (s : State) :
    (cutByte g t s).link.inHand = s.link.inHand := by
  unfold cutByte; split <;> rfl

@[simp] theorem endTransaction_inHand (g : SegId) (b : Bool) (s : State) :
    (endTransaction g b s).link.inHand = s.link.inHand := by
  unfold endTransaction; dsimp only; (repeat' split) <;> first | rfl | simp

@[simp] theorem examineQueue_inHand (g : SegId) (l : List Slot) (s : State) :
    (examineQueue g l s).link.inHand = s.link.inHand := by
  induction l generalizing s with
  | nil => rfl
  | cons i l ih =>
    simp only [examineQueue]
    (repeat' split) <;> first | rfl | simp [ih]

@[simp] theorem toIdle_inHand (g : SegId) (s : State) : (toIdle g s).link.inHand = s.link.inHand := by
  unfold toIdle enterIdle; split <;> first | rfl | simp

@[simp] theorem endDisable_inHand (g : SegId) (s : State) : (endDisable g s).link.inHand = s.link.inHand := by
  unfold endDisable goOff; split <;> simp

@[simp] theorem leave_inHand (g : SegId) (s : State) : (leave g s).link.inHand = s.link.inHand := by
  unfold leave; simp

@[simp] theorem takeContinuation_inHand (g : SegId) (s : State) :
    (takeContinuation g s).link.inHand = s.link.inHand := by
  unfold takeContinuation; dsimp only; (repeat' split) <;> rfl

theorem phaseComplete_inHand (g : SegId) (r : Run) (j : Job) (s : State) :
    (phaseComplete g r j s).link.inHand = s.link.inHand := by
  unfold phaseComplete enterHeld beginStop beginRestart
  (repeat' split) <;> first | rfl | simp

theorem goOn_inHand (g : SegId) (r : Run) (j : Job) (sub : SubStep) (s : State) :
    (goOn g r j sub s).link.inHand = s.link.inHand := by
  unfold goOn beginStop; split <;> rfl

theorem loseBus_inHand (g : SegId) (s : State) : (loseBus g s).link.inHand = s.link.inHand := by
  unfold loseBus endRun backOff
  dsimp only
  (repeat' split) <;> first | rfl | simp

theorem arbitrationLoss_inHand (g : SegId) (s : State) : (arbitrationLoss g s).link.inHand = s.link.inHand := by
  unfold arbitrationLoss; split
  · exact loseBus_inHand g s
  · rfl

theorem respAddressByte_inHand (g : SegId) (s : State) : (respAddressByte g s).link.inHand = s.link.inHand := by
  unfold respAddressByte; dsimp only; split <;> rfl

theorem addressAck_inHand (g : SegId) (s : State) : (addressAck g s).link.inHand = s.link.inHand := by
  unfold addressAck addressNacked addressAcked beginStop
  dsimp only
  (repeat' split) <;> first | rfl | (rw [phaseComplete_inHand]; rfl) | (rw [goOn_inHand]; rfl)

theorem writeByteAck_inHand (g : SegId) (s : State) : (writeByteAck g s).link.inHand = s.link.inHand := by
  unfold writeByteAck beginStop
  dsimp only
  (repeat' split) <;> first | rfl | (rw [phaseComplete_inHand]; rfl) | (rw [goOn_inHand]; rfl)

theorem lengthByte_inHand (g : SegId) (s : State) : (lengthByte g s).link.inHand = s.link.inHand := by
  unfold lengthByte beginStop
  dsimp only
  (repeat' split) <;> first | rfl | (rw [goOn_inHand]; rfl)

theorem readByte_inHand (g : SegId) (s : State) : (readByte g s).link.inHand = s.link.inHand := by
  unfold readByte
  dsimp only
  (repeat' split) <;> first | rfl | (rw [phaseComplete_inHand]; rfl) | (rw [goOn_inHand]; rfl)

theorem windowWriteByte_inHand (g : SegId) (s : State) : (windowWriteByte g s).link.inHand = s.link.inHand := by
  unfold windowWriteByte; dsimp only; (repeat' split) <;> rfl

theorem mailWriteByte_inHand (g : SegId) (s : State) : (mailWriteByte g s).link.inHand = s.link.inHand := by
  unfold mailWriteByte; dsimp only; (repeat' split) <;> rfl

theorem windowReadByte_inHand (g : SegId) (s : State) : (windowReadByte g s).link.inHand = s.link.inHand := by
  unfold windowReadByte; dsimp only; (repeat' split) <;> rfl

theorem mailReadByte_inHand (g : SegId) (s : State) : (mailReadByte g s).link.inHand = s.link.inHand := by
  unfold mailReadByte; dsimp only; (repeat' split) <;> rfl

/-- What the edges of a segment have brought about leaves the request in hand alone. -/
theorem settleSegment_inHand (g : SegId) (s : State) : (settleSegment g s).link.inHand = s.link.inHand := by
  unfold settleSegment
  rw [mailReadByte_inHand, windowReadByte_inHand, mailWriteByte_inHand, windowWriteByte_inHand, readByte_inHand,
    lengthByte_inHand, writeByteAck_inHand, addressAck_inHand, respAddressByte_inHand, arbitrationLoss_inHand]

@[simp] theorem answer_inHand (r : Request) (d : Deferral) (rc : ReplyCode) (data : List Byte) (s : State) :
    (answer r d rc data s).link.inHand = none := rfl

/-- A block that answers leaves no request in hand. -/
theorem withRequest_cases {s : State} {code : Byte} {f : Request → Deferral → State → State}
    (hf : ∀ r d, (f r d s).link.inHand = none) :
    (withRequest code f s).link.inHand = none ∨
      (withRequest code f s = s ∧
        ∀ r age, s.link.inHand = some (.fresh r age) → r.decodes = true → r.code ≠ code) := by
  unfold withRequest
  split
  · rename_i r age hr
    split
    · exact .inl (hf _ _)
    · rename_i hc
      refine .inr ⟨rfl, fun r' age' hr' hd e => hc ?_⟩
      rw [hr] at hr'
      cases hr'
      simp [hd, e]
  · rename_i hn
    exact .inr ⟨rfl, fun r age hr => absurd hr (hn r age)⟩

theorem answerDevInfo_inHand (r : Request) (d : Deferral) (s : State) : (answerDevInfo r d s).link.inHand = none := by
  unfold answerDevInfo; split <;> rfl

theorem answerDevReset_inHand (r : Request) (d : Deferral) (s : State) :
    (answerDevReset r d s).link.inHand = none := by
  unfold answerDevReset; split <;> rfl

theorem answerLinkConfig_inHand (r : Request) (d : Deferral) (s : State) :
    (answerLinkConfig r d s).link.inHand = none := by
  unfold answerLinkConfig; split <;> rfl

theorem answerSegConfig_inHand (r : Request) (d : Deferral) (s : State) :
    (answerSegConfig r d s).link.inHand = none := by
  unfold answerSegConfig; split <;> rfl

theorem answerSegStatus_inHand (r : Request) (d : Deferral) (s : State) :
    (answerSegStatus r d s).link.inHand = none := by
  unfold answerSegStatus; split <;> rfl

theorem answerSegFlush_inHand (r : Request) (d : Deferral) (s : State) :
    (answerSegFlush r d s).link.inHand = none := by
  unfold answerSegFlush; dsimp only; (repeat' split) <;> rfl

theorem answerSegReset_inHand (r : Request) (d : Deferral) (s : State) :
    (answerSegReset r d s).link.inHand = none := by
  unfold answerSegReset; dsimp only; (repeat' split) <;> rfl

theorem answerJobSubmit_inHand (r : Request) (d : Deferral) (s : State) :
    (answerJobSubmit r d s).link.inHand = none := by
  unfold answerJobSubmit lookAtQueue enterIdle
  dsimp only
  (repeat' split) <;> first | rfl | simp

theorem answerJobCancel_inHand (r : Request) (d : Deferral) (s : State) :
    (answerJobCancel r d s).link.inHand = none := by
  unfold answerJobCancel cancelQueued deferCancel cancelWaiting
  (repeat' split) <;> first | rfl | simp

theorem answerJobQuery_inHand (r : Request) (d : Deferral) (s : State) :
    (answerJobQuery r d s).link.inHand = none := by
  unfold answerJobQuery; (repeat' split) <;> rfl

theorem answerRespSet_inHand (r : Request) (d : Deferral) (s : State) : (answerRespSet r d s).link.inHand = none := by
  unfold answerRespSet; dsimp only; (repeat' split) <;> rfl

theorem answerWinWrite_inHand (r : Request) (d : Deferral) (s : State) :
    (answerWinWrite r d s).link.inHand = none := by
  unfold answerWinWrite; dsimp only; (repeat' split) <;> rfl

theorem answerWinRead_inHand (r : Request) (d : Deferral) (s : State) : (answerWinRead r d s).link.inHand = none := by
  unfold answerWinRead; (repeat' split) <;> rfl

theorem answerMailPost_inHand (r : Request) (d : Deferral) (s : State) :
    (answerMailPost r d s).link.inHand = none := by
  unfold answerMailPost; dsimp only; (repeat' split) <;> rfl

theorem answerMailWithdraw_inHand (r : Request) (d : Deferral) (s : State) :
    (answerMailWithdraw r d s).link.inHand = none := by
  unfold answerMailWithdraw; dsimp only; (repeat' split) <;> rfl

/-- A block that may answer, after others: with nothing in hand, or with a request of another code in hand, it does
nothing. -/
theorem withRequest_step {s t : State} {code : Byte} {f : Request → Deferral → State → State} {codes : List Byte}
    (hf : ∀ r d, (f r d t).link.inHand = none)
    (h : t.link.inHand = none ∨
      (t = s ∧ ∀ r age, s.link.inHand = some (.fresh r age) → r.decodes = true → r.code ∉ codes)) :
    (withRequest code f t).link.inHand = none ∨
      (withRequest code f t = s ∧
        ∀ r age, s.link.inHand = some (.fresh r age) → r.decodes = true → r.code ∉ code :: codes) := by
  rcases h with h | ⟨rfl, h⟩
  · left
    rw [withRequest_none h]
    exact h
  · rcases withRequest_cases (code := code) hf with k | ⟨k, kc⟩
    · exact .inl k
    · exact .inr ⟨k, fun r age hr hd hm => (List.mem_cons.mp hm).elim (kc r age hr hd) (h r age hr hd)⟩

/-- The request in hand is answered, replayed or refused: none is left. -/
theorem answerInHand_inHand (s : State) : (answerInHand s).link.inHand = none := by
  have h0 : (refuseUnknown (settleDuplicate s)).link.inHand = none ∨
      ∃ r age, (refuseUnknown (settleDuplicate s)).link.inHand = some (.fresh r age) ∧ r.decodes = true := by
    unfold refuseUnknown
    split
    · rename_i r age hr
      split
      · rename_i hd
        exact .inr ⟨r, age, hr, hd⟩
      · exact .inl rfl
    · rename_i hn
      left
      unfold settleDuplicate at hn ⊢
      split
      · rfl
      · rfl
      · rename_i h1 h2
        match hh : s.link.inHand with
        | none => rfl
        | some (.fresh r age) => simp [hh] at hn
        | some (.duplicate r none) => exact absurd hh (h2 r)
        | some (.duplicate r (some b)) => exact absurd hh (h1 r b)
  unfold answerInHand answerByResponder answerByPool
  generalize refuseUnknown (settleDuplicate s) = t at h0
  have a0 : t.link.inHand = none ∨
      (t = t ∧ ∀ r age, t.link.inHand = some (.fresh r age) → r.decodes = true → r.code ∉ ([] : List Byte)) :=
    .inr ⟨rfl, fun _ _ _ _ h => by simp at h⟩
  have a1 := withRequest_step (code := codeDevInfo) (fun r d => answerDevInfo_inHand r d _) a0
  have a2 := withRequest_step (code := codeDevReset) (fun r d => answerDevReset_inHand r d _) a1
  have a3 := withRequest_step (code := codeLinkConfig) (fun r d => answerLinkConfig_inHand r d _) a2
  have a4 := withRequest_step (code := codeSegConfig) (fun r d => answerSegConfig_inHand r d _) a3
  have a5 := withRequest_step (code := codeSegStatus) (fun r d => answerSegStatus_inHand r d _) a4
  have a6 := withRequest_step (code := codeSegFlush) (fun r d => answerSegFlush_inHand r d _) a5
  have a7 := withRequest_step (code := codeSegReset) (fun r d => answerSegReset_inHand r d _) a6
  have a8 := withRequest_step (code := codeJobSubmit) (fun r d => answerJobSubmit_inHand r d _) a7
  have a9 := withRequest_step (code := codeJobCancel) (fun r d => answerJobCancel_inHand r d _) a8
  have a10 := withRequest_step (code := codeJobQuery) (fun r d => answerJobQuery_inHand r d _) a9
  have a11 := withRequest_step (code := codeRespSet) (fun r d => answerRespSet_inHand r d _) a10
  have a12 := withRequest_step (code := codeWinWrite) (fun r d => answerWinWrite_inHand r d _) a11
  have a13 := withRequest_step (code := codeWinRead) (fun r d => answerWinRead_inHand r d _) a12
  have a14 := withRequest_step (code := codeMailPost) (fun r d => answerMailPost_inHand r d _) a13
  have a15 := withRequest_step (code := codeMailWithdraw) (fun r d => answerMailWithdraw_inHand r d _) a14
  rcases a15 with k | ⟨k, kc⟩
  · exact k
  · rw [k]
    rcases h0 with h0 | ⟨r, age, hr, hd⟩
    · exact h0
    · exfalso
      refine kc r age hr hd ?_
      simp only [Request.decodes, Bool.and_eq_true, List.contains_iff_mem] at hd
      exact (List.mem_reverse (as := requestCodes)).mpr hd.2

/-- Answering again answers nothing. -/
theorem answerInHand_idem (s : State) : answerInHand (answerInHand s) = answerInHand s :=
  answerInHand_none (answerInHand_inHand s)

end Sys2Proof.Machine
end

