-- ==== Sys2Proof/Laws/Settled.lean ====
section
/-! SUPPORT. What is owed, once taken, is not owed again: `settle` is idempotent (log 4). -/

namespace Sys2Proof.Machine

/-! ## What an operation at one segment leaves elsewhere -/

/-- From `s` to `t` an operation at segment `k` has changed no other engine but for its summary, and filled no slot. -/
structure Elsewhere (k : SegId) (s t : State) : Prop where
  engines : ∀ g, g ≠ k → ∃ u, t.seg g = { s.seg g with summary := u }
  free : ∀ i, s.job? i = none → t.job? i = none

theorem Elsewhere.refl (k : SegId) (s : State) : Elsewhere k s s := ⟨fun _ _ => ⟨_, rfl⟩, fun _ h => h⟩

theorem Elsewhere.trans {k : SegId} {s t u : State} (h : Elsewhere k s t) (h' : Elsewhere k t u) : Elsewhere k s u :=
  ⟨fun g hg => by
    obtain ⟨a, ha⟩ := h.engines g hg
    obtain ⟨b, hb⟩ := h'.engines g hg
    exact ⟨b, by rw [hb, ha]⟩, fun i hi => h'.free i (h.free i hi)⟩

/-- A change of engine `k` alone. -/
theorem modSeg_elsewhere (k : SegId) (f : Segment → Segment) (s : State) : Elsewhere k s (modSeg k f s) :=
  ⟨fun _ hg => ⟨_, seg_modSeg_ne s f hg⟩, fun _ h => h⟩

/-- A change of neither engines nor slots. -/
theorem Elsewhere.of_eq {k : SegId} {s t : State} (hs : t.segs = s.segs) (hj : t.jobs = s.jobs) : Elsewhere k s t :=
  ⟨fun g _ => ⟨(s.seg g).summary, by simp [State.seg, hs]⟩, fun i h => by simpa [State.job?, hj] using h⟩

theorem setJob_elsewhere (k : SegId) (s : State) {i : Slot} {j : Option Job} (h : s.job? i = none → j = none) :
    Elsewhere k s (s.setJob i j) :=
  ⟨fun _ _ => ⟨_, rfl⟩, fun n hn => by
    rw [job?_setJob_eq]
    split
    · rename_i e
      exact h (e ▸ hn)
    · exact hn⟩

theorem modJob_elsewhere (k : SegId) (s : State) (i : Slot) (f : Job → Job) : Elsewhere k s (modJob i f s) :=
  setJob_elsewhere k s (fun h => by simp [h])

theorem claimEvent_elsewhere (k : SegId) (ev : SegEvent) (s : State) : Elsewhere k s (claimEvent k ev s) := by
  unfold claimEvent
  split
  · exact .of_eq rfl rfl
  · exact modSeg_elsewhere k _ s

theorem releaseRecord_elsewhere (k : SegId) (s : State) : Elsewhere k s (releaseRecord s) := by
  unfold releaseRecord
  split
  · exact .refl k s
  · rename_i g _
    refine ⟨fun n _ => ?_, fun i h => h⟩
    show ∃ u, (modSeg g (fun x => { x with summary := Summary.empty })
      (joinNotice .segSummary .record (summaryPayload g (s.seg g).summary) s)).seg n = _
    rw [seg_modSeg_eq]
    split
    · rename_i e
      exact ⟨Summary.empty, e ▸ rfl⟩
    · exact ⟨(s.seg n).summary, rfl⟩

theorem finishJob_elsewhere (k : SegId) (i : Slot) (o : JobOutcome) (b : Bool) (s : State) :
    Elsewhere k s (finishJob i o b s) := by
  unfold finishJob
  split
  · exact .refl k s
  · rename_i j hj
    have h : Elsewhere k s
        (s.setJob i (some { j with status := .finished (completionOf s.now o b j), cancelReply := none })) :=
      setJob_elsewhere k s (fun e => by simp [hj] at e)
    dsimp only
    split
    · exact h.trans (.of_eq rfl rfl)
    · exact h.trans (.of_eq rfl rfl)

theorem applyDeferred_elsewhere (k : SegId) (e : EntryId) (s : State) : Elsewhere k s (applyDeferred k e s) := by
  unfold applyDeferred
  split
  · exact .refl k s
  · rename_i w _
    exact (modSeg_elsewhere k (fun x => x.setEntry e { x.entry e with
      window := Memory.writeRun w.offset w.bytes (x.entry e).window, deferred := none }) s).trans (.of_eq rfl rfl)

theorem endAccess_elsewhere (k : SegId) (t : Transaction) (b : Bool) (s : State) :
    Elsewhere k s (endAccess k t b s) := by
  unfold endAccess
  dsimp only
  repeat' split
  all_goals first
    | exact .refl k s
    | exact claimEvent_elsewhere k _ s
    | exact releaseRecord_elsewhere k s
    | exact .of_eq rfl rfl
    | exact (modSeg_elsewhere k _ s).trans (claimEvent_elsewhere k _ _)

theorem cutByte_elsewhere (k : SegId) (t : Transaction) (s : State) : Elsewhere k s (cutByte k t s) := by
  unfold cutByte
  split
  · exact modSeg_elsewhere k _ s
  · exact .refl k s

theorem endTransaction_elsewhere (k : SegId) (b : Bool) (s : State) : Elsewhere k s (endTransaction k b s) := by
  unfold endTransaction
  dsimp only
  split
  · exact (modSeg_elsewhere k _ s).trans
      ((cutByte_elsewhere k _ _).trans ((endAccess_elsewhere k _ _ _).trans (applyDeferred_elsewhere k _ _)))
  · split
    · exact modSeg_elsewhere k _ s
    · exact .refl k s

theorem examineQueue_elsewhere (k : SegId) (l : List Slot) (s : State) : Elsewhere k s (examineQueue k l s) := by
  induction l generalizing s with
  | nil => exact modSeg_elsewhere k _ s
  | cons i l ih =>
    unfold examineQueue
    split
    · exact ih s
    · rename_i j hj
      split
      · exact (modSeg_elsewhere k _ s).trans ((finishJob_elsewhere k _ _ _ _).trans (ih _))
      · exact (setJob_elsewhere k s (fun e => by simp [hj] at e)).trans (modSeg_elsewhere k _ _)

theorem leave_elsewhere (k : SegId) (s : State) : Elsewhere k s (leave k s) := by
  have h : ∀ t, Elsewhere k t (toIdle k t) := fun t => by
    unfold toIdle
    split
    · exact modSeg_elsewhere k _ t
    · exact examineQueue_elsewhere k _ t
  refine (modSeg_elsewhere k leaveLines s).trans ((h _).trans ?_)
  unfold leave endDisable
  split
  · exact (endTransaction_elsewhere k true _).trans (modSeg_elsewhere k _ _)
  · exact .refl k _

theorem endRun_elsewhere (k : SegId) (i : Slot) (o : JobOutcome) (s : State) : Elsewhere k s (endRun k i o s) :=
  (finishJob_elsewhere k i o true s).trans (leave_elsewhere k _)

theorem loseBus_elsewhere (k : SegId) (s : State) : Elsewhere k s (loseBus k s) := by
  unfold loseBus
  split
  · rename_i r _
    have h0 := modSeg_elsewhere k releaseLines s
    dsimp only
    split
    · exact h0.trans (endRun_elsewhere k _ _ _)
    · split
      · exact h0
      · rename_i j hj
        have h1 := h0.trans (setJob_elsewhere k (modSeg k releaseLines s) (i := r.slot) (j := some j.countLoss)
          (fun e => by rw [hj] at e; simp at e))
        split
        · exact h1.trans (endRun_elsewhere k _ _ _)
        · split
          · exact h1.trans (endRun_elsewhere k _ _ _)
          · exact h1.trans (modSeg_elsewhere k _ _)
  · exact .refl k s

theorem arbitrationLoss_elsewhere (k : SegId) (s : State) : Elsewhere k s (arbitrationLoss k s) := by
  unfold arbitrationLoss
  split
  · exact loseBus_elsewhere k s
  · exact .refl k s

theorem respAddressByte_elsewhere (k : SegId) (s : State) : Elsewhere k s (respAddressByte k s) := by
  unfold respAddressByte
  dsimp only
  split
  · exact modSeg_elsewhere k _ s
  · exact .refl k s

theorem takeContinuation_elsewhere (k : SegId) (s : State) : Elsewhere k s (takeContinuation k s) := by
  unfold takeContinuation
  dsimp only
  repeat' split
  all_goals first
    | exact .refl k s
    | exact (modJob_elsewhere k s _ _).trans (modSeg_elsewhere k _ _)

theorem phaseComplete_elsewhere (k : SegId) (r : Run) (j : Job) (s : State) :
    Elsewhere k s (phaseComplete k r j s) := by
  unfold phaseComplete enterHeld beginStop beginRestart
  repeat' split
  all_goals first
    | exact (finishJob_elsewhere k _ _ _ s).trans ((modSeg_elsewhere k _ _).trans (takeContinuation_elsewhere k _))
    | exact modSeg_elsewhere k _ s
    | exact (modJob_elsewhere k s _ _).trans (modSeg_elsewhere k _ _)

theorem goOn_elsewhere (k : SegId) (r : Run) (j : Job) (sub : SubStep) (s : State) :
    Elsewhere k s (goOn k r j sub s) := by
  unfold goOn beginStop
  split <;> exact modSeg_elsewhere k _ s

theorem addressAck_elsewhere (k : SegId) (s : State) : Elsewhere k s (addressAck k s) := by
  unfold addressAck addressNacked addressAcked beginStop
  have h := modSeg_elsewhere k tookBit s
  dsimp only
  repeat' split
  all_goals first
    | exact .refl k s
    | exact h.trans (modSeg_elsewhere k _ _)
    | exact h.trans (phaseComplete_elsewhere k _ _ _)
    | exact h.trans (goOn_elsewhere k _ _ _ _)

theorem writeByteAck_elsewhere (k : SegId) (s : State) : Elsewhere k s (writeByteAck k s) := by
  unfold writeByteAck beginStop
  have h := modSeg_elsewhere k tookBit s
  dsimp only
  split
  · exact .refl k s
  · split
    · exact .refl k s
    · rename_i j hj
      have hs : Elsewhere k s ((modSeg k tookBit s).setJob _ (some { j with byteIndex := j.byteIndex + 1 })) :=
        h.trans (setJob_elsewhere k _ (fun e => by rw [modSeg_job?, hj] at e; simp at e))
      split
      · exact h.trans (modSeg_elsewhere k _ _)
      · split
        · exact hs.trans (goOn_elsewhere k _ _ _ _)
        · exact hs.trans (phaseComplete_elsewhere k _ _ _)

theorem lengthByte_elsewhere (k : SegId) (s : State) : Elsewhere k s (lengthByte k s) := by
  unfold lengthByte beginStop
  have h := modSeg_elsewhere k tookBit s
  dsimp only
  split
  · exact .refl k s
  · split
    · exact .refl k s
    · rename_i j hj
      split
      · split
        · exact (h.trans (setJob_elsewhere k _ (fun e => by rw [modSeg_job?, hj] at e; simp at e))).trans
            (goOn_elsewhere k _ _ _ _)
        · exact h.trans (modSeg_elsewhere k _ _)
      · exact .refl k s

theorem readByte_elsewhere (k : SegId) (s : State) : Elsewhere k s (readByte k s) := by
  unfold readByte
  have h := modSeg_elsewhere k tookBit s
  dsimp only
  split
  · exact .refl k s
  · split
    · exact .refl k s
    · rename_i j hj
      have hs : ∀ l, Elsewhere k s ((modSeg k tookBit s).setJob _ (some l)) := fun l =>
        h.trans (setJob_elsewhere k _ (fun e => by rw [modSeg_job?, hj] at e; simp at e))
      split
      · exact .refl k s
      · split
        · exact (hs _).trans (goOn_elsewhere k _ _ _ _)
        · exact (hs _).trans (phaseComplete_elsewhere k _ _ _)

theorem windowWriteByte_elsewhere (k : SegId) (s : State) : Elsewhere k s (windowWriteByte k s) := by
  unfold windowWriteByte modEntry
  dsimp only
  (repeat' split) <;>
    first | exact .refl k s | exact (modSeg_elsewhere k _ s).trans (modSeg_elsewhere k _ _)

theorem mailWriteByte_elsewhere (k : SegId) (s : State) : Elsewhere k s (mailWriteByte k s) := by
  unfold mailWriteByte
  dsimp only
  (repeat' split) <;> first | exact .refl k s | exact modSeg_elsewhere k _ s

theorem windowReadByte_elsewhere (k : SegId) (s : State) : Elsewhere k s (windowReadByte k s) := by
  unfold windowReadByte modEntry
  dsimp only
  (repeat' split) <;>
    first | exact .refl k s | exact (modSeg_elsewhere k _ s).trans (modSeg_elsewhere k _ _)

theorem mailReadByte_elsewhere (k : SegId) (s : State) : Elsewhere k s (mailReadByte k s) := by
  unfold mailReadByte
  dsimp only
  (repeat' split) <;> first | exact .refl k s | exact modSeg_elsewhere k _ s

theorem settleSegment_elsewhere (k : SegId) (s : State) : Elsewhere k s (settleSegment k s) :=
  (arbitrationLoss_elsewhere k s).trans ((respAddressByte_elsewhere k _).trans ((addressAck_elsewhere k _).trans
    ((writeByteAck_elsewhere k _).trans ((lengthByte_elsewhere k _).trans ((readByte_elsewhere k _).trans
      ((windowWriteByte_elsewhere k _).trans ((mailWriteByte_elsewhere k _).trans
        ((windowReadByte_elsewhere k _).trans (mailReadByte_elsewhere k _)))))))))

/-! ## What is owed at one segment -/

/-- Nothing that the edges of an engine have brought about is left to take; `jobs` is what the slots hold. -/
structure NoneOwed (x : Segment) (jobs : Slot → Option Job) : Prop where
  loss : x.lossSeen = true →
    ∃ r, x.init = .running r ∧ r.closing = false ∧ jobs r.slot = none ∧ x.drvScl = false
  address : x.addressEnded = false
  acks : ∀ sub ∈ [SubStep.address, .write, .read], ∀ r, x.ackedRun? sub = some r → jobs r.slot = none
  receives : ∀ t, x.receives? = some t →
    (∀ p c, t.access ≠ .windowWrite p c) ∧ ∀ a b o, t.access ≠ .mailWrite a b o
  loads : ∀ t, x.loads? = some t → t.access ≠ .windowRead ∧ ∀ b n p e, t.access ≠ .mailRead b n p e

/-- A loss left is one whose slot is free, with nothing left to release. -/
def LossTaken (x : Segment) (jobs : Slot → Option Job) : Prop :=
  x.lossSeen = true → ∃ r, x.init = .running r ∧ r.closing = false ∧ jobs r.slot = none ∧ x.drvScl = false

/-- With its bit place taken an engine owes at most a loss. -/
theorem NoneOwed.of_taken {x : Segment} {jobs : Slot → Option Job} (h : x.framer.taken = true)
    (hl : LossTaken x jobs) : NoneOwed x jobs where
  loss := hl
  address := by simp [Segment.addressEnded, Segment.byteEnded, h]
  acks sub _ r hr := by
    unfold Segment.ackedRun? Segment.ackEnded at hr
    split at hr <;> simp [h] at hr
  receives t ht := by
    unfold Segment.receives? Segment.byteEnded at ht
    split at ht <;> simp [h] at ht
  loads t ht := by
    unfold Segment.loads? Segment.ackEnded at ht
    split at ht <;> simp [h] at ht

theorem lossTaken_of_low {x : Segment} {jobs : Slot → Option Job} (h : x.scl = false) : LossTaken x jobs := by
  intro hl
  unfold Segment.lossSeen at hl
  split at hl <;> simp [h] at hl

theorem lossTaken_of_not_running {x : Segment} {jobs : Slot → Option Job} (h : ∀ r, x.init ≠ .running r) :
    LossTaken x jobs := by
  intro hl
  unfold Segment.lossSeen at hl
  split at hl
  · rename_i r hr
    exact absurd hr (h r)
  · simp at hl

/-- A loss is seen by the lines, the framing and the initiator alone. -/
theorem lossSeen_congr {x y : Segment} (h1 : y.init = x.init) (h2 : y.scl = x.scl) (h3 : y.drvSda = x.drvSda)
    (h4 : y.sda = x.sda) (h5 : y.framer.pos = x.framer.pos) (h6 : y.framer.shift = x.framer.shift)
    (h7 : y.framer.ackHigh = x.framer.ackHigh) : y.lossSeen = x.lossSeen := by
  unfold Segment.lossSeen
  rw [h1, h2, h3, h4, h5, h6, h7]

/-- The loss at an engine that serves a write is the loss before. -/
theorem LossTaken.serveWrite {x : Segment} {jobs : Slot → Option Job} (h : LossTaken x jobs) (t : Transaction) :
    LossTaken (serveWrite t x) jobs := by
  intro hl
  exact h ((lossSeen_congr (x := x) rfl rfl rfl rfl rfl rfl rfl).symm.trans hl)

theorem LossTaken.setEntry {x : Segment} {jobs : Slot → Option Job} (h : LossTaken x jobs) (e : EntryId) (n : Entry) :
    LossTaken (x.setEntry e n) jobs := by
  intro hl
  exact h ((lossSeen_congr (x := x) rfl rfl rfl rfl rfl rfl rfl).symm.trans hl)

/-- Where nothing is owed no step after a loss takes anything. -/
theorem steps_none {g : SegId} {s : State} (h : NoneOwed (s.seg g) s.job?) :
    respAddressByte g s = s ∧ addressAck g s = s ∧ writeByteAck g s = s ∧ lengthByte g s = s ∧ readByte g s = s ∧
      windowWriteByte g s = s ∧ mailWriteByte g s = s ∧ windowReadByte g s = s ∧ mailReadByte g s = s := by
  refine ⟨by simp [respAddressByte, h.address], ?_, ?_, ?_, ?_, ?_, ?_, ?_, ?_⟩
  · unfold addressAck
    split
    · rfl
    · rename_i r hr
      rw [h.acks _ (by simp) r hr]
  · unfold writeByteAck
    split
    · rfl
    · rename_i r hr
      rw [h.acks _ (by simp) r hr]
  · unfold lengthByte
    dsimp only
    split
    · rfl
    · rename_i r hr
      rw [h.acks _ (by simp) r hr]
  · unfold readByte
    dsimp only
    split
    · rfl
    · rename_i r hr
      rw [h.acks _ (by simp) r hr]
  · unfold windowWriteByte
    dsimp only
    split
    · rename_i t ht
      split
      · rename_i c hc
        exact absurd hc ((h.receives t ht).1 _ _)
      · rename_i c hc
        exact absurd hc ((h.receives t ht).1 _ _)
      · rfl
    · rfl
  · unfold mailWriteByte
    dsimp only
    split
    · rename_i t ht
      split
      · rename_i hc
        exact absurd hc ((h.receives t ht).2 _ _ _)
      · rfl
    · rfl
  · unfold windowReadByte
    dsimp only
    split
    · rename_i t ht
      split
      · rename_i hc
        exact absurd hc (h.loads t ht).1
      · rfl
    · rfl
  · unfold mailReadByte
    dsimp only
    split
    · rename_i t ht
      split
      · rename_i hc
        exact absurd hc ((h.loads t ht).2 _ _ _ _)
      · rfl
    · rfl

/-- Where nothing is owed nothing is taken. -/
theorem settleSegment_none {g : SegId} {s : State} (h : NoneOwed (s.seg g) s.job?) : settleSegment g s = s := by
  have e1 : arbitrationLoss g s = s := by
    unfold arbitrationLoss
    split
    · rename_i hl
      obtain ⟨r, h1, h2, h3, h4⟩ := h.loss hl
      have h5 : (s.seg g).drvSda = false := by
        unfold Segment.lossSeen at hl
        rw [h1] at hl
        simp only [Bool.and_eq_true, Bool.not_eq_true'] at hl
        exact hl.1.2
      have hr : modSeg g releaseLines s = s := by
        have : releaseLines (s.seg g) = s.seg g := by
          unfold releaseLines
          generalize s.seg g = x at h4 h5
          cases x
          simp only at h4 h5
          subst h4 h5
          rfl
        rw [modSeg, this, setSeg_seg]
      unfold loseBus
      rw [h1]
      simp [h2, hr, h3]
    · rfl
  obtain ⟨e2, e3, e4, e5, e6, e7, e8, e9, e10⟩ := steps_none h
  unfold settleSegment
  rw [e1, e2, e3, e4, e5, e6, e7, e8, e9, e10]

/-! ## After each step -/

/-- The examination of a queue leaves the initiator IDLE or WAITING. -/
theorem examineQueue_init (g : SegId) (l : List Slot) (s : State) :
    ((examineQueue g l s).seg g).init = .idle ∨ ∃ i, ((examineQueue g l s).seg g).init = .waiting i := by
  induction l generalizing s with
  | nil => left; simp [examineQueue]
  | cons i l ih =>
    unfold examineQueue
    split
    · exact ih s
    · split
      · exact ih _
      · exact .inr ⟨i, by simp⟩

/-- An initiator that has left its job or hold is not RUNNING. -/
theorem leave_not_running (g : SegId) (s : State) (r : Run) : ((leave g s).seg g).init ≠ .running r := by
  unfold leave endDisable
  split
  · simp only [goOff, seg_modSeg, turnOff]
    split <;> simp [enableSegment, resetMonitor]
  · unfold toIdle
    split
    · simp
    · rcases examineQueue_init g ((modSeg g leaveLines s).seg g).queue (modSeg g leaveLines s) with h | ⟨i, h⟩ <;>
        rw [enterIdle, h] <;> simp

/-- After a loss none is left to take. -/
theorem arbitrationLoss_taken (g : SegId) (s : State) :
    LossTaken ((arbitrationLoss g s).seg g) (arbitrationLoss g s).job? := by
  by_cases hl : (s.seg g).lossSeen = true
  · have e : arbitrationLoss g s = loseBus g s := by rw [arbitrationLoss, if_pos hl]
    rw [e]
    unfold loseBus
    split
    · rename_i r hr
      dsimp only
      split
      · exact lossTaken_of_not_running (leave_not_running g _)
      · rename_i hc
        split
        · rename_i hj
          intro _
          exact ⟨r, by simpa [releaseLines] using hr, by simpa using hc, hj, by simp [releaseLines]⟩
        · split
          · exact lossTaken_of_not_running (leave_not_running g _)
          · split
            · exact lossTaken_of_not_running (leave_not_running g _)
            · refine lossTaken_of_not_running (fun r' => ?_)
              simp only [backOff, seg_modSeg, freeBackoff]
              (repeat' split) <;> simp
    · rename_i hn
      exact lossTaken_of_not_running (fun r hr => hn r hr)
  · have e : arbitrationLoss g s = s := by rw [arbitrationLoss, if_neg hl]
    rw [e]
    exact fun h => absurd h hl

/-- After the comparison of an address byte none is left to compare. -/
theorem respAddressByte_taken {g : SegId} {s : State} (h : LossTaken (s.seg g) s.job?) :
    LossTaken ((respAddressByte g s).seg g) (respAddressByte g s).job? ∧
      ((respAddressByte g s).seg g).addressEnded = false := by
  unfold respAddressByte
  dsimp only
  split
  · rw [seg_modSeg]
    refine ⟨?_, by simp [Segment.addressEnded, Segment.byteEnded]⟩
    intro hl
    exact h hl
  · rename_i ha
    exact ⟨h, by simpa using ha⟩

/-- A step at an acknowledge bit, with SCL low, leaves the bit place taken. -/
def AckTaken (x : Segment) : Prop := x.framer.taken = true ∧ x.scl = false

theorem AckTaken.none {x : Segment} {jobs : Slot → Option Job} (h : AckTaken x) : NoneOwed x jobs :=
  .of_taken h.1 (lossTaken_of_low h.2)

theorem takeContinuation_framer (g : SegId) (s : State) :
    ((takeContinuation g s).seg g).framer = (s.seg g).framer ∧ ((takeContinuation g s).seg g).scl = (s.seg g).scl := by
  unfold takeContinuation
  dsimp only
  repeat' split
  all_goals first
    | exact ⟨rfl, rfl⟩
    | (rw [seg_modSeg]; exact ⟨rfl, rfl⟩)

theorem phaseComplete_framer (g : SegId) (r : Run) (j : Job) (s : State) :
    ((phaseComplete g r j s).seg g).framer = (s.seg g).framer ∧
      ((phaseComplete g r j s).seg g).scl = (s.seg g).scl := by
  unfold phaseComplete enterHeld beginStop beginRestart
  repeat' split
  all_goals first
    | (obtain ⟨h1, h2⟩ := takeContinuation_framer g _; rw [h1, h2, seg_modSeg]; simp; done)
    | (simp [stopFrom]; done)

theorem goOn_framer (g : SegId) (r : Run) (j : Job) (sub : SubStep) (s : State) :
    ((goOn g r j sub s).seg g).framer = (s.seg g).framer ∧ ((goOn g r j sub s).seg g).scl = (s.seg g).scl := by
  unfold goOn beginStop
  split <;> simp [stopFrom, sendBit]

/-- The bit place taken, an engine with SCL low stays so through what keeps framing and lines. -/
theorem ackTaken_took {x y : Segment} {sub : SubStep} {r : Run} (h : x.ackedRun? sub = some r)
    (h1 : y.framer = (tookBit x).framer) (h2 : y.scl = x.scl) : AckTaken y := by
  refine ⟨by rw [h1]; rfl, ?_⟩
  rw [h2]
  unfold Segment.ackedRun? Segment.ackEnded at h
  split at h
  · split at h
    · rename_i hc
      simp at hc
      exact hc.1.1.1.2
    · simp at h
  · simp at h

theorem addressAck_taken (g : SegId) (s : State) :
    (addressAck g s = s ∧ ∀ r, (s.seg g).ackedRun? .address = some r → s.job? r.slot = none) ∨
      AckTaken ((addressAck g s).seg g) := by
  unfold addressAck addressNacked addressAcked beginStop
  split
  · rename_i h
    exact .inl ⟨rfl, fun r hr => by rw [h] at hr; simp at hr⟩
  · rename_i r hr
    split
    · rename_i hj
      exact .inl ⟨rfl, fun r' hr' => by rw [hr] at hr'; cases hr'; exact hj⟩
    · right
      dsimp only
      repeat' split
      all_goals first
        | exact ackTaken_took hr (by simp [stopFrom]) (by simp [stopFrom, tookBit])
        | exact ackTaken_took hr (by rw [(phaseComplete_framer g _ _ _).1]; simp)
            (by rw [(phaseComplete_framer g _ _ _).2]; simp [tookBit])
        | exact ackTaken_took hr (by rw [(goOn_framer g _ _ _ _).1]; simp)
            (by rw [(goOn_framer g _ _ _ _).2]; simp [tookBit])

theorem writeByteAck_taken (g : SegId) (s : State) :
    (writeByteAck g s = s ∧ ∀ r, (s.seg g).ackedRun? .write = some r → s.job? r.slot = none) ∨
      AckTaken ((writeByteAck g s).seg g) := by
  unfold writeByteAck beginStop
  split
  · rename_i h
    exact .inl ⟨rfl, fun r hr => by rw [h] at hr; simp at hr⟩
  · rename_i r hr
    split
    · rename_i hj
      exact .inl ⟨rfl, fun r' hr' => by rw [hr] at hr'; cases hr'; exact hj⟩
    · right
      dsimp only
      repeat' split
      all_goals first
        | exact ackTaken_took hr (by simp [stopFrom]) (by simp [stopFrom, tookBit])
        | exact ackTaken_took hr (by rw [(phaseComplete_framer g _ _ _).1]; simp)
            (by rw [(phaseComplete_framer g _ _ _).2]; simp [tookBit])
        | exact ackTaken_took hr (by rw [(goOn_framer g _ _ _ _).1]; simp)
            (by rw [(goOn_framer g _ _ _ _).2]; simp [tookBit])

theorem lengthByte_taken (g : SegId) (s : State) :
    (lengthByte g s = s ∧ ∀ r j, (s.seg g).ackedRun? .read = some r → s.job? r.slot = some j → j.awaitsLength = false) ∨
      AckTaken ((lengthByte g s).seg g) := by
  unfold lengthByte beginStop
  dsimp only
  split
  · rename_i h
    exact .inl ⟨rfl, fun r j hr => by rw [h] at hr; simp at hr⟩
  · rename_i r hr
    split
    · rename_i hj
      exact .inl ⟨rfl, fun r' j hr' hj' => by rw [hr] at hr'; cases hr'; rw [hj] at hj'; simp at hj'⟩
    · rename_i j hj
      split
      · right
        split
        · exact ackTaken_took hr (by rw [(goOn_framer g _ _ _ _).1]; simp)
            (by rw [(goOn_framer g _ _ _ _).2]; simp [tookBit])
        · exact ackTaken_took hr (by simp [stopFrom]) (by simp [stopFrom, tookBit])
      · rename_i ha
        refine .inl ⟨rfl, fun r' j' hr' hj' => ?_⟩
        rw [hr] at hr'
        cases hr'
        rw [hj] at hj'
        cases hj'
        simpa using ha

theorem readByte_taken (g : SegId) (s : State) :
    (readByte g s = s ∧ ∀ r j, (s.seg g).ackedRun? .read = some r → s.job? r.slot = some j → j.awaitsLength = true) ∨
      AckTaken ((readByte g s).seg g) := by
  unfold readByte
  dsimp only
  split
  · rename_i h
    exact .inl ⟨rfl, fun r j hr => by rw [h] at hr; simp at hr⟩
  · rename_i r hr
    split
    · rename_i hj
      exact .inl ⟨rfl, fun r' j hr' hj' => by rw [hr] at hr'; cases hr'; rw [hj] at hj'; simp at hj'⟩
    · rename_i j hj
      split
      · rename_i ha
        refine .inl ⟨rfl, fun r' j' hr' hj' => ?_⟩
        rw [hr] at hr'
        cases hr'
        rw [hj] at hj'
        cases hj'
        exact ha
      · right
        split
        · exact ackTaken_took hr (by rw [(goOn_framer g _ _ _ _).1]; simp)
            (by rw [(goOn_framer g _ _ _ _).2]; simp [tookBit])
        · exact ackTaken_took hr (by rw [(phaseComplete_framer g _ _ _).1]; simp)
            (by rw [(phaseComplete_framer g _ _ _).2]; simp [tookBit])

/-- A step that receives a byte leaves the bit place taken and the loss as it was. -/
theorem windowWriteByte_taken {g : SegId} {s : State} (h : LossTaken (s.seg g) s.job?) :
    (windowWriteByte g s = s ∧ ∀ t, (s.seg g).receives? = some t → ∀ p c, t.access ≠ .windowWrite p c) ∨
      NoneOwed ((windowWriteByte g s).seg g) (windowWriteByte g s).job? := by
  unfold windowWriteByte
  dsimp only
  split
  · rename_i t ht
    split
    · right
      refine .of_taken (by simp [serveWrite]) ?_
      rw [seg_modSeg, modEntry, seg_modSeg]
      exact (h.setEntry _ _).serveWrite _
    · right
      refine .of_taken (by simp [serveWrite]) ?_
      rw [seg_modSeg, modEntry, seg_modSeg]
      exact (h.setEntry _ _).serveWrite _
    · rename_i h1 h2
      refine .inl ⟨rfl, fun t' ht' p c e => ?_⟩
      rw [ht] at ht'
      cases ht'
      cases p
      · exact h1 c e
      · exact h2 c e
  · rename_i hn
    exact .inl ⟨rfl, fun t ht => by rw [hn] at ht; simp at ht⟩

theorem mailWriteByte_taken {g : SegId} {s : State} (h : LossTaken (s.seg g) s.job?) :
    (mailWriteByte g s = s ∧ ∀ t, (s.seg g).receives? = some t → ∀ a b o, t.access ≠ .mailWrite a b o) ∨
      NoneOwed ((mailWriteByte g s).seg g) (mailWriteByte g s).job? := by
  unfold mailWriteByte
  dsimp only
  split
  · rename_i t ht
    split
    · split
      · exact .inr (.of_taken (by simp [serveWrite]) (by rw [seg_modSeg]; exact h.serveWrite _))
      · exact .inr (.of_taken (by simp [serveWrite]) (by rw [seg_modSeg]; exact h.serveWrite _))
    · rename_i h1
      refine .inl ⟨rfl, fun t' ht' a b o e => ?_⟩
      rw [ht] at ht'
      cases ht'
      exact h1 a b o e
  · rename_i hn
    exact .inl ⟨rfl, fun t ht => by rw [hn] at ht; simp at ht⟩

theorem loads_low {x : Segment} {t : Transaction} (h : x.loads? = some t) : x.scl = false := by
  unfold Segment.loads? Segment.ackEnded at h
  split at h
  · split at h
    · rename_i hc
      simp at hc
      exact hc.1.1.1.2
    · simp at h
  · simp at h

theorem windowReadByte_taken (g : SegId) (s : State) :
    (windowReadByte g s = s ∧ ∀ t, (s.seg g).loads? = some t → t.access ≠ .windowRead) ∨
      AckTaken ((windowReadByte g s).seg g) := by
  unfold windowReadByte
  dsimp only
  split
  · rename_i t ht
    split
    · right
      exact ⟨by simp [loadSender], by simpa [loadSender, modEntry, Segment.setEntry] using loads_low ht⟩
    · rename_i h1
      exact .inl ⟨rfl, fun t' ht' e => by rw [ht] at ht'; cases ht'; exact h1 e⟩
  · rename_i hn
    exact .inl ⟨rfl, fun t ht => by rw [hn] at ht; simp at ht⟩

theorem mailReadByte_taken (g : SegId) (s : State) :
    (mailReadByte g s = s ∧ ∀ t, (s.seg g).loads? = some t → ∀ b n p e, t.access ≠ .mailRead b n p e) ∨
      AckTaken ((mailReadByte g s).seg g) := by
  unfold mailReadByte
  dsimp only
  split
  · rename_i t ht
    split
    · right
      split <;> exact ⟨by simp [loadSender], by simpa [loadSender] using loads_low ht⟩
    · rename_i h1
      exact .inl ⟨rfl, fun t' ht' b n p e h => by rw [ht] at ht'; cases ht'; exact h1 b n p e h⟩
  · rename_i hn
    exact .inl ⟨rfl, fun t ht => by rw [hn] at ht; simp at ht⟩

/-! ## Taking again takes nothing -/

/-- After what a segment owes has been taken it owes nothing: each step finds its case absent, or leaves nothing owed
for the later ones. -/
theorem settleSegment_owes (g : SegId) (s : State) :
    NoneOwed ((settleSegment g s).seg g) (settleSegment g s).job? := by
  unfold settleSegment
  have h1 := arbitrationLoss_taken g s
  generalize arbitrationLoss g s = a at h1
  obtain ⟨h2, h3⟩ := respAddressByte_taken h1
  generalize respAddressByte g a = b at h2 h3
  rcases addressAck_taken g b with ⟨e4, h4⟩ | h4
  · rw [e4]
    rcases writeByteAck_taken g b with ⟨e5, h5⟩ | h5
    · rw [e5]
      rcases lengthByte_taken g b with ⟨e6, h6⟩ | h6
      · rw [e6]
        rcases readByte_taken g b with ⟨e7, h7⟩ | h7
        · rw [e7]
          have hread : ∀ r, (b.seg g).ackedRun? .read = some r → b.job? r.slot = none := fun r hr => by
            match hj : b.job? r.slot with
            | none => rfl
            | some j => exact absurd (h7 r j hr hj) (by simp [h6 r j hr hj])
          rcases windowWriteByte_taken h2 with ⟨e8, h8⟩ | h8
          · rw [e8]
            rcases mailWriteByte_taken h2 with ⟨e9, h9⟩ | h9
            · rw [e9]
              rcases windowReadByte_taken g b with ⟨e10, h10⟩ | h10
              · rw [e10]
                rcases mailReadByte_taken g b with ⟨e11, h11⟩ | h11
                · rw [e11]
                  exact
                    { loss := h2, address := h3
                      acks := by simpa using ⟨h4, h5, hread⟩
                      receives := fun t ht => ⟨h8 t ht, h9 t ht⟩
                      loads := fun t ht => ⟨h10 t ht, h11 t ht⟩ }
                · exact h11.none
              · obtain ⟨_, _, _, _, _, _, _, _, e11⟩ := steps_none h10.none
                rw [e11]
                exact h10.none
            · obtain ⟨_, _, _, _, _, _, _, e10, e11⟩ := steps_none h9
              rw [e10, e11]
              exact h9
          · obtain ⟨_, _, _, _, _, _, e9, e10, e11⟩ := steps_none h8
            rw [e9, e10, e11]
            exact h8
        · obtain ⟨_, _, _, _, _, e8, e9, e10, e11⟩ := steps_none h7.none
          rw [e8, e9, e10, e11]
          exact h7.none
      · obtain ⟨_, _, _, _, e7, e8, e9, e10, e11⟩ := steps_none h6.none
        rw [e7, e8, e9, e10, e11]
        exact h6.none
    · obtain ⟨_, _, _, e6, e7, e8, e9, e10, e11⟩ := steps_none h5.none
      rw [e6, e7, e8, e9, e10, e11]
      exact h5.none
  · obtain ⟨_, _, e5, e6, e7, e8, e9, e10, e11⟩ := steps_none h4.none
    rw [e5, e6, e7, e8, e9, e10, e11]
    exact h4.none

/-- What is owed at an engine does not depend on its summary, and no less is owed for a slot that is filled. -/
theorem NoneOwed.elsewhere {k g : SegId} {s t : State} (h : NoneOwed (s.seg g) s.job?) (e : Elsewhere k s t)
    (hg : g ≠ k) : NoneOwed (t.seg g) t.job? := by
  obtain ⟨u, hu⟩ := e.engines g hg
  rw [hu]
  exact
    { loss := fun hl => by
        obtain ⟨r, h1, h2, h3, h4⟩ := h.loss ((lossSeen_congr (x := s.seg g) rfl rfl rfl rfl rfl rfl rfl).symm.trans hl)
        exact ⟨r, h1, h2, e.free _ h3, h4⟩
      address := h.address
      acks := fun sub hs r hr => e.free _ (h.acks sub hs r hr)
      receives := h.receives
      loads := h.loads }

/-- Taking what is owed leaves nothing owed anywhere. -/
theorem settle_owes (s : State) : (settle s).link.inHand = none ∧ ∀ g, NoneOwed ((settle s).seg g) (settle s).job? := by
  unfold settle
  constructor
  · simp only [settleSegment_inHand]
    exact answerInHand_inHand s
  · generalize answerInHand s = a
    have h0 := settleSegment_owes 0 a
    generalize settleSegment 0 a = b at h0
    have h1 := settleSegment_owes 1 b
    have e1 := settleSegment_elsewhere 1 b
    generalize settleSegment 1 b = c at h1 e1
    have h2 := settleSegment_owes 2 c
    have e2 := settleSegment_elsewhere 2 c
    generalize settleSegment 2 c = d at h2 e2
    have h3 := settleSegment_owes 3 d
    have e3 := settleSegment_elsewhere 3 d
    intro g
    match g with
    | 0 =>
      exact (((h0.elsewhere e1 (by decide)).elsewhere e2 (by decide)).elsewhere e3 (by decide))
    | 1 => exact ((h1.elsewhere e2 (by decide)).elsewhere e3 (by decide))
    | 2 => exact h2.elsewhere e3 (by decide)
    | 3 => exact h3

/-- What has been taken is not owed again. -/
theorem settle_idem (s : State) : settle (settle s) = settle s := by
  obtain ⟨h, hn⟩ := settle_owes s
  generalize settle s = t at h hn
  unfold settle
  rw [answerInHand_none h, settleSegment_none (hn 0), settleSegment_none (hn 1), settleSegment_none (hn 2),
    settleSegment_none (hn 3)]

end Sys2Proof.Machine
end

