-- ==== Sys2Proof/Laws/Books.lean ====
section
/-! SUPPORT. The books of a state: the job pool, the replies owed and the distinct addresses. What each shared operation
does to them. -/

namespace Sys2Proof.Machine

/-! ## The books -/

/-- The books: the pool, the replies owed, the addresses of the enabled entries, the resets and disables under way. -/
structure Books (s : State) : Prop where
  pool : s.pool
  owed : Owed s
  distinct : ∀ g, (s.seg g).distinct
  ending : ∀ g, (s.seg g).ending

/-- The books with a queue and a current job taken for those of segment `g`, whatever its engine holds at the moment and
whether or not a reset there is under way. -/
structure BooksAt (g : SegId) (l : List Slot) (c : Option Slot) (s : State) : Prop where
  pool :
    Pool s.job? (s.notices.queue.map (·.source)) (fun k => if k = g then l else (s.seg k).queue)
      (fun k => if k = g then c else (s.seg k).init.slot?)
  owed : Owed s
  distinct : ∀ g, (s.seg g).distinct
  ending : ∀ k, k ≠ g → (s.seg k).ending

theorem Books.at {s : State} (h : Books s) (g : SegId) : BooksAt g (s.seg g).queue (s.seg g).init.slot? s := by
  refine ⟨h.pool.same (fun _ => rfl) (fun _ => rfl) (fun k => ?_) (fun k => ?_), h.owed, h.distinct,
    fun k _ => h.ending k⟩
  · split
    · rename_i e; rw [e]
    · rfl
  · split
    · rename_i e; rw [e]
    · rfl

theorem BooksAt.close {g : SegId} {l : List Slot} {c : Option Slot} {s : State} (h : BooksAt g l c s)
    (hl : (s.seg g).queue = l) (hc : (s.seg g).init.slot? = c) (he : (s.seg g).ending) : Books s := by
  refine ⟨h.pool.same (fun _ => rfl) (fun _ => rfl) (fun k => ?_) (fun k => ?_), h.owed, h.distinct, fun k => ?_⟩
  · split
    · rename_i e; rw [e, hl]
    · rfl
  · split
    · rename_i e; rw [e, hc]
    · rfl
  · by_cases e : k = g
    · rw [e]; exact he
    · exact h.ending k e

/-! ## The replies owed -/

/-- Only the running job has a cancel pending with its reply to make. -/
abbrev Cancels (s : State) : Prop :=
  ∀ i j, s.job? i = some j → j.cancelReply ≠ none → j.cancelPending = true ∧ j.status = .current

/-- What a change of the link unit leaves of the replies and the cache. -/
structure SameReplies (s t : State) : Prop where
  replies : t.link.replies = s.link.replies
  reserved : t.link.reserved = s.link.reserved
  cache : t.link.cache = s.link.cache
  nextAge : t.link.nextAge = s.link.nextAge

theorem SameReplies.of_link {s t : State} (h : t.link = s.link) : SameReplies s t := by
  constructor <;> rw [h]

theorem Owed.same {s t : State} (h : Owed s) (k : SameReplies s t) (ho : ∀ x, t.owes x = s.owes x) (hc : Cancels t) :
    Owed t := by
  have e : t.owes = s.owes := funext ho
  refine ⟨?_, ?_, ?_, ?_, ?_, hc⟩
  · rw [k.reserved, e]; exact h.reserved
  · rw [k.reserved, k.replies]; exact h.places
  · rw [k.cache]; exact h.capacity
  · rw [k.cache, e]; exact h.pending
  · rw [k.cache, k.nextAge]; exact h.ages

/-- A holder's reply is made: its reserved place is filled and its cache entry completed (R169, R171, R172). -/
theorem Owed.discharge {s t : State} (h : Owed s) {x : Holder} {age : Nat} {body : List Byte}
    (hx : s.owes x = some (some age)) (hx' : t.owes x = none) (ho : ∀ y, y ≠ x → t.owes y = s.owes y)
    (hr : t.link.reserved = s.link.reserved - 1) (hl : t.link.replies.length = s.link.replies.length + 1)
    (hc : t.link.cache = completeEntry age body s.link.cache) (hn : t.link.nextAge = s.link.nextAge)
    (hcan : Cancels t) : Owed t := by
  have hlen := owes_discharge (f := s.owes) (f' := t.owes) (x := x) (by simp [hx]) hx' ho
  have h1 := h.reserved
  refine ⟨by omega, ?_, ?_, fun e he hp => ?_, ?_, hcan⟩
  · have := h.places
    rw [hr, hl]
    omega
  · rw [hc]
    simpa [completeEntry] using h.capacity
  · rw [hc] at he
    simp only [completeEntry, List.mem_map] at he
    obtain ⟨e', he', rfl⟩ := he
    split at hp
    · simp at hp
    · rename_i hne
      obtain ⟨y, hy⟩ := h.pending e' he' hp
      refine ⟨y, ?_⟩
      rw [ho y]
      · simp only [hne, if_false]; exact hy
      · rintro rfl
        rw [hx] at hy
        simp only [Option.some.injEq] at hy
        exact hne hy.symm
  · have e : (completeEntry age body s.link.cache).map (·.age) = s.link.cache.map (·.age) := by
      simp only [completeEntry, List.map_map]
      congr 1
      funext e
      simp only [Function.comp]
      split <;> rfl
    refine ⟨by rw [hc, e]; exact h.ages.1, fun a ha => ?_⟩
    rw [hc] at ha
    simp only [completeEntry, List.mem_map] at ha
    obtain ⟨a', ha', rfl⟩ := ha
    have := h.ages.2 a' ha'
    rw [hn]
    split <;> exact this

/-- A holder hands its debt to another. -/
theorem Owed.transfer {s t : State} (h : Owed s) (k : SameReplies s t) {x y : Holder}
    (hy : s.owes y = none) (hx' : t.owes x = none) (hy' : t.owes y = s.owes x)
    (ho : ∀ z, z ≠ x → z ≠ y → t.owes z = s.owes z) (hc : Cancels t) : Owed t := by
  have hlen := owes_transfer hy hx' hy' ho
  refine ⟨?_, ?_, ?_, fun e he hp => ?_, ?_, hc⟩
  · rw [k.reserved, hlen]; exact h.reserved
  · rw [k.reserved, k.replies]; exact h.places
  · rw [k.cache]; exact h.capacity
  · rw [k.cache] at he
    obtain ⟨z, hz⟩ := h.pending e he hp
    by_cases e1 : z = x
    · subst e1
      exact ⟨y, hy'.trans hz⟩
    · by_cases e2 : z = y
      · rw [e2, hy] at hz
        simp at hz
      · exact ⟨z, (ho z e1 e2).trans hz⟩
  · rw [k.cache, k.nextAge]; exact h.ages

theorem owes_hand {s t : State} (h : t.link.inHand = s.link.inHand) : t.owes .hand = s.owes .hand := by
  simp only [State.owes, h]

theorem owes_cancel {s t : State} {i : Slot}
    (h : (t.job? i).bind (·.cancelReply) = (s.job? i).bind (·.cancelReply)) : t.owes (.cancel i) = s.owes (.cancel i) := by
  have : ∀ o : Option Job, o.bind (fun j => j.cancelReply.map (fun d => some d.age)) =
      (o.bind (·.cancelReply)).map (fun d => some d.age) := by
    intro o; cases o <;> rfl
  simp only [State.owes, this, h]

theorem owes_write {s t : State} {g : SegId} {e : EntryId}
    (h : ((t.seg g).entry e).deferred = ((s.seg g).entry e).deferred) : t.owes (.write g e) = s.owes (.write g e) := by
  simp only [State.owes, h]

/-! ## Operations that leave the books alone -/

/-- What the books say of an entry is as before. -/
structure SameEntry (a b : Entry) : Prop where
  deferred : b.deferred = a.deferred
  enable : b.enable = a.enable
  address : b.address = a.address

theorem SameEntry.refl (a : Entry) : SameEntry a a := ⟨rfl, rfl, rfl⟩

/-- From `s` to `t` an operation has left the books alone, but for the queue and the current job of segment `g`. -/
structure Calm (g : SegId) (s t : State) : Prop where
  jobs : ∀ i, (t.job? i).map Job.tag = (s.job? i).map Job.tag
  sources : ∀ i, (t.notices.queue.map (·.source)).count (.job i) = (s.notices.queue.map (·.source)).count (.job i)
  queues : ∀ k, k ≠ g → (t.seg k).queue = (s.seg k).queue
  currents : ∀ k, k ≠ g → (t.seg k).init.slot? = (s.seg k).init.slot?
  endings : ∀ k, k ≠ g → (s.seg k).ending → (t.seg k).ending
  entries : ∀ k e, SameEntry ((s.seg k).entry e) ((t.seg k).entry e)
  link : t.link = s.link

theorem Calm.refl (g : SegId) (s : State) : Calm g s s :=
  ⟨fun _ => rfl, fun _ => rfl, fun _ _ => rfl, fun _ _ => rfl, fun _ _ h => h, fun _ _ => .refl _, rfl⟩

theorem Calm.trans {g : SegId} {s t u : State} (h : Calm g s t) (k : Calm g t u) : Calm g s u :=
  ⟨fun i => (k.jobs i).trans (h.jobs i), fun i => (k.sources i).trans (h.sources i),
    fun n hn => (k.queues n hn).trans (h.queues n hn), fun n hn => (k.currents n hn).trans (h.currents n hn),
    fun n hn e => k.endings n hn (h.endings n hn e),
    fun n e =>
      ⟨(k.entries n e).deferred.trans (h.entries n e).deferred, (k.entries n e).enable.trans (h.entries n e).enable,
        (k.entries n e).address.trans (h.entries n e).address⟩,
    k.link.trans h.link⟩

theorem bind_of_tag {a b : Option Job} (h : b.map Job.tag = a.map Job.tag) :
    b.bind (·.cancelReply) = a.bind (·.cancelReply) := by
  cases a with
  | none =>
    cases b with
    | none => rfl
    | some k => simp at h
  | some j =>
    cases b with
    | none => simp at h
    | some k =>
      simp only [Option.map_some, Option.some.injEq, Job.tag_eq] at h
      exact h.2.2.2.1

theorem Calm.owed {g : SegId} {s t : State} (k : Calm g s t) (h : Owed s) : Owed t := by
  refine h.same (.of_link k.link) (fun x => ?_) (fun i j hj hr => ?_)
  · cases x with
    | hand => exact owes_hand (by rw [k.link])
    | cancel i => exact owes_cancel (bind_of_tag (k.jobs i))
    | write n e => exact owes_write (k.entries n e).deferred
  · obtain ⟨j', hj', ht⟩ := tag_of_map (k.jobs i) hj
    rw [Job.tag_eq] at ht
    obtain ⟨_, _, h3, h4, h5⟩ := ht
    have := h.cancels i j' hj' (by rw [h4]; exact hr)
    rw [← h3, ← h5]
    exact this

theorem Segment.distinct.same {x y : Segment} (h : x.distinct) (k : ∀ e, SameEntry (x.entry e) (y.entry e)) :
    y.distinct := fun a b h1 h2 h3 => by
  rw [(k a).enable] at h1
  rw [(k b).enable] at h2
  rw [(k a).address, (k b).address] at h3
  exact h a b h1 h2 h3

theorem BooksAt.calm {g : SegId} {l : List Slot} {c : Option Slot} {s t : State} (h : BooksAt g l c s)
    (k : Calm g s t) : BooksAt g l c t := by
  refine ⟨h.pool.same (fun i => place_of_tag (k.jobs i)) k.sources (fun n => ?_) (fun n => ?_), k.owed h.owed,
    fun n => (h.distinct n).same (k.entries n), fun n hn => k.endings n hn (h.ending n hn)⟩
  · split
    · rfl
    · rename_i e; exact k.queues n e
  · split
    · rfl
    · rename_i e; exact k.currents n e

theorem Books.calm {g : SegId} {s t : State} (h : Books s) (k : Calm g s t) (hq : (t.seg g).queue = (s.seg g).queue)
    (hc : (t.seg g).init.slot? = (s.seg g).init.slot?) (he : (t.seg g).ending) : Books t :=
  ((h.at g).calm k).close hq hc he

/-- A reset or a disable is under way as before. -/
theorem Segment.ending.same {x y : Segment} (h : x.ending) (h1 : y.resetting = x.resetting)
    (h2 : y.disabling = x.disabling) (h3 : y.init = x.init) : y.ending := by
  unfold Segment.ending
  rw [h1, h2, h3]
  exact h

theorem Segment.ending.only {x y : Segment} (h : x.ending) (k : ResponderOnly x y) : y.ending :=
  h.same k.resetting k.disabling k.init

theorem entry_of_entries {x y : Segment} (h : y.entries = x.entries) (e : EntryId) : SameEntry (x.entry e) (y.entry e) := by
  simp only [Segment.entry, h]
  exact .refl _

theorem modSeg_calm (g : SegId) {f : Segment → Segment} (s : State) (h : (f (s.seg g)).entries = (s.seg g).entries) :
    Calm g s (modSeg g f s) :=
  ⟨fun _ => rfl, fun _ => rfl, fun k hk => by rw [seg_modSeg_ne s f hk], fun k hk => by rw [seg_modSeg_ne s f hk],
    fun k hk h => by rw [seg_modSeg_ne s f hk]; exact h,
    fun k e => by
      rw [seg_modSeg_eq]; split
      · rename_i e'; subst e'; exact entry_of_entries h e
      · exact .refl _,
    rfl⟩

theorem modEntry_calm (g : SegId) (e : EntryId) {f : Entry → Entry} (s : State)
    (h : SameEntry ((s.seg g).entry e) (f ((s.seg g).entry e))) : Calm g s (modEntry g e f s) :=
  ⟨fun _ => rfl, fun _ => rfl, fun k hk => by rw [modEntry, seg_modSeg_ne s _ hk],
    fun k hk => by rw [modEntry, seg_modSeg_ne s _ hk],
    fun k hk h => by rw [modEntry, seg_modSeg_ne s _ hk]; exact h,
    fun k n => by
      rw [modEntry, seg_modSeg_eq]; split
      · rename_i e'
        subst e'
        rw [entry_setEntry_eq]; split
        · rename_i e''; subst e''; exact h
        · exact .refl _
      · exact .refl _,
    rfl⟩

/-- A change of notices, times or the receiver that joins or takes no JOB_DONE. -/
theorem Calm.of_segs {g : SegId} {s t : State} (hs : t.segs = s.segs) (hj : t.jobs = s.jobs) (hl : t.link = s.link)
    (hn : ∀ i, (t.notices.queue.map (·.source)).count (.job i) = (s.notices.queue.map (·.source)).count (.job i)) :
    Calm g s t :=
  ⟨fun i => by simp only [State.job?, hj], hn, fun k _ => by simp only [State.seg, hs],
    fun k _ => by simp only [State.seg, hs], fun k _ h => by simpa only [State.seg, hs] using h,
    fun k e => by simp only [State.seg, hs]; exact .refl _, hl⟩

theorem setJob_calm (g : SegId) (s : State) {i : Slot} {j k : Job} (hj : s.job? i = some j) (ht : k.tag = j.tag) :
    Calm g s (s.setJob i (some k)) :=
  ⟨fun n => by
    rw [job?_setJob_eq]; split
    · rename_i e; subst e; rw [hj]; simp [ht]
    · rfl,
    fun _ => rfl, fun _ _ => rfl, fun _ _ => rfl, fun _ _ h => h, fun _ _ => .refl _, rfl⟩

theorem modJob_calm (g : SegId) (s : State) (i : Slot) {f : Job → Job} (hf : ∀ j, (f j).tag = j.tag) :
    Calm g s (modJob i f s) :=
  ⟨fun n => by
    by_cases e : n = i
    · subst e
      rw [job?_modJob]
      cases s.job? n <;> simp [hf]
    · rw [job?_modJob_ne s f e],
    fun _ => rfl, fun _ _ => rfl, fun _ _ => rfl, fun _ _ h => h, fun _ _ => .refl _, rfl⟩

theorem joinRecord_calm (g : SegId) (kind : NoticeKind) (payload : List Byte) (s : State) :
    Calm g s (joinNotice kind .record payload s) :=
  .of_segs rfl rfl rfl (fun i => by simp [joinNotice, List.count_append])

theorem claimEvent_calm (g : SegId) (ev : SegEvent) (s : State) : Calm g s (claimEvent g ev s) := by
  unfold claimEvent
  split
  · exact joinRecord_calm g _ _ s
  · exact modSeg_calm g s rfl

theorem releaseRecord_segs (s : State) (k : SegId) :
    ((releaseRecord s).seg k).queue = (s.seg k).queue ∧ ((releaseRecord s).seg k).init = (s.seg k).init ∧
      ((releaseRecord s).seg k).entries = (s.seg k).entries := by
  unfold releaseRecord
  split
  · exact ⟨rfl, rfl, rfl⟩
  · rename_i n _
    show ((modSeg n (fun x => { x with summary := Summary.empty })
        (joinNotice .segSummary .record (summaryPayload n (s.seg n).summary) s)).seg k).queue = _ ∧
      ((modSeg n (fun x => { x with summary := Summary.empty })
        (joinNotice .segSummary .record (summaryPayload n (s.seg n).summary) s)).seg k).init = _ ∧
      ((modSeg n (fun x => { x with summary := Summary.empty })
        (joinNotice .segSummary .record (summaryPayload n (s.seg n).summary) s)).seg k).entries = _
    rw [seg_modSeg_eq]
    split
    · rename_i e; subst e; exact ⟨rfl, rfl, rfl⟩
    · exact ⟨rfl, rfl, rfl⟩

theorem releaseRecord_calm (g : SegId) (s : State) : Calm g s (releaseRecord s) := by
  refine ⟨fun i => ?_, fun i => ?_, fun k _ => (releaseRecord_segs s k).1,
    fun k _ => by rw [(releaseRecord_segs s k).2.1],
    fun k _ h => h.only (releaseRecord_only k s), fun k e => entry_of_entries (releaseRecord_segs s k).2.2 e,
    releaseRecord_link s⟩
  · simp only [State.job?, releaseRecord_jobs]
  · unfold releaseRecord
    split
    · rfl
    · simp [joinNotice, List.count_append]

theorem cutByte_calm (g : SegId) (t : Transaction) (s : State) : Calm g s (cutByte g t s) := by
  unfold cutByte
  split
  · exact modEntry_calm g _ s ⟨rfl, rfl, rfl⟩
  · exact .refl _ _

theorem endAccess_calm (g : SegId) (t : Transaction) (b : Bool) (s : State) : Calm g s (endAccess g t b s) := by
  unfold endAccess
  dsimp only
  repeat' split
  all_goals first
    | exact .refl _ _
    | exact claimEvent_calm _ _ _
    | exact releaseRecord_calm _ _
    | exact joinRecord_calm _ _ _ _
    | exact (modEntry_calm g _ s ⟨rfl, rfl, rfl⟩).trans (claimEvent_calm _ _ _)

/-! ## Deferred writes and the end of a transaction -/

theorem entry_modEntry_eq (g : SegId) (e : EntryId) (f : Entry → Entry) (s : State) (k : SegId) (a : EntryId) :
    ((modEntry g e f s).seg k).entry a =
      if k = g ∧ a = e then f ((s.seg g).entry e) else (s.seg k).entry a := by
  rw [modEntry, seg_modSeg_eq]
  by_cases h : k = g
  · subst h
    rw [if_pos rfl, entry_setEntry_eq]
    by_cases h' : a = e <;> simp [h']
  · simp [h]

theorem queue_modEntry (g : SegId) (e : EntryId) (f : Entry → Entry) (s : State) (k : SegId) :
    ((modEntry g e f s).seg k).queue = (s.seg k).queue := by
  rw [modEntry, seg_modSeg_eq]; split
  · rename_i h; subst h; rfl
  · rfl

/-- An entry changes its deferred write alone, of what the books say: the pool and the addresses are as before. -/
theorem BooksAt.deferring {g n : SegId} {l : List Slot} {c : Option Slot} {s t : State} (h : BooksAt g l c s)
    {e : EntryId} {f : Entry → Entry} (he : (f ((s.seg n).entry e)).enable = ((s.seg n).entry e).enable)
    (ha : (f ((s.seg n).entry e)).address = ((s.seg n).entry e).address) (hs : t.segs = (modEntry n e f s).segs)
    (hj : t.jobs = s.jobs) (hn : t.notices = s.notices) (ho : Owed t) : BooksAt g l c t := by
  have seg : ∀ k, t.seg k = (modEntry n e f s).seg k := fun k => by simp only [State.seg, hs]
  refine ⟨h.pool.same (fun i => by simp only [State.job?, hj]) (fun i => by rw [hn]) (fun k => ?_) (fun k => ?_), ho,
    fun k a b h1 h2 h3 => ?_, fun k hk => (h.ending k hk).only (seg k ▸ modEntry_only n k e f s)⟩
  · split
    · rfl
    · rw [seg, queue_modEntry]
  · split
    · rfl
    · rw [seg, init_modEntry]
  · have same : ∀ a, ((t.seg k).entry a).enable = ((s.seg k).entry a).enable ∧
        ((t.seg k).entry a).address = ((s.seg k).entry a).address := by
      intro a
      rw [seg, entry_modEntry_eq]
      split
      · rename_i hh; obtain ⟨rfl, rfl⟩ := hh; exact ⟨he, ha⟩
      · exact ⟨rfl, rfl⟩
    rw [(same a).1] at h1
    rw [(same b).1] at h2
    rw [(same a).2, (same b).2] at h3
    exact h.distinct k a b h1 h2 h3

theorem applyDeferred_books {g n : SegId} {l : List Slot} {c : Option Slot} {s : State} (h : BooksAt g l c s)
    (e : EntryId) : BooksAt g l c (applyDeferred n e s) := by
  unfold applyDeferred
  split
  · exact h
  · rename_i w hw
    refine h.deferring (n := n) (e := e)
      (f := fun n => { n with window := Memory.writeRun w.offset w.bytes n.window, deferred := none })
      rfl rfl rfl rfl rfl ?_
    refine h.owed.discharge (x := .write n e) (age := w.request.age) (by simp [State.owes, hw]) ?_ (fun y hy => ?_) rfl
      (by simp [makeReply]) rfl rfl h.owed.cancels
    · simp [State.owes, entry_modEntry_eq]
    · cases y with
      | hand => exact owes_hand rfl
      | cancel i => exact owes_cancel rfl
      | write k a =>
        refine owes_write ?_
        rw [seg_makeReply, entry_modEntry_eq, if_neg]
        rintro ⟨rfl, rfl⟩
        exact hy rfl

theorem endTransaction_books {g : SegId} {l : List Slot} {c : Option Slot} {s : State} (h : BooksAt g l c s) (b : Bool) :
    BooksAt g l c (endTransaction g b s) := by
  unfold endTransaction
  dsimp only
  split
  · exact applyDeferred_books
      (h.calm ((modSeg_calm g s rfl).trans ((cutByte_calm _ _ _).trans (endAccess_calm _ _ _ _)))) _
  · split
    · exact h.calm (modSeg_calm g s rfl)
    · exact h

theorem endTransaction_keepsBooks {s : State} (h : Books s) (g : SegId) (b : Bool) : Books (endTransaction g b s) :=
  (endTransaction_books (h.at g) b).close (endTransaction_only g g b s).queue
    (by rw [(endTransaction_only g g b s).init]) ((h.ending g).only (endTransaction_only g g b s))

end Sys2Proof.Machine
end

