-- ==== Sys2Proof/Laws/BooksJobs.lean ====
section
/-! SUPPORT. The books through the end of a job, the choice of the next one, and the ways out of a job. -/

namespace Sys2Proof.Machine

/-! ## The end of a job -/

theorem finishJob_eq {i : Slot} {o : JobOutcome} {b : Bool} {s : State} {j : Job} (hj : s.job? i = some j) :
    finishJob i o b s =
      (match j.cancelReply with
       | none =>
         joinNotice .jobDone (.job i) (jobDonePayload j (completionOf s.now o b j))
           (s.setJob i (some { j with status := .finished (completionOf s.now o b j), cancelReply := none }))
       | some d =>
         makeReply d codeJobCancel (cancelCode j o) (cancelData j o true) false
           (joinNotice .jobDone (.job i) (jobDonePayload j (completionOf s.now o b j))
             (s.setJob i (some { j with status := .finished (completionOf s.now o b j), cancelReply := none })))) := by
  simp only [finishJob, hj] <;> rfl

theorem finishJob_owed {s : State} (h : Owed s) (i : Slot) (o : JobOutcome) (b : Bool) : Owed (finishJob i o b s) := by
  cases hj : s.job? i with
  | none => simp only [finishJob, hj]; exact h
  | some j =>
    have hcan : ∀ t : State, (∀ m, t.job? m = if m = i then
        some { j with status := .finished (completionOf s.now o b j), cancelReply := none } else s.job? m) → Cancels t := by
      intro t ht m k hk hr
      rw [ht] at hk
      split at hk
      · cases hk; exact absurd rfl hr
      · exact h.cancels m k hk hr
    have other : ∀ m, m ≠ i → ((finishJob i o b s).job? m) = s.job? m := by
      intro m hm
      rw [finishJob_eq hj]
      split
      · exact job?_setJob_ne s _ hm
      · exact job?_setJob_ne s _ hm
    rw [finishJob_eq hj] at other ⊢
    split at other
    · rename_i hr
      refine h.same ⟨rfl, rfl, rfl, rfl⟩ (fun x => ?_) (hcan _ (fun m => job?_setJob_eq s i m _))
      cases x with
      | hand => exact owes_hand rfl
      | cancel m =>
        refine owes_cancel ?_
        by_cases e : m = i
        · subst e
          rw [hj]
          show ((s.setJob m _).job? m).bind _ = _
          rw [job?_setJob]
          simp [hr]
        · rw [other m e]
      | write k e => exact owes_write rfl
    · rename_i d hr
      refine h.discharge (x := .cancel i) (age := d.age) (by simp [State.owes, hj, hr]) ?_ (fun x hx => ?_) rfl
        (by simp [makeReply, joinNotice]) rfl rfl (hcan _ (fun m => job?_setJob_eq s i m _))
      · show ((s.setJob i _).job? i).bind _ = _
        rw [job?_setJob]
        rfl
      · cases x with
        | hand => exact owes_hand rfl
        | cancel m =>
          refine owes_cancel ?_
          rw [other m (fun e => hx (by rw [e]))]
        | write k e => exact owes_write rfl

/-- A live job of segment `g` ends: it leaves its place in the queue, or the initiator. -/
theorem finishJob_books {g : SegId} {l l' : List Slot} {c c' : Option Slot} {s : State} (h : BooksAt g l c s) {i : Slot}
    {j : Job} (o : JobOutcome) (b : Bool) (hj : s.job? i = some j) (hg : j.seg = g) (hl : ∀ x, j.status ≠ .finished x)
    (hq : ∀ m, m ∈ l' ↔ m ∈ l ∧ m ≠ i) (hn : l'.Nodup) (hc : ∀ m, c' = some m ↔ c = some m ∧ m ≠ i) :
    BooksAt g l' c' (finishJob i o b s) := by
  have hjobs : Sets i (some { j with status := .finished (completionOf s.now o b j), cancelReply := none }) s.job?
      (finishJob i o b s).job? := by
    intro m
    rw [finishJob_eq hj]
    split <;> exact job?_setJob_eq s i m _
  have hsrc : (finishJob i o b s).notices.queue.map (·.source) = s.notices.queue.map (·.source) ++ [.job i] := by
    rw [finishJob_eq hj]
    split <;> simp [joinNotice, makeReply]
  refine ⟨?_, finishJob_owed h.owed i o b, fun k => by rw [seg_finishJob]; exact h.distinct k,
    fun k hk => by rw [seg_finishJob]; exact h.ending k hk⟩
  rw [hsrc]
  refine h.pool.finish hj hl hjobs rfl rfl (fun k m => ?_) (fun k => ?_) (fun k m => ?_)
  · rw [seg_finishJob]
    split
    · exact hq m
    · rename_i e
      refine ⟨fun hm => ⟨hm, ?_⟩, fun hm => hm.1⟩
      rintro rfl
      obtain ⟨j', hj', hs', _⟩ := (h.pool.queued k m).mp (by simpa [e] using hm)
      rw [hj] at hj'
      cases hj'
      exact e (hs'.symm.trans hg)
  · split
    · exact hn
    · rename_i e
      rw [seg_finishJob]
      have := h.pool.once k
      simpa [e] using this
  · rw [seg_finishJob]
    split
    · exact hc m
    · rename_i e
      refine ⟨fun hm => ⟨hm, ?_⟩, fun hm => hm.1⟩
      rintro rfl
      obtain ⟨j', hj', hs', _⟩ := (h.pool.current k m).mp (by simpa [e] using hm)
      rw [hj] at hj'
      cases hj'
      exact e (hs'.symm.trans hg)

/-- The job a queue position holds. -/
theorem BooksAt.queued {g : SegId} {l : List Slot} {c : Option Slot} {s : State} (h : BooksAt g l c s) {i : Slot} :
    i ∈ l ↔ ∃ j, s.job? i = some j ∧ j.seg = g ∧ j.status = .queued := by
  have := h.pool.queued g i
  simpa using this

theorem BooksAt.current {g : SegId} {l : List Slot} {c : Option Slot} {s : State} (h : BooksAt g l c s) {i : Slot} :
    c = some i ↔ ∃ j, s.job? i = some j ∧ j.seg = g ∧ j.status = .current := by
  have := h.pool.current g i
  simpa using this

theorem BooksAt.nodup {g : SegId} {l : List Slot} {c : Option Slot} {s : State} (h : BooksAt g l c s) : l.Nodup := by
  have := h.pool.once g
  simpa using this

theorem mem_erase_iff {l : List Slot} (h : l.Nodup) (i m : Slot) : m ∈ l.erase i ↔ m ∈ l ∧ m ≠ i := by
  rw [h.mem_erase_iff, and_comm]

/-- The current job ends. -/
theorem finishCurrent_books {g : SegId} {l : List Slot} {s : State} {i : Slot} (h : BooksAt g l (some i) s)
    (o : JobOutcome) (b : Bool) : BooksAt g l none (finishJob i o b s) := by
  obtain ⟨j, hj, hg, hs⟩ := h.current.mp rfl
  refine finishJob_books h o b hj hg (by simp [hs]) (fun m => ⟨fun hm => ⟨hm, ?_⟩, fun hm => hm.1⟩) h.nodup
    (fun m => ?_)
  · rintro rfl
    obtain ⟨j', hj', _, hs'⟩ := h.queued.mp hm
    rw [hj] at hj'
    cases hj'
    rw [hs] at hs'
    simp at hs'
  · simp only [Option.some.injEq, ne_eq, false_iff, reduceCtorEq]
    rintro ⟨rfl, e⟩
    exact e rfl

/-- A queued job ends. -/
theorem finishQueued_books {g : SegId} {l : List Slot} {c : Option Slot} {s : State} {i : Slot} (h : BooksAt g l c s)
    (hi : i ∈ l) (o : JobOutcome) (b : Bool) : BooksAt g (l.erase i) c (finishJob i o b s) := by
  obtain ⟨j, hj, hg, hs⟩ := h.queued.mp hi
  refine finishJob_books h o b hj hg (by simp [hs]) (mem_erase_iff h.nodup i) (h.nodup.erase i)
    (fun m => ⟨fun hm => ⟨hm, ?_⟩, fun hm => hm.1⟩)
  rintro rfl
  obtain ⟨j', hj', _, hs'⟩ := h.current.mp hm
  rw [hj] at hj'
  cases hj'
  rw [hs] at hs'
  simp at hs'

theorem finishAll_books {g : SegId} {l : List Slot} {c : Option Slot} {s : State} (h : BooksAt g l c s)
    (o : JobOutcome) : BooksAt g [] c (finishAll o l s) := by
  induction l generalizing s with
  | nil => exact h
  | cons i l ih =>
    have := finishQueued_books h (List.mem_cons_self) o false
    rw [List.erase_cons_head] at this
    exact ih this

/-! ## The next job -/

/-- A queued job becomes the current one. -/
theorem takeJob_books {g : SegId} {l : List Slot} {s : State} (h : BooksAt g l none s) {i : Slot} (hi : i ∈ l)
    {j k : Job} (hj : s.job? i = some j) (hk : k.tag = { j with status := .current }.tag) :
    BooksAt g (l.erase i) (some i) (s.setJob i (some k)) := by
  rw [Job.tag_eq] at hk
  obtain ⟨k1, k2, k3, k4, k5⟩ := hk
  dsimp only at k1 k2 k3 k4 k5
  obtain ⟨j', hj', hg, hs⟩ := h.queued.mp hi
  rw [hj] at hj'
  cases hj'
  have hr : j.cancelReply = none := by
    cases e : j.cancelReply with
    | none => rfl
    | some d =>
      have := (h.owed.cancels i j hj (by simp [e])).2
      rw [hs] at this
      simp at this
  refine ⟨?_, ?_, h.distinct, h.ending⟩
  · refine h.pool.take hj hs (fun m => job?_setJob_eq s i m _) k1 k2 k3 (fun n m => ?_) (fun n => ?_) (fun n m => ?_)
    · rw [setJob_seg]
      split
      · exact mem_erase_iff h.nodup i m
      · rename_i e
        refine ⟨fun hm => ⟨hm, ?_⟩, fun hm => hm.1⟩
        rintro rfl
        obtain ⟨j', hj', hs', _⟩ := (h.pool.queued n m).mp (by simpa [e] using hm)
        rw [hj] at hj'
        cases hj'
        exact e (hs'.symm.trans hg)
    · split
      · exact h.nodup.erase i
      · rename_i e
        have := h.pool.once n
        simpa [e] using this
    · rw [setJob_seg]
      split
      · rename_i e
        subst e
        simp [hg, eq_comm]
      · rename_i e
        constructor
        · intro hm
          refine .inl ⟨hm, ?_⟩
          rintro rfl
          obtain ⟨j', hj', hs', _⟩ := (h.pool.current n m).mp (by simpa [e] using hm)
          rw [hj] at hj'
          cases hj'
          exact e (hs'.symm.trans hg)
        · rintro (⟨hm, _⟩ | ⟨hm, _⟩)
          · exact hm
          · exact absurd (hm.trans hg) e
  · refine h.owed.same ⟨rfl, rfl, rfl, rfl⟩ (fun x => ?_) (fun m b hb hr' => ?_)
    · cases x with
      | hand => exact owes_hand rfl
      | cancel m =>
        refine owes_cancel ?_
        rw [job?_setJob_eq]
        split
        · rename_i e
          subst e
          rw [hj]
          simpa using k4
        · rfl
      | write n e => exact owes_write rfl
    · rw [job?_setJob_eq] at hb
      split at hb
      · cases hb
        rw [k4, hr] at hr'
        exact absurd rfl hr'
      · exact h.owed.cancels m b hb hr'

/-- No reset and no disable is under way. -/
structure Segment.steady (x : Segment) : Prop where
  resetting : x.resetting = false
  disabling : x.disabling = false

theorem Segment.steady.ending {x : Segment} (h : x.steady) : x.ending := by
  simp [Segment.ending, h.resetting, h.disabling]

theorem Segment.ending.steady {x : Segment} (h : x.ending) (hl : x.init.leaving = false) : x.steady := by
  constructor
  · cases e : x.resetting with
    | false => rfl
    | true => have := h (.inl e); rw [hl] at this; simp at this
  · cases e : x.disabling with
    | false => rfl
    | true => have := h (.inr e); rw [hl] at this; simp at this

theorem examineQueue_books {g : SegId} {l : List Slot} {s : State} (h : BooksAt g l none s) (he : (s.seg g).steady) :
    Books (examineQueue g l s) := by
  induction l generalizing s with
  | nil =>
    exact (h.calm (modSeg_calm g s rfl)).close (by simp) (by simp [Initiator.slot?])
      (by rw [seg_modSeg]; exact Segment.steady.ending ⟨he.1, he.2⟩)
  | cons i l ih =>
    obtain ⟨j, hj, hg, hs⟩ := h.queued.mp (List.mem_cons_self)
    unfold examineQueue
    rw [hj]
    dsimp only
    split
    · have := finishQueued_books (h.calm (modSeg_calm g (f := fun x => { x with queue := l }) s rfl))
        (List.mem_cons_self) .chainBroken false
      rw [List.erase_cons_head] at this
      exact ih this (by rw [seg_finishJob, seg_modSeg]; exact ⟨he.1, he.2⟩)
    · have := takeJob_books h (List.mem_cons_self) hj (k := { j with status := .current }) rfl
      rw [List.erase_cons_head] at this
      exact (this.calm (modSeg_calm g _ rfl)).close (by simp) (by simp [Initiator.slot?])
        (by rw [seg_modSeg, setJob_seg]; exact Segment.steady.ending ⟨he.1, he.2⟩)

/-- The initiator has let its job go, and examines its queue. -/
theorem enterIdle_books {g : SegId} {s : State} (h : BooksAt g (s.seg g).queue none s) (he : (s.seg g).steady) :
    Books (enterIdle g s) := examineQueue_books h he

/-- The initiator has let its job go: the books are right, or a disable is under way that is about to end. -/
def Leaves (g : SegId) (s : State) : Prop :=
  ((s.seg g).disabling = false ∧ Books s) ∨ ((s.seg g).disabling = true ∧ BooksAt g (s.seg g).queue none s)

theorem toIdle_books {g : SegId} {s : State} (h : BooksAt g (s.seg g).queue none s)
    (hr : (s.seg g).resetting = false) : Leaves g (toIdle g s) := by
  unfold toIdle
  split
  · rename_i e
    refine .inr ⟨by rw [seg_modSeg]; exact e, ?_⟩
    rw [seg_modSeg]
    exact h.calm (modSeg_calm g s rfl)
  · rename_i e
    refine .inl ⟨?_, enterIdle_books h ⟨hr, by simpa using e⟩⟩
    rw [enterIdle, examineQueue_disabling]
    simpa using e

theorem findContinuation_mem {c : Byte} {s : State} {q : List Slot} {i : Slot} (h : findContinuation c s q = some i) :
    i ∈ q := List.mem_of_find?_eq_some h

theorem takeContinuation_books {s : State} (h : Books s) (g : SegId) : Books (takeContinuation g s) := by
  unfold takeContinuation
  dsimp only
  repeat' split
  all_goals first
    | exact h
    | skip
  rename_i hi _ hc _ i hf
  have he := (h.ending g).steady (by rw [hi]; simp [Initiator.leaving, hc])
  have hb := h.at g
  rw [hi] at hb
  have hm := findContinuation_mem hf
  obtain ⟨j, hj, _⟩ := hb.queued.mp hm
  have := takeJob_books hb hm hj (k := { j with status := .current, startTime := some s.now }) rfl
  have e : modJob i (fun j => { j with status := .current, startTime := some s.now }) s =
      s.setJob i (some { j with status := .current, startTime := some s.now }) := by
    simp [modJob, hj]
  rw [e]
  exact (this.calm (modSeg_calm g _ rfl)).close (by simp [releaseLines]) (by simp [Initiator.slot?])
    (by rw [seg_modSeg, setJob_seg]; exact Segment.steady.ending ⟨he.1, he.2⟩)

/-! ## Out of a job -/

theorem enterHeld_books {g : SegId} {s : State} (h : BooksAt g (s.seg g).queue none s) (he : (s.seg g).steady)
    (c : Byte) (r : Run) : Books (enterHeld g c r s) :=
  takeContinuation_books
    ((h.calm (modSeg_calm g s rfl)).close (by simp) (by simp [Initiator.slot?])
      (by rw [seg_modSeg]; exact Segment.steady.ending ⟨he.1, he.2⟩)) g

theorem turnOff_entries (now : Nat) (x : Segment) : (turnOff now x).entries = x.entries := by
  unfold turnOff; dsimp only; split <;> rfl

theorem turnOff_queue (now : Nat) (x : Segment) : (turnOff now x).queue = x.queue := by
  unfold turnOff; dsimp only; split <;> rfl

theorem turnOff_slot (now : Nat) (x : Segment) : (turnOff now x).init.slot? = none := by
  unfold turnOff; dsimp only; split <;> rfl

theorem turnOff_steady (now : Nat) (x : Segment) : (turnOff now x).steady := by
  unfold turnOff; dsimp only; split <;> exact ⟨rfl, rfl⟩

theorem goOff_books {g : SegId} {s : State} (h : BooksAt g (s.seg g).queue none s) : Books (goOff g s) := by
  have h1 := endTransaction_books h true
  refine (h1.calm (modSeg_calm g _ (turnOff_entries _ _))).close ?_ ?_ ?_
  · rw [seg_modSeg, turnOff_queue]; exact (endTransaction_only g g true s).queue
  · rw [seg_modSeg, turnOff_slot]
  · rw [seg_modSeg]; exact (turnOff_steady _ _).ending

theorem endDisable_books {g : SegId} {s : State} (h : Leaves g s) : Books (endDisable g s) := by
  unfold endDisable
  rcases h with ⟨hd, h⟩ | ⟨hd, h⟩
  · simpa [hd] using h
  · rw [if_pos hd]; exact goOff_books h

theorem leave_books {g : SegId} {l : List Slot} {s : State} (h : BooksAt g l none s) (hq : (s.seg g).queue = l) :
    Books (leave g s) := by
  subst hq
  have h1 := h.calm (modSeg_calm g (f := leaveLines) s rfl)
  exact endDisable_books (toIdle_books (by rw [seg_modSeg]; exact h1) (by rw [seg_modSeg]; rfl))

theorem endRun_books {g : SegId} {l : List Slot} {i : Slot} {s : State} (h : BooksAt g l (some i) s)
    (hq : (s.seg g).queue = l) (o : JobOutcome) : Books (endRun g i o s) :=
  leave_books (finishCurrent_books h o true) (by rw [seg_finishJob]; exact hq)

end Sys2Proof.Machine
end

