-- ==== Sys2Proof/Laws/Exclusion.lean ====
section
/-! SUPPORT. One unit at a time may drive the lines of a segment (R11), and enabled entries have different addresses
(R101), through the operations on an engine. -/

namespace Sys2Proof.Machine

/-! ## An engine -/

/-- An engine that differs in nothing the exclusion speaks of. -/
theorem Segment.exclusive.of_eq {x y : Segment} (h : x.exclusive) (hr : y.resp = x.resp) (hi : y.init = x.init)
    (hc : y.clear = x.clear) (h1 : y.drvScl = x.drvScl) (h2 : y.drvSda = x.drvSda) : y.exclusive := by
  constructor
  · rw [hr, hi, hc]; exact h.responder
  · rw [hi, hc]; exact h.initiator
  · rw [hi, hr, hc, h1, h2]; exact h.undriven
  · rw [hi]; exact h.starting
  · rw [hc, h1, h2]; exact h.clearing

/-- Both lines are released by the part. -/
def Segment.free (x : Segment) : Prop := x.drvScl = false ∧ x.drvSda = false

/-- An initiator that does not drive in its state owns no bus. -/
theorem Initiator.ownsBus_of_drives {i : Initiator} (h : i.drives = false) : i.ownsBus = false := by
  cases i <;> simp_all [Initiator.drives, Initiator.ownsBus]

/-- An initiator that owns the bus drives in its state. -/
theorem Initiator.drives_of_ownsBus {i : Initiator} (h : i.ownsBus = true) : i.drives = true := by
  cases i <;> simp_all [Initiator.drives, Initiator.ownsBus]

/-- A run owns the bus but in START before its drive. -/
theorem ownsBus_running {x : Segment} {r : Run} (h : x.init = .running r) (hr : r.sub = .start → r.drove = true) :
    x.init.ownsBus = true := by
  rw [h]
  cases hs : (r.sub == .start) with
  | false => simp [Initiator.ownsBus, hs]
  | true => simp [Initiator.ownsBus, hr (by simpa using hs)]

theorem ownsBus_held {x : Segment} {k : Hold} (h : x.init = .held k) : x.init.ownsBus = true := by rw [h]; rfl

/-- A run in START before its drive owns no bus. -/
theorem ownsBus_starting {x : Segment} {r : Run} (h : x.init = .running r) (hs : r.sub = .start)
    (hd : r.drove = false) : x.init.ownsBus = false := by rw [h]; simp [Initiator.ownsBus, hs, hd]

/-- Releasing the lines. -/
theorem releaseLines_exclusive {x : Segment} (h : x.exclusive) : (releaseLines x).exclusive :=
  ⟨h.responder, h.initiator, fun _ _ _ => ⟨rfl, rfl⟩, h.starting, fun _ _ => ⟨rfl, fun _ => rfl⟩⟩

/-- The initiator goes to a state in which it drives nothing: it owned no bus before, or the lines are released. -/
theorem Segment.exclusive.withInit {x : Segment} (h : x.exclusive) {i : Initiator} (hi : i.drives = false)
    (hx : x.init.ownsBus = false ∨ x.free) : Segment.exclusive { x with init := i } := by
  refine ⟨fun t ht => ⟨Initiator.ownsBus_of_drives hi, (h.responder t ht).2⟩, fun e => ?_, fun _ hr hc => ?_,
    fun r hr => ?_, h.clearing⟩
  · rw [hi] at e; exact absurd e (by simp)
  · rcases hx with hx | hx
    · exact h.undriven hx hr hc
    · exact hx
  · dsimp only at hr
    rw [hr] at hi
    simp [Initiator.drives] at hi

/-- The initiator, which owns the bus, goes to another state in which it does, with any drive of the lines. -/
theorem Segment.exclusive.withDriver {x y : Segment} (h : x.exclusive) (hx : x.init.ownsBus = true)
    (hi : y.init.ownsBus = true) (hr : y.resp = x.resp) (hc : y.clear = x.clear) : y.exclusive := by
  have hn := h.initiator (Initiator.drives_of_ownsBus hx)
  refine ⟨fun t ht => ?_, fun _ => hc.trans hn, fun e => ?_, fun r hr hs hd => ?_, fun c e => ?_⟩
  · rw [hr] at ht
    have := (h.responder t ht).1
    rw [hx] at this
    exact absurd this (by simp)
  · rw [hi] at e; exact absurd e (by simp)
  · rw [ownsBus_starting hr hs hd] at hi; simp at hi
  · rw [hc, hn] at e
    exact absurd e (by simp)

/-! ## The engines of a state -/

/-- Every engine is exclusive. -/
abbrev Exclusive (s : State) : Prop := ∀ g, (s.seg g).exclusive

theorem Exclusive.setSeg {s : State} (h : Exclusive s) (g : SegId) {x : Segment} (hx : x.exclusive) :
    Exclusive (s.setSeg g x) := by
  intro k
  rw [seg_setSeg_eq]
  split
  · exact hx
  · exact h k

theorem Exclusive.modSeg {s : State} (h : Exclusive s) (g : SegId) {f : Segment → Segment}
    (hf : (f (s.seg g)).exclusive) : Exclusive (modSeg g f s) := h.setSeg g hf

/-- The engines are used as before: nothing the exclusion speaks of differs. -/
structure SameUse (x y : Segment) : Prop where
  resp : y.resp = x.resp
  init : y.init = x.init
  clear : y.clear = x.clear
  scl : y.drvScl = x.drvScl
  sda : y.drvSda = x.drvSda

theorem SameUse.refl (x : Segment) : SameUse x x := ⟨rfl, rfl, rfl, rfl, rfl⟩

theorem SameUse.trans {x y z : Segment} (h : SameUse x y) (k : SameUse y z) : SameUse x z :=
  ⟨k.resp.trans h.resp, k.init.trans h.init, k.clear.trans h.clear, k.scl.trans h.scl,
    k.sda.trans h.sda⟩

theorem Segment.exclusive.same {x y : Segment} (h : x.exclusive) (k : SameUse x y) : y.exclusive :=
  h.of_eq k.resp k.init k.clear k.scl k.sda

/-- Operations that leave the use of every engine as it was. -/
abbrev KeepsUse (s t : State) : Prop := ∀ k, SameUse (s.seg k) (t.seg k)

theorem Exclusive.keeps {s t : State} (h : Exclusive s) (k : KeepsUse s t) : Exclusive t := fun g => (h g).same (k g)

theorem KeepsUse.of_segs {s t : State} (h : t.segs = s.segs) : KeepsUse s t := fun k => by
  have : t.seg k = s.seg k := by simp [State.seg, h]
  rw [this]
  exact .refl _

theorem modSeg_keeps (g : SegId) {f : Segment → Segment} (s : State) (h : SameUse (s.seg g) (f (s.seg g))) :
    KeepsUse s (modSeg g f s) := fun k => by
  rw [seg_modSeg_eq]
  split
  · rename_i e; exact e ▸ h
  · exact .refl _

theorem modEntry_keeps (g : SegId) (e : EntryId) (f : Entry → Entry) (s : State) : KeepsUse s (modEntry g e f s) :=
  modSeg_keeps g s ⟨rfl, rfl, rfl, rfl, rfl⟩

theorem KeepsUse.trans {s t u : State} (h : KeepsUse s t) (k : KeepsUse t u) : KeepsUse s u :=
  fun g => (h g).trans (k g)

theorem claimEvent_keeps (g : SegId) (ev : SegEvent) (s : State) : KeepsUse s (claimEvent g ev s) := by
  unfold claimEvent
  split
  · exact .of_segs rfl
  · exact modSeg_keeps g s ⟨rfl, rfl, rfl, rfl, rfl⟩

theorem releaseRecord_keeps (s : State) : KeepsUse s (releaseRecord s) := by
  unfold releaseRecord
  split
  · exact .of_segs rfl
  · rename_i g _
    exact modSeg_keeps g (f := fun x => { x with summary := Summary.empty })
      (joinNotice .segSummary .record (summaryPayload g (s.seg g).summary) s) ⟨rfl, rfl, rfl, rfl, rfl⟩

theorem finishJob_keeps (i : Slot) (o : JobOutcome) (b : Bool) (s : State) : KeepsUse s (finishJob i o b s) :=
  fun k => by rw [seg_finishJob]; exact .refl _

theorem finishAll_keeps (o : JobOutcome) (l : List Slot) (s : State) : KeepsUse s (finishAll o l s) :=
  fun k => by rw [seg_finishAll]; exact .refl _

theorem makeReply_keeps (d : Deferral) (code : Byte) (rc : ReplyCode) (data : List Byte) (b : Bool) (s : State) :
    KeepsUse s (makeReply d code rc data b s) := .of_segs rfl

theorem applyDeferred_keeps (g : SegId) (e : EntryId) (s : State) : KeepsUse s (applyDeferred g e s) := by
  unfold applyDeferred
  split
  · exact .of_segs rfl
  · exact (modEntry_keeps g e _ s).trans (makeReply_keeps _ _ _ _ _ _)

theorem cutByte_keeps (g : SegId) (t : Transaction) (s : State) : KeepsUse s (cutByte g t s) := by
  unfold cutByte
  split
  · exact modEntry_keeps _ _ _ _
  · exact .of_segs rfl

theorem endAccess_keeps (g : SegId) (t : Transaction) (b : Bool) (s : State) : KeepsUse s (endAccess g t b s) := by
  unfold endAccess
  dsimp only
  repeat' split
  all_goals first
    | exact .of_segs rfl
    | exact claimEvent_keeps _ _ _
    | exact releaseRecord_keeps _
    | exact (modEntry_keeps _ _ _ _).trans (claimEvent_keeps _ _ _)

theorem retireHead_keeps (s : State) : KeepsUse s (retireHead s) := by
  unfold retireHead
  split
  · exact .of_segs rfl
  · rename_i n rest _
    dsimp only
    split
    · exact .of_segs rfl
    · show KeepsUse
        { s with
          notices :=
            { s.notices with
              queue := rest, sentLimit := s.notices.sentLimit - 1, sendPoint := s.notices.sendPoint - 1 } } _
      exact releaseRecord_keeps _

theorem acknowledge_keeps (a : Word) (s : State) : KeepsUse s (acknowledge a s) := by
  unfold acknowledge
  split
  · exact .of_segs rfl
  · rename_i n _
    have : ∀ (n : Nat) (s : State), KeepsUse s (retire n s) := by
      intro n
      induction n with
      | zero => exact fun s => .of_segs rfl
      | succ n ih => exact fun s => (retireHead_keeps s).trans (ih _)
    exact this n s

theorem endTransaction_exclusive {s : State} (h : Exclusive s) (g : SegId) (b : Bool) :
    Exclusive (endTransaction g b s) := by
  have hg := h g
  have free : ∀ y : Segment, y.resp.transaction? = none → y.init = (s.seg g).init → y.clear = (s.seg g).clear →
      (y.free ∨ ((s.seg g).resp.transaction? = none ∧ y.drvScl = (s.seg g).drvScl ∧ y.drvSda = (s.seg g).drvSda)) →
      y.exclusive := by
    intro y hr hi hc hd
    refine ⟨fun t ht => by rw [hr] at ht; simp at ht, fun e => ?_, fun e1 _ e3 => ?_, fun r e1 e2 e3 => ?_,
      fun c e => ?_⟩
    · rw [hi] at e; rw [hc]; exact hg.initiator e
    · rcases hd with hd | ⟨h1, h2, h3⟩
      · exact hd
      · rw [h2, h3]; rw [hi] at e1; rw [hc] at e3; exact hg.undriven e1 h1 e3
    · rw [hi] at e1; exact hg.starting r e1 e2 e3
    · rw [hc] at e
      rcases hd with hd | ⟨h1, h2, h3⟩
      · exact ⟨hd.1, fun _ => hd.2⟩
      · rw [h2, h3]; exact hg.clearing c e
  have other : ∀ {t : State}, (∀ k, k ≠ g → SameUse (s.seg k) (t.seg k)) → (t.seg g).exclusive → Exclusive t := by
    intro t h1 h2 k
    by_cases e : k = g
    · subst e; exact h2
    · exact (h k).same (h1 k e)
  unfold endTransaction
  dsimp only
  split
  · rename_i t _
    let u := modSeg g (fun x => { releaseLines x with resp := .listen }) s
    have k : KeepsUse u (applyDeferred g t.entry (endAccess g { t with access := t.kept } b (cutByte g t u))) :=
      (cutByte_keeps _ _ _).trans ((endAccess_keeps _ _ _ _).trans (applyDeferred_keeps _ _ _))
    refine Exclusive.keeps (other (fun k' hk => ?_) ?_) k
    · rw [show u.seg k' = s.seg k' from seg_modSeg_ne s _ hk]; exact .refl _
    · rw [show u.seg g = { releaseLines (s.seg g) with resp := .listen } from seg_modSeg s g _]
      exact free _ rfl rfl rfl (.inl ⟨rfl, rfl⟩)
  · rename_i hn
    split
    · refine other (fun k' hk => ?_) ?_
      · rw [seg_modSeg_ne s _ hk]; exact .refl _
      · rw [seg_modSeg]; exact free _ rfl rfl rfl (.inr ⟨hn, rfl, rfl⟩)
    · refine other (fun k' hk => .refl _) (free _ hn rfl rfl (.inr ⟨hn, rfl, rfl⟩))

/-- No transaction is in flight once one has ended. -/
theorem transaction_endTransaction (g : SegId) (b : Bool) (s : State) :
    ((endTransaction g b s).seg g).resp.transaction? = none := by
  rw [resp_endTransaction]; split <;> rfl

/-! ## The initiator -/

theorem examineQueue_exclusive {s : State} (h : Exclusive s) (g : SegId) (l : List Slot)
    (hx : (s.seg g).init.ownsBus = false ∨ (s.seg g).free) : Exclusive (examineQueue g l s) := by
  induction l generalizing s with
  | nil =>
    refine h.modSeg g ?_
    exact ((h g).withInit (i := .idle) rfl hx).of_eq rfl rfl rfl rfl rfl
  | cons i l ih =>
    unfold examineQueue
    split
    · exact ih h hx
    · split
      · refine ih ((h.modSeg g ?_).keeps (finishJob_keeps _ _ _ _)) ?_
        · exact (h g).of_eq rfl rfl rfl rfl rfl
        · rw [seg_finishJob, seg_modSeg]; exact hx
      · refine Exclusive.modSeg (s := s.setJob i _) h g ?_
        exact ((h g).withInit (i := .waiting i) rfl hx).of_eq rfl rfl rfl rfl rfl

theorem enterIdle_exclusive {s : State} (h : Exclusive s) (g : SegId)
    (hx : (s.seg g).init.ownsBus = false ∨ (s.seg g).free) : Exclusive (enterIdle g s) :=
  examineQueue_exclusive h g _ hx

theorem toIdle_exclusive {s : State} (h : Exclusive s) (g : SegId)
    (hx : (s.seg g).init.ownsBus = false ∨ (s.seg g).free) : Exclusive (toIdle g s) := by
  unfold toIdle
  split
  · exact h.modSeg g ((h g).withInit rfl hx)
  · exact enterIdle_exclusive h g hx

theorem takeContinuation_exclusive {s : State} (h : Exclusive s) (g : SegId) : Exclusive (takeContinuation g s) := by
  unfold takeContinuation
  dsimp only
  repeat' split
  all_goals first
    | exact h
    | skip
  rename_i hi _ _ _ _ _
  rename_i i _
  refine Exclusive.modSeg (s := modJob i (fun j => { j with status := .current, startTime := some s.now }) s) h g ?_
  exact (h g).withDriver (ownsBus_held hi) rfl rfl rfl

theorem drives_running {x : Segment} {r : Run} (h : x.init = .running r) : x.init.drives = true := by rw [h]; rfl

theorem enterHeld_exclusive {s : State} (h : Exclusive s) (g : SegId) (c : Byte) (r : Run)
    (hx : (s.seg g).init.ownsBus = true) : Exclusive (enterHeld g c r s) := by
  refine takeContinuation_exclusive (h.modSeg g ?_) g
  exact (h g).withDriver hx rfl rfl rfl

theorem closeHold_exclusive {s : State} (h : Exclusive s) (g : SegId) (w : HoldEnd) (k : Hold)
    (hx : (s.seg g).init.ownsBus = true) : Exclusive (closeHold g w k s) := by
  refine h.modSeg g ?_
  exact (h g).withDriver hx rfl rfl rfl

theorem stopFrom_exclusive {x : Segment} (h : x.exclusive) (now : Nat) (r : Run) (w : StopWhy)
    (hx : x.init.ownsBus = true) : (stopFrom now r w x).exclusive :=
  h.withDriver hx rfl rfl rfl

theorem beginStop_exclusive {s : State} (h : Exclusive s) (g : SegId) (r : Run) (w : StopWhy)
    (hx : (s.seg g).init.ownsBus = true) : Exclusive (beginStop g r w s) := h.modSeg g (stopFrom_exclusive (h g) _ _ _ hx)

theorem leaveLines_exclusive {x : Segment} (h : x.exclusive) : (leaveLines x).exclusive :=
  (releaseLines_exclusive h).of_eq rfl rfl rfl rfl rfl

/-- An engine with nothing under way and both lines released. -/
theorem exclusive_of_free {x : Segment} (hi : x.init.drives = false) (hr : x.resp.transaction? = none)
    (hc : x.clear.isClearing = false) (hx : x.free) : x.exclusive := by
  refine ⟨fun t ht => by rw [hr] at ht; simp at ht, fun e => by rw [hi] at e; simp at e, fun _ _ _ => hx,
    fun r e => ?_, fun c e => ?_⟩
  · rw [e] at hi; simp [Initiator.drives] at hi
  · rw [e] at hc; simp [BusClear.isClearing] at hc

theorem enableSegment_exclusive {x : Segment} (now : Nat) (hx : x.free) : (enableSegment now x).exclusive :=
  exclusive_of_free rfl rfl rfl hx

theorem turnOff_exclusive (now : Nat) (x : Segment) : (turnOff now x).exclusive := by
  unfold turnOff
  dsimp only
  split
  · exact enableSegment_exclusive now ⟨rfl, rfl⟩
  · exact exclusive_of_free rfl rfl rfl ⟨rfl, rfl⟩

theorem goOff_exclusive {s : State} (h : Exclusive s) (g : SegId) : Exclusive (goOff g s) :=
  (endTransaction_exclusive h g true).modSeg g (turnOff_exclusive _ _)

theorem endDisable_exclusive {s : State} (h : Exclusive s) (g : SegId) : Exclusive (endDisable g s) := by
  unfold endDisable; split
  · exact goOff_exclusive h g
  · exact h

theorem leave_exclusive {s : State} (h : Exclusive s) (g : SegId) : Exclusive (leave g s) :=
  endDisable_exclusive
    (toIdle_exclusive (h.modSeg g (leaveLines_exclusive (h g))) g (.inr (by rw [seg_modSeg]; exact ⟨rfl, rfl⟩))) g

theorem endRun_exclusive {s : State} (h : Exclusive s) (g : SegId) (i : Slot) (o : JobOutcome) :
    Exclusive (endRun g i o s) := leave_exclusive (h.keeps (finishJob_keeps _ _ _ _)) g

theorem decideStart_exclusive {s : State} (h : Exclusive s) (g : SegId) : Exclusive (decideStart g s) := by
  unfold decideStart
  split
  · exact h
  · rename_i i hd
    unfold Segment.startDue? at hd
    split at hd
    · rename_i k hk
      split at hd
      · rename_i hc
        simp only [Bool.and_eq_true] at hc
        have hn : (s.seg g).clear = .normal := by
          have := hc.2
          cases e : (s.seg g).clear <;> simp [e, BusClear.isNormal] at this ⊢
        have ho : (s.seg g).init.ownsBus = false := by rw [hk]; rfl
        refine Exclusive.modSeg (s := modJob i (Job.beginAttempt s.now) s) h g
          ⟨fun t ht => ⟨rfl, ((h g).responder t ht).2⟩, fun _ => hn, fun _ => (h g).undriven ho, fun r e _ _ => ?_,
            (h g).clearing⟩
        cases e; rfl
      · simp at hd
    · simp at hd

/-- A run that collides is in START before its drive. -/
theorem collided_starting {x : Segment} {r : Run} (h : x.collided? = some r) :
    x.init = .running r ∧ r.sub = .start ∧ r.drove = false := by
  unfold Segment.collided? at h
  split at h
  · rename_i k hk
    split at h
    · rename_i hb
      cases h
      simp only [Bool.and_eq_true, beq_iff_eq, Bool.not_eq_true'] at hb
      exact ⟨hk, hb.1.1, hb.1.2⟩
    · simp at h
  · simp at h

theorem collide_exclusive {s : State} (h : Exclusive s) (g : SegId) : Exclusive (collide g s) := by
  unfold collide
  split
  · exact h
  · rename_i r hc
    obtain ⟨hr, hs, hd⟩ := collided_starting hc
    have ho := ownsBus_starting hr hs hd
    have h1 : Exclusive (modJob r.slot Job.countDeferral s) := h
    dsimp only
    split
    · exact h
    · split
      · exact enterIdle_exclusive (h1.keeps (finishJob_keeps _ _ _ _)) g (.inl (by rw [seg_finishJob]; exact ho))
      · exact h1.modSeg g ((h g).withInit rfl (.inl ho))

theorem runFalls_exclusive {x : Segment} (h : x.exclusive) (now : Nat) (j : Job) {r : Run} (hx : x.init = .running r) :
    (runFalls now j r x).exclusive := by
  by_cases hr : r.sub = .start ∧ r.drove = false
  · have hc := h.starting r hx hr.1 hr.2
    have ho := ownsBus_starting hx hr.1 hr.2
    simp only [runFalls, hc, hr.1, hr.2, Bool.false_eq_true, if_false]
    exact ⟨fun t ht => ⟨by simp [Initiator.ownsBus, hr.1, hr.2], (h.responder t ht).2⟩,
      fun _ => h.initiator (drives_running hx), fun _ => h.undriven ho, fun k e _ _ => by cases e; rfl, h.clearing⟩
  · have ho : r.sub = .start → r.drove = true := fun hs => by simpa [hs] using hr
    have hd := ownsBus_running hx ho
    unfold runFalls
    split
    · exact stopFrom_exclusive h now r _ hd
    · (repeat' split) <;> exact h.withDriver hd (ownsBus_running rfl (by simp_all)) rfl rfl

theorem initiatorFalls_exclusive {x : Segment} (h : x.exclusive) (now : Nat) (j : Option Job) :
    (initiatorFalls now j x).exclusive := by
  unfold initiatorFalls
  split
  · rename_i r hr
    split
    · exact runFalls_exclusive h now _ hr
    · exact h
  · rename_i k hk
    split
    · exact h.withDriver (ownsBus_held hk) rfl rfl rfl
    · exact h
  · exact h

theorem initiatorRises_exclusive {x : Segment} (h : x.exclusive) : (initiatorRises x).exclusive := by
  unfold initiatorRises
  split
  · rename_i r hr
    have ho : x.init.ownsBus = Initiator.ownsBus (.running { r with lowSince := none }) := by rw [hr]; rfl
    exact ⟨fun t ht => ⟨ho ▸ (h.responder t ht).1, (h.responder t ht).2⟩, fun _ => h.initiator (drives_running hr),
      fun e => h.undriven (ho.trans e), fun k e => by cases e; exact h.starting r hr, h.clearing⟩
  · rename_i k hk
    exact h.withDriver (ownsBus_held hk) rfl rfl rfl
  · exact h

/-- The initiator drives its start, no transaction being in flight. -/
theorem driveStart_exclusive {x : Segment} (h : x.exclusive) (ht : x.resp.transaction? = none) :
    (driveStart x).exclusive := by
  unfold driveStart
  split
  · rename_i r hr
    have ho : Initiator.ownsBus (.running { r with drove := true }) = true := by simp [Initiator.ownsBus]
    have hn := h.initiator (drives_running hr)
    exact ⟨fun t e => absurd (ht.symm.trans e) (by simp), fun _ => hn, fun e => absurd (ho.symm.trans e) (by simp),
      fun k e _ hd => by cases e; simp at hd, fun c e => absurd (hn.symm.trans e) (by simp)⟩
  · exact h

theorem beginRestart_exclusive {s : State} (h : Exclusive s) (g : SegId) (r : Run)
    (hx : (s.seg g).init.ownsBus = true) : Exclusive (beginRestart g r s) :=
  Exclusive.modSeg (s := modJob r.slot _ s) h g ((h g).withDriver hx rfl rfl rfl)

theorem phaseComplete_exclusive {s : State} (h : Exclusive s) (g : SegId) (r : Run) (j : Job)
    (hx : (s.seg g).init.ownsBus = true) : Exclusive (phaseComplete g r j s) := by
  unfold phaseComplete
  repeat' split
  all_goals first
    | exact beginStop_exclusive h g r _ hx
    | exact beginRestart_exclusive h g r hx
    | exact enterHeld_exclusive (h.keeps (finishJob_keeps _ _ _ _)) g _ r (by rw [seg_finishJob]; exact hx)

theorem goOn_exclusive {s : State} (h : Exclusive s) (g : SegId) (r : Run) (j : Job) {sub : SubStep} (hs : sub ≠ .start)
    (hx : (s.seg g).init.ownsBus = true) : Exclusive (goOn g r j sub s) := by
  unfold goOn
  split
  · exact beginStop_exclusive h g r _ hx
  · exact h.modSeg g ((h g).withDriver hx (ownsBus_running rfl (fun e => absurd e hs)) rfl rfl)

theorem ackedRun_running {x : Segment} {sub : SubStep} {r : Run} (h : x.ackedRun? sub = some r) :
    x.init = .running r := by
  unfold Segment.ackedRun? at h
  split at h
  · rename_i hr
    split at h
    · cases h; exact hr
    · simp at h
  · simp at h

theorem ackedRun_owns {x : Segment} {sub : SubStep} {r : Run} (h : x.ackedRun? sub = some r) (hs : sub ≠ .start) :
    x.init.ownsBus = true := by
  have hr := ackedRun_running h
  refine ownsBus_running hr (fun e => absurd ?_ hs)
  simp only [Segment.ackedRun?, hr] at h
  split at h
  · rename_i hc
    simp only [Bool.and_eq_true, beq_iff_eq] at hc
    exact hc.2.symm.trans e
  · simp at h

/-- The bit place taken, the job's record changed: the engines are used as before. -/
theorem tookBit_exclusive {s : State} (h : Exclusive s) (g : SegId) : Exclusive (modSeg g tookBit s) :=
  h.modSeg g ((h g).of_eq rfl rfl rfl rfl rfl)

theorem addressAck_exclusive {s : State} (h : Exclusive s) (g : SegId) : Exclusive (addressAck g s) := by
  unfold addressAck
  split
  · exact h
  · rename_i r hr
    have hx : ((modSeg g tookBit s).seg g).init.ownsBus = true := by
      rw [seg_modSeg]; exact ackedRun_owns (x := s.seg g) hr (by simp)
    have h1 := tookBit_exclusive h g
    split
    · exact h
    · dsimp only [addressNacked, addressAcked]
      repeat' split
      all_goals first
        | exact beginStop_exclusive h1 g r _ hx
        | exact phaseComplete_exclusive h1 g r _ hx
        | exact goOn_exclusive h1 g r _ (by simp) hx

theorem writeByteAck_exclusive {s : State} (h : Exclusive s) (g : SegId) : Exclusive (writeByteAck g s) := by
  unfold writeByteAck
  split
  · exact h
  · rename_i r hr
    have hx : ((modSeg g tookBit s).seg g).init.ownsBus = true := by
      rw [seg_modSeg]; exact ackedRun_owns (x := s.seg g) hr (by simp)
    have h1 := tookBit_exclusive h g
    have h2 : ∀ i j, Exclusive ((modSeg g tookBit s).setJob i j) := fun _ _ => h1
    split
    · exact h
    · dsimp only
      repeat' split
      all_goals first
        | exact beginStop_exclusive h1 g r _ hx
        | exact phaseComplete_exclusive (h2 _ _) g r _ hx
        | exact goOn_exclusive (h2 _ _) g r _ (by simp) hx

theorem readByte_exclusive {s : State} (h : Exclusive s) (g : SegId) : Exclusive (readByte g s) := by
  unfold readByte
  dsimp only
  split
  · exact h
  · rename_i r hr
    have hx : ((modSeg g tookBit s).seg g).init.ownsBus = true := by
      rw [seg_modSeg]; exact ackedRun_owns (x := s.seg g) hr (by simp)
    have h1 := tookBit_exclusive h g
    have h2 : ∀ i j, Exclusive ((modSeg g tookBit s).setJob i j) := fun _ _ => h1
    repeat' split
    all_goals first
      | exact h
      | exact phaseComplete_exclusive (h2 _ _) g r _ hx
      | exact goOn_exclusive (h2 _ _) g r _ (by simp) hx

theorem lengthByte_exclusive {s : State} (h : Exclusive s) (g : SegId) : Exclusive (lengthByte g s) := by
  unfold lengthByte
  dsimp only
  split
  · exact h
  · rename_i r hr
    have hx : ((modSeg g tookBit s).seg g).init.ownsBus = true := by
      rw [seg_modSeg]; exact ackedRun_owns (x := s.seg g) hr (by simp)
    have h1 := tookBit_exclusive h g
    have h2 : ∀ i j, Exclusive ((modSeg g tookBit s).setJob i j) := fun _ _ => h1
    repeat' split
    all_goals first
      | exact h
      | exact beginStop_exclusive h1 g r _ hx
      | exact goOn_exclusive (h2 _ _) g r _ (by simp) hx

theorem released_exclusive {s : State} (h : Exclusive s) (g : SegId) : Exclusive (modSeg g releaseLines s) :=
  h.modSeg g (releaseLines_exclusive (h g))

theorem retryAfterStop_exclusive {s : State} (h : Exclusive s) (g : SegId) (i : Slot) :
    Exclusive (retryAfterStop g i s) := by
  unfold retryAfterStop
  dsimp only
  repeat' split
  · exact h
  · exact endRun_exclusive h _ _ _
  · refine Exclusive.modSeg (s := s.setJob i _) h g ?_
    refine (releaseLines_exclusive (h g)).withInit ?_ (.inr ⟨rfl, rfl⟩)
    split <;> rfl

theorem endHold_exclusive {s : State} (h : Exclusive s) (g : SegId) (k : Hold) : Exclusive (endHold g k s) := by
  unfold endHold; split
  · exact leave_exclusive (h.keeps (claimEvent_keeps _ _ _)) g
  · exact leave_exclusive h g

theorem makeStop_exclusive {s : State} (h : Exclusive s) (g : SegId) : Exclusive (makeStop g s) := by
  unfold makeStop
  dsimp only
  repeat' split
  all_goals first
    | exact h
    | exact endRun_exclusive (released_exclusive h g) _ _ _
    | exact retryAfterStop_exclusive (released_exclusive h g) _ _
    | exact endHold_exclusive (released_exclusive h g) _ _

/-- A backoff goes on to its second or third part. -/
theorem freeBackoff_exclusive {x : Segment} (h : x.exclusive) (now : Nat) : (freeBackoff now x).exclusive := by
  unfold freeBackoff
  split
  · rename_i hb
    have hd : x.init.ownsBus = false := by rw [hb]; rfl
    repeat' split
    all_goals first
      | exact h
      | exact h.withInit rfl (.inl hd)
  · exact h

theorem backOff_exclusive {s : State} (h : Exclusive s) (g : SegId) (i : Slot) (n : Nat) (hf : (s.seg g).free) :
    Exclusive (backOff g i n s) :=
  h.modSeg g (freeBackoff_exclusive ((h g).withInit rfl (.inr hf)) _)

theorem loseBus_exclusive {s : State} (h : Exclusive s) (g : SegId) : Exclusive (loseBus g s) := by
  have h1 := released_exclusive h g
  have h2 : ∀ i j, Exclusive ((modSeg g releaseLines s).setJob i j) := fun _ _ => h1
  unfold loseBus
  split
  · dsimp only
    split
    · exact endRun_exclusive h1 _ _ _
    · split
      · exact h1
      · split
        · exact endRun_exclusive (h2 _ _) _ _ _
        · split
          · exact endRun_exclusive (h2 _ _) _ _ _
          · exact backOff_exclusive (h2 _ _) _ _ _ (by rw [setJob_seg, seg_modSeg]; exact ⟨rfl, rfl⟩)
  · exact h

theorem arbitrationLoss_exclusive {s : State} (h : Exclusive s) (g : SegId) : Exclusive (arbitrationLoss g s) := by
  unfold arbitrationLoss; split
  · exact loseBus_exclusive h g
  · exact h

theorem loseByCondition_exclusive {s : State} (h : Exclusive s) (g : SegId) : Exclusive (loseByCondition g s) := by
  unfold loseByCondition; split
  · exact loseBus_exclusive h g
  · exact h

theorem stretchExpires_exclusive {s : State} (h : Exclusive s) (g : SegId) : Exclusive (stretchExpires g s) := by
  unfold stretchExpires
  dsimp only
  repeat' split
  all_goals first
    | exact h
    | exact endRun_exclusive (released_exclusive h g) _ _ _
    | exact endHold_exclusive (released_exclusive h g) _ _

theorem backoffEnds_exclusive {s : State} (h : Exclusive s) (g : SegId) : Exclusive (backoffEnds g s) := by
  unfold backoffEnds; split
  · exact h
  · rename_i i hd
    refine h.modSeg g ?_
    refine (h g).withInit rfl (.inl ?_)
    unfold Segment.backoffDue? at hd
    split at hd
    · rename_i e; rw [e]; rfl
    · simp at hd

theorem holdExpires_exclusive {s : State} (h : Exclusive s) (g : SegId) : Exclusive (holdExpires g s) := by
  unfold holdExpires; split
  · exact h
  · rename_i k hd
    refine closeHold_exclusive h g _ _ ?_
    unfold Segment.holdDue? at hd
    split at hd
    · rename_i e; exact ownsBus_held e
    · simp at hd

/-! ## The responder -/

/-- A transaction goes on, with any drive of the lines. -/
theorem Segment.exclusive.serving {x y : Segment} (h : x.exclusive) (hx : x.resp.transaction? ≠ none)
    (hy : y.resp.transaction? ≠ none) (hi : y.init = x.init) (hc : y.clear = x.clear) :
    y.exclusive := by
  obtain ⟨t, ht⟩ := Option.ne_none_iff_exists'.mp hx
  have h1 := h.responder t ht
  refine ⟨fun _ _ => by rw [hi, hc]; exact h1, fun e => ?_, fun _ e _ => absurd e hy, fun r e => ?_, fun c e => ?_⟩
  · rw [hi] at e; rw [hc]; exact h.initiator e
  · rw [hi] at e; exact h.starting r e
  · rw [hc] at e; have h3 := h1.2; rw [e] at h3; simp [BusClear.isClearing] at h3

theorem respAddressByte_exclusive {s : State} (h : Exclusive s) (g : SegId) : Exclusive (respAddressByte g s) := by
  unfold respAddressByte
  dsimp only
  split
  · rename_i ha
    have hn : (s.seg g).resp.transaction? = none := by
      cases e : (s.seg g).resp <;> simp [Segment.addressEnded, e] at ha ⊢ <;> rfl
    refine h.modSeg g ⟨fun t ht => ?_, (h g).initiator, fun h1 _ h3 => (h g).undriven h1 hn h3, (h g).starting,
      (h g).clearing⟩
    have hs : (s.seg g).selectable = true := by
      cases e : (s.seg g).selectable with
      | true => rfl
      | false => simp [compareAddress, e, Responder.transaction?] at ht
    simp only [Segment.selectable, Bool.and_eq_true, Bool.not_eq_true'] at hs
    exact ⟨Initiator.ownsBus_of_drives hs.1, hs.2⟩
  · exact h

theorem transaction_of_receives {x : Segment} {t : Transaction} (h : x.receives? = some t) :
    x.resp.transaction? = some t := by
  unfold Segment.receives? at h
  split at h
  · rename_i e
    split at h
    · cases h; rw [e]; rfl
    · simp at h
  · simp at h

theorem transaction_of_loads {x : Segment} {t : Transaction} (h : x.loads? = some t) : x.resp.transaction? = some t := by
  unfold Segment.loads? at h
  split at h
  · rename_i e
    split at h
    · cases h; rw [e]; rfl
    · simp at h
  · simp at h

theorem modEntry_exclusive {s : State} (h : Exclusive s) (g : SegId) (e : EntryId) (f : Entry → Entry) :
    Exclusive (modEntry g e f s) := h.keeps (modEntry_keeps g e f s)

/-- A byte of a transaction is taken at an engine, after a change of its entry. -/
theorem serve_exclusive {s u : State} (g : SegId) (h : Exclusive u) (k : KeepsUse s u)
    (hx : (s.seg g).resp.transaction? ≠ none) {f : Segment → Segment}
    (hf : (f (u.seg g)).resp.transaction? ≠ none ∧
      (f (u.seg g)).init = (u.seg g).init ∧ (f (u.seg g)).clear = (u.seg g).clear) : Exclusive (modSeg g f u) :=
  h.modSeg g ((h g).serving (by rw [(k g).resp]; exact hx) hf.1 hf.2.1 hf.2.2)

theorem windowWriteByte_exclusive {s : State} (h : Exclusive s) (g : SegId) : Exclusive (windowWriteByte g s) := by
  unfold windowWriteByte
  dsimp only
  split
  · rename_i t ht
    have hx : (s.seg g).resp.transaction? ≠ none := by simp [transaction_of_receives ht]
    split
    · exact serve_exclusive g (modEntry_exclusive h _ _ _) (modEntry_keeps _ _ _ _) hx ⟨by simp [serveWrite, Responder.transaction?], rfl, rfl⟩
    · exact serve_exclusive g (modEntry_exclusive h _ _ _) (modEntry_keeps _ _ _ _) hx ⟨by simp [serveWrite, Responder.transaction?], rfl, rfl⟩
    · exact h
  · exact h

theorem windowReadByte_exclusive {s : State} (h : Exclusive s) (g : SegId) : Exclusive (windowReadByte g s) := by
  unfold windowReadByte
  dsimp only
  split
  · rename_i t ht
    have hx : (s.seg g).resp.transaction? ≠ none := by simp [transaction_of_loads ht]
    split
    · exact serve_exclusive g (modEntry_exclusive h _ _ _) (modEntry_keeps _ _ _ _) hx ⟨by simp [loadSender, Responder.transaction?], rfl, rfl⟩
    · exact h
  · exact h

theorem mailWriteByte_exclusive {s : State} (h : Exclusive s) (g : SegId) : Exclusive (mailWriteByte g s) := by
  unfold mailWriteByte
  dsimp only
  split
  · rename_i t ht
    have hx : (s.seg g).resp.transaction? ≠ none := by simp [transaction_of_receives ht]
    repeat' split
    all_goals first
      | exact h
      | exact serve_exclusive g h (.of_segs rfl) hx ⟨by simp [serveWrite, Responder.transaction?], rfl, rfl⟩
  · exact h

theorem mailReadByte_exclusive {s : State} (h : Exclusive s) (g : SegId) : Exclusive (mailReadByte g s) := by
  unfold mailReadByte
  dsimp only
  split
  · rename_i t ht
    have hx : (s.seg g).resp.transaction? ≠ none := by simp [transaction_of_loads ht]
    split
    · split
      · exact serve_exclusive g h (.of_segs rfl) hx ⟨by simp [loadSender, Responder.transaction?], rfl, rfl⟩
      · exact serve_exclusive g h (.of_segs rfl) hx ⟨by simp [loadSender, Responder.transaction?], rfl, rfl⟩
    · exact h
  · exact h

theorem mailWaitExpires_exclusive {s : State} (h : Exclusive s) (g : SegId) : Exclusive (mailWaitExpires g s) := by
  unfold mailWaitExpires
  split
  · exact h
  · rename_i t ht
    have hx : (s.seg g).resp.transaction? ≠ none := by
      unfold Segment.mailWaitDue? at ht
      split at ht
      · rename_i e; rw [e]; simp [Responder.transaction?]
      · simp at ht
    exact serve_exclusive g h (.of_segs rfl) hx ⟨by simp [Responder.transaction?], rfl, rfl⟩

theorem serveWaiting_exclusive {x : Segment} (h : x.exclusive) (e : EntryId) (b : Byte) :
    (serveWaiting e b x).exclusive := by
  unfold serveWaiting
  split
  · rename_i t l since hr
    have hx : x.resp.transaction? ≠ none := by rw [hr]; simp [Responder.transaction?]
    dsimp only
    (repeat' split) <;>
      first
        | exact h
        | exact h.serving hx (by simp [Responder.transaction?]) rfl rfl
  · exact h

theorem responderFalls_exclusive {x : Segment} (h : x.exclusive) (now : Nat) : (responderFalls now x).exclusive := by
  unfold responderFalls
  split
  · rename_i t hr
    exact h.serving (by rw [hr]; simp [Responder.transaction?]) (by simp [writerFalls, Responder.transaction?]) rfl rfl
  · rename_i t hr
    have hx : x.resp.transaction? ≠ none := by rw [hr]; simp [Responder.transaction?]
    unfold readerFalls
    (repeat' split) <;> exact h.serving hx (by simp [hr, Responder.transaction?]) rfl rfl
  · rename_i t l since hr
    have hx : x.resp.transaction? ≠ none := by rw [hr]; simp [Responder.transaction?]
    unfold waiterFalls
    split <;> exact h.serving hx (by simp [hr, Responder.transaction?]) rfl rfl
  · exact h
  · exact h
  · exact h

/-! ## The bus-clear unit -/

/-- A clearing engine: neither the initiator nor the responder is at work. -/
theorem Segment.exclusive.idle_of_clearing {x : Segment} (h : x.exclusive) {c : Clearing} (hc : x.clear = .clearing c) :
    x.init.drives = false ∧ x.resp.transaction? = none := by
  constructor
  · cases e : x.init.drives with
    | false => rfl
    | true => have := h.initiator e; rw [hc] at this; simp at this
  · cases e : x.resp.transaction? with
    | none => rfl
    | some t => have := (h.responder t e).2; rw [hc] at this; simp [BusClear.isClearing] at this

/-- A clearing engine goes on in its rounds. -/
theorem exclusive_clearing {x : Segment} {c : Clearing} (hi : x.init.drives = false) (hr : x.resp.transaction? = none)
    (hc : x.clear = .clearing c) (h1 : x.drvScl = false) (h2 : c.stage ≠ .stopLow → x.drvSda = false) :
    x.exclusive := by
  refine ⟨fun t ht => by rw [hr] at ht; simp at ht, fun e => by rw [hi] at e; simp at e, fun _ _ e => ?_, fun r e => ?_,
    fun k e => ?_⟩
  · rw [hc] at e; simp [BusClear.isClearing] at e
  · rw [e] at hi; simp [Initiator.drives] at hi
  · rw [hc] at e; cases e; exact ⟨h1, h2⟩

theorem failRound_exclusive {x : Segment} (now : Nat) (c : Clearing) (hi : x.init.drives = false)
    (hr : x.resp.transaction? = none) : (failRound now c x).exclusive := by
  unfold failRound
  dsimp only
  split
  · exact exclusive_clearing hi hr rfl rfl (fun _ => rfl)
  · exact exclusive_of_free hi hr rfl ⟨rfl, rfl⟩

theorem startRound_exclusive {x : Segment} (now n : Nat) (hi : x.init.drives = false)
    (hr : x.resp.transaction? = none) (hf : x.free) : (startRound now n x).exclusive := by
  unfold startRound
  dsimp only
  split
  · exact failRound_exclusive now _ hi hr
  · exact exclusive_clearing hi hr rfl hf.1 (fun _ => hf.2)

theorem pulseEnds_exclusive {x : Segment} (h : x.exclusive) (now : Nat) : (pulseEnds now x).exclusive := by
  unfold pulseEnds
  split
  · rename_i c hc
    obtain ⟨hi, hr⟩ := h.idle_of_clearing hc
    obtain ⟨h1, h2⟩ := h.clearing c hc
    split
    · rename_i hs
      have h2 := h2 (by simp [hs])
      repeat' split
      · exact exclusive_clearing hi hr rfl h1 (fun _ => h2)
      · exact exclusive_clearing hi hr rfl h1 (fun _ => h2)
      · exact failRound_exclusive now c hi hr
    · exact h
  · exact h

theorem stageFalls_exclusive {x : Segment} (h : x.exclusive) (now : Nat) : (stageFalls now x).exclusive := by
  unfold stageFalls
  split
  · rename_i c hc
    obtain ⟨hi, hr⟩ := h.idle_of_clearing hc
    obtain ⟨h1, h2⟩ := h.clearing c hc
    split
    · rename_i hs
      exact exclusive_clearing hi hr rfl h1 (fun _ => h2 (by simp [hs]))
    · exact exclusive_clearing hi hr rfl h1 (fun e => absurd rfl e)
    · exact exclusive_clearing hi hr rfl h1 h2
    · exact exclusive_clearing hi hr rfl h1 h2
    · exact h
    · exact h
  · exact h

theorem clearFalls_exclusive {x : Segment} (h : x.exclusive) (now : Nat) : (clearFalls now x).exclusive :=
  stageFalls_exclusive (pulseEnds_exclusive h now) now

theorem clearRises_exclusive {x : Segment} (h : x.exclusive) : (clearRises x).exclusive := by
  unfold clearRises
  split
  · rename_i c hc
    obtain ⟨hi, hr⟩ := h.idle_of_clearing hc
    obtain ⟨h1, h2⟩ := h.clearing c hc
    exact exclusive_clearing hi hr rfl h1 h2
  · exact h

theorem restartWatch_exclusive {x : Segment} (h : x.exclusive) (now : Nat) : (restartWatch now x).exclusive := by
  unfold restartWatch
  split
  · rename_i w hw
    refine ⟨fun t ht => ⟨(h.responder t ht).1, rfl⟩, fun e => ?_,
      fun e1 e2 _ => h.undriven e1 e2 (by rw [hw]; rfl), h.starting, fun c e => by simp at e⟩
    have := h.initiator e
    rw [hw] at this; simp at this
  · exact h
  · exact h

/-- At its own stop the clearing unit releases SDA. -/
theorem clearStops_exclusive {x : Segment} (h : x.exclusive) (now : Nat) : (clearStops now x).exclusive := by
  unfold clearStops
  split
  · rename_i c hc
    obtain ⟨hi, hr⟩ := h.idle_of_clearing hc
    obtain ⟨h1, h2⟩ := h.clearing c hc
    split
    · exact exclusive_clearing hi hr rfl h1 (fun _ => rfl)
    · exact h
  · exact h

theorem recover_exclusive {x : Segment} (stop : Option Nat) (now : Nat) (hi : x.init.drives = false)
    (hr : x.resp.transaction? = none) (hf : x.free) : (recover stop now x).exclusive := by
  unfold recover
  split
  · exact exclusive_of_free hi hr rfl hf
  · refine freeBackoff_exclusive ?_ now
    exact exclusive_of_free hi hr rfl hf

theorem drives_of_stuck {x : Segment} (h : x.exclusive) {w : Option Nat} (hc : x.clear = .stuck w) :
    x.init.drives = false := by
  cases e : x.init.drives with
  | false => rfl
  | true => have := h.initiator e; rw [hc] at this; simp at this

theorem enterClearing_exclusive {x : Segment} (now : Nat) (hi : x.init.drives = false) (hr : x.resp.transaction? = none)
    (hf : x.free) : (enterClearing now x).exclusive := by
  unfold enterClearing
  split
  · exact startRound_exclusive now 1 hi hr hf
  · exact exclusive_of_free hi hr rfl hf

theorem toIdle_drives (g : SegId) (s : State) : ((toIdle g s).seg g).init.drives = false := by
  unfold toIdle
  split
  · rw [seg_modSeg]; rfl
  · unfold enterIdle
    rcases examineQueue_init g (s.seg g).queue s with e | ⟨i, e⟩ <;> rw [e] <;> rfl

theorem stuckInitiator_exclusive {s : State} (h : Exclusive s) (g : SegId) : Exclusive (stuckInitiator g s) := by
  have h1 : Exclusive (modSeg g leaveLines s) := h.modSeg g (leaveLines_exclusive (h g))
  have h2 : ((modSeg g leaveLines s).seg g).free := by rw [seg_modSeg]; exact ⟨rfl, rfl⟩
  unfold stuckInitiator
  repeat' split
  · exact toIdle_exclusive (h1.keeps (finishJob_keeps _ _ _ _)) g (.inr (by rw [seg_finishJob]; exact h2))
  · have k := claimEvent_keeps g (.holdLapsed (by assumption : Hold).chain) (modSeg g leaveLines s)
    exact toIdle_exclusive (h1.keeps k) g (.inr ⟨(k g).scl.trans h2.1, (k g).sda.trans h2.2⟩)
  · exact toIdle_exclusive h1 g (.inr h2)
  · exact h

theorem stuckInitiator_drives (g : SegId) (s : State) : ((stuckInitiator g s).seg g).init.drives = false := by
  unfold stuckInitiator
  repeat' split
  all_goals first
    | exact toIdle_drives _ _
    | skip
  rename_i h1 h2
  cases e : (s.seg g).init with
  | running r => exact absurd e (h1 r)
  | held k => exact absurd e (h2 k)
  | off | idle | waiting i | backoff i b => rfl

@[simp] theorem clear_finishJob (i : Slot) (o : JobOutcome) (b : Bool) (s : State) (g : SegId) :
    ((finishJob i o b s).seg g).clear = (s.seg g).clear := by rw [seg_finishJob]

theorem examineQueue_clear (g : SegId) (l : List Slot) (s : State) :
    ((examineQueue g l s).seg g).clear = (s.seg g).clear := by
  induction l generalizing s with
  | nil => simp [examineQueue]
  | cons i l ih =>
    unfold examineQueue
    split
    · exact ih s
    · split
      · rw [ih]; simp
      · simp

theorem toIdle_clear (g : SegId) (s : State) : ((toIdle g s).seg g).clear = (s.seg g).clear := by
  unfold toIdle
  split
  · simp
  · exact examineQueue_clear g _ s

theorem stuckInitiator_clear (g : SegId) (s : State) : ((stuckInitiator g s).seg g).clear = (s.seg g).clear := by
  unfold stuckInitiator
  repeat' split
  · rw [toIdle_clear]; simp [leaveLines, releaseLines]
  · rw [toIdle_clear, (claimEvent_keeps g _ _ g).clear]; simp [leaveLines, releaseLines]
  · rw [toIdle_clear]; simp [leaveLines, releaseLines]
  · rfl

theorem normal_of_measures {x : Segment} (h : x.measures = true) : x.clear = .normal := by
  simp only [Segment.measures, Bool.and_eq_true] at h
  cases e : x.clear <;> simp [e, BusClear.isNormal] at h ⊢

theorem measures_of_stuckDue {x : Segment} {now : Nat} (h : x.stuckDue now = true) : x.measures = true := by
  unfold Segment.stuckDue at h
  split at h
  · simp at h
  · simp only [Bool.and_eq_true] at h; exact h.1.1

theorem stuckDetected_exclusive {s : State} (h : Exclusive s) (g : SegId) : Exclusive (stuckDetected g s) := by
  unfold stuckDetected
  dsimp only
  split
  · rename_i hd
    have h1 := endTransaction_exclusive (stuckInitiator_exclusive h g) g false
    have k := claimEvent_keeps g (stuckEvent (s.seg g)) (endTransaction g false (stuckInitiator g s))
    have h2 := h1.keeps k
    have hi : ((endTransaction g false (stuckInitiator g s)).seg g).init.drives = false := by
      rw [init_endTransaction]; exact stuckInitiator_drives g s
    have hr := transaction_endTransaction g false (stuckInitiator g s)
    have hc : ((endTransaction g false (stuckInitiator g s)).seg g).clear = .normal := by
      rw [(endTransaction_only g g false _).clear, stuckInitiator_clear]
      exact normal_of_measures (measures_of_stuckDue hd)
    have hf := (h1 g).undriven (Initiator.ownsBus_of_drives hi) hr (by rw [hc]; rfl)
    exact endDisable_exclusive
      (h2.modSeg g
        (enterClearing_exclusive _ (by rw [(k g).init]; exact hi) (by rw [(k g).resp]; exact hr)
          ⟨(k g).scl.trans hf.1, (k g).sda.trans hf.2⟩)) g
  · exact h

theorem clearWaitExpires_exclusive {s : State} (h : Exclusive s) (g : SegId) : Exclusive (clearWaitExpires g s) := by
  unfold clearWaitExpires
  split
  · exact h
  · rename_i c hd
    unfold Segment.clearWaitDue? at hd
    split at hd
    · rename_i k hk
      split at hd
      · rename_i w hw
        obtain ⟨hi, hr⟩ := (h g).idle_of_clearing hk
        obtain ⟨h1, h2⟩ := (h g).clearing k hk
        exact h.modSeg g (startRound_exclusive _ _ hi hr ⟨h1, h2 (by simp [hw])⟩)
      · simp at hd
    · simp at hd

theorem clearingPulse_exclusive {s : State} (h : Exclusive s) (g : SegId) : Exclusive (clearingPulse g s) := by
  unfold clearingPulse; split
  · exact h.modSeg g (pulseEnds_exclusive (h g) _)
  · exact h

theorem roundEnds_exclusive {s : State} (h : Exclusive s) (g : SegId) : Exclusive (roundEnds g s) := by
  unfold roundEnds
  dsimp only
  split
  · exact h
  · rename_i c hd
    unfold Segment.roundDone? at hd
    split at hd
    · rename_i k hk
      split at hd
      · rename_i hs
        cases hd
        obtain ⟨hi, hr⟩ := (h g).idle_of_clearing hk
        obtain ⟨h1, h2⟩ := (h g).clearing c hk
        split
        · rename_i hl
          have hc : c.stage ≠ .stopLow := fun e => by simp [e] at hs; simp [hs] at hl
          exact (h.modSeg g (recover_exclusive _ _ hi hr ⟨h1, h2 hc⟩)).keeps (claimEvent_keeps _ _ _)
        · exact h.modSeg g (failRound_exclusive _ _ hi hr)
      · simp at hd
    · simp at hd

theorem clearStretchExpires_exclusive {s : State} (h : Exclusive s) (g : SegId) :
    Exclusive (clearStretchExpires g s) := by
  unfold clearStretchExpires
  split
  · exact h
  · rename_i c hd
    unfold Segment.clearStretchDue? at hd
    split at hd
    · rename_i k hk
      obtain ⟨hi, hr⟩ := (h g).idle_of_clearing hk
      exact h.modSeg g (failRound_exclusive _ _ hi hr)
    · simp at hd

theorem idleWatchExpires_exclusive {s : State} (h : Exclusive s) (g : SegId) : Exclusive (idleWatchExpires g s) := by
  unfold idleWatchExpires
  split
  · rename_i hd
    obtain ⟨w, hw⟩ : ∃ w, (s.seg g).clear = .stuck w := by
      unfold Segment.idleWatchDue at hd
      split at hd
      · rename_i e; exact ⟨_, e⟩
      · simp at hd
    have hi := drives_of_stuck (h g) hw
    unfold endLeftTransaction
    split
    · have h1 := endTransaction_exclusive h g false
      have hi' : ((endTransaction g false s).seg g).init.drives = false := by rw [init_endTransaction]; exact hi
      have hr := transaction_endTransaction g false s
      have hc : ((endTransaction g false s).seg g).clear = .stuck w := by
        rw [(endTransaction_only g g false s).clear]; exact hw
      have hf := (h1 g).undriven (Initiator.ownsBus_of_drives hi') hr (by rw [hc]; rfl)
      exact (h1.modSeg g (recover_exclusive _ _ hi' hr hf)).keeps (claimEvent_keeps _ _ _)
    · rename_i hr
      have hr' : (s.seg g).resp.transaction? = none := by simpa using hr
      have hf := (h g).undriven (Initiator.ownsBus_of_drives hi) hr' (by rw [hw]; rfl)
      exact (h.modSeg g (recover_exclusive _ _ hi hr' hf)).keeps (claimEvent_keeps _ _ _)
  · exact h

/-! ## Lines -/

theorem setLevel_exclusive {x : Segment} (h : x.exclusive) (e : Edge) : (setLevel e x).exclusive := by
  unfold setLevel; split <;> exact h.of_eq rfl rfl rfl rfl rfl

theorem restartQuiet_exclusive {x : Segment} (h : x.exclusive) (now : Nat) : (restartQuiet now x).exclusive :=
  h.of_eq rfl rfl rfl rfl rfl

theorem monitorEdge_exclusive {x : Segment} (h : x.exclusive) (now : Nat) : (monitorEdge now x).exclusive := by
  unfold monitorEdge resetMonitor
  (repeat' split) <;> exact h.of_eq rfl rfl rfl rfl rfl

theorem edgeAt_exclusive {x : Segment} (h : x.exclusive) (now : Nat) (j : Option Job) (e : Edge) :
    (edgeAt now j e x).exclusive := by
  refine restartQuiet_exclusive (restartWatch_exclusive ?_ _) _
  have h1 := monitorEdge_exclusive (setLevel_exclusive h e) now
  cases e
  · refine clearRises_exclusive (initiatorRises_exclusive ?_)
    exact h1.of_eq rfl rfl rfl rfl rfl
  · exact clearFalls_exclusive (responderFalls_exclusive (initiatorFalls_exclusive h1 _ _) _) _
  · exact h1
  · exact h1

theorem seeEdge_exclusive {s : State} (h : Exclusive s) (g : SegId) (e : Edge) : Exclusive (seeEdge g e s) :=
  collide_exclusive (h.modSeg g (edgeAt_exclusive (h g) _ _ _)) g

theorem lineEdge_exclusive {s : State} (h : Exclusive s) (g : SegId) (e : Edge) : Exclusive (lineEdge g e s) := by
  unfold lineEdge
  dsimp only
  repeat' split
  all_goals first
    | exact h
    | exact seeEdge_exclusive h g e
    | exact h.modSeg g (setLevel_exclusive (h g) _)

theorem sclFallsWhileFree_exclusive {s : State} (h : Exclusive s) (g : SegId) : Exclusive (sclFallsWhileFree g s) := by
  unfold sclFallsWhileFree
  dsimp only
  split
  · exact seeEdge_exclusive h g _
  · exact h

theorem startAt_exclusive {x : Segment} (h : x.exclusive) (now : Nat) : (startAt now x).exclusive := by
  refine restartQuiet_exclusive (restartWatch_exclusive ?_ _) _
  exact h.of_eq rfl rfl rfl rfl rfl

theorem startSeen_exclusive {s : State} (h : Exclusive s) (g : SegId) (m : Maker) : Exclusive (startSeen g m s) := by
  unfold startSeen startFromOutside startFromPart
  dsimp only
  repeat' split
  all_goals first
    | exact h
    | exact h.modSeg g (setLevel_exclusive (h g) _)
    | skip
  · exact loseByCondition_exclusive
      (collide_exclusive (endTransaction_exclusive (h.modSeg g (startAt_exclusive (h g) _)) _ _) _) _
  · have h1 := endTransaction_exclusive h g false
    exact h1.modSeg g (startAt_exclusive (driveStart_exclusive (h1 g) (transaction_endTransaction _ _ _)) _)

theorem monitorFree_exclusive {x : Segment} (h : x.exclusive) (stop : Option Nat) (now : Nat) :
    (monitorFree stop now x).exclusive := by
  refine freeBackoff_exclusive ?_ now
  exact h.of_eq rfl rfl rfl rfl rfl

theorem stopAt_exclusive {x : Segment} (h : x.exclusive) (now : Nat) : (stopAt now x).exclusive := by
  refine restartQuiet_exclusive
    (restartWatch_exclusive (clearStops_exclusive (monitorFree_exclusive ?_ _ _) _) _) _
  exact h.of_eq rfl rfl rfl rfl rfl

theorem stopSeen_exclusive {s : State} (h : Exclusive s) (g : SegId) : Exclusive (stopSeen g s) := by
  unfold stopSeen
  dsimp only
  repeat' split
  all_goals first
    | exact h
    | exact h.modSeg g (setLevel_exclusive (h g) _)
    | exact loseByCondition_exclusive (endTransaction_exclusive (h.modSeg g (stopAt_exclusive (h g) _)) _ _) g

theorem windowExpires_exclusive {s : State} (h : Exclusive s) (g : SegId) : Exclusive (windowExpires g s) := by
  unfold windowExpires
  split
  · exact h.modSeg g (monitorFree_exclusive (h g) _ _)
  · exact h

/-! ## Requests -/

theorem resetInitiator_exclusive {s : State} (h : Exclusive s) (g : SegId) : Exclusive (resetInitiator g s) := by
  unfold resetInitiator flushCurrent
  split
  · exact h
  · exact h
  · rename_i i hi
    exact Exclusive.keeps (h.modSeg g ((h g).withInit rfl (.inl (by rw [hi]; rfl)))) (finishJob_keeps _ _ _ _)
  · rename_i i b hi
    exact Exclusive.keeps (h.modSeg g ((h g).withInit rfl (.inl (by rw [hi]; rfl)))) (finishJob_keeps _ _ _ _)
  · rename_i k hk
    split
    · exact h
    · exact closeHold_exclusive h g _ _ (ownsBus_held hk)
  · rename_i r hr
    split
    · exact h
    · rename_i hs
      exact h.modSeg g ((h g).withDriver (ownsBus_running hr (by simp [hs])) rfl rfl rfl)
    · split
      · rename_i hd
        exact h.modSeg g
          ((h g).withDriver (ownsBus_running hr (fun _ => hd)) (ownsBus_running rfl (fun _ => hd)) rfl rfl)
      · exact h
    all_goals
      rename_i hs
      exact h.modSeg g
        ((h g).withDriver (ownsBus_running hr (by simp [hs])) (ownsBus_running rfl (by simp [hs])) rfl rfl)

theorem flushQueue_exclusive {s : State} (h : Exclusive s) (g : SegId) : Exclusive (flushQueue g s) := by
  refine Exclusive.keeps (h.modSeg g ?_) (finishAll_keeps _ _ _)
  exact (h g).of_eq rfl rfl rfl rfl rfl

theorem flushStart_exclusive {s : State} (h : Exclusive s) (g : SegId) : Exclusive (flushStart g s) := by
  unfold flushStart flushCurrent
  split
  · rename_i r hr
    split
    · rename_i hs
      simp only [Bool.and_eq_true, beq_iff_eq, Bool.not_eq_true'] at hs
      exact Exclusive.keeps
        (h.modSeg g ((h g).withInit rfl (.inl (ownsBus_starting hr hs.1 hs.2)))) (finishJob_keeps _ _ _ _)
    · exact h
  · exact h

@[simp] theorem resp_finishJob (i : Slot) (o : JobOutcome) (b : Bool) (s : State) (g : SegId) :
    ((finishJob i o b s).seg g).resp = (s.seg g).resp := by rw [seg_finishJob]

theorem resetInitiator_resp (g : SegId) (s : State) : ((resetInitiator g s).seg g).resp = (s.seg g).resp := by
  unfold resetInitiator flushCurrent closeHold
  (repeat' split) <;> simp

theorem flushQueue_resp (g : SegId) (s : State) : ((flushQueue g s).seg g).resp = (s.seg g).resp := by
  simp [flushQueue]

theorem flushStart_resp (g : SegId) (s : State) : ((flushStart g s).seg g).resp = (s.seg g).resp := by
  unfold flushStart flushCurrent
  (repeat' split) <;> simp

theorem resetLines_exclusive {x : Segment} (h : x.exclusive) (now : Nat) (hr : x.resp.transaction? = none) :
    (resetLines now x).exclusive := by
  have h1 : (resetMonitor now { x with resetting := x.init.ownsBus }).exclusive :=
    h.of_eq rfl rfl rfl rfl rfl
  unfold resetLines resetClear
  split
  · rename_i w hw
    have hi := drives_of_stuck h1 hw
    exact startRound_exclusive now 1 hi hr (h1.undriven (Initiator.ownsBus_of_drives hi) hr (by rw [hw]; rfl))
  · exact h1.of_eq rfl rfl rfl rfl rfl
  · exact h1.of_eq rfl rfl rfl rfl rfl

theorem segmentReset_exclusive {s : State} (h : Exclusive s) (g : SegId) : Exclusive (segmentReset g s) := by
  have h1 := flushStart_exclusive (flushQueue_exclusive
    (resetInitiator_exclusive (endTransaction_exclusive h g true) g) g) g
  refine h1.modSeg g (resetLines_exclusive (h1 g) _ ?_)
  rw [flushStart_resp, flushQueue_resp, resetInitiator_resp]
  exact transaction_endTransaction g true s

theorem disableSegment_exclusive {s : State} (h : Exclusive s) (g : SegId) : Exclusive (disableSegment g s) := by
  have h1 : Exclusive (segmentReset g (modSeg g (fun x => { x with disabling := true }) s)) := by
    refine segmentReset_exclusive (h.modSeg g ?_) g
    exact (h g).of_eq rfl rfl rfl rfl rfl
  unfold disableSegment
  dsimp only
  split
  · exact h1
  · exact goOff_exclusive h1 g

theorem applyEnable_exclusive {s : State} (h : Exclusive s) (g : SegId) (b : Bool)
    (hf : (s.seg g).isOff = true → (s.seg g).free) : Exclusive (applyEnable g b s) := by
  unfold applyEnable
  dsimp only
  split
  · exact h
  · split
    · rename_i ho
      split
      · exact h.modSeg g (enableSegment_exclusive _ (hf ho))
      · exact h
    · split
      · exact h
      · exact disableSegment_exclusive h g

theorem flushHold_exclusive {s : State} (h : Exclusive s) (g : SegId) : Exclusive (flushHold g s) := by
  unfold flushHold
  split
  · rename_i k hk
    split
    · exact h
    · exact closeHold_exclusive h g _ _ (ownsBus_held hk)
  · exact h

theorem answer_keeps (r : Request) (d : Deferral) (rc : ReplyCode) (data : List Byte) (s : State) :
    KeepsUse s (answer r d rc data s) := .of_segs rfl

theorem letGo_exclusive {s : State} (h : Exclusive s) : Exclusive (letGo s) := h.keeps (.of_segs rfl)

theorem answerSegConfig_exclusive {s : State} (h : Exclusive s) (hb : Bounds s) (r : Request) (d : Deferral) :
    Exclusive (answerSegConfig r d s) := by
  unfold answerSegConfig
  split
  · exact h.keeps (answer_keeps _ _ _ _ _)
  · rename_i g cfg _
    refine Exclusive.keeps (applyEnable_exclusive (h.modSeg g ?_) g _ (fun ho => ?_)) (answer_keeps _ _ _ _ _)
    · exact (h g).of_eq rfl rfl rfl rfl rfl
    · rw [seg_modSeg] at ho ⊢
      have ho' : (s.seg g).init = .off := by
        cases e : (s.seg g).init <;> simp [Segment.isOff, e] at ho ⊢
      obtain ⟨_, _, _, h4, h5, _⟩ := (hb.engines g).2 ho'
      exact ⟨h4, h5⟩

theorem answerSegFlush_exclusive {s : State} (h : Exclusive s) (r : Request) (d : Deferral) :
    Exclusive (answerSegFlush r d s) := by
  unfold answerSegFlush
  dsimp only
  repeat' split
  · exact h.keeps (answer_keeps _ _ _ _ _)
  · exact h.keeps (answer_keeps _ _ _ _ _)
  · exact (flushHold_exclusive (flushQueue_exclusive h _) _).keeps (answer_keeps _ _ _ _ _)

theorem answerSegReset_exclusive {s : State} (h : Exclusive s) (r : Request) (d : Deferral) :
    Exclusive (answerSegReset r d s) := by
  unfold answerSegReset
  dsimp only
  repeat' split
  · exact h.keeps (answer_keeps _ _ _ _ _)
  · exact h.keeps (answer_keeps _ _ _ _ _)
  · exact (segmentReset_exclusive h _).keeps (answer_keeps _ _ _ _ _)

theorem answerJobSubmit_exclusive {s : State} (h : Exclusive s) (r : Request) (d : Deferral) :
    Exclusive (answerJobSubmit r d s) := by
  unfold answerJobSubmit
  split
  · exact h.keeps (answer_keeps _ _ _ _ _)
  · rename_i u _
    split
    · exact h.keeps (answer_keeps _ _ _ _ _)
    · rename_i i _
      have h1 : Exclusive (placeJob i u s) := by
        refine Exclusive.modSeg (s := s.setJob i _) h u.seg ?_
        exact (h u.seg).of_eq rfl rfl rfl rfl rfl
      have h2 := h1.keeps (answer_keeps r d .ok (admitData u (placeJob i u s)) _)
      unfold lookAtQueue
      dsimp only
      split
      · rename_i hi
        exact enterIdle_exclusive h2 _ (.inl (by rw [hi]; rfl))
      · exact takeContinuation_exclusive h2 _
      · exact h2

theorem answerJobCancel_exclusive {s : State} (h : Exclusive s) (hp : s.pool) (r : Request) (d : Deferral) :
    Exclusive (answerJobCancel r d s) := by
  unfold answerJobCancel
  split
  · exact h.keeps (answer_keeps _ _ _ _ _)
  · split
    · exact h.keeps (answer_keeps _ _ _ _ _)
    · rename_i i _
      split
      · exact h.keeps (answer_keeps _ _ _ _ _)
      · rename_i j hj
        split
        · exact h.keeps (answer_keeps _ _ _ _ _)
        · refine Exclusive.keeps (Exclusive.keeps (h.modSeg j.seg ?_) (finishJob_keeps _ _ _ _)) (answer_keeps _ _ _ _ _)
          exact (h j.seg).of_eq rfl rfl rfl rfl rfl
        · rename_i hs
          split
          · split
            · exact h.keeps (answer_keeps _ _ _ _ _)
            · exact h
          · rename_i hr
            have hc := (hp.current j.seg i).mpr ⟨j, hj, rfl, hs⟩
            have hd : (s.seg j.seg).init.ownsBus = false := by
              cases e : (s.seg j.seg).init with
              | running k =>
                rw [e] at hc hr
                simp only [Initiator.slot?, Option.some.injEq] at hc
                simp [Initiator.runsSlot, hc] at hr
              | held k => rw [e] at hc; simp [Initiator.slot?] at hc
              | off | idle | waiting k | backoff k b => rfl
            have k : KeepsUse s (finishJob i .cancelled false (modJob i (fun k => { k with results := [], readBuf := [] }) s)) :=
              fun k => by rw [seg_finishJob]; exact .refl _
            have k' := k.trans (answer_keeps r d .ok (cancelData j .cancelled false) _)
            exact toIdle_exclusive (h.keeps k') j.seg (.inl (by rw [(k' j.seg).init]; exact hd))

theorem answerRespSet_exclusive {s : State} (h : Exclusive s) (r : Request) (d : Deferral) :
    Exclusive (answerRespSet r d s) := by
  unfold answerRespSet
  dsimp only
  (repeat' split) <;>
    first
      | exact h.keeps (answer_keeps _ _ _ _ _)
      | exact (modEntry_exclusive h _ _ _).keeps (answer_keeps _ _ _ _ _)

theorem answerWinWrite_exclusive {s : State} (h : Exclusive s) (r : Request) (d : Deferral) :
    Exclusive (answerWinWrite r d s) := by
  unfold answerWinWrite
  dsimp only
  (repeat' split) <;>
    first
      | exact h.keeps (answer_keeps _ _ _ _ _)
      | exact (modEntry_exclusive h _ _ _).keeps (answer_keeps _ _ _ _ _)
      | exact letGo_exclusive (modEntry_exclusive h _ _ _)

theorem answerMailPost_exclusive {s : State} (h : Exclusive s) (r : Request) (d : Deferral) :
    Exclusive (answerMailPost r d s) := by
  unfold answerMailPost
  dsimp only
  split
  · exact h.keeps (answer_keeps _ _ _ _ _)
  · rename_i g e bytes _
    repeat' split
    · exact h.keeps (answer_keeps _ _ _ _ _)
    · exact h.keeps (answer_keeps _ _ _ _ _)
    · exact h.keeps (answer_keeps _ _ _ _ _)
    · have h1 := modEntry_exclusive h g e (fun n => { n with outbox := n.outbox ++ [bytes] })
      exact Exclusive.keeps (h1.modSeg g (serveWaiting_exclusive (h1 g) _ _)) (answer_keeps _ _ _ _ _)

theorem answerMailWithdraw_exclusive {s : State} (h : Exclusive s) (r : Request) (d : Deferral) :
    Exclusive (answerMailWithdraw r d s) := by
  unfold answerMailWithdraw
  dsimp only
  (repeat' split) <;>
    first
      | exact h.keeps (answer_keeps _ _ _ _ _)
      | exact (modEntry_exclusive h _ _ _).keeps (answer_keeps _ _ _ _ _)

/-! ## The ends of a step -/

theorem watchLines_keeps (s : State) : KeepsUse s (watchLines s) := fun k => by
  rw [seg_watchLines]; exact ⟨rfl, rfl, rfl, rfl, rfl⟩

theorem countStep_exclusive {s : State} (h : Exclusive s) : Exclusive (countStep s) := fun g => by
  have : (countStep s).seg g = countBackoff (s.now + 1) (s.seg g) := by simp [countStep, State.seg]
  rw [this]
  unfold countBackoff
  split
  · rename_i hb
    split
    · exact (h g).withInit rfl (.inl (by rw [hb]; rfl))
    · exact h g
  · exact h g

/-! ## The link unit -/

theorem answerDevInfo_exclusive {s : State} (h : Exclusive s) (r : Request) (d : Deferral) :
    Exclusive (answerDevInfo r d s) := by
  unfold answerDevInfo; split <;> exact h.keeps (answer_keeps _ _ _ _ _)

theorem answerDevReset_exclusive {s : State} (h : Exclusive s) (r : Request) (d : Deferral) :
    Exclusive (answerDevReset r d s) := by
  unfold answerDevReset; split
  · exact h.keeps (answer_keeps _ _ _ _ _)
  · exact h.keeps (.of_segs rfl)

theorem answerLinkConfig_exclusive {s : State} (h : Exclusive s) (r : Request) (d : Deferral) :
    Exclusive (answerLinkConfig r d s) := by
  unfold answerLinkConfig; split
  · exact h.keeps (answer_keeps _ _ _ _ _)
  · exact h.keeps (.of_segs rfl)

theorem answerSegStatus_exclusive {s : State} (h : Exclusive s) (r : Request) (d : Deferral) :
    Exclusive (answerSegStatus r d s) := by
  unfold answerSegStatus; split <;> exact h.keeps (answer_keeps _ _ _ _ _)

theorem answerJobQuery_exclusive {s : State} (h : Exclusive s) (r : Request) (d : Deferral) :
    Exclusive (answerJobQuery r d s) := by
  unfold answerJobQuery; (repeat' split) <;> exact h.keeps (answer_keeps _ _ _ _ _)

theorem answerWinRead_exclusive {s : State} (h : Exclusive s) (r : Request) (d : Deferral) :
    Exclusive (answerWinRead r d s) := by
  unfold answerWinRead; split <;> exact h.keeps (answer_keeps _ _ _ _ _)

theorem settleDuplicate_exclusive {s : State} (h : Exclusive s) : Exclusive (settleDuplicate s) := by
  unfold settleDuplicate
  split <;> exact h

theorem refuseUnknown_exclusive {s : State} (h : Exclusive s) : Exclusive (refuseUnknown s) := by
  unfold refuseUnknown
  (repeat' split) <;> exact h

theorem endSilent_keeps (s : State) : KeepsUse s (endSilent s) := by
  unfold endSilent; split <;> exact .of_segs rfl

theorem acceptFrame_keeps (body : List Byte) (c : Word) (s : State) : KeepsUse s (acceptFrame body c s) := by
  unfold acceptFrame placeRequest
  repeat' split
  all_goals first
    | exact .of_segs rfl
    | exact acknowledge_keeps _ _

theorem checkFrame_keeps (len : Byte) (body : List Byte) (c : Word) (s : State) :
    KeepsUse s (checkFrame len body c s) := by
  unfold checkFrame; split
  · exact (endSilent_keeps s).trans (acceptFrame_keeps _ _ _)
  · exact .of_segs rfl

theorem enterHunt_keeps (s : State) : KeepsUse s (enterHunt s) := .of_segs rfl

theorem receive_exclusive {s : State} (h : Exclusive s) (b : Byte) : Exclusive (receive b s) := by
  unfold receive receiveByte
  repeat' split
  all_goals first
    | exact h
    | exact h.keeps (.of_segs rfl)
    | exact h.keeps ((enterHunt_keeps s).trans (checkFrame_keeps _ _ _ _))

theorem gapExpires_exclusive {s : State} (h : Exclusive s) : Exclusive (gapExpires s) := by
  unfold gapExpires; split
  · exact h.keeps (enterHunt_keeps s)
  · exact h

theorem takeHead_keeps (r : Request) (rest : List Request) (s : State) : KeepsUse s (takeHead r rest s) := by
  have h1 : KeepsUse s { s with link := { s.link with inbound := rest } } := .of_segs rfl
  have h2 : KeepsUse s (applyAckField r { s with link := { s.link with inbound := rest } }) := by
    unfold applyAckField; split
    · exact h1.trans (acknowledge_keeps _ _)
    · exact h1
  exact h2.trans (.of_segs rfl)

theorem takeRequest_exclusive {s : State} (h : Exclusive s) : Exclusive (takeRequest s) := by
  unfold takeRequest
  repeat' split
  all_goals first
    | exact h
    | exact h.keeps (takeHead_keeps _ _ _)

theorem resendExpires_exclusive {s : State} (h : Exclusive s) : Exclusive (resendExpires s) := by
  unfold resendExpires
  dsimp only
  (repeat' split) <;> exact h

theorem startFrame_exclusive {s : State} (h : Exclusive s) : Exclusive (startFrame s) := by
  unfold startFrame
  (repeat' split) <;> exact h

/-! ## Reset -/

theorem segmentAtReset_exclusive (scl sda : Bool) : (Segment.atReset scl sda).exclusive :=
  exclusive_of_free rfl rfl rfl ⟨rfl, rfl⟩

theorem fullReset_exclusive (c : Cause) (p : Straps) (s : State) : Exclusive (fullReset c p s) := fun g => by
  rw [seg_fullReset]; exact segmentAtReset_exclusive _ _

theorem holdReset_exclusive (c : Cause) (s : State) : Exclusive (holdReset c s) := fun g => by
  rw [seg_holdReset]; exact segmentAtReset_exclusive _ _

theorem powerUp_exclusive (b : Bool) (p : Straps) (s : State) : Exclusive (powerUp b p s) := by
  unfold powerUp; split
  · exact holdReset_exclusive _ _
  · exact fullReset_exclusive _ _ _

theorem rstFalls_exclusive (s : State) : Exclusive (rstFalls s) := holdReset_exclusive _ _

theorem rstRises_exclusive {s : State} (h : Exclusive s) (p : Straps) : Exclusive (rstRises p s) := by
  unfold rstRises; split
  · exact h
  · exact fullReset_exclusive _ _ _

theorem endFrame_exclusive {s : State} (h : Exclusive s) (p : Straps) : Exclusive (endFrame p s) := by
  unfold endFrame
  repeat' split
  all_goals first
    | exact h
    | exact fullReset_exclusive _ _ _

end Sys2Proof.Machine
end

