-- ==== Sys2Proof/Laws/BooksUnits.lean ====
section
/-! SUPPORT. The books through the events of a segment. -/

namespace Sys2Proof.Machine

/-! ## Engines -/

/-- What the books say of an engine is as before. -/
structure SameBooks (x y : Segment) : Prop where
  entries : y.entries = x.entries
  queue : y.queue = x.queue
  current : y.init.slot? = x.init.slot?
  ending : x.ending → y.ending

theorem SameBooks.refl (x : Segment) : SameBooks x x := ⟨rfl, rfl, rfl, id⟩

theorem SameBooks.trans {x y z : Segment} (h : SameBooks x y) (k : SameBooks y z) : SameBooks x z :=
  ⟨k.entries.trans h.entries, k.queue.trans h.queue, k.current.trans h.current,
    fun e => k.ending (h.ending e)⟩

theorem SameBooks.of_init {x y : Segment} (h1 : y.entries = x.entries) (h2 : y.queue = x.queue) (h3 : y.init = x.init)
    (h4 : y.resetting = x.resetting) (h5 : y.disabling = x.disabling) : SameBooks x y :=
  ⟨h1, h2, by rw [h3], fun e => e.same h4 h5 h3⟩

theorem SameBooks.of_units {x y : Segment} (h : UnitsOnly x y) (h3 : y.init = x.init) : SameBooks x y :=
  .of_init h.entries h.queue h3 h.resetting h.disabling

/-- A reset goes on where the initiator, on its way out, stays so. -/
theorem Segment.ending.leaving {x y : Segment} (h : x.ending) (h1 : y.resetting = x.resetting)
    (h2 : y.disabling = x.disabling) (h3 : x.init.leaving = true → y.init.leaving = true) : y.ending := by
  intro e
  rw [h1, h2] at e
  exact h3 (h e)

theorem Books.modSeg {s : State} (h : Books s) (g : SegId) {f : Segment → Segment}
    (k : SameBooks (s.seg g) (f (s.seg g))) : Books (modSeg g f s) :=
  h.calm (modSeg_calm g s k.entries) (by rw [seg_modSeg]; exact k.queue) (by rw [seg_modSeg]; exact k.current)
    (by rw [seg_modSeg]; exact k.ending (h.ending g))

theorem freeBackoff_same (now : Nat) (x : Segment) : SameBooks x (freeBackoff now x) := by
  unfold freeBackoff
  split
  · rename_i hi
    (repeat' split) <;>
      first
        | exact .refl _
        | exact ⟨rfl, rfl, by simp [hi, Initiator.slot?],
            fun e => e.leaving rfl rfl (by simp [hi, Initiator.leaving])⟩
  · exact .refl _

theorem monitorFree_same (stop : Option Nat) (now : Nat) (x : Segment) : SameBooks x (monitorFree stop now x) := by
  unfold monitorFree
  refine SameBooks.trans ?_ (freeBackoff_same now _)
  exact .of_init rfl rfl rfl rfl rfl

theorem recover_same (stop : Option Nat) (now : Nat) (x : Segment) : SameBooks x (recover stop now x) := by
  unfold recover
  split
  · exact .of_init rfl rfl rfl rfl rfl
  · refine SameBooks.trans ?_ (monitorFree_same stop now _)
    exact .of_init rfl rfl rfl rfl rfl

theorem failRound_same (now : Nat) (c : Clearing) (x : Segment) : SameBooks x (failRound now c x) := by
  unfold failRound; dsimp only; split <;> exact .of_init rfl rfl rfl rfl rfl

theorem startRound_same (now n : Nat) (x : Segment) : SameBooks x (startRound now n x) := by
  unfold startRound failRound; dsimp only; (repeat' split) <;> exact .of_init rfl rfl rfl rfl rfl

theorem enterClearing_same (now : Nat) (x : Segment) : SameBooks x (enterClearing now x) := by
  unfold enterClearing; split
  · exact startRound_same now 1 x
  · exact .of_init rfl rfl rfl rfl rfl

theorem enterClearing_disabling (now : Nat) (x : Segment) : (enterClearing now x).disabling = x.disabling := by
  unfold enterClearing startRound failRound; dsimp only; (repeat' split) <;> rfl

theorem pulseEnds_same (now : Nat) (x : Segment) : SameBooks x (pulseEnds now x) := by
  unfold pulseEnds
  (repeat' split) <;> first | exact .of_init rfl rfl rfl rfl rfl | exact failRound_same _ _ _

theorem restartWatch_same (now : Nat) (x : Segment) : SameBooks x (restartWatch now x) :=
  .of_units (restartWatch_units now x) (restartWatch_init now x)

theorem clearStops_same (now : Nat) (x : Segment) : SameBooks x (clearStops now x) := by
  unfold clearStops; (repeat' split) <;> exact .of_init rfl rfl rfl rfl rfl

theorem driveStart_same (x : Segment) : SameBooks x (driveStart x) := by
  unfold driveStart; split
  · rename_i hr
    exact ⟨rfl, rfl, by simp [hr, Initiator.slot?], fun e => e.leaving rfl rfl (by simp [hr, Initiator.leaving])⟩
  · exact .refl _

theorem startAt_same (now : Nat) (x : Segment) : SameBooks x (startAt now x) := by
  unfold startAt monitorStart
  refine SameBooks.trans (SameBooks.trans ?_ (restartWatch_same now _)) (.of_init rfl rfl rfl rfl rfl)
  exact .of_init rfl rfl rfl rfl rfl

theorem stopAt_same (now : Nat) (x : Segment) : SameBooks x (stopAt now x) := by
  unfold stopAt
  refine SameBooks.trans (SameBooks.trans (SameBooks.trans (SameBooks.trans ?_ (monitorFree_same _ now _))
    (clearStops_same now _)) (restartWatch_same now _)) (.of_init rfl rfl rfl rfl rfl)
  exact .of_init rfl rfl rfl rfl rfl

theorem runFalls_same (now : Nat) (j : Job) {r : Run} {x : Segment} (h : x.init = .running r) :
    SameBooks x (runFalls now j r x) := by
  refine ⟨(runFalls_units now j r x).entries, (runFalls_units now j r x).queue, ?_, fun e =>
    e.leaving (runFalls_units now j r x).resetting (runFalls_units now j r x).disabling ?_⟩
  · rw [h]
    unfold runFalls stopFrom sendBit releaseBit
    (repeat' split) <;> rfl
  · rw [h]
    unfold runFalls stopFrom sendBit releaseBit
    split
    · exact fun _ => rfl
    · rename_i hc
      cases hs : r.sub <;> simp only [] <;> (repeat' split) <;> simp_all [Initiator.leaving]

theorem initiatorFalls_same (now : Nat) (j : Option Job) (x : Segment) : SameBooks x (initiatorFalls now j x) := by
  unfold initiatorFalls
  split
  · rename_i r hr
    split
    · exact runFalls_same now _ hr
    · exact .refl _
  · rename_i k hk
    split
    · exact ⟨rfl, rfl, by simp [hk, Initiator.slot?], fun e => e.leaving rfl rfl (by simp [hk, Initiator.leaving])⟩
    · exact .refl _
  · exact .refl _

theorem initiatorRises_same (x : Segment) : SameBooks x (initiatorRises x) := by
  unfold initiatorRises
  split
  · rename_i r hr
    exact ⟨rfl, rfl, by simp [hr, Initiator.slot?], fun e => e.leaving rfl rfl (by simp [hr, Initiator.leaving])⟩
  · rename_i k hk
    exact ⟨rfl, rfl, by simp [hk, Initiator.slot?], fun e => e.leaving rfl rfl (by simp [hk, Initiator.leaving])⟩
  · exact .refl _

theorem edgeAt_same (now : Nat) (j : Option Job) (e : Edge) (x : Segment) : SameBooks x (edgeAt now j e x) := by
  unfold edgeAt
  refine SameBooks.trans (SameBooks.trans ?_ (restartWatch_same now _)) (.of_init rfl rfl rfl rfl rfl)
  have h1 : SameBooks x (monitorEdge now (setLevel e x)) := by
    unfold monitorEdge resetMonitor
    cases e <;> (repeat' split) <;> exact .of_init rfl rfl rfl rfl rfl
  refine h1.trans ?_
  generalize monitorEdge now (setLevel e x) = y
  cases e
  · refine SameBooks.trans (SameBooks.trans ?_ (initiatorRises_same _))
      (.of_units (clearRises_units _) (clearRises_init _))
    exact .of_init rfl rfl rfl rfl rfl
  · refine (initiatorFalls_same now j y).trans (SameBooks.trans (y := responderFalls now (initiatorFalls now j y))
      (.of_units (responderFalls_units _ _) (responderFalls_init _ _)) ?_)
    exact .of_units (clearFalls_units _ _) (clearFalls_init _ _)
  · exact .refl _
  · exact .refl _

/-! ## The initiator -/

/-- The running job is the current one. -/
theorem Books.running {s : State} (h : Books s) {g : SegId} {r : Run} (hr : (s.seg g).init = .running r) :
    BooksAt g (s.seg g).queue (some r.slot) s := by
  have := h.at g
  rw [hr] at this
  exact this

theorem Books.held {s : State} (h : Books s) {g : SegId} {k : Hold} (hk : (s.seg g).init = .held k) :
    BooksAt g (s.seg g).queue none s := by
  have := h.at g
  rw [hk] at this
  exact this

theorem decideStart_books {s : State} (h : Books s) (g : SegId) : Books (decideStart g s) := by
  unfold decideStart
  split
  · exact h
  · rename_i i hd
    have hi : (s.seg g).init = .waiting i := by
      unfold Segment.startDue? at hd
      split at hd
      · rename_i e
        split at hd
        · cases hd; exact e
        · simp at hd
      · simp at hd
    have h1 : Books (modJob i (Job.beginAttempt s.now) s) := h.calm (modJob_calm g s i (fun _ => rfl)) rfl rfl (h.ending g)
    refine h1.modSeg g ⟨rfl, rfl, ?_, fun e => e.leaving rfl rfl ?_⟩
    · simp [hi, Initiator.slot?, freshRun]
    · simp [hi, Initiator.leaving]

/-- A run in START with nothing driven is in no segment reset: one taken then ends the job at once (R142). -/
theorem collide_books {s : State} (h : Books s) (g : SegId)
    (hx : ∀ r, (s.seg g).init = .running r → r.sub = .start → r.drove = false → r.closing = false) :
    Books (collide g s) := by
  unfold collide
  split
  · exact h
  · rename_i r hc
    obtain ⟨hr, hs, hd⟩ := collided_starting hc
    have hl : (s.seg g).init.leaving = false := by simp [hr, Initiator.leaving, hs, hx r hr hs hd]
    have k : Calm g s (modJob r.slot Job.countDeferral s) := modJob_calm g s r.slot (fun _ => rfl)
    have h1 : Books (modJob r.slot Job.countDeferral s) := h.calm k rfl rfl (h.ending g)
    dsimp only
    split
    · exact h1
    · split
      · exact enterIdle_books (by rw [seg_finishJob]; exact finishCurrent_books ((h.running hr).calm k) .cancelled true)
          (by rw [seg_finishJob]; exact (h.ending g).steady hl)
      · exact h1.modSeg g ⟨rfl, rfl, by simp [hr, Initiator.slot?], fun e => e.leaving rfl rfl (fun e => absurd (hl.symm.trans e) (by simp))⟩

theorem beginStop_books {g : SegId} {l : List Slot} {s : State} {r : Run} (h : BooksAt g l (some r.slot) s)
    (hq : (s.seg g).queue = l) (he : (s.seg g).steady) (w : StopWhy) : Books (beginStop g r w s) :=
  (h.calm (modSeg_calm g s rfl)).close (by rw [seg_modSeg]; exact hq) (by simp [stopFrom, Initiator.slot?])
    (by rw [seg_modSeg]; exact Segment.steady.ending ⟨he.1, he.2⟩)

theorem phaseComplete_books {g : SegId} {l : List Slot} {s : State} {r : Run} (h : BooksAt g l (some r.slot) s)
    (hq : (s.seg g).queue = l) (he : (s.seg g).steady) (j : Job) : Books (phaseComplete g r j s) := by
  unfold phaseComplete
  repeat' split
  all_goals first
    | exact beginStop_books h hq he _
    | skip
  · subst hq
    exact enterHeld_books (by rw [seg_finishJob]; exact finishCurrent_books h .done true)
      (by rw [seg_finishJob]; exact he) _ _
  · have h1 := h.calm (modJob_calm g s r.slot
      (f := fun j => { j with phaseIndex := j.phaseIndex + 1, byteIndex := 0, readBuf := [] }) (fun _ => rfl))
    exact (h1.calm (modSeg_calm g _ rfl)).close (by rw [seg_modSeg]; exact hq) (by simp [Initiator.slot?])
      (by rw [seg_modSeg]; exact Segment.steady.ending ⟨he.1, he.2⟩)

theorem goOn_books {g : SegId} {l : List Slot} {s : State} {r : Run} (h : BooksAt g l (some r.slot) s)
    (hq : (s.seg g).queue = l) (he : (s.seg g).steady) (j : Job) (sub : SubStep) : Books (goOn g r j sub s) := by
  unfold goOn; split
  · exact beginStop_books h hq he _
  · exact (h.calm (modSeg_calm g s rfl)).close (by rw [seg_modSeg]; exact hq) (by simp [sendBit, Initiator.slot?])
      (by rw [seg_modSeg]; exact Segment.steady.ending ⟨he.1, he.2⟩)

/-- The acknowledge bit of the running job's byte is taken. -/
structure Took (g : SegId) (r : Run) (s : State) : Prop where
  books : BooksAt g (s.seg g).queue (some r.slot) (modSeg g tookBit s)
  queue : ((modSeg g tookBit s).seg g).queue = (s.seg g).queue
  steady : ((modSeg g tookBit s).seg g).steady

theorem took_books {s : State} (h : Books s) {g : SegId} {sub : SubStep} {r : Run}
    (hr : (s.seg g).ackedRun? sub = some r) (hs : ∀ w, sub ≠ .stop w) : Took g r s := by
  have hi : (s.seg g).init = .running r ∧ r.sub = sub ∧ r.closing = false := by
    unfold Segment.ackedRun? at hr
    split at hr
    · rename_i e
      split at hr
      · rename_i hc
        cases hr
        simp only [Bool.and_eq_true, beq_iff_eq, Bool.not_eq_true'] at hc
        exact ⟨e, hc.2, hc.1.2⟩
      · simp at hr
    · simp at hr
  obtain ⟨hi, hsub, hcl⟩ := hi
  have he := (h.ending g).steady (by
    rw [hi]
    simp only [Initiator.leaving, hcl]
    split
    · rename_i o e; exact absurd (hsub.symm.trans e) (hs _)
    all_goals rfl)
  exact ⟨(h.running hi).calm (modSeg_calm g s rfl), by rw [seg_modSeg]; rfl, by rw [seg_modSeg]; exact ⟨he.1, he.2⟩⟩

theorem Took.setJob {g : SegId} {r : Run} {s : State} (h : Took g r s) {j k : Job} (hj : s.job? r.slot = some j)
    (hk : k.tag = j.tag) : BooksAt g (s.seg g).queue (some r.slot) ((modSeg g tookBit s).setJob r.slot (some k)) :=
  h.books.calm (setJob_calm g _ hj hk)

theorem addressAck_books {s : State} (h : Books s) (g : SegId) : Books (addressAck g s) := by
  unfold addressAck
  split
  · exact h
  · rename_i r hr
    obtain ⟨h1, hq, he⟩ := took_books h hr (by simp)
    split
    · exact h
    · dsimp only [addressNacked, addressAcked]
      repeat' split
      all_goals first
        | exact beginStop_books h1 hq he _
        | exact phaseComplete_books h1 hq he _
        | exact goOn_books h1 hq he _ _

theorem writeByteAck_books {s : State} (h : Books s) (g : SegId) : Books (writeByteAck g s) := by
  unfold writeByteAck
  split
  · exact h
  · rename_i r hr
    have ht := took_books h hr (by simp)
    split
    · exact h
    · rename_i j hj
      have h2 := ht.setJob hj (k := { j with byteIndex := j.byteIndex + 1 }) rfl
      dsimp only
      repeat' split
      all_goals first
        | exact beginStop_books ht.books ht.queue ht.steady _
        | exact phaseComplete_books h2 ht.queue ht.steady _
        | exact goOn_books h2 ht.queue ht.steady _ _

theorem readByte_books {s : State} (h : Books s) (g : SegId) : Books (readByte g s) := by
  unfold readByte
  dsimp only
  split
  · exact h
  · rename_i r hr
    have ht := took_books h hr (by simp)
    split
    · exact h
    · rename_i j hj
      have h2 := ht.setJob hj (k := j.storeByte (s.seg g).framer.shift) rfl
      have h3 := ht.setJob hj (k := (j.storeByte (s.seg g).framer.shift).closePhase) rfl
      repeat' split
      all_goals first
        | exact h
        | exact phaseComplete_books h3 ht.queue ht.steady _
        | exact goOn_books h2 ht.queue ht.steady _ _

theorem lengthByte_books {s : State} (h : Books s) (g : SegId) : Books (lengthByte g s) := by
  unfold lengthByte
  dsimp only
  split
  · exact h
  · rename_i r hr
    have ht := took_books h hr (by simp)
    split
    · exact h
    · rename_i j hj
      have h2 := ht.setJob hj (k := j.storeByte (s.seg g).framer.shift) rfl
      repeat' split
      all_goals first
        | exact h
        | exact beginStop_books ht.books ht.queue ht.steady _
        | exact goOn_books h2 ht.queue ht.steady _ _

theorem retryAfterStop_books {g : SegId} {l : List Slot} {i : Slot} {s : State} (h : BooksAt g l (some i) s)
    (hq : (s.seg g).queue = l) (he : (s.seg g).steady) : Books (retryAfterStop g i s) := by
  obtain ⟨j, hj, _⟩ := h.current.mp rfl
  unfold retryAfterStop
  rw [hj]
  dsimp only
  split
  · exact endRun_books h hq _
  · have h1 := h.calm (setJob_calm g s hj (k := j.countRetry) rfl)
    refine (h1.calm (modSeg_calm g _ rfl)).close (by rw [seg_modSeg]; exact hq) ?_
      (by rw [seg_modSeg]; exact Segment.steady.ending ⟨he.1, he.2⟩)
    rw [seg_modSeg]
    dsimp only
    split <;> rfl

theorem endHold_books {g : SegId} {l : List Slot} {s : State} (h : BooksAt g l none s) (hq : (s.seg g).queue = l)
    (k : Hold) : Books (endHold g k s) := by
  unfold endHold; split
  · refine leave_books (h.calm (claimEvent_calm g _ s)) ?_
    rw [(claimEvent_only g g _ s).queue]; exact hq
  · exact leave_books h hq

theorem queue_released (g : SegId) (s : State) : ((modSeg g releaseLines s).seg g).queue = (s.seg g).queue := by
  rw [seg_modSeg]; rfl

theorem makeStop_books {s : State} (h : Books s) (g : SegId) : Books (makeStop g s) := by
  unfold makeStop
  dsimp only
  split
  · split
    · rename_i r hr
      have h1 := (h.running hr).calm (modSeg_calm g (f := releaseLines) s rfl)
      split
      · exact endRun_books h1 (queue_released g s) _
      · rename_i hs
        have he := (h.ending g).steady (by simp [hr, Initiator.leaving, hs])
        exact retryAfterStop_books h1 (queue_released g s) (by rw [seg_modSeg]; exact ⟨he.1, he.2⟩)
      · exact h
    · rename_i k hk
      split
      · exact endHold_books ((h.held hk).calm (modSeg_calm g (f := releaseLines) s rfl)) (queue_released g s) _
      · exact h
    · exact h
  · exact h

/-- A loss of the bus: in the stop of an outcome already reached nothing can be lost. -/
theorem loseBus_books {s : State} (h : Books s) (g : SegId)
    (hx : ∀ r, (s.seg g).init = .running r → ∀ w, r.sub ≠ .stop w) : Books (loseBus g s) := by
  unfold loseBus
  split
  · rename_i r hr
    have h1 := (h.running hr).calm (modSeg_calm g (f := releaseLines) s rfl)
    dsimp only
    split
    · exact endRun_books h1 (queue_released g s) _
    · rename_i hc
      have he := (h.ending g).steady (by
        rw [hr]
        simp only [Initiator.leaving, Bool.not_eq_true] at hc ⊢
        simp only [hc]
        split
        · rename_i e; exact absurd e (hx r hr _)
        all_goals rfl)
      obtain ⟨j, hj, _⟩ := h1.current.mp rfl
      rw [hj]
      dsimp only
      have h2 := h1.calm (setJob_calm g _ hj (k := j.countLoss) rfl)
      split
      · exact endRun_books h2 (queue_released g s) _
      · split
        · exact endRun_books h2 (queue_released g s) _
        · unfold backOff
          refine (h2.calm (modSeg_calm g _ ?_)).close ?_ ?_ ?_
          · rw [(freeBackoff_same _ _).entries]
          · rw [seg_modSeg, (freeBackoff_same _ _).queue]; exact queue_released g s
          · rw [seg_modSeg, (freeBackoff_same _ _).current]; rfl
          · rw [seg_modSeg]
            refine (freeBackoff_same _ _).ending (Segment.steady.ending ?_)
            rw [setJob_seg, seg_modSeg]
            exact ⟨he.1, he.2⟩
  · exact h

theorem arbitrationLoss_books {s : State} (h : Books s) (g : SegId) : Books (arbitrationLoss g s) := by
  unfold arbitrationLoss; split
  · rename_i hl
    refine loseBus_books h g (fun r hr w e => ?_)
    simp [Segment.lossSeen, hr, e] at hl
  · exact h

theorem loseByCondition_books {s : State} (h : Books s) (g : SegId) : Books (loseByCondition g s) := by
  unfold loseByCondition; split
  · rename_i hl
    refine loseBus_books h g (fun r hr w e => ?_)
    simp [Initiator.losesByCondition, hr, e] at hl
  · exact h

theorem stretchExpires_books {s : State} (h : Books s) (g : SegId) : Books (stretchExpires g s) := by
  unfold stretchExpires
  dsimp only
  split
  · split
    · rename_i r hr
      exact endRun_books ((h.running hr).calm (modSeg_calm g (f := releaseLines) s rfl)) (queue_released g s) _
    · rename_i k hk
      exact endHold_books ((h.held hk).calm (modSeg_calm g (f := releaseLines) s rfl)) (queue_released g s) _
    · exact h
  · exact h

theorem backoffEnds_books {s : State} (h : Books s) (g : SegId) : Books (backoffEnds g s) := by
  unfold backoffEnds; split
  · exact h
  · rename_i i hd
    unfold Segment.backoffDue? at hd
    split at hd
    · rename_i e
      split at hd
      · cases hd
        exact h.modSeg g ⟨rfl, rfl, by simp [e, Initiator.slot?],
          fun k => k.leaving rfl rfl (by simp [e, Initiator.leaving])⟩
      · simp at hd
    · simp at hd

theorem closeHold_books {s : State} (h : Books s) (g : SegId) (w : HoldEnd) {k : Hold} (hk : (s.seg g).init = .held k) :
    Books (closeHold g w k s) :=
  h.modSeg g ⟨rfl, rfl, by simp [hk, Initiator.slot?], fun e => e.leaving rfl rfl (by simp [Initiator.leaving])⟩

theorem holdExpires_books {s : State} (h : Books s) (g : SegId) : Books (holdExpires g s) := by
  unfold holdExpires; split
  · exact h
  · rename_i k hd
    unfold Segment.holdDue? at hd
    split at hd
    · rename_i e
      split at hd
      · cases hd; exact closeHold_books h g _ e
      · simp at hd
    · simp at hd

/-! ## The responder -/

theorem respAddressByte_books {s : State} (h : Books s) (g : SegId) : Books (respAddressByte g s) := by
  unfold respAddressByte
  dsimp only
  split
  · exact h.modSeg g (.of_init rfl rfl rfl rfl rfl)
  · exact h

theorem modEntry_books {s : State} (h : Books s) (g : SegId) (e : EntryId) {f : Entry → Entry}
    (k : SameEntry ((s.seg g).entry e) (f ((s.seg g).entry e))) : Books (modEntry g e f s) :=
  h.calm (modEntry_calm g e s k) (queue_modEntry g e f s g) (by rw [init_modEntry])
    ((h.ending g).only (modEntry_only g g e f s))

theorem windowWriteByte_books {s : State} (h : Books s) (g : SegId) : Books (windowWriteByte g s) := by
  unfold windowWriteByte
  dsimp only
  repeat' split
  all_goals first
    | exact h
    | exact (modEntry_books h g _ ⟨rfl, rfl, rfl⟩).modSeg g (.of_init rfl rfl rfl rfl rfl)

theorem windowReadByte_books {s : State} (h : Books s) (g : SegId) : Books (windowReadByte g s) := by
  unfold windowReadByte
  dsimp only
  repeat' split
  all_goals first
    | exact h
    | exact (modEntry_books h g _ ⟨rfl, rfl, rfl⟩).modSeg g (.of_init rfl rfl rfl rfl rfl)

theorem mailWriteByte_books {s : State} (h : Books s) (g : SegId) : Books (mailWriteByte g s) := by
  unfold mailWriteByte
  dsimp only
  repeat' split
  all_goals first
    | exact h
    | exact h.modSeg g (.of_init rfl rfl rfl rfl rfl)

theorem mailReadByte_books {s : State} (h : Books s) (g : SegId) : Books (mailReadByte g s) := by
  unfold mailReadByte
  dsimp only
  split
  · split
    · split
      · exact h.modSeg g (.of_init rfl rfl rfl rfl rfl)
      · exact h.modSeg g (.of_init rfl rfl rfl rfl rfl)
    · exact h
  · exact h

theorem mailWaitExpires_books {s : State} (h : Books s) (g : SegId) : Books (mailWaitExpires g s) := by
  unfold mailWaitExpires
  split
  · exact h
  · exact h.modSeg g (.of_init rfl rfl rfl rfl rfl)

/-! ## The bus-clear unit -/

theorem claimEvent_books {s : State} (h : Books s) (g : SegId) (ev : SegEvent) : Books (claimEvent g ev s) :=
  h.calm (claimEvent_calm g ev s) (claimEvent_only g g ev s).queue (by rw [(claimEvent_only g g ev s).init])
    ((h.ending g).only (claimEvent_only g g ev s))

theorem stuckInitiator_books {s : State} (h : Books s) (g : SegId) : Leaves g (stuckInitiator g s) := by
  have hq : ((modSeg g leaveLines s).seg g).queue = (s.seg g).queue := by rw [seg_modSeg]; rfl
  have hr : ((modSeg g leaveLines s).seg g).resetting = false := by rw [seg_modSeg]; rfl
  unfold stuckInitiator
  split
  · rename_i r hi
    have h1 := finishCurrent_books ((h.running hi).calm (modSeg_calm g (f := leaveLines) s rfl)) r.stuckOutcome true
    exact toIdle_books (by rw [seg_finishJob, hq]; exact h1) (by rw [seg_finishJob]; exact hr)
  · rename_i k hk
    have h1 := (h.held hk).calm (modSeg_calm g (f := leaveLines) s rfl)
    split
    · refine toIdle_books ?_ ?_
      · rw [(claimEvent_only g g _ _).queue, hq]
        exact h1.calm (claimEvent_calm g _ _)
      · rw [(claimEvent_only g g _ _).resetting]; exact hr
    · exact toIdle_books (by rw [hq]; exact h1) hr
  · rename_i h1 h2
    refine .inl ⟨((h.ending g).steady ?_).disabling, h⟩
    cases e : (s.seg g).init with
    | running r => exact absurd e (h1 r)
    | held k => exact absurd e (h2 k)
    | off | idle | waiting i | backoff i b => rfl

/-- An operation that leaves the books alone, while a disable may be about to end. -/
theorem Leaves.calm {g : SegId} {s t : State} (h : Leaves g s) (k : Calm g s t) (hs : SameBooks (s.seg g) (t.seg g))
    (hd : (t.seg g).disabling = (s.seg g).disabling) : Leaves g t := by
  rcases h with ⟨e, h⟩ | ⟨e, h⟩
  · exact .inl ⟨hd.trans e, h.calm k hs.queue hs.current (hs.ending (h.ending g))⟩
  · exact .inr ⟨hd.trans e, by rw [hs.queue]; exact h.calm k⟩

theorem SameBooks.of_only {x y : Segment} (h : ResponderOnly x y) (he : y.entries = x.entries) : SameBooks x y :=
  .of_init he h.queue h.init h.resetting h.disabling

theorem Leaves.endTransaction {g : SegId} {s : State} (h : Leaves g s) (b : Bool) : Leaves g (endTransaction g b s) := by
  have k := endTransaction_only g g b s
  rcases h with ⟨e, h⟩ | ⟨e, h⟩
  · exact .inl ⟨k.disabling.trans e, endTransaction_keepsBooks h g b⟩
  · exact .inr ⟨k.disabling.trans e, by rw [k.queue]; exact endTransaction_books h b⟩

theorem claimEvent_entries (g : SegId) (ev : SegEvent) (s : State) (k : SegId) :
    ((claimEvent g ev s).seg k).entries = (s.seg k).entries := by
  unfold claimEvent; split
  · rfl
  · rw [seg_modSeg_eq]; split
    · rename_i e; subst e; rfl
    · rfl

theorem stuckDetected_books {s : State} (h : Books s) (g : SegId) : Books (stuckDetected g s) := by
  unfold stuckDetected
  dsimp only
  split
  · have h1 := (stuckInitiator_books h g).endTransaction false
    have h2 := h1.calm (claimEvent_calm g (stuckEvent (s.seg g)) _)
      (.of_only (claimEvent_only g g _ _) (claimEvent_entries g _ _ g)) (claimEvent_only g g _ _).disabling
    refine endDisable_books (h2.calm (modSeg_calm g _ (enterClearing_same _ _).entries)
      (by rw [seg_modSeg]; exact enterClearing_same _ _) ?_)
    rw [seg_modSeg]
    exact enterClearing_disabling _ _
  · exact h

theorem clearWaitExpires_books {s : State} (h : Books s) (g : SegId) : Books (clearWaitExpires g s) := by
  unfold clearWaitExpires; split
  · exact h
  · exact h.modSeg g (startRound_same _ _ _)

theorem clearingPulse_books {s : State} (h : Books s) (g : SegId) : Books (clearingPulse g s) := by
  unfold clearingPulse; split
  · exact h.modSeg g (pulseEnds_same _ _)
  · exact h

theorem roundEnds_books {s : State} (h : Books s) (g : SegId) : Books (roundEnds g s) := by
  unfold roundEnds
  dsimp only
  repeat' split
  · exact h
  · exact claimEvent_books (h.modSeg g (recover_same _ _ _)) _ _
  · exact h.modSeg g (failRound_same _ _ _)

theorem clearStretchExpires_books {s : State} (h : Books s) (g : SegId) : Books (clearStretchExpires g s) := by
  unfold clearStretchExpires; split
  · exact h
  · exact h.modSeg g (failRound_same _ _ _)

theorem idleWatchExpires_books {s : State} (h : Books s) (g : SegId) : Books (idleWatchExpires g s) := by
  unfold idleWatchExpires endLeftTransaction
  repeat' split
  · exact claimEvent_books ((endTransaction_keepsBooks h g false).modSeg g (recover_same _ _ _)) _ _
  · exact claimEvent_books (h.modSeg g (recover_same _ _ _)) _ _
  · exact h

/-! ## Lines -/

theorem setLevel_same (e : Edge) (x : Segment) : SameBooks x (setLevel e x) := by
  unfold setLevel; split <;> exact .of_init rfl rfl rfl rfl rfl

theorem seeEdge_books {s : State} (h : Books s) (hx : Exclusive s) (g : SegId) (e : Edge) : Books (seeEdge g e s) := by
  have k := hx.modSeg g (f := edgeAt s.now (currentJob s g) e) (edgeAt_exclusive (hx g) _ _ _)
  exact collide_books (h.modSeg g (edgeAt_same _ _ _ _)) g (k g).starting

theorem lineEdge_books {s : State} (h : Books s) (hx : Exclusive s) (g : SegId) (e : Edge) : Books (lineEdge g e s) := by
  unfold lineEdge
  dsimp only
  repeat' split
  all_goals first
    | exact h
    | exact h.modSeg g (setLevel_same _ _)
    | exact seeEdge_books h hx g e

theorem sclFallsWhileFree_books {s : State} (h : Books s) (hx : Exclusive s) (g : SegId) :
    Books (sclFallsWhileFree g s) := by
  unfold sclFallsWhileFree
  dsimp only
  split
  · exact seeEdge_books h hx g _
  · exact h

theorem startSeen_books {s : State} (h : Books s) (hx : Exclusive s) (g : SegId) (m : Maker) :
    Books (startSeen g m s) := by
  unfold startSeen startFromOutside startFromPart
  dsimp only
  repeat' split
  all_goals first
    | exact h
    | exact h.modSeg g (setLevel_same _ _)
    | skip
  · have k := endTransaction_exclusive (hx.modSeg g (f := startAt s.now) (startAt_exclusive (hx g) _)) g false
    exact loseByCondition_books (collide_books
      (endTransaction_keepsBooks (h.modSeg g (startAt_same _ _)) g false) g (k g).starting) g
  · exact (endTransaction_keepsBooks h g false).modSeg g ((driveStart_same _).trans (startAt_same _ _))

theorem stopSeen_books {s : State} (h : Books s) (g : SegId) : Books (stopSeen g s) := by
  unfold stopSeen
  dsimp only
  repeat' split
  all_goals first
    | exact h
    | exact h.modSeg g (setLevel_same _ _)
    | exact loseByCondition_books (endTransaction_keepsBooks (h.modSeg g (stopAt_same _ _)) g false) g

theorem windowExpires_books {s : State} (h : Books s) (g : SegId) : Books (windowExpires g s) := by
  unfold windowExpires
  split
  · exact h.modSeg g (monitorFree_same _ _ _)
  · exact h

end Sys2Proof.Machine
end

