-- ==== Sys2Proof/Laws/BooksRequests.lean ====
section
/-! SUPPORT. The books through the requests and the link unit. -/

namespace Sys2Proof.Machine

/-! ## Replies -/

/-- The books of a state with the same engines, jobs and queued notices. -/
theorem BooksAt.plain {g : SegId} {l : List Slot} {c : Option Slot} {s t : State} (h : BooksAt g l c s)
    (hs : t.segs = s.segs) (hj : t.jobs = s.jobs) (hn : t.notices.queue = s.notices.queue) (ho : Owed t) :
    BooksAt g l c t := by
  have seg : ∀ k, t.seg k = s.seg k := fun k => by simp only [State.seg, hs]
  refine ⟨h.pool.same (fun i => by simp only [State.job?, hj]) (fun i => by rw [hn]) (fun k => by simp only [seg])
    (fun k => by simp only [seg]), ho, fun k => by rw [seg]; exact h.distinct k,
    fun k hk => by rw [seg]; exact h.ending k hk⟩

theorem Books.plain {s t : State} (h : Books s) (hs : t.segs = s.segs) (hj : t.jobs = s.jobs)
    (hn : t.notices.queue = s.notices.queue) (ho : Owed t) : Books t := by
  have seg : ∀ k, t.seg k = s.seg k := fun k => by simp only [State.seg, hs]
  exact ((h.at 0).plain hs hj hn ho).close (by rw [seg]) (by rw [seg]) (by rw [seg]; exact h.ending 0)

theorem owes_of {s t : State} (hs : t.segs = s.segs) (hj : t.jobs = s.jobs) {x : Holder} (hx : x ≠ .hand) :
    t.owes x = s.owes x := by
  cases x with
  | hand => exact absurd rfl hx
  | cancel i => exact owes_cancel (by simp only [State.job?, hj])
  | write g e => exact owes_write (by simp only [State.seg, hs])

theorem Cancels.of_jobs {s t : State} (h : Cancels s) (hj : t.jobs = s.jobs) : Cancels t := by
  intro i j e
  rw [State.job?, hj] at e
  exact h i j e

/-- A change of the link unit, or of the notice unit's timers, that is of no concern to the books. -/
theorem Books.quiet {s t : State} (h : Books s) (hs : t.segs = s.segs) (hj : t.jobs = s.jobs)
    (hn : t.notices.queue = s.notices.queue) (hl : SameReplies s t) (hi : t.link.inHand = s.link.inHand) : Books t :=
  h.plain hs hj hn (h.owed.same hl (fun x => by
    by_cases e : x = .hand
    · subst e; exact owes_hand hi
    · exact owes_of hs hj e) (Cancels.of_jobs h.owed.cancels hj))

/-- The reply to the request in hand is made. -/
theorem reply_owed {s : State} (h : Owed s) {r : Request} {d : Deferral} (hi : s.link.inHand = some (.fresh r d.age))
    (code : Byte) (rc : ReplyCode) (data : List Byte) (b : Bool) : Owed (makeReply d code rc data b (letGo s)) :=
  h.discharge (x := .hand) (age := d.age) (by simp [State.owes, hi]) rfl
    (fun _ hy => owes_of (by rfl) (by rfl) hy) rfl (by simp [makeReply, letGo]) rfl rfl (Cancels.of_jobs h.cancels rfl)

theorem reply_booksAt {g : SegId} {l : List Slot} {c : Option Slot} {s : State} (h : BooksAt g l c s) {r : Request}
    {d : Deferral} (hi : s.link.inHand = some (.fresh r d.age)) (code : Byte) (rc : ReplyCode) (data : List Byte)
    (b : Bool) : BooksAt g l c (makeReply d code rc data b (letGo s)) :=
  h.plain rfl rfl rfl (reply_owed h.owed hi code rc data b)

/-- The request in hand is answered. -/
theorem answer_books {s : State} (h : Books s) {r r' : Request} {d : Deferral}
    (hi : s.link.inHand = some (.fresh r' d.age)) (rc : ReplyCode) (data : List Byte) :
    Books (answer r d rc data s) := h.plain rfl rfl rfl (reply_owed h.owed hi _ _ _ _)

/-! ## The requests of the link unit -/

/-- A request in hand that an answer is for. -/
abbrev Hand (s : State) (d : Deferral) : Prop := ∃ r, s.link.inHand = some (.fresh r d.age)

theorem withRequest_books {s : State} (h : Books s) (code : Byte) {f : Request → Deferral → State → State}
    (hf : ∀ r d, Hand s d → Books (f r d s)) : Books (withRequest code f s) := by
  unfold withRequest
  split
  · rename_i r age hi
    split
    · exact hf r _ ⟨r, hi⟩
    · exact h
  · exact h

theorem refuseUnknown_books {s : State} (h : Books s) : Books (refuseUnknown s) := by
  unfold refuseUnknown
  split
  · rename_i r age hi
    split
    · exact h
    · exact answer_books h (d := { tag := r.tag, age := age }) hi _ _
  · exact h

theorem settleDuplicate_books {s : State} (h : Books s) : Books (settleDuplicate s) := by
  unfold settleDuplicate
  split
  · rename_i r body hi
    refine h.plain rfl rfl rfl ?_
    have hx : s.owes .hand = some none := by simp [State.owes, hi]
    have hlen := owes_discharge (f := s.owes)
      (f' := State.owes { s with
        link := { s.link with
          replies := s.link.replies ++ [{ body := body, devReset := false }]
          reserved := s.link.reserved - 1
          inHand := none } }) (x := .hand) (by simp [hx]) rfl (fun y hy => owes_of (by rfl) (by rfl) hy)
    have h1 := h.owed.reserved
    have h2 := h.owed.places
    refine ⟨?_, by simp only [List.length_append, List.length_singleton]; omega, h.owed.capacity,
      fun e he hp => ?_, h.owed.ages, Cancels.of_jobs h.owed.cancels rfl⟩
    · show s.link.reserved - 1 = _
      rw [h1, hlen]
      rfl
    obtain ⟨y, hy⟩ := h.owed.pending e he hp
    refine ⟨y, ?_⟩
    rw [owes_of (s := s) (by rfl) (by rfl)]
    · exact hy
    · rintro rfl
      rw [hx] at hy
      simp at hy
  · rename_i r hi
    refine h.plain rfl rfl rfl (h.owed.same ⟨rfl, rfl, rfl, rfl⟩ (fun x => ?_) (Cancels.of_jobs h.owed.cancels rfl))
    by_cases e : x = .hand
    · subst e
      simp [State.owes, hi]
    · exact owes_of (by rfl) (by rfl) e
  · exact h

theorem answerDevInfo_books {s : State} (h : Books s) (r : Request) {d : Deferral} (hi : Hand s d) :
    Books (answerDevInfo r d s) := by
  obtain ⟨_, hi⟩ := hi
  unfold answerDevInfo; split <;> exact answer_books h hi _ _

theorem answerDevReset_books {s : State} (h : Books s) (r : Request) {d : Deferral} (hi : Hand s d) :
    Books (answerDevReset r d s) := by
  obtain ⟨_, hi⟩ := hi
  unfold answerDevReset; split
  · exact answer_books h hi _ _
  · have h1 : Books (makeReply d r.code .ok [] true (letGo s)) := h.plain rfl rfl rfl (reply_owed h.owed hi _ _ _ _)
    exact h1.quiet rfl rfl rfl ⟨rfl, rfl, rfl, rfl⟩ rfl

theorem answerLinkConfig_books {s : State} (h : Books s) (r : Request) {d : Deferral} (hi : Hand s d) :
    Books (answerLinkConfig r d s) := by
  obtain ⟨_, hi⟩ := hi
  unfold answerLinkConfig; split
  · exact answer_books h hi _ _
  · rename_i w ms _
    have h1 : Books { s with notices := { s.notices with window := w, resendMs := ms } } :=
      h.quiet rfl rfl rfl ⟨rfl, rfl, rfl, rfl⟩ rfl
    exact answer_books h1 hi _ _

/-! ## The requests of a segment -/

theorem answerSegStatus_books {s : State} (h : Books s) (r : Request) {d : Deferral} (hi : Hand s d) :
    Books (answerSegStatus r d s) := by
  obtain ⟨_, hi⟩ := hi
  unfold answerSegStatus; split <;> exact answer_books h hi _ _

/-- The books, but for whether a segment reset or a disable is under way at segment `g`. -/
abbrev BooksBut (g : SegId) (s : State) : Prop := BooksAt g (s.seg g).queue (s.seg g).init.slot? s

theorem BooksBut.modSeg {g : SegId} {s : State} (h : BooksBut g s) {f : Segment → Segment}
    (he : (f (s.seg g)).entries = (s.seg g).entries) (hq : (f (s.seg g)).queue = (s.seg g).queue)
    (hc : (f (s.seg g)).init.slot? = (s.seg g).init.slot?) : BooksBut g (Machine.modSeg g f s) := by
  unfold BooksBut
  rw [seg_modSeg, hq, hc]
  exact h.calm (modSeg_calm g s he)

theorem flushQueue_but {g : SegId} {s : State} (h : BooksBut g s) : BooksBut g (flushQueue g s) := by
  unfold BooksBut
  rw [flushQueue_seg]
  exact finishAll_books (h.calm (modSeg_calm g (f := fun x => { x with queue := [] }) s rfl)) .flushed

theorem flushQueue_books {s : State} (h : Books s) (g : SegId) : Books (flushQueue g s) :=
  BooksAt.close (flushQueue_but (h.at g)) rfl rfl (by rw [flushQueue_seg]; exact (h.ending g).same rfl rfl rfl)

theorem flushHold_books {s : State} (h : Books s) (g : SegId) : Books (flushHold g s) := by
  unfold flushHold
  split
  · rename_i k hk
    split
    · exact h
    · exact closeHold_books h g _ hk
  · exact h

theorem flushCurrent_but {g : SegId} {s : State} (h : BooksBut g s) {i : Slot}
    (hi : (s.seg g).init.slot? = some i) (b : Bool) : BooksBut g (flushCurrent g i b s) := by
  unfold BooksBut at h ⊢
  rw [hi] at h
  unfold flushCurrent
  rw [seg_finishJob, seg_modSeg]
  exact finishCurrent_books (h.calm (modSeg_calm g (f := fun x => { x with init := .idle }) s rfl)) .flushed b

/-- After the initiator has taken a segment reset it is on its way out, or has no job, or is in START with nothing
driven (R142). -/
def ResetTaken (x : Segment) : Prop :=
  x.init.leaving = true ∨ x.init.slot? = none ∧ x.init.ownsBus = false ∨
    ∃ r, x.init = .running r ∧ r.sub = .start ∧ r.drove = false

theorem resetInitiator_but {g : SegId} {s : State} (h : BooksBut g s) :
    BooksBut g (resetInitiator g s) ∧ ResetTaken ((resetInitiator g s).seg g) := by
  unfold resetInitiator
  split
  · rename_i hi
    exact ⟨h, .inr (.inl (by rw [hi]; exact ⟨rfl, rfl⟩))⟩
  · rename_i hi
    exact ⟨h, .inr (.inl (by rw [hi]; exact ⟨rfl, rfl⟩))⟩
  · rename_i i hi
    refine ⟨flushCurrent_but h (by rw [hi]; rfl) _, .inr (.inl ?_)⟩
    rw [flushCurrent, seg_finishJob, seg_modSeg]
    exact ⟨rfl, rfl⟩
  · rename_i i b hi
    refine ⟨flushCurrent_but h (by rw [hi]; rfl) _, .inr (.inl ?_)⟩
    rw [flushCurrent, seg_finishJob, seg_modSeg]
    exact ⟨rfl, rfl⟩
  · rename_i k hk
    split
    · rename_i w hw
      exact ⟨h, .inl (by rw [hk]; simp [Initiator.leaving, hw])⟩
    · exact ⟨h.modSeg rfl rfl (by simp [hk, Initiator.slot?]), .inl (by rw [closeHold, seg_modSeg]; rfl)⟩
  · rename_i r hr
    split
    · rename_i o hs
      exact ⟨h.calm (modJob_calm g s r.slot (fun _ => rfl)),
        .inl (by rw [modJob_seg, hr]; simp [Initiator.leaving, hs])⟩
    · exact ⟨h.modSeg rfl rfl (by simp [hr, Initiator.slot?]), .inl (by rw [seg_modSeg]; rfl)⟩
    · rename_i hs
      split
      · exact ⟨h.modSeg rfl rfl (by simp [hr, Initiator.slot?]),
          .inl (by rw [seg_modSeg]; simp [Initiator.leaving, hs])⟩
      · rename_i hd
        exact ⟨h, .inr (.inr ⟨r, hr, hs, by simpa using hd⟩)⟩
    all_goals
      rename_i hs
      exact ⟨h.modSeg rfl rfl (by simp [hr, Initiator.slot?]),
        .inl (by rw [seg_modSeg]; simp [Initiator.leaving, hs])⟩

/-- A segment reset has ended at an engine whose initiator has no job and does not own the bus; else the initiator owns
the bus and is on its way out. -/
def ResetDone (i : Initiator) : Prop := i.leaving = true ∧ i.ownsBus = true ∨ i.slot? = none ∧ i.ownsBus = false

theorem flushStart_but {g : SegId} {s : State} (h : BooksBut g s) (hx : ResetTaken (s.seg g)) :
    BooksBut g (flushStart g s) ∧ ResetDone ((flushStart g s).seg g).init := by
  unfold flushStart
  split
  · rename_i r hr
    split
    · rename_i hs
      refine ⟨flushCurrent_but h (by rw [hr]; rfl) _, .inr ?_⟩
      rw [flushCurrent, seg_finishJob, seg_modSeg]
      exact ⟨rfl, rfl⟩
    · rename_i hs
      have hown : (s.seg g).init.ownsBus = true := by
        rw [hr]
        simp only [Bool.not_eq_true] at hs
        simp only [Initiator.ownsBus, hs, Bool.not_false]
      refine ⟨h, ?_⟩
      rcases hx with hx | hx | ⟨k, hk, h1, h2⟩
      · exact .inl ⟨hx, hown⟩
      · exact .inr hx
      · rw [hr] at hk
        cases hk
        simp [h1, h2] at hs
  · rename_i hn
    refine ⟨h, ?_⟩
    rcases hx with hx | hx | ⟨k, hk, _⟩
    · refine .inl ⟨hx, ?_⟩
      cases e : (s.seg g).init with
      | running r => exact absurd e (hn r)
      | held k => rfl
      | off | idle | waiting k | backoff k b => rw [e] at hx; simp [Initiator.leaving] at hx
    · exact .inr hx
    · exact absurd hk (hn k)

theorem resetLines_same (now : Nat) (x : Segment) :
    (resetLines now x).entries = x.entries ∧ (resetLines now x).queue = x.queue ∧ (resetLines now x).init = x.init ∧
      (resetLines now x).resetting = x.init.ownsBus ∧ (resetLines now x).disabling = x.disabling := by
  unfold resetLines resetClear startRound failRound
  dsimp only
  (repeat' split) <;> exact ⟨rfl, rfl, rfl, rfl, rfl⟩

/-- A segment reset: it has ended, or the initiator owns the bus and is on its way out. -/
theorem segmentReset_but {g : SegId} {s : State} (h : BooksBut g s) :
    BooksBut g (segmentReset g s) ∧
      (((segmentReset g s).seg g).resetting = true ∧ ((segmentReset g s).seg g).init.leaving = true ∨
        ((segmentReset g s).seg g).resetting = false ∧ ((segmentReset g s).seg g).init.slot? = none) := by
  have k := endTransaction_only g g true s
  have h0 : BooksBut g (endTransaction g true s) := by
    unfold BooksBut
    rw [k.queue, k.init]
    exact endTransaction_books h true
  obtain ⟨h1, h1'⟩ := resetInitiator_but h0
  have h2 := flushQueue_but h1
  have e2 : ResetTaken ((flushQueue g (resetInitiator g (endTransaction g true s))).seg g) := by
    rw [flushQueue_seg]; exact h1'
  obtain ⟨h3, h4⟩ := flushStart_but h2 e2
  obtain ⟨k1, k2, k3, k4, k5⟩ := resetLines_same s.now
    ((flushStart g (flushQueue g (resetInitiator g (endTransaction g true s)))).seg g)
  refine ⟨h3.modSeg k1 k2 (by rw [k3]), ?_⟩
  unfold segmentReset
  dsimp only
  rw [seg_modSeg, k3, k4]
  rcases h4 with ⟨h4, h5⟩ | ⟨h4, h5⟩
  · exact .inl ⟨h5, h4⟩
  · exact .inr ⟨h5, h4⟩

theorem segmentReset_disabling (g : SegId) (s : State) :
    ((segmentReset g s).seg g).disabling = (s.seg g).disabling := by
  have h1 : ∀ t : State, ((resetInitiator g t).seg g).disabling = (t.seg g).disabling := by
    intro t
    unfold resetInitiator flushCurrent closeHold
    (repeat' split) <;> simp
  have h2 : ∀ t : State, ((flushStart g t).seg g).disabling = (t.seg g).disabling := by
    intro t
    unfold flushStart flushCurrent
    (repeat' split) <;> simp
  unfold segmentReset
  dsimp only
  rw [seg_modSeg, (resetLines_same _ _).2.2.2.2, h2, flushQueue_seg, h1, (endTransaction_only g g true s).disabling]

/-- A segment reset where no disable is under way. -/
theorem segmentReset_books {s : State} (h : Books s) (g : SegId) (hd : (s.seg g).disabling = false) :
    Books (segmentReset g s) := by
  obtain ⟨h1, h2⟩ := segmentReset_but (h.at g)
  refine h1.close rfl rfl ?_
  intro hf
  rcases h2 with ⟨_, h2⟩ | ⟨h2, _⟩
  · exact h2
  · rw [h2, segmentReset_disabling, hd] at hf
    simp at hf

/-- A disable is a segment reset, and the end of the disable at once where that reset has ended. -/
theorem disableSegment_books {s : State} (h : Books s) (g : SegId) : Books (disableSegment g s) := by
  have h0 : BooksBut g (modSeg g (fun x => { x with disabling := true }) s) := BooksBut.modSeg (h.at g) rfl rfl rfl
  obtain ⟨h1, h2⟩ := segmentReset_but h0
  unfold disableSegment
  dsimp only
  split
  · rename_i hr
    refine h1.close rfl rfl (fun _ => ?_)
    rcases h2 with ⟨_, h2⟩ | ⟨h2, _⟩
    · exact h2
    · rw [hr] at h2; simp at h2
  · rename_i hr
    refine goOff_books ?_
    rcases h2 with ⟨h2, _⟩ | ⟨_, h2⟩
    · exact absurd h2 hr
    · unfold BooksBut at h1
      rw [h2] at h1
      exact h1

theorem enableSegment_books {s : State} (h : Books s) (g : SegId) (ho : (s.seg g).isOff = true) :
    Books (modSeg g (enableSegment s.now) s) := by
  have e : (s.seg g).init = .off := by
    cases e : (s.seg g).init <;> simp [Segment.isOff, e] at ho ⊢
  refine h.modSeg g ⟨rfl, rfl, by rw [e]; rfl, fun k => k.leaving rfl rfl (by rw [e]; simp [Initiator.leaving])⟩

theorem applyEnable_books {s : State} (h : Books s) (g : SegId) (b : Bool) : Books (applyEnable g b s) := by
  unfold applyEnable
  dsimp only
  split
  · exact h
  · split
    · rename_i ho
      split
      · exact enableSegment_books h g ho
      · exact h
    · split
      · exact h
      · exact disableSegment_books h g

/-! ### The request stays in hand -/

@[simp] theorem modSeg_inHand (g : SegId) (f : Segment → Segment) (s : State) :
    (modSeg g f s).link.inHand = s.link.inHand := rfl

theorem finishAll_inHand (o : JobOutcome) (l : List Slot) (s : State) :
    (finishAll o l s).link.inHand = s.link.inHand := by
  induction l generalizing s with
  | nil => rfl
  | cons i l ih => rw [finishAll, ih, finishJob_inHand]

theorem flushQueue_inHand (g : SegId) (s : State) : (flushQueue g s).link.inHand = s.link.inHand := by
  rw [flushQueue, finishAll_inHand, modSeg_inHand]

theorem flushHold_inHand (g : SegId) (s : State) : (flushHold g s).link.inHand = s.link.inHand := by
  unfold flushHold closeHold
  (repeat' split) <;> rfl

theorem segmentReset_inHand (g : SegId) (s : State) : (segmentReset g s).link.inHand = s.link.inHand := by
  have h1 : ∀ t : State, (resetInitiator g t).link.inHand = t.link.inHand := by
    intro t
    unfold resetInitiator flushCurrent closeHold
    (repeat' split) <;> simp
  have h2 : ∀ t : State, (flushStart g t).link.inHand = t.link.inHand := by
    intro t
    unfold flushStart flushCurrent
    (repeat' split) <;> simp
  unfold segmentReset
  rw [modSeg_inHand, h2, flushQueue_inHand, h1, endTransaction_inHand]

theorem goOff_inHand (g : SegId) (s : State) : (goOff g s).link.inHand = s.link.inHand := by
  rw [goOff, modSeg_inHand, endTransaction_inHand]

theorem applyEnable_inHand (g : SegId) (b : Bool) (s : State) :
    (applyEnable g b s).link.inHand = s.link.inHand := by
  have h1 : (segmentReset g (modSeg g (fun x => { x with disabling := true }) s)).link.inHand = s.link.inHand := by
    rw [segmentReset_inHand, modSeg_inHand]
  unfold applyEnable disableSegment
  dsimp only
  repeat' split
  · rfl
  · rfl
  · rfl
  · rfl
  · exact h1
  · rw [goOff_inHand]; exact h1

theorem answerSegConfig_books {s : State} (h : Books s) (r : Request) {d : Deferral} (hi : Hand s d) :
    Books (answerSegConfig r d s) := by
  obtain ⟨_, hi⟩ := hi
  unfold answerSegConfig
  split
  · exact answer_books h hi _ _
  · rename_i g cfg _
    exact answer_books (applyEnable_books (h.modSeg g (.of_init rfl rfl rfl rfl rfl)) g _)
      (by rw [applyEnable_inHand]; exact hi) _ _

theorem answerSegFlush_books {s : State} (h : Books s) (r : Request) {d : Deferral} (hi : Hand s d) :
    Books (answerSegFlush r d s) := by
  obtain ⟨_, hi⟩ := hi
  unfold answerSegFlush
  dsimp only
  repeat' split
  · exact answer_books h hi _ _
  · exact answer_books h hi _ _
  · exact answer_books (flushHold_books (flushQueue_books h _) _)
      (by rw [flushHold_inHand, flushQueue_inHand]; exact hi) _ _

theorem answerSegReset_books {s : State} (h : Books s) (r : Request) {d : Deferral} (hi : Hand s d) :
    Books (answerSegReset r d s) := by
  obtain ⟨_, hi⟩ := hi
  unfold answerSegReset
  dsimp only
  repeat' split
  · exact answer_books h hi _ _
  · exact answer_books h hi _ _
  · rename_i g _ hr
    refine answer_books (segmentReset_books h g ?_) (by rw [segmentReset_inHand]; exact hi) _ _
    simp only [Segment.refuses, Bool.or_eq_true, not_or, Bool.not_eq_true] at hr
    exact hr.2

/-! ## The requests of the job pool -/

theorem mem_insertUrgent (u : Slot → Bool) (i m : Slot) (l : List Slot) :
    m ∈ insertUrgent u i l ↔ m ∈ l ∨ m = i := by
  induction l with
  | nil => simp [insertUrgent]
  | cons a l ih =>
    unfold insertUrgent
    split
    · rw [List.mem_cons, ih, List.mem_cons, or_assoc]
    · rw [List.mem_cons, or_comm]

theorem nodup_insertUrgent (u : Slot → Bool) (i : Slot) {l : List Slot} (h : l.Nodup) (hi : i ∉ l) :
    (insertUrgent u i l).Nodup := by
  induction l with
  | nil => simp [insertUrgent]
  | cons a l ih =>
    rw [List.nodup_cons] at h
    rw [List.mem_cons, not_or] at hi
    unfold insertUrgent
    split
    · rw [List.nodup_cons, mem_insertUrgent]
      exact ⟨fun e => e.elim h.1 (fun e => hi.1 e.symm), ih h.2 hi.2⟩
    · exact List.nodup_cons.mpr ⟨by rw [List.mem_cons, not_or]; exact hi, List.nodup_cons.mpr h⟩

theorem mem_enqueue (s : State) (cls : JobClass) (i m : Slot) (l : List Slot) :
    m ∈ enqueue s cls i l ↔ m ∈ l ∨ m = i := by
  cases cls
  · simp [enqueue]
  · exact mem_insertUrgent _ _ _ _

theorem nodup_enqueue (s : State) (cls : JobClass) {i : Slot} {l : List Slot} (h : l.Nodup) (hi : i ∉ l) :
    (enqueue s cls i l).Nodup := by
  cases cls
  · simp only [enqueue]
    rw [List.nodup_append]
    exact ⟨h, by simp, fun a ha b hb e => hi (by rw [← List.mem_singleton.mp hb, ← e]; exact ha)⟩
  · exact nodup_insertUrgent _ _ h hi

theorem placeJob_books {s : State} (h : Books s) {i : Slot} {u : Submission} (hf : s.job? i = none)
    (hid : ∀ m b, s.job? m = some b → b.id ≠ u.id) : Books (placeJob i u s) := by
  have seg : ∀ k, ((placeJob i u s).seg k).queue =
      if k = u.seg then enqueue s u.cls i (s.seg k).queue else (s.seg k).queue := by
    intro k
    unfold placeJob
    rw [seg_modSeg_eq]
    split
    · rename_i e; subst e; rfl
    · rfl
  have rest : ∀ k, ((placeJob i u s).seg k).init = (s.seg k).init ∧ ((placeJob i u s).seg k).entries = (s.seg k).entries ∧
      ((placeJob i u s).seg k).resetting = (s.seg k).resetting ∧
      ((placeJob i u s).seg k).disabling = (s.seg k).disabling := by
    intro k
    unfold placeJob
    rw [seg_modSeg_eq]
    split
    · rename_i e; subst e; exact ⟨rfl, rfl, rfl, rfl⟩
    · exact ⟨rfl, rfl, rfl, rfl⟩
  have out : ∀ g, i ∉ (s.seg g).queue := by
    intro g hm
    obtain ⟨j, hj, _⟩ := (h.pool.queued g i).mp hm
    rw [hf] at hj
    simp at hj
  have hjobs : Sets i (some (admittedJob (s.seg u.seg).cfg u)) s.job? (placeJob i u s).job? :=
    fun m => job?_setJob_eq s i m _
  refine ⟨?_, ?_, fun g => ?_, fun g => ?_⟩
  · refine h.pool.place hf hjobs hid rfl (fun g m => ?_) (fun g => ?_) (fun g => by rw [(rest g).1])
    · rw [seg]
      split
      · rename_i e
        rw [mem_enqueue]
        simp [admittedJob, e]
      · rename_i e
        simp [admittedJob, e]
    · rw [seg]
      split
      · exact nodup_enqueue s u.cls (h.pool.once g) (out g)
      · exact h.pool.once g
  · refine h.owed.same ⟨rfl, rfl, rfl, rfl⟩ (fun x => ?_) (fun m b hb hr => ?_)
    · cases x with
      | hand => exact owes_hand rfl
      | cancel m =>
        refine owes_cancel ?_
        by_cases e : m = i
        · subst e; rw [hjobs.at, hf]; rfl
        · rw [hjobs.ne e]
      | write g e => exact owes_write (entry_of_entries (rest g).2.1 e).deferred
    · by_cases e : m = i
      · subst e
        rw [hjobs.at] at hb
        cases hb
        exact absurd rfl hr
      · rw [hjobs.ne e] at hb
        exact h.owed.cancels m b hb hr
  · exact (h.distinct g).same (entry_of_entries (rest g).2.1)
  · exact (h.ending g).same (rest g).2.2.1 (rest g).2.2.2 (rest g).1

theorem freeSlot_free {s : State} {i : Slot} (h : freeSlot s = some i) : s.job? i = none := by
  have := List.find?_some h
  simpa using this

theorem findJob_none {s : State} {id : Word} (h : (findJob s id).bind s.job? = none) (m : Slot) (b : Job)
    (hb : s.job? m = some b) : b.id ≠ id := by
  intro e
  cases hf : findJob s id with
  | none =>
    have := List.find?_eq_none.mp hf m (by simp [slots, List.mem_finRange])
    simp [hb, e] at this
  | some k =>
    rw [hf] at h
    have := List.find?_some hf
    simp only [Option.bind_some] at h
    simp [h] at this

theorem admission_slot {u : Submission} {s : State} {i : Slot} (h : admission u s = .ok i) :
    s.job? i = none ∧ ∀ m b, s.job? m = some b → b.id ≠ u.id := by
  unfold admission at h
  dsimp only at h
  repeat' split at h
  all_goals try (simp at h; done)
  cases h
  rename_i hn _ _ _ hs
  exact ⟨freeSlot_free hs, findJob_none hn⟩

theorem lookAtQueue_books {s : State} (h : Books s) (g : SegId) : Books (lookAtQueue g s) := by
  unfold lookAtQueue
  split
  · rename_i hi
    have := h.at g
    rw [hi] at this
    exact enterIdle_books this ((h.ending g).steady (by rw [hi]; rfl))
  · exact takeContinuation_books h g
  · exact h

theorem answerJobSubmit_books {s : State} (h : Books s) (r : Request) {d : Deferral} (hi : Hand s d) :
    Books (answerJobSubmit r d s) := by
  obtain ⟨_, hi⟩ := hi
  unfold answerJobSubmit
  split
  · exact answer_books h hi _ _
  · split
    · exact answer_books h hi _ _
    · rename_i i ha
      obtain ⟨hf, hid⟩ := admission_slot ha
      exact lookAtQueue_books (answer_books (placeJob_books h hf hid) (by exact hi) _ _) _

theorem answerJobQuery_books {s : State} (h : Books s) (r : Request) {d : Deferral} (hi : Hand s d) :
    Books (answerJobQuery r d s) := by
  obtain ⟨_, hi⟩ := hi
  unfold answerJobQuery
  (repeat' split) <;> exact answer_books h hi _ _

/-- A cancel is deferred: the job holds the debt of the request in hand (R136). -/
theorem deferCancel_books {s : State} (h : Books s) {i : Slot} {j : Job} {r : Request} {d : Deferral}
    (hi : s.link.inHand = some (.fresh r d.age)) (hj : s.job? i = some j) (hp : j.cancelPending = false)
    (hs : j.status = .current) : Books (deferCancel d i s) := by
  have hr : j.cancelReply = none := by
    cases e : j.cancelReply with
    | none => rfl
    | some d =>
      have := (h.owed.cancels i j hj (by simp [e])).1
      rw [hp] at this
      simp at this
  have hjobs : ∀ m, (deferCancel d i s).job? m =
      if m = i then some { j with cancelPending := true, cancelReply := some d } else s.job? m := by
    intro m
    show (modJob i (fun k => { k with cancelPending := true, cancelReply := some d }) s).job? m = _
    split
    · rename_i e; subst e; rw [job?_modJob, hj]; rfl
    · rename_i e; rw [job?_modJob_ne s _ e]
  refine ⟨h.pool.same (fun m => ?_) (fun _ => rfl) (fun _ => rfl) (fun _ => rfl), ?_, h.distinct, h.ending⟩
  · rw [hjobs]
    split
    · rename_i e; subst e; rw [hj]; rfl
    · rfl
  · refine h.owed.transfer (x := .hand) (y := .cancel i) ⟨rfl, rfl, rfl, rfl⟩ ?_ rfl ?_ (fun z h1 h2 => ?_)
      (fun m b hb hr' => ?_)
    · simp [State.owes, hj, hr]
    · simp [State.owes, hjobs, hi]
    · cases z with
      | hand => exact absurd rfl h1
      | cancel m =>
        refine owes_cancel ?_
        rw [hjobs, if_neg (fun e => h2 (by rw [e]))]
      | write g e => exact owes_write rfl
    · rw [hjobs] at hb
      split at hb
      · cases hb; exact ⟨rfl, hs⟩
      · exact h.owed.cancels m b hb hr'

theorem cancelQueued_books {s : State} (h : Books s) {i : Slot} {j : Job} (r : Request) {r' : Request} {d : Deferral}
    (hi : s.link.inHand = some (.fresh r' d.age)) (hj : s.job? i = some j) (hs : j.status = .queued) :
    Books (cancelQueued r d i j s) := by
  have hm := (h.pool.queued j.seg i).mpr ⟨j, hj, rfl, hs⟩
  have h1 := finishQueued_books ((h.at j.seg).calm
    (modSeg_calm j.seg (f := fun x => { x with queue := x.queue.erase i }) s rfl)) hm .cancelled false
  refine answer_books (h1.close ?_ ?_ ?_) (by rw [finishJob_inHand, modSeg_inHand]; exact hi) _ _
  · rw [seg_finishJob, seg_modSeg]
  · rw [seg_finishJob, seg_modSeg]
  · rw [seg_finishJob, seg_modSeg]; exact (h.ending j.seg).same rfl rfl rfl

theorem cancelWaiting_books {s : State} (h : Books s) {i : Slot} {j : Job} (r : Request) {r' : Request} {d : Deferral}
    (hi : s.link.inHand = some (.fresh r' d.age)) (hj : s.job? i = some j) (hs : j.status = .current)
    (hr : (s.seg j.seg).init.runsSlot i = false) : Books (cancelWaiting r d i j s) := by
  have hc : (s.seg j.seg).init.slot? = some i := (h.pool.current j.seg i).mpr ⟨j, hj, rfl, hs⟩
  have hl : (s.seg j.seg).init.leaving = false := by
    cases e : (s.seg j.seg).init with
    | running k =>
      rw [e] at hc hr
      simp only [Initiator.slot?, Option.some.injEq] at hc
      simp [Initiator.runsSlot, hc] at hr
    | held k => rw [e] at hc; simp [Initiator.slot?] at hc
    | off | idle | waiting k | backoff k b => rfl
  have he := (h.ending j.seg).steady hl
  have h0 := h.at j.seg
  rw [hc] at h0
  have h1 := finishCurrent_books (h0.calm (modJob_calm j.seg s i
    (f := fun k => { k with results := [], readBuf := [] }) (fun _ => rfl))) .cancelled false
  have h2 := reply_booksAt h1 (r := r') (d := d) (by rw [finishJob_inHand]; exact hi) r.code .ok
    (cancelData j .cancelled false) false
  have seg : ((answer r d .ok (cancelData j .cancelled false) (finishJob i .cancelled false
      (modJob i (fun k => { k with results := [], readBuf := [] }) s))).seg j.seg) = s.seg j.seg := by
    rw [seg_answer, seg_finishJob, modJob_seg]
  unfold cancelWaiting
  rcases toIdle_books (g := j.seg) (s := answer r d .ok (cancelData j .cancelled false) (finishJob i .cancelled false
      (modJob i (fun k => { k with results := [], readBuf := [] }) s)))
    (by rw [seg]; exact h2) (by rw [seg]; exact he.resetting) with ⟨_, h3⟩ | ⟨hd, _⟩
  · exact h3
  · have : ((toIdle j.seg (answer r d .ok (cancelData j .cancelled false) (finishJob i .cancelled false
        (modJob i (fun k => { k with results := [], readBuf := [] }) s)))).seg j.seg).disabling = false := by
      unfold toIdle
      rw [seg, if_neg (by rw [he.disabling]; simp), enterIdle, examineQueue_disabling, seg]
      exact he.disabling
    rw [this] at hd
    simp at hd

theorem answerJobCancel_books {s : State} (h : Books s) (r : Request) {d : Deferral} (hi : Hand s d) :
    Books (answerJobCancel r d s) := by
  obtain ⟨_, hi⟩ := hi
  unfold answerJobCancel
  split
  · exact answer_books h hi _ _
  · split
    · exact answer_books h hi _ _
    · split
      · exact answer_books h hi _ _
      · rename_i j hj
        split
        · exact answer_books h hi _ _
        · rename_i hs
          exact cancelQueued_books h r hi hj hs
        · rename_i hs
          split
          · split
            · exact answer_books h hi _ _
            · rename_i hp
              exact deferCancel_books h hi hj (by simpa using hp) hs
          · rename_i hr
            exact cancelWaiting_books h r hi hj hs (by simpa using hr)

/-! ## The requests of the responder -/

theorem modEntry_inHand (g : SegId) (e : EntryId) (f : Entry → Entry) (s : State) :
    (modEntry g e f s).link.inHand = s.link.inHand := rfl

theorem settledEntry_deferred (v : Option EntrySettings) (n : Entry) : (settledEntry v n).deferred = n.deferred := by
  unfold settledEntry setEntryTo clearEntry
  (repeat' split) <;> rfl

/-- The address a RESP_SET leaves at an entry it leaves enabled is no other enabled entry's (R101). -/
theorem settledEntry_distinct {x : Segment} (h : x.distinct) {e : EntryId} {v : Option EntrySettings}
    (hd : duplicatesAddress x e v = false) : (x.setEntry e (settledEntry v (x.entry e))).distinct := by
  have fresh : ∀ k, k ≠ e → (settledEntry v (x.entry e)).enable = true → (x.entry k).enable = true →
      (settledEntry v (x.entry e)).address ≠ (x.entry k).address := by
    intro k hk h1 h2 h3
    cases v with
    | none => simp [settledEntry, clearEntry] at h1
    | some v =>
      have h1' : v.enable = true := by
        simp only [settledEntry, setEntryTo] at h1
        split at h1 <;> exact h1
      have h3' : (x.entry k).address = some v.address := by
        rw [← h3]
        simp only [settledEntry, setEntryTo]
        split <;> rfl
      have hm : ∀ k : EntryId, k ∈ entryIds := by decide
      simp only [duplicatesAddress, h1', Bool.true_and, Segment.addressTaken, List.any_eq_false] at hd
      have := hd k (hm k)
      simp [hk, h2, h3'] at this
  intro a b h1 h2 h3
  rw [entry_setEntry_eq] at h1 h2 h3
  rw [entry_setEntry_eq] at h3
  by_cases ea : a = e
  · by_cases eb : b = e
    · rw [ea, eb]
    · rw [if_pos ea] at h1 h3
      rw [if_neg eb] at h2 h3
      exact absurd h3 (fresh b eb h1 h2)
  · rw [if_neg ea] at h1 h3
    by_cases eb : b = e
    · rw [if_pos eb] at h2 h3
      exact absurd h3.symm (fresh a ea h2 h1)
    · rw [if_neg eb] at h2 h3
      exact h a b h1 h2 h3

theorem answerRespSet_books {s : State} (h : Books s) (r : Request) {d : Deferral} (hi : Hand s d) :
    Books (answerRespSet r d s) := by
  obtain ⟨_, hi⟩ := hi
  unfold answerRespSet
  split
  · exact answer_books h hi _ _
  · rename_i g e v _
    dsimp only
    split
    · exact answer_books h hi _ _
    · split
      · exact answer_books h hi _ _
      · rename_i hd
        refine answer_books ?_ (by rw [modEntry_inHand]; exact hi) _ _
        have k := modEntry_only g
        refine ⟨h.pool.same (fun _ => rfl) (fun _ => rfl) (fun n => queue_modEntry g e _ s n)
          (fun n => by rw [init_modEntry]), ?_, fun n => ?_, fun n => (h.ending n).only (k n e _ s)⟩
        · refine h.owed.same ⟨rfl, rfl, rfl, rfl⟩ (fun x => ?_) h.owed.cancels
          cases x with
          | hand => exact owes_hand rfl
          | cancel i => exact owes_cancel rfl
          | write n a =>
            refine owes_write ?_
            rw [entry_modEntry_eq]
            split
            · rename_i hh; obtain ⟨rfl, rfl⟩ := hh; exact settledEntry_deferred _ _
            · rfl
        · rw [modEntry, seg_modSeg_eq]
          split
          · rename_i e'; subst e'
            exact settledEntry_distinct (h.distinct n) (by simpa using hd)
          · exact h.distinct n

theorem answerWinWrite_books {s : State} (h : Books s) (r : Request) {d : Deferral} (hi : Hand s d) :
    Books (answerWinWrite r d s) := by
  obtain ⟨_, hi⟩ := hi
  unfold answerWinWrite
  split
  · exact answer_books h hi _ _
  · rename_i g e offset bytes _
    dsimp only
    split
    · exact answer_books h hi _ _
    · rename_i hn
      split
      · refine BooksAt.close ((h.at g).deferring (n := g) (e := e)
          (f := fun n => { n with deferred := some { offset := offset, bytes := bytes, request := d } })
          rfl rfl rfl rfl rfl ?_) ?_ ?_ ?_
        · refine h.owed.transfer (x := .hand) (y := .write g e) ⟨rfl, rfl, rfl, rfl⟩ ?_ rfl ?_ (fun z h1 h2 => ?_)
            h.owed.cancels
          · simp only [Option.not_isSome_iff_eq_none] at hn
            simp [State.owes, hn]
          · simp [State.owes, entry_modEntry_eq, hi]
          · cases z with
            | hand => exact absurd rfl h1
            | cancel i => exact owes_cancel rfl
            | write n a =>
              refine owes_write ?_
              rw [seg_letGo, entry_modEntry_eq, if_neg]
              rintro ⟨rfl, rfl⟩
              exact h2 rfl
        · rw [seg_letGo, queue_modEntry]
        · rw [seg_letGo, init_modEntry]
        · rw [seg_letGo]; exact (h.ending g).only (modEntry_only g g e _ s)
      · exact answer_books (modEntry_books h g e ⟨rfl, rfl, rfl⟩) (by rw [modEntry_inHand]; exact hi) _ _

theorem answerWinRead_books {s : State} (h : Books s) (r : Request) {d : Deferral} (hi : Hand s d) :
    Books (answerWinRead r d s) := by
  obtain ⟨_, hi⟩ := hi
  unfold answerWinRead
  split <;> exact answer_books h hi _ _

theorem serveWaiting_same (e : EntryId) (b : Byte) (x : Segment) : SameBooks x (serveWaiting e b x) := by
  unfold serveWaiting
  split
  · dsimp only
    (repeat' split) <;> exact .of_init rfl rfl rfl rfl rfl
  · exact .refl _

theorem answerMailPost_books {s : State} (h : Books s) (r : Request) {d : Deferral} (hi : Hand s d) :
    Books (answerMailPost r d s) := by
  obtain ⟨_, hi⟩ := hi
  unfold answerMailPost
  dsimp only
  split
  · exact answer_books h hi _ _
  · rename_i g e bytes _
    repeat' split
    · exact answer_books h hi _ _
    · exact answer_books h hi _ _
    · exact answer_books h hi _ _
    · refine answer_books ?_ (by exact hi) _ _
      exact (modEntry_books h g e ⟨rfl, rfl, rfl⟩).modSeg g (serveWaiting_same _ _ _)

theorem answerMailWithdraw_books {s : State} (h : Books s) (r : Request) {d : Deferral} (hi : Hand s d) :
    Books (answerMailWithdraw r d s) := by
  obtain ⟨_, hi⟩ := hi
  unfold answerMailWithdraw
  dsimp only
  repeat' split
  · exact answer_books h hi _ _
  · exact answer_books h hi _ _
  · exact answer_books (modEntry_books h _ _ ⟨rfl, rfl, rfl⟩) (by rw [modEntry_inHand]; exact hi) _ _

end Sys2Proof.Machine
end

