-- ==== Sys2Proof/Laws/BooksLink.lean ====
section
/-! SUPPORT. The books through acknowledgements, the taking of a request, the sending of frames, resets and the end of a
step. -/

namespace Sys2Proof.Machine

/-! ## Acknowledgements -/

theorem retireHead_books {s : State} (h : Books s) : Books (retireHead s) := by
  unfold retireHead
  split
  · exact h
  · rename_i n rest hq
    dsimp only
    have hp := h.pool
    unfold State.pool at hp
    rw [hq, List.map_cons] at hp
    split
    · rename_i i hn
      rw [hn] at hp
      obtain ⟨j, x, hj, hx⟩ := (hp.finished i).mp (by simp)
      have hr : j.cancelReply = none := by
        cases e : j.cancelReply with
        | none => rfl
        | some d =>
          have := (h.owed.cancels i j hj (by simp [e])).2
          rw [hx] at this
          simp at this
      refine ⟨hp.free (fun m => job?_setJob_eq _ i m _), ?_, h.distinct, h.ending⟩
      refine h.owed.same ⟨rfl, rfl, rfl, rfl⟩ (fun y => ?_) (fun m b hb hr' => ?_)
      · cases y with
        | hand => exact owes_hand rfl
        | cancel m =>
          refine owes_cancel ?_
          rw [job?_setJob_eq]
          split
          · rename_i e; subst e; rw [hj]; simp [hr]
          · rfl
        | write g e => exact owes_write rfl
      · rw [job?_setJob_eq] at hb
        split at hb
        · simp at hb
        · exact h.owed.cancels m b hb hr'
    · rename_i hn
      rw [hn] at hp
      have h1 : Books { s with
          notices := { s.notices with
            queue := rest, sentLimit := s.notices.sentLimit - 1, sendPoint := s.notices.sendPoint - 1 } } :=
        ⟨hp.same (fun _ => rfl) (fun i => by simp) (fun _ => rfl) (fun _ => rfl),
          h.owed.same ⟨rfl, rfl, rfl, rfl⟩ (fun x => by cases x <;> rfl) h.owed.cancels, h.distinct, h.ending⟩
      exact h1.calm (releaseRecord_calm 0 _) (releaseRecord_segs _ 0).1 (by rw [(releaseRecord_segs _ 0).2.1])
        ((h1.ending 0).only (releaseRecord_only 0 _))

theorem acknowledge_books {s : State} (h : Books s) (a : Word) : Books (acknowledge a s) := by
  have hr : ∀ (n : Nat) {s : State}, Books s → Books (retire n s) := by
    intro n
    induction n with
    | zero => exact fun h => h
    | succ n ih => exact fun h => ih (retireHead_books h)
  unfold acknowledge
  split
  · exact h
  · exact (hr _ h).quiet rfl rfl rfl ⟨rfl, rfl, rfl, rfl⟩ rfl

/-! ## The receiver -/

theorem acceptFrame_books {s : State} (h : Books s) (body : List Byte) (c : Word) : Books (acceptFrame body c s) := by
  unfold acceptFrame placeRequest
  repeat' split
  all_goals first
    | exact h
    | exact acknowledge_books h _
    | exact h.quiet rfl rfl rfl ⟨rfl, rfl, rfl, rfl⟩ rfl

theorem checkFrame_books {s : State} (h : Books s) (len : Byte) (body : List Byte) (c : Word) :
    Books (checkFrame len body c s) := by
  have h1 : Books (endSilent s) := by
    unfold endSilent; split
    · exact h.quiet rfl rfl rfl ⟨rfl, rfl, rfl, rfl⟩ rfl
    · exact h
  unfold checkFrame; split
  · exact acceptFrame_books h1 _ _
  · exact h

theorem enterHunt_books {s : State} (h : Books s) : Books (enterHunt s) :=
  h.quiet rfl rfl rfl ⟨rfl, rfl, rfl, rfl⟩ rfl

theorem receive_books {s : State} (h : Books s) (b : Byte) : Books (receive b s) := by
  unfold receive receiveByte
  repeat' split
  all_goals first
    | exact h
    | exact checkFrame_books (enterHunt_books h) _ _ _
    | exact h.quiet rfl rfl rfl ⟨rfl, rfl, rfl, rfl⟩ rfl

theorem gapExpires_books {s : State} (h : Books s) : Books (gapExpires s) := by
  unfold gapExpires; split
  · exact enterHunt_books h
  · exact h

/-! ## The taking of a request -/

theorem Owed.handNone {s : State} (h : s.link.inHand = none) : s.owes .hand = none := by simp [State.owes, h]

/-- A request in hand owes a reply, for which a place was free (R167, R172). -/
theorem Owed.gain {s t : State} (h : Owed s) (hx : s.owes .hand = none) (hx' : (t.owes .hand).isSome)
    (ho : ∀ y, y ≠ .hand → t.owes y = s.owes y) (hr : t.link.reserved = s.link.reserved + 1)
    (hl : t.link.replies = s.link.replies) (hp : s.link.replies.length + s.link.reserved < Config.replyPlaces)
    (hcap : t.link.cache.length ≤ Config.cacheEntries)
    (hpen : ∀ e ∈ t.link.cache, e.reply = none → e ∈ s.link.cache ∨ t.owes .hand = some (some e.age))
    (hages : (t.link.cache.map (·.age)).Nodup ∧ ∀ e ∈ t.link.cache, e.age < t.link.nextAge) (hcan : Cancels t) :
    Owed t := by
  have hlen := owes_discharge (f := t.owes) (f' := s.owes) hx' hx (fun y hy => (ho y hy).symm)
  refine ⟨by rw [hr, hlen, h.reserved], by rw [hr, hl]; omega, hcap, fun e he hn => ?_, hages, hcan⟩
  rcases hpen e he hn with hs | hs
  · obtain ⟨y, hy⟩ := h.pending e hs hn
    refine ⟨y, ?_⟩
    rw [ho y]
    · exact hy
    · rintro rfl
      rw [hx] at hy
      simp at hy
  · exact ⟨.hand, hs⟩

/-- With a place of the reply queue free, a full cache holds a COMPLETE entry (R169, R172). -/
theorem Owed.complete {s : State} (h : Owed s) (hp : s.link.replies.length + s.link.reserved < Config.replyPlaces)
    (hl : Config.cacheEntries ≤ s.link.cache.length) : ∃ e ∈ s.link.cache, e.reply.isSome = true := by
  refine Classical.byContradiction fun hn => ?_
  have hall : ∀ e ∈ s.link.cache, e.reply = none := by
    intro e he
    cases hr : e.reply with
    | none => rfl
    | some b => exact absurd ⟨e, he, by simp [hr]⟩ hn
  have hsub : s.link.cache.map (fun e => some e.age) ⊆ holders.filterMap s.owes := by
    intro a ha
    obtain ⟨e, he, rfl⟩ := List.mem_map.mp ha
    obtain ⟨y, hy⟩ := h.pending e he (hall e he)
    exact List.mem_filterMap.mpr ⟨y, mem_holders y, hy⟩
  have hnd : (s.link.cache.map (fun e => some e.age)).Nodup := by
    have := h.ages.1
    rw [List.nodup_iff_pairwise_ne, List.pairwise_map] at this ⊢
    exact this.imp (fun hne e => hne (Option.some.inj e))
  have := hnd.length_le_of_subset hsub
  rw [List.length_map, ← h.reserved] at this
  simp only [Config.replyPlaces, Config.cacheEntries] at hp hl
  omega

theorem makeRoom_sublist (tag : Byte) (c : List CacheEntry) : (makeRoom tag c).Sublist c := by
  unfold makeRoom
  repeat' split
  · exact List.filter_sublist
  · exact List.Sublist.refl _
  · exact List.eraseP_sublist

theorem makeRoom_length {tag : Byte} {c : List CacheEntry} (hl : c.length ≤ Config.cacheEntries)
    (hc : Config.cacheEntries ≤ c.length → ∃ e ∈ c, e.reply.isSome = true) :
    (makeRoom tag c).length < Config.cacheEntries := by
  unfold makeRoom
  split
  · rename_i ha
    simp only [List.any_eq_true, beq_iff_eq] at ha
    obtain ⟨e, he, ht⟩ := ha
    refine Nat.lt_of_lt_of_le (List.length_filter_lt_length_iff_exists.mpr ⟨e, he, ?_⟩) hl
    simp [ht]
  · split
    · assumption
    · rename_i hge
      obtain ⟨e, he, hs⟩ := hc (by omega)
      rw [List.length_eraseP_of_mem he hs]
      simp only [Config.cacheEntries] at hl hge ⊢
      omega

theorem record_owed {s : State} (h : Owed s) (hi : s.link.inHand = none) (r : Request)
    (hp : s.link.replies.length + s.link.reserved < Config.replyPlaces) :
    Owed { s with link := recordRequest r s.link } := by
  have hsub := makeRoom_sublist r.tag s.link.cache
  have hroom := makeRoom_length (tag := r.tag) h.capacity (h.complete hp)
  refine h.gain (Owed.handNone hi) (by simp [State.owes, recordRequest]) (fun y hy => owes_of (by rfl) (by rfl) hy) rfl
    rfl hp ?_ (fun e he hn => ?_) ⟨?_, fun e he => ?_⟩ (Cancels.of_jobs h.cancels rfl)
  · simp only [recordRequest, List.length_append, List.length_singleton]
    omega
  · simp only [recordRequest, List.mem_append, List.mem_singleton] at he
    rcases he with he | rfl
    · exact .inl (hsub.subset he)
    · exact .inr (by simp [State.owes, recordRequest])
  · simp only [recordRequest, List.map_append, List.map_cons, List.map_nil]
    rw [List.nodup_append]
    refine ⟨h.ages.1.sublist (hsub.map _), by simp, fun a ha b hb e => ?_⟩
    simp only [List.mem_singleton] at hb
    subst hb
    subst e
    obtain ⟨e', he', ha'⟩ := List.mem_map.mp ha
    have := h.ages.2 e' (hsub.subset he')
    omega
  · simp only [recordRequest, List.mem_append, List.mem_singleton] at he ⊢
    rcases he with he | rfl
    · exact Nat.lt_succ_of_lt (h.ages.2 e (hsub.subset he))
    · exact Nat.lt_succ_self _

theorem hold_owed {s : State} (h : Owed s) (hi : s.link.inHand = none) (r : Request) (e : CacheEntry)
    (hp : e.reply ≠ none → s.link.replies.length + s.link.reserved < Config.replyPlaces) :
    Owed { s with link := holdDuplicate r e s.link } := by
  cases hr : e.reply with
  | none =>
    refine h.same ⟨rfl, by simp [holdDuplicate, hr], rfl, rfl⟩ (fun x => ?_) (Cancels.of_jobs h.cancels rfl)
    by_cases ex : x = .hand
    · subst ex
      rw [Owed.handNone hi]
      simp [State.owes, holdDuplicate, hr]
    · exact owes_of (by rfl) (by rfl) ex
  | some b =>
    exact h.gain (Owed.handNone hi) (by simp [State.owes, holdDuplicate, hr])
      (fun y hy => owes_of (by rfl) (by rfl) hy) (by simp [holdDuplicate, hr]) rfl (hp (by simp [hr])) h.capacity
      (fun a ha _ => .inl ha) h.ages (Cancels.of_jobs h.cancels rfl)

theorem takeHead_books {s : State} (h : Books s) (hi : s.link.inHand = none) {r : Request} (rest : List Request)
    (hm : s.link.mayTake r = true) : Books (takeHead r rest s) := by
  have h0 : Books { s with link := { s.link with inbound := rest } } := h.quiet rfl rfl rfl ⟨rfl, rfl, rfl, rfl⟩ rfl
  have h1 : Books (applyAckField r { s with link := { s.link with inbound := rest } }) := by
    unfold applyAckField; split
    · exact acknowledge_books h0 _
    · exact h0
  have hl : (applyAckField r { s with link := { s.link with inbound := rest } }).link = { s.link with inbound := rest } := by
    unfold applyAckField; split
    · exact acknowledge_link _ _
    · rfl
  have place : (∀ e, duplicateOf r s.link.cache = some e → e.reply ≠ none) →
      s.link.replies.length + s.link.reserved < Config.replyPlaces := by
    intro hd
    unfold Link.mayTake at hm
    split at hm
    · rename_i e
      exact absurd rfl (hd _ e)
    · simpa [Link.hasPlace] using hm
  have hi' : (applyAckField r { s with link := { s.link with inbound := rest } }).link.inHand = none := by
    rw [hl]; exact hi
  unfold takeHead
  dsimp only
  split
  · rename_i e hd
    refine h1.plain rfl rfl rfl (hold_owed h1.owed hi' r e (fun hn => ?_))
    rw [hl] at hd ⊢
    refine place (fun e' he' => ?_)
    rw [show duplicateOf r s.link.cache = some e from hd] at he'
    cases he'
    exact hn
  · rename_i hd
    refine h1.plain rfl rfl rfl (record_owed h1.owed hi' r ?_)
    rw [hl] at hd ⊢
    refine place (fun e' he' => ?_)
    rw [show duplicateOf r s.link.cache = none from hd] at he'
    simp at he'

theorem takeRequest_books {s : State} (h : Books s) : Books (takeRequest s) := by
  unfold takeRequest
  split
  · exact h
  · rename_i hc
    have hi : s.link.inHand = none := by
      cases e : s.link.inHand with
      | none => rfl
      | some x => simp [e] at hc
    split
    · exact h
    · split
      · rename_i hm
        exact takeHead_books h hi _ hm
      · exact h

/-! ## Sending -/

theorem startFrame_books {s : State} (h : Books s) : Books (startFrame s) := by
  unfold startFrame
  repeat' split
  all_goals first
    | exact h
    | exact h.quiet rfl rfl rfl ⟨rfl, rfl, rfl, rfl⟩ rfl

theorem resendExpires_books {s : State} (h : Books s) : Books (resendExpires s) := by
  unfold resendExpires
  dsimp only
  repeat' split
  all_goals first
    | exact h
    | exact h.quiet rfl rfl rfl ⟨rfl, rfl, rfl, rfl⟩ rfl

/-! ## Reset -/

theorem atReset_books {s : State} (hs : ∀ g, ∃ a b, s.seg g = Segment.atReset a b) (hj : ∀ i, s.job? i = none)
    (hn : ∀ i, .job i ∉ s.notices.queue.map (·.source)) (hl : ∃ r, s.link = Link.atReset r) : Books s := by
  obtain ⟨r, hl⟩ := hl
  have hq : ∀ g, (s.seg g).queue = [] ∧ (s.seg g).init = .off ∧ (s.seg g).steady ∧
      ∀ e, (s.seg g).entry e = Entry.atReset := by
    intro g
    obtain ⟨a, b, hs⟩ := hs g
    rw [hs]
    exact ⟨rfl, rfl, ⟨rfl, rfl⟩, fun e => by simp [Segment.atReset, Segment.entry]⟩
  have ho : ∀ x, s.owes x = none := by
    intro x
    cases x with
    | hand => simp [State.owes, hl, Link.atReset]
    | cancel i => simp [State.owes, hj]
    | write g e => simp [State.owes, (hq g).2.2.2 e, Entry.atReset]
  refine ⟨⟨fun i k j b h => ?_, fun g i => ?_, fun g => ?_, fun g i => ?_, fun i => ?_, fun i => ?_⟩,
    ⟨?_, ?_, ?_, fun e he => ?_, ⟨?_, fun e he => ?_⟩, fun i j h => ?_⟩, fun g e k h => ?_,
    fun g => (hq g).2.2.1.ending⟩
  · rw [hj] at h; simp at h
  · rw [(hq g).1]; simp [hj]
  · rw [(hq g).1]; exact List.nodup_nil
  · rw [(hq g).2.1]; simp [Initiator.slot?, hj]
  · simp [hj, hn i]
  · rw [List.count_eq_zero.mpr (hn i)]; omega
  · rw [hl]
    have : holders.filterMap s.owes = [] := List.filterMap_eq_nil_iff.mpr (fun x _ => ho x)
    rw [this]
    rfl
  · rw [hl]; simp [Link.atReset]
  · rw [hl]; simp [Link.atReset]
  · rw [hl] at he; simp [Link.atReset] at he
  · rw [hl]; simp [Link.atReset]
  · rw [hl] at he; simp [Link.atReset] at he
  · rw [hj] at h; simp at h
  · rw [(hq g).2.2.2 e] at h; simp [Entry.atReset] at h

theorem fullReset_books (c : Cause) (p : Straps) (s : State) : Books (fullReset c p s) :=
  atReset_books (fun g => ⟨_, _, seg_fullReset c p s g⟩) (fun i => by simp [fullReset, State.job?])
    (fun i => by simp [fullReset, noticesAfterReset]) ⟨_, rfl⟩

theorem holdReset_books (c : Cause) (s : State) : Books (holdReset c s) :=
  atReset_books (fun g => ⟨_, _, seg_holdReset c s g⟩) (fun i => by simp [holdReset, State.job?])
    (fun i => by simp [holdReset, noticesInReset]) ⟨_, rfl⟩

theorem powerUp_books (b : Bool) (p : Straps) (s : State) : Books (powerUp b p s) := by
  unfold powerUp; split
  · exact holdReset_books _ _
  · exact fullReset_books _ _ _

theorem rstFalls_books (s : State) : Books (rstFalls s) := holdReset_books _ _

theorem rstRises_books {s : State} (h : Books s) (p : Straps) : Books (rstRises p s) := by
  unfold rstRises; split
  · exact h
  · exact fullReset_books _ _ _

theorem endFrame_books {s : State} (h : Books s) (p : Straps) : Books (endFrame p s) := by
  unfold endFrame
  repeat' split
  · exact h
  · exact fullReset_books _ _ _
  · refine h.plain rfl rfl rfl ⟨?_, ?_, h.owed.capacity, h.owed.pending, h.owed.ages, h.owed.cancels⟩
    · exact h.owed.reserved
    · have := h.owed.places
      simp only [List.length_tail]
      omega
  · exact h.quiet rfl rfl rfl ⟨rfl, rfl, rfl, rfl⟩ rfl

/-! ## The ends of a step -/

/-- Every engine changes in nothing the books speak of. -/
theorem Books.engines {s t : State} (h : Books s) (k : ∀ g, SameBooks (s.seg g) (t.seg g)) (hj : t.jobs = s.jobs)
    (hn : t.notices = s.notices) (hl : t.link = s.link) : Books t := by
  refine h.calm (g := 0) ⟨fun i => by simp only [State.job?, hj], fun i => by rw [hn], fun g _ => (k g).queue,
    fun g _ => (k g).current, fun g _ e => (k g).ending e, fun g e => entry_of_entries (k g).entries e, hl⟩ (k 0).queue
    (k 0).current ((k 0).ending (h.ending 0))

theorem watchLines_books {s : State} (h : Books s) : Books (watchLines s) :=
  h.engines (fun g => by rw [seg_watchLines]; exact .of_init rfl rfl rfl rfl rfl) rfl rfl rfl

theorem countStep_books {s : State} (h : Books s) : Books (countStep s) :=
  h.engines (fun g => by
    have : (countStep s).seg g = countBackoff (s.now + 1) (s.seg g) := by simp [countStep, State.seg]
    rw [this]
    unfold countBackoff
    split
    · rename_i hi
      split
      · exact ⟨rfl, rfl, by simp [hi, Initiator.slot?], fun e => e.leaving rfl rfl (by simp [hi, Initiator.leaving])⟩
      · exact .refl _
    · exact .refl _) rfl rfl rfl

end Sys2Proof.Machine
end

