-- ==== Sys2Proof/Laws/Invariant.lean ====
section
/-! SUPPORT. The invariant through every operation, through what is taken before an event, and through the ends of a
step: one lemma each, from those on its parts. -/

namespace Sys2Proof.Machine

theorem Inv.books {s : State} (h : Inv s) : Books s := ⟨h.pool, h.owed, h.distinct, h.ending⟩

theorem Inv.of {s : State} (h1 : Bounds s) (h2 : Exclusive s) (h3 : Books s) : Inv s :=
  ⟨h1, h2, h3.ending, h3.distinct, h3.pool, h3.owed⟩

/-! ## Requests -/

theorem settleDuplicate_inv {s : State} (h : Inv s) : Inv (settleDuplicate s) :=
  .of (settleDuplicate_bounds h.bounds) (settleDuplicate_exclusive h.exclusive) (settleDuplicate_books h.books)

theorem refuseUnknown_inv {s : State} (h : Inv s) : Inv (refuseUnknown s) :=
  .of (refuseUnknown_bounds h.bounds) (refuseUnknown_exclusive h.exclusive) (refuseUnknown_books h.books)

/-- A block that keeps the invariant where it answers the request in hand keeps it. -/
theorem withRequest_inv {s : State} (h : Inv s) (code : Byte) {f : Request → Deferral → State → State}
    (hf : ∀ r d, Hand s d → Inv (f r d s)) : Inv (withRequest code f s) := by
  unfold withRequest
  split
  · rename_i r age hi
    split
    · exact hf r _ ⟨r, hi⟩
    · exact h
  · exact h

theorem answerDevInfo_inv {s : State} (h : Inv s) {r : Request} {d : Deferral} (hi : Hand s d) :
    Inv (answerDevInfo r d s) :=
  .of (answerDevInfo_bounds h.bounds r d) (answerDevInfo_exclusive h.exclusive r d) (answerDevInfo_books h.books r hi)

theorem answerDevReset_inv {s : State} (h : Inv s) {r : Request} {d : Deferral} (hi : Hand s d) :
    Inv (answerDevReset r d s) :=
  .of (answerDevReset_bounds h.bounds r d) (answerDevReset_exclusive h.exclusive r d) (answerDevReset_books h.books r hi)

theorem answerLinkConfig_inv {s : State} (h : Inv s) {r : Request} {d : Deferral} (hi : Hand s d) :
    Inv (answerLinkConfig r d s) :=
  .of (answerLinkConfig_bounds h.bounds r d) (answerLinkConfig_exclusive h.exclusive r d) (answerLinkConfig_books h.books r hi)

theorem answerSegConfig_inv {s : State} (h : Inv s) {r : Request} {d : Deferral} (hi : Hand s d) :
    Inv (answerSegConfig r d s) :=
  .of (answerSegConfig_bounds h.bounds r d) (answerSegConfig_exclusive h.exclusive h.bounds r d) (answerSegConfig_books h.books r hi)

theorem answerSegStatus_inv {s : State} (h : Inv s) {r : Request} {d : Deferral} (hi : Hand s d) :
    Inv (answerSegStatus r d s) :=
  .of (answerSegStatus_bounds h.bounds r d) (answerSegStatus_exclusive h.exclusive r d) (answerSegStatus_books h.books r hi)

theorem answerSegFlush_inv {s : State} (h : Inv s) {r : Request} {d : Deferral} (hi : Hand s d) :
    Inv (answerSegFlush r d s) :=
  .of (answerSegFlush_bounds h.bounds r d) (answerSegFlush_exclusive h.exclusive r d) (answerSegFlush_books h.books r hi)

theorem answerSegReset_inv {s : State} (h : Inv s) {r : Request} {d : Deferral} (hi : Hand s d) :
    Inv (answerSegReset r d s) :=
  .of (answerSegReset_bounds h.bounds r d) (answerSegReset_exclusive h.exclusive r d) (answerSegReset_books h.books r hi)

theorem answerJobSubmit_inv {s : State} (h : Inv s) {r : Request} {d : Deferral} (hi : Hand s d) :
    Inv (answerJobSubmit r d s) :=
  .of (answerJobSubmit_bounds h.bounds r d) (answerJobSubmit_exclusive h.exclusive r d) (answerJobSubmit_books h.books r hi)

theorem answerJobCancel_inv {s : State} (h : Inv s) {r : Request} {d : Deferral} (hi : Hand s d) :
    Inv (answerJobCancel r d s) :=
  .of (answerJobCancel_bounds h.bounds r d) (answerJobCancel_exclusive h.exclusive h.pool r d) (answerJobCancel_books h.books r hi)

theorem answerJobQuery_inv {s : State} (h : Inv s) {r : Request} {d : Deferral} (hi : Hand s d) :
    Inv (answerJobQuery r d s) :=
  .of (answerJobQuery_bounds h.bounds r d) (answerJobQuery_exclusive h.exclusive r d) (answerJobQuery_books h.books r hi)

theorem answerRespSet_inv {s : State} (h : Inv s) {r : Request} {d : Deferral} (hi : Hand s d) :
    Inv (answerRespSet r d s) :=
  .of (answerRespSet_bounds h.bounds r d) (answerRespSet_exclusive h.exclusive r d) (answerRespSet_books h.books r hi)

theorem answerWinWrite_inv {s : State} (h : Inv s) {r : Request} {d : Deferral} (hi : Hand s d) :
    Inv (answerWinWrite r d s) :=
  .of (answerWinWrite_bounds h.bounds r d) (answerWinWrite_exclusive h.exclusive r d) (answerWinWrite_books h.books r hi)

theorem answerWinRead_inv {s : State} (h : Inv s) {r : Request} {d : Deferral} (hi : Hand s d) :
    Inv (answerWinRead r d s) :=
  .of (answerWinRead_bounds h.bounds r d) (answerWinRead_exclusive h.exclusive r d) (answerWinRead_books h.books r hi)

theorem answerMailPost_inv {s : State} (h : Inv s) {r : Request} {d : Deferral} (hi : Hand s d) :
    Inv (answerMailPost r d s) :=
  .of (answerMailPost_bounds h.bounds r d) (answerMailPost_exclusive h.exclusive r d) (answerMailPost_books h.books r hi)

theorem answerMailWithdraw_inv {s : State} (h : Inv s) {r : Request} {d : Deferral} (hi : Hand s d) :
    Inv (answerMailWithdraw r d s) :=
  .of (answerMailWithdraw_bounds h.bounds r d) (answerMailWithdraw_exclusive h.exclusive r d) (answerMailWithdraw_books h.books r hi)

theorem answerInHand_inv {s : State} (h : Inv s) : Inv (answerInHand s) := by
  unfold answerInHand answerByResponder answerByPool
  have h1 := refuseUnknown_inv (settleDuplicate_inv h)
  have h2 := withRequest_inv h1 codeDevInfo (f := answerDevInfo) (fun _ _ hi => answerDevInfo_inv h1 hi)
  have h3 := withRequest_inv h2 codeDevReset (f := answerDevReset) (fun _ _ hi => answerDevReset_inv h2 hi)
  have h4 := withRequest_inv h3 codeLinkConfig (f := answerLinkConfig) (fun _ _ hi => answerLinkConfig_inv h3 hi)
  have h5 := withRequest_inv h4 codeSegConfig (f := answerSegConfig) (fun _ _ hi => answerSegConfig_inv h4 hi)
  have h6 := withRequest_inv h5 codeSegStatus (f := answerSegStatus) (fun _ _ hi => answerSegStatus_inv h5 hi)
  have h7 := withRequest_inv h6 codeSegFlush (f := answerSegFlush) (fun _ _ hi => answerSegFlush_inv h6 hi)
  have h8 := withRequest_inv h7 codeSegReset (f := answerSegReset) (fun _ _ hi => answerSegReset_inv h7 hi)
  have h9 := withRequest_inv h8 codeJobSubmit (f := answerJobSubmit) (fun _ _ hi => answerJobSubmit_inv h8 hi)
  have h10 := withRequest_inv h9 codeJobCancel (f := answerJobCancel) (fun _ _ hi => answerJobCancel_inv h9 hi)
  have h11 := withRequest_inv h10 codeJobQuery (f := answerJobQuery) (fun _ _ hi => answerJobQuery_inv h10 hi)
  have h12 := withRequest_inv h11 codeRespSet (f := answerRespSet) (fun _ _ hi => answerRespSet_inv h11 hi)
  have h13 := withRequest_inv h12 codeWinWrite (f := answerWinWrite) (fun _ _ hi => answerWinWrite_inv h12 hi)
  have h14 := withRequest_inv h13 codeWinRead (f := answerWinRead) (fun _ _ hi => answerWinRead_inv h13 hi)
  have h15 := withRequest_inv h14 codeMailPost (f := answerMailPost) (fun _ _ hi => answerMailPost_inv h14 hi)
  have h16 := withRequest_inv h15 codeMailWithdraw (f := answerMailWithdraw) (fun _ _ hi => answerMailWithdraw_inv h15 hi)
  exact h16

/-! ## Events and what they bring about -/

theorem arbitrationLoss_inv {s : State} (h : Inv s) (g : SegId) : Inv (arbitrationLoss g s) :=
  .of (arbitrationLoss_bounds h.bounds g) (arbitrationLoss_exclusive h.exclusive g) (arbitrationLoss_books h.books g)

theorem respAddressByte_inv {s : State} (h : Inv s) (g : SegId) : Inv (respAddressByte g s) :=
  .of (respAddressByte_bounds h.bounds g) (respAddressByte_exclusive h.exclusive g) (respAddressByte_books h.books g)

theorem addressAck_inv {s : State} (h : Inv s) (g : SegId) : Inv (addressAck g s) :=
  .of (addressAck_bounds h.bounds g) (addressAck_exclusive h.exclusive g) (addressAck_books h.books g)

theorem writeByteAck_inv {s : State} (h : Inv s) (g : SegId) : Inv (writeByteAck g s) :=
  .of (writeByteAck_bounds h.bounds g) (writeByteAck_exclusive h.exclusive g) (writeByteAck_books h.books g)

theorem lengthByte_inv {s : State} (h : Inv s) (g : SegId) : Inv (lengthByte g s) :=
  .of (lengthByte_bounds h.bounds g) (lengthByte_exclusive h.exclusive g) (lengthByte_books h.books g)

theorem readByte_inv {s : State} (h : Inv s) (g : SegId) : Inv (readByte g s) :=
  .of (readByte_bounds h.bounds g) (readByte_exclusive h.exclusive g) (readByte_books h.books g)

theorem windowWriteByte_inv {s : State} (h : Inv s) (g : SegId) : Inv (windowWriteByte g s) :=
  .of (windowWriteByte_bounds h.bounds g) (windowWriteByte_exclusive h.exclusive g) (windowWriteByte_books h.books g)

theorem mailWriteByte_inv {s : State} (h : Inv s) (g : SegId) : Inv (mailWriteByte g s) :=
  .of (mailWriteByte_bounds h.bounds g) (mailWriteByte_exclusive h.exclusive g) (mailWriteByte_books h.books g)

theorem windowReadByte_inv {s : State} (h : Inv s) (g : SegId) : Inv (windowReadByte g s) :=
  .of (windowReadByte_bounds h.bounds g) (windowReadByte_exclusive h.exclusive g) (windowReadByte_books h.books g)

theorem mailReadByte_inv {s : State} (h : Inv s) (g : SegId) : Inv (mailReadByte g s) :=
  .of (mailReadByte_bounds h.bounds g) (mailReadByte_exclusive h.exclusive g) (mailReadByte_books h.books g)

theorem stopSeen_inv {s : State} (h : Inv s) (g : SegId) : Inv (stopSeen g s) :=
  .of (stopSeen_bounds h.bounds g) (stopSeen_exclusive h.exclusive g) (stopSeen_books h.books g)

theorem windowExpires_inv {s : State} (h : Inv s) (g : SegId) : Inv (windowExpires g s) :=
  .of (windowExpires_bounds h.bounds g) (windowExpires_exclusive h.exclusive g) (windowExpires_books h.books g)

theorem decideStart_inv {s : State} (h : Inv s) (g : SegId) : Inv (decideStart g s) :=
  .of (decideStart_bounds h.bounds g) (decideStart_exclusive h.exclusive g) (decideStart_books h.books g)

theorem makeStop_inv {s : State} (h : Inv s) (g : SegId) : Inv (makeStop g s) :=
  .of (makeStop_bounds h.bounds g) (makeStop_exclusive h.exclusive g) (makeStop_books h.books g)

theorem stretchExpires_inv {s : State} (h : Inv s) (g : SegId) : Inv (stretchExpires g s) :=
  .of (stretchExpires_bounds h.bounds g) (stretchExpires_exclusive h.exclusive g) (stretchExpires_books h.books g)

theorem backoffEnds_inv {s : State} (h : Inv s) (g : SegId) : Inv (backoffEnds g s) :=
  .of (backoffEnds_bounds h.bounds g) (backoffEnds_exclusive h.exclusive g) (backoffEnds_books h.books g)

theorem holdExpires_inv {s : State} (h : Inv s) (g : SegId) : Inv (holdExpires g s) :=
  .of (holdExpires_bounds h.bounds g) (holdExpires_exclusive h.exclusive g) (holdExpires_books h.books g)

theorem mailWaitExpires_inv {s : State} (h : Inv s) (g : SegId) : Inv (mailWaitExpires g s) :=
  .of (mailWaitExpires_bounds h.bounds g) (mailWaitExpires_exclusive h.exclusive g) (mailWaitExpires_books h.books g)

theorem stuckDetected_inv {s : State} (h : Inv s) (g : SegId) : Inv (stuckDetected g s) :=
  .of (stuckDetected_bounds h.bounds g) (stuckDetected_exclusive h.exclusive g) (stuckDetected_books h.books g)

theorem clearWaitExpires_inv {s : State} (h : Inv s) (g : SegId) : Inv (clearWaitExpires g s) :=
  .of (clearWaitExpires_bounds h.bounds g) (clearWaitExpires_exclusive h.exclusive g) (clearWaitExpires_books h.books g)

theorem roundEnds_inv {s : State} (h : Inv s) (g : SegId) : Inv (roundEnds g s) :=
  .of (roundEnds_bounds h.bounds g) (roundEnds_exclusive h.exclusive g) (roundEnds_books h.books g)

theorem clearStretchExpires_inv {s : State} (h : Inv s) (g : SegId) : Inv (clearStretchExpires g s) :=
  .of (clearStretchExpires_bounds h.bounds g) (clearStretchExpires_exclusive h.exclusive g) (clearStretchExpires_books h.books g)

theorem idleWatchExpires_inv {s : State} (h : Inv s) (g : SegId) : Inv (idleWatchExpires g s) :=
  .of (idleWatchExpires_bounds h.bounds g) (idleWatchExpires_exclusive h.exclusive g) (idleWatchExpires_books h.books g)

theorem clearingPulse_inv {s : State} (h : Inv s) (g : SegId) : Inv (clearingPulse g s) :=
  .of (clearingPulse_bounds h.bounds g) (clearingPulse_exclusive h.exclusive g) (clearingPulse_books h.books g)

theorem sclFallsWhileFree_inv {s : State} (h : Inv s) (g : SegId) : Inv (sclFallsWhileFree g s) :=
  .of (sclFallsWhileFree_bounds h.bounds g) (sclFallsWhileFree_exclusive h.exclusive g)
    (sclFallsWhileFree_books h.books h.exclusive g)

theorem lineEdge_inv {s : State} (h : Inv s) (g : SegId) (e : Edge) : Inv (lineEdge g e s) :=
  .of (lineEdge_bounds h.bounds g e) (lineEdge_exclusive h.exclusive g e) (lineEdge_books h.books h.exclusive g e)

theorem startSeen_inv {s : State} (h : Inv s) (g : SegId) (m : Maker) : Inv (startSeen g m s) :=
  .of (startSeen_bounds h.bounds g m) (startSeen_exclusive h.exclusive g m) (startSeen_books h.books h.exclusive g m)

theorem gapExpires_inv {s : State} (h : Inv s) : Inv (gapExpires s) :=
  .of (gapExpires_bounds h.bounds) (gapExpires_exclusive h.exclusive) (gapExpires_books h.books)

theorem takeRequest_inv {s : State} (h : Inv s) : Inv (takeRequest s) :=
  .of (takeRequest_bounds h.bounds) (takeRequest_exclusive h.exclusive) (takeRequest_books h.books)

theorem startFrame_inv {s : State} (h : Inv s) : Inv (startFrame s) :=
  .of (startFrame_bounds h.bounds) (startFrame_exclusive h.exclusive) (startFrame_books h.books)

theorem resendExpires_inv {s : State} (h : Inv s) : Inv (resendExpires s) :=
  .of (resendExpires_bounds h.bounds) (resendExpires_exclusive h.exclusive) (resendExpires_books h.books)

theorem receive_inv {s : State} (h : Inv s) (b : Byte) : Inv (receive b s) :=
  .of (receive_bounds h.bounds b) (receive_exclusive h.exclusive b) (receive_books h.books b)

theorem enterHunt_inv {s : State} (h : Inv s) : Inv (enterHunt s) :=
  .of (enterHunt_bounds h.bounds) (Exclusive.keeps h.exclusive (enterHunt_keeps s)) (enterHunt_books h.books)

theorem endFrame_inv {s : State} (h : Inv s) (p : Straps) : Inv (endFrame p s) :=
  .of (endFrame_bounds h.bounds p) (endFrame_exclusive h.exclusive p) (endFrame_books h.books p)

/-! ## Reset -/

theorem powerUp_inv (b : Bool) (p : Straps) (s : State) : Inv (powerUp b p s) :=
  .of (powerUp_bounds b p s) (powerUp_exclusive b p s) (powerUp_books b p s)

theorem rstFalls_inv (s : State) : Inv (rstFalls s) := .of (rstFalls_bounds s) (rstFalls_exclusive s) (rstFalls_books s)

theorem rstRises_inv {s : State} (h : Inv s) (p : Straps) : Inv (rstRises p s) :=
  .of (rstRises_bounds h.bounds p) (rstRises_exclusive h.exclusive p) (rstRises_books h.books p)

/-! ## Steps -/

theorem settleSegment_inv {s : State} (h : Inv s) (g : SegId) : Inv (settleSegment g s) :=
  mailReadByte_inv
    (windowReadByte_inv
      (mailWriteByte_inv
        (windowWriteByte_inv
          (readByte_inv
            (lengthByte_inv
              (writeByteAck_inv (addressAck_inv (respAddressByte_inv (arbitrationLoss_inv h g) g) g) g) g) g) g) g) g) g

theorem settle_inv {s : State} (h : Inv s) : Inv (settle s) :=
  settleSegment_inv (settleSegment_inv (settleSegment_inv (settleSegment_inv (answerInHand_inv h) 0) 1) 2) 3

theorem watchLines_inv {s : State} (h : Inv s) : Inv (watchLines s) :=
  .of (watchLines_bounds h.bounds) (Exclusive.keeps h.exclusive (watchLines_keeps s)) (watchLines_books h.books)

theorem idle_inv {s : State} (h : Inv s) : Inv (idle s) := by
  have h1 := watchLines_inv (settle_inv h)
  unfold idle
  dsimp only
  split
  · exact h1
  · exact .of (countStep_bounds h1.bounds) (countStep_exclusive h1.exclusive) (countStep_books h1.books)

/-- An event that keeps the invariant, as a step. -/
theorem asEvent_inv {s t : State} {f : State → State} (hf : ∀ u, Inv u → Inv (f u)) (h : Inv s)
    (e : asEvent f s = .next t) : Inv t := by
  cases e
  exact watchLines_inv (hf _ (settle_inv h))

theorem asOwed_inv {s t : State} {f : State → State} (hf : ∀ u, Inv u → Inv (f u)) (h : Inv s)
    (e : asOwed f s = .next t) : Inv t := by
  cases e
  exact watchLines_inv (hf _ (answerInHand_inv h))

theorem asRequest_inv {s t : State} {f : State → State} (hf : ∀ u, Inv u → Inv (f u)) (h : Inv s)
    (e : asRequest f s = .next t) : Inv t := by
  cases e
  exact watchLines_inv (hf _ h)

/-- The queue of commands is of no concern to the invariant. -/
theorem Inv.withPending {s : State} (h : Inv s) (q : List Instr) : Inv { s with pending := q } := by
  have o : State.owes { s with pending := q } = s.owes := by
    funext x; cases x <;> rfl
  refine ⟨⟨h.bounds.engines, h.bounds.notices, h.bounds.link⟩, h.exclusive, h.ending, h.distinct, h.pool, ?_⟩
  exact ⟨by rw [o]; exact h.owed.reserved, h.owed.places, h.owed.capacity, by rw [o]; exact h.owed.pending, h.owed.ages,
    h.owed.cancels⟩

end Sys2Proof.Machine
end

