-- ==== Sys2Proof/Laws/Serial.lean ====
section
/-! SUPPORT. The serial line: what the receiver makes of one byte's levels, of a high line and of a break. -/

namespace Sys2Proof.Machine

/-- A byte takes 10 bit times. -/
@[simp] theorem length_byteLevels (b : Byte) : (byteLevels b).length = 10 := rfl

@[simp] theorem frameLevels_nil : frameLevels [] = [] := rfl

@[simp] theorem frameLevels_cons (b : Byte) (bs : List Byte) : frameLevels (b :: bs) = byteLevels b ++ frameLevels bs := rfl

@[simp] theorem rxdCommands_nil : rxdCommands [] = [] := rfl

/-- A high line begins no byte. -/
@[simp] theorem rxdCommands_high (ls : List Bool) : rxdCommands (true :: ls) = rxdCommands ls := rfl

/-- Ten levels from a start bit on are one byte, delivered or a framing error by its stop bit. -/
theorem rxdCommands_start (d0 d1 d2 d3 d4 d5 d6 d7 stop : Bool) (ls : List Bool) :
    rxdCommands (false :: d0 :: d1 :: d2 :: d3 :: d4 :: d5 :: d6 :: d7 :: stop :: ls) =
      (if stop then .rxByte (byteOfLevels [d0, d1, d2, d3, d4, d5, d6, d7]) else .rxFramingError) :: rxdCommands ls :=
  rfl

/-- The eight data bits of a byte, the least significant first, are the byte. -/
theorem byteOfLevels_bits (b : Byte) : byteOfLevels ((List.range 8).map b.getLsbD) = b := by
  revert b
  decide

/-- The levels of a byte deliver it. -/
theorem rxdCommands_byteLevels (b : Byte) (ls : List Bool) :
    rxdCommands (byteLevels b ++ ls) = .rxByte b :: rxdCommands ls := by
  have h := rxdCommands_start (b.getLsbD 0) (b.getLsbD 1) (b.getLsbD 2) (b.getLsbD 3) (b.getLsbD 4) (b.getLsbD 5)
    (b.getLsbD 6) (b.getLsbD 7) true ls
  have e : byteOfLevels [b.getLsbD 0, b.getLsbD 1, b.getLsbD 2, b.getLsbD 3, b.getLsbD 4, b.getLsbD 5, b.getLsbD 6,
      b.getLsbD 7] = b := byteOfLevels_bits b
  rw [e] at h
  exact h

end Sys2Proof.Machine
end

