-- ==== Sys2Proof/WellFormed.lean ====
section
/-! DEFINITION. Which commands are well formed. Every operand's type holds exactly the values its row can have: a
segment is one of four, a byte one of 256, an edge one of four, a start one of two makers, a strap or RST one of two
levels. So no operand needs a check of its own and every command is well formed; what a REQUEST's parameters must be
is no matter of syntax here, since the part itself answers them (Machine/Operands.lean). -/

namespace Sys2Proof

/-- Whether a command is well formed: each row's operands, none of which can be out of range. -/
def Instr.wf : Instr → Bool
  | .powerOn _ _ | .rstLow | .rstRelease _ => true
  | .rxByte _ | .rxFramingError | .rxGapTimeout => true
  | .requestTaken | .duplicateRequest | .unknownRequest => true
  | .devInfo | .devReset | .linkConfig | .segConfig | .segStatus | .segFlush | .segReset => true
  | .jobSubmit | .jobCancel | .jobQuery | .respSet | .winWrite | .winRead | .mailPost | .mailWithdraw => true
  | .txFrameStart | .txFrameEnd _ | .resendTimerExpiry => true
  | .startSeen _ _ | .stopSeen _ | .sclFallWhileFree _ | .busIdleWindowExpiry _ | .lineEdge _ _ => true
  | .startDecision _ | .addressAck _ | .writeByteAck _ | .readByte _ | .lengthByte _ | .stopMade _ => true
  | .arbitrationLoss _ | .stretchLimitExpiry _ | .backoffEnd _ | .holdLimitExpiry _ => true
  | .respAddressByte _ | .windowWriteByte _ | .windowReadByte _ | .mailWriteByte _ | .mailReadByte _ => true
  | .mailWaitExpiry _ => true
  | .stuckDetection _ | .clearWaitExpiry _ | .clearingRoundEnd _ | .clearStretchExpiry _ => true
  | .idleWatchExpiry _ | .clearingPulse _ => true

end Sys2Proof
end

