-- ==== Sys2Proof/Tests/Slice0.lean ====
section
/-! SUPPORT. Tests of the model, and for every obligation that has hypotheses a named theorem that shows states which
meet them, one for each clause. Each is about at most one step on a small state. -/

open Sys2Proof Sys2Proof.Machine

namespace Sys2Proof.Tests

/-! ## Small states -/

/-- An enabled segment, its lines high, its bus FREE. -/
def onSeg : Segment :=
  { Segment.atReset true true with
    cfg := { SegConfig.atReset with enable := true }
    init := .idle, resp := .listen, mon := { line := .free, stopTime := none, idleSince := none } }

/-- The part after reset with a given engine at segment 0. -/
def engine (x : Segment) : State := State.reset.setSeg 0 x

/-- The part after reset with segment 0 enabled. -/
def on : State := engine onSeg

/-- A job on segment 0. -/
def aJob : Job :=
  { id := 0x0001, seg := 0, cls := .normal, arbLimit := 8, nackLimit := 2, chain := none,
    phases := [{ target := 0x20, kind := .write [0x80, 0x01] }], status := .current, arbCount := 0, nackCount := 0,
    deferCount := 0, phaseIndex := 1, byteIndex := 0, startTime := some 0, cancelPending := false, cancelReply := none,
    results := [], readBuf := [], resetTaken := false }

/-- A job in slot 0. -/
def withJob (j : Job) (s : State) : State := s.setJob 0 (some j)

/-- A run of slot 0 in a sub-step. -/
def aRun (sub : SubStep) : Run :=
  { slot := 0, sub := sub, drove := false, closing := false, grade := .s100, stretchMs := 25, lowSince := none }

/-- A hold of chain 1. -/
def aHold : Hold :=
  { chain := 1, since := 0, grade := .s100, stretchMs := 25, limitMs := 10, closing := none, lowSince := none }

/-- Segment 0 busy, SCL low, the initiator in a sub-step with its job. -/
def running (sub : SubStep) : Segment :=
  { onSeg with
    scl := false, init := .running (aRun sub), resp := .ignore, mon := { line := .busy, stopTime := none, idleSince := none }
    framer := { kind := .address, pos := 9, shift := 0x40, ackHigh := false, taken := false }
    quiet := some { since := 0, limitMs := 35 } }

/-- The running engine with the ninth bit sampled high. -/
def nacked (x : Segment) : Segment := { x with framer := { x.framer with ackHigh := true } }

/-- A request with a code and parameters. -/
def aReq (code : Byte) (params : List Byte) : Request :=
  { tag := 0x07, ackValid := 0x00, ackSeq := 0, code := code, params := params, crc := 0x1234 }

/-- A request in hand. -/
def hand (code : Byte) (params : List Byte) (s : State) : State :=
  { s with
    link :=
      { s.link with
        reserved := 1
        cache := [{ tag := 0x07, code := code, crc := 0x1234, reply := none, age := 0 }]
        nextAge := 1
        inHand := some (.fresh (aReq code params) 0) } }

/-- A duplicate in hand. -/
def dupInHand (replay : Option (List Byte)) : State :=
  { on with link := { on.link with inHand := some (.duplicate (aReq 0x01 []) replay) } }

/-- A state with the receiver in a state. -/
def rxIn (rx : Receiver) : State :=
  { State.reset with link := { State.reset.link with rx := rx, gapSince := some 0 } }

/-- The state at a later time. -/
def later (n : Nat) (s : State) : State := { s with now := n }

/-- What a command answers. -/
def after (c : Instr) (s : State) : State :=
  match exec c s with
  | .next t => t
  | _ => s

/-- An enabled window entry at 20h. -/
def anEntry : Entry := { Entry.atReset with enable := true, address := some 0x20, notify := true }

/-- An enabled mailbox entry at 20h. -/
def aBox : Entry := { anEntry with mode := .mailbox, mailWaitMs := 20 }

/-- Position 8 of a byte has been sampled, SCL high. -/
def sampled (kind : Framing) (b : Byte) (x : Segment) : Segment :=
  { x with
    sda := false, mon := { line := .busy, stopTime := none, idleSince := none }
    framer := { kind := kind, pos := 8, shift := b, ackHigh := true, taken := false }
    quiet := some { since := 0, limitMs := 35 } }

/-- The acknowledge bit has ended with ACK, SCL low. -/
def ackDone (kind : Framing) (x : Segment) : Segment :=
  { x with
    scl := false, mon := { line := .busy, stopTime := none, idleSince := none }
    framer := { kind := kind, pos := 9, shift := 0x41, ackHigh := false, taken := false }
    quiet := some { since := 0, limitMs := 35 } }

/-- A clearing round. -/
def aRound (n pulses : Nat) (stage : ClearStage) : Clearing :=
  { round := n, pulses := pulses, stage := stage, grade := .s100, stretchMs := 25, lowSince := none, stopAt := none }

/-- Segment 0 in CLEARING. -/
def clearing (c : Clearing) (scl sda : Bool) : State :=
  engine
    { onSeg with
      scl := scl, sda := sda, clear := .clearing c, mon := { line := .busy, stopTime := none, idleSince := none } }

/-- Segment 0 in the high period of a clearing round's stop, SDA driven low. -/
def roundStop : State := modSeg 0 (fun x => { x with drvSda := true }) (clearing (aRound 1 3 .stopLow) true false)

/-- An initiator with no current job is not RUNNING. -/
theorem noRun {i : Initiator} (h : i.slot? = none) : ∀ r, i ≠ .running r := fun r e => by simp [e, Initiator.slot?] at h

/-- A slot that holds no job leaves no id held. -/
theorem noJob {s : State} (h : ∀ i, s.job? i = none) (id : Word) : NoJob s id := fun i j e => by simp [h i] at e

/-- The job of slot 0 is the lowest with its id. -/
theorem holdsId {s : State} {j : Job} (h : s.job? 0 = some j) : HoldsId s j.id 0 j :=
  ⟨h, rfl, fun k hk => absurd hk (Fin.not_lt_zero k)⟩

/-! ## Checks of the model against the spec's figures -/

/-- The CRC of the nine bytes 31h to 39h is 29B1h (R180). -/
theorem test_crc_of_nine_bytes : crc [0x31, 0x32, 0x33, 0x34, 0x35, 0x36, 0x37, 0x38, 0x39] = 0x29B1 := by
  decide +kernel

/-- The sync byte on the line, a byte with a good stop bit and one without, and a break. -/
theorem test_serial_line :
    byteLevels 0xB7 = [false, true, true, true, false, true, true, false, true, true] ∧
      rxdCommands (true :: frameLevels [0xB7, 0x03] ++ [true]) = [.rxByte 0xB7, .rxByte 0x03] ∧
      rxdCommands (false :: List.replicate 8 true ++ [false, true]) = [.rxFramingError] ∧
      rxdCommands (List.replicate 25 false) = [.rxFramingError, .rxFramingError] :=
  ⟨rfl, rfl, rfl, rfl⟩

/-- Every command is well formed: no operand has a value outside its row, so there is no ill-formed term to refuse. -/
theorem test_every_command_is_well_formed : ∀ c : Instr, c.wf = true := by
  intro c
  cases c <;> rfl

/-- No word of the table spells a command, since no row has bits. -/
theorem test_no_word_spells_a_command : ∀ n w, decodeTableWord n w = none := fun _ _ => rfl

/-- A state with such a word is unchanged. -/
theorem test_withFetchWord_changes_nothing : State.reset.withFetchWord 8 0xFF = State.reset :=
  rfl

/-- A SEG_CONFIG with the ten fields enables segment 0, and one with a stretch limit of 0 is refused BAD_PARAM (R17, R20,
R29). -/
theorem test_seg_config :
    ((after .segConfig (hand 0x10 [0, 1, 0, 25, 35, 10, 8, 2, 5, 8, 1] State.reset)).seg 0).init = .idle ∧
      ((after .segConfig (hand 0x10 [0, 1, 0, 0, 35, 10, 8, 2, 5, 8, 1] State.reset)).link.replies.map (·.body)) =
        [[0x81, 0x07, 0x10, 0x02]] := by
  decide +kernel

/-- A job of one write phase is admitted and waits for its start (R34, R47); DEV_INFO carries the figures of the part
(R176); an acknowledgement of the RESTARTED notice, sent, empties the queue (R156). -/
theorem test_requests_and_acknowledgement :
    ((after .jobSubmit
          (hand 0x20 [0, 1, 0, 0, 0xFF, 0xFF, 0, 0, 1, 0x20, 1, 1, 0x55] on)).seg 0).init = .waiting 0 ∧
      ((after .devInfo (hand 0x01 [] State.reset)).link.replies.map (·.body)) =
        [[0x81, 0x07, 0x01, 0x00, 0x54, 0x57, 0x34, 1, 4, 32, 64, 32, 24, 4, 0]] ∧
      attn (acknowledge 0 { State.reset with notices := { State.reset.notices with sentLimit := 1, sendPoint := 1 } }) =
        false := by
  decide +kernel

/-- A phase entry cut short is refused BAD_REQUEST (R28). -/
theorem test_job_submit_cut_short :
    submitParams [0, 1, 0, 0, 0xFF, 0xFF, 0, 0, 1, 0x20, 1, 2, 0x55] = .error .badRequest := rfl

/-- The last byte of a DEV_INFO request frame places it in the inbound buffer (R166). -/
theorem test_request_frame_is_placed :
    (after (.rxByte ((wordBytes (crc [6, 1, 7, 0, 0, 0, 1])).getD 1 0))
          (rxIn (.check 6 [1, 7, 0, 0, 0, 1] (some ((wordBytes (crc [6, 1, 7, 0, 0, 0, 1])).getD 0 0))))).link.inbound =
      [{ aReq 0x01 [] with crc := crc [6, 1, 7, 0, 0, 0, 1] }] := by
  decide +kernel

/-- An outside start makes the bus BUSY (R13). SCL low for 35 ms is a stuck detection, and round 1 fails at once on the low
SCL (R86, R93, R95). A hold that lapses with SDA held low by another device drives SDA, which discards the interval on it,
and the interval on SCL begins at its release (R69, R86). An address byte is compared in UNKNOWN too (R105).
A fall of SCL in the high period of a round's stop finds SDA still driven low; after the next rise the stop is made and the
segment recovered, or the round fails where SDA stays low (R6, R94, R96). -/
theorem test_line_events :
    ((after (.startSeen 0 .outside) on).seg 0).mon.line = .busy ∧
      ((after (.stuckDetection 0)
            (later 3500
              (engine
                { onSeg with
                  scl := false, mon := { line := .unknown, stopTime := none, idleSince := none }
                  quiet := some { since := 0, limitMs := 35 } }))).seg 0).clear =
        .clearing (aRound 1 0 (.wait 3500)) ∧
      (let x := (after (.holdLimitExpiry 0)
            (later 1000
              (engine
                { onSeg with
                  scl := false, sda := false, drvScl := true, init := .held aHold
                  mon := { line := .busy, stopTime := none, idleSince := none }
                  quiet := some { since := 0, limitMs := 35 } }))).seg 0
       x.drvScl = false ∧ x.drvSda = true ∧ x.quiet = some { since := 1000, limitMs := 35 }) ∧
      (let x := { sampled .address 0x41 (onSeg.setEntry 3 anEntry) with mon := Monitor.atReset }
       ((after (.respAddressByte 0) (engine x)).seg 0).resp.transaction?.map (·.entry) = some 3) ∧
      (let s := after (.lineEdge 0 .sclRise) (after (.lineEdge 0 .sclFall) roundStop)
       (s.seg 0).drvSda = true ∧ (s.seg 0).clear = .clearing (aRound 1 3 .stopLow) ∧
         (let x := (after (.stopSeen 0) s).seg 0
          x.drvSda = false ∧ x.mon.line = .free ∧
            x.clear = .clearing { aRound 1 3 .stopDone with stopAt := some 0 }) ∧
         ((after (.clearingRoundEnd 0) (after (.stopSeen 0) s)).seg 0).clear = .normal ∧
         ((after (.clearingRoundEnd 0) s).seg 0).clear = .clearing (aRound 1 0 (.wait 0))) := by
  decide +kernel

/-! ## The hypotheses of the obligations are met -/

theorem witness_StepRunsFrontCommand :
    ({ State.reset with pending := [.rstLow] } : State).pending = .rstLow :: [] := rfl

/-- An engine whose bus-idle window has been measured. -/
def windowDone : State :=
  later 10 (engine { onSeg with mon := { line := .unknown, stopTime := none, idleSince := some 0 } })

theorem witness_EmptyQueueTakesOneCountStep :
    (windowDone.pending = [] ∧ Quiescent windowDone ∧ due windowDone = true) ∧
      (on.pending = [] ∧ Quiescent on ∧ due on = false) ∧
      (let s := later 1 (withJob aJob (engine { onSeg with init := .backoff 0 (.busFree 1 50) }))
       s.pending = [] ∧ Quiescent s ∧ due s = false) := by
  decide +kernel

/-- An address byte has been acknowledged and the next byte of its phase is owed. -/
def owing : State := withJob aJob (engine (running .address))

theorem witness_EveryCommandCompletes :
    isEvent (.stopSeen 0) = true ∧ isOwed (.addressAck 0) = true ∧ settle owing ≠ owing ∧
      settle (dupInHand none) ≠ dupInHand none ∧ (∀ p, Instr.rstLow ≠ .rstRelease p) := by
  refine ⟨by decide +kernel, by decide +kernel, by decide +kernel, by decide +kernel, fun p e => by cases e⟩

theorem witness_PowerOnAndRstReset :
    (holdReset .resetPin State.reset).resetHeld = some .resetPin ∧ State.reset.resetHeld = none :=
  ⟨rfl, rfl⟩

theorem witness_ReceiverAdvances :
    ∀ rx ∈ [.hunt, .length, .body 3 [], .body 3 [1, 2], .check 3 [2, 0, 0] none, .check 3 [2, 0, 0] (some 0)],
      Quiescent (rxIn rx) ∧ (rxIn rx).resetHeld = none ∧ (rxIn rx).link.rx = rx := by
  decide +kernel

theorem witness_FrameIsCheckedOrDiscarded :
    let s := rxIn (.check 3 [0x02, 0, 0] (some 0x71))
    Quiescent s ∧ s.resetHeld = none ∧ s.link.rx = .check 3 [0x02, 0, 0] (some 0x71) ∧
      crc [3, 0x02, 0, 0] ≠ wordOf 0x71 0x7D ∧ crc [3, 0x02, 0, 0] = wordOf 0x71 0x7C ∧
      crc [6, 0x01, 7, 0, 0, 0, 1] = wordOf 0x62 0xBE ∧ crc [4, 0x02, 0, 0, 0] = wordOf 0x75 0x62 ∧
      [(0x02 : Byte), 0, 0, 0].length ≠ 3 ∧ [(0x01 : Byte), 7, 0, 0, 0].length < 6 := by
  decide +kernel

theorem witness_GapTimer :
    (let s := later 200 (rxIn .length)
     Quiescent s ∧ gapDue s = true ∧ s.link.rx ≠ .hunt ∧ s.resetHeld = none) ∧
      (let s := later 199 (rxIn .length)
       Quiescent s ∧ gapDue s = false) ∧
      (after (.rxByte 3) (rxIn .length)).link.rx ≠ .hunt ∧ (after (.rxByte 2) (rxIn .length)).link.rx = .hunt ∧
      (Quiescent State.reset ∧ State.reset.resetHeld = none ∧ State.reset.link.rx = .hunt) := by
  decide +kernel

/-- RESTARTED sent and not acknowledged. -/
def sentOne : State :=
  { State.reset with notices := { State.reset.notices with sentLimit := 1, sendPoint := 1, timer := some { since := 0, lenMs := 40 } } }

theorem witness_AttnFollowsQueue : (acknowledge 0 sentOne).notices.queue = [] :=
  rfl

/-- The summary of segment 1 holds a stuck detection. -/
def pendingSummary : State :=
  State.reset.setSeg 1 { onSeg with summary := { Summary.empty with stuckSeen := true } }

/-- The same with RESTARTED sent. -/
def pendingSent : State := { pendingSummary with notices := sentOne.notices }

theorem witness_AcknowledgementRetires :
    (pendingSent.notices = sentOne.notices ∧ (pendingSent.seg 1).summary.holds = true ∧
        (acknowledge 0 pendingSent).notices.queue.map (·.kind) = [.segSummary] ∧
        ((acknowledge 0 pendingSent).seg 1).summary.holds = false ∧ (acknowledge 0 pendingSent).notices.lastServed = 1) ∧
    sentOne.notices.ok ∧ (acknowledge 0 sentOne).notices.ok ∧ (acknowledge 0 sentOne).notices.queue = [] ∧
      (∃ h rest, sentOne.notices.queue = h :: rest ∧ (0 - h.seq).toNat < sentOne.notices.sentLimit ∧
        sentOne.notices.sentLimit ≤ (1 - h.seq).toNat ∧ ∀ n ∈ sentOne.notices.queue.take 1, n.source ≠ .job 0) ∧
      (∃ n ∈ (finishJob 0 .done true (withJob aJob State.reset)).notices.queue, n.source = .job 0) := by
  have ok : ∀ s : State, (∀ k : Fin s.notices.queue.length,
      s.notices.queue[k].seq = s.notices.next - BitVec.ofNat 16 (s.notices.queue.length - k.val)) →
      s.notices.sentLimit ≤ s.notices.queue.length → s.notices.sendPoint ≤ s.notices.queue.length → s.notices.ok :=
    fun s h1 h2 h3 => ⟨fun k hk => h1 ⟨k, hk⟩, h2, h3⟩
  refine ⟨by decide +kernel, ok _ (by decide +kernel) (by decide +kernel) (by decide +kernel), ok _ (by decide +kernel) (by decide +kernel)
    (by decide +kernel), by decide +kernel, ⟨_, _, rfl, by decide +kernel, by decide +kernel, by decide +kernel⟩,
    by decide +kernel⟩

/-- No event record is free: 23 events besides RESTARTED. -/
def fullPool : State :=
  { on with
    notices := { on.notices with queue := List.replicate 24 { seq := 0, kind := .restarted, source := .record, payload := [1] } } }

theorem witness_EventPoolClaimsAndReleases :
    0 < freeRecords on ∧ freeRecords fullPool = 0 ∧ (∀ g, (on.seg g).summary.holds = false) ∧
      (pendingSummary.seg (pendingSummary.notices.lastServed + 1 + 1)).summary.holds = true ∧
      (∀ j < (1 : SegId), (pendingSummary.seg (pendingSummary.notices.lastServed + 1 + j)).summary.holds = false) := by
  decide +kernel

theorem witness_JobFinishes :
    (withJob aJob on).job? 0 = some aJob ∧ aJob.cancelReply = none ∧
      (withJob { aJob with cancelReply := some { tag := 7, age := 0 } } on).job? 0 =
        some { aJob with cancelReply := some { tag := 7, age := 0 } } ∧
      ({ aJob with cancelReply := some { tag := 7, age := 0 }, resetTaken := true } : Job).resetTaken = true :=
  ⟨rfl, rfl, rfl, rfl⟩

/-- A continuation job of chain 1. -/
def contJob (role : Role) : Job := { aJob with status := .queued, chain := some { id := 1, role := role } }

theorem witness_InitiatorExaminesQueue :
    (on.seg 0).queue = [] ∧ (on.seg 0).disabling = false ∧
      (let s := withJob (contJob .cont) (engine { onSeg with queue := [0] })
       (s.seg 0).queue = 0 :: [] ∧ s.job? 0 = some (contJob .cont) ∧ Role.cont ≠ .opening) ∧
      (let s := withJob { aJob with status := .queued } (engine { onSeg with queue := [0] })
       (s.seg 0).queue = 0 :: [] ∧ s.job? 0 = some { aJob with status := .queued } ∧
         ({ aJob with status := .queued } : Job).chain = none) ∧
      (let s := engine { running .address with disabling := true, cfg := SegConfig.atReset }
       (s.seg 0).disabling = true ∧ (s.seg 0).cfg.enable = false) ∧
      (let s := engine { running .address with disabling := true }
       (s.seg 0).disabling = true ∧ (s.seg 0).cfg.enable = true) := by
  decide +kernel

/-- A hold of chain 1 with slot 0 in the queue behind slot 1. -/
def heldState (h : Hold) : State :=
  withJob (contJob .contOpen) (engine { onSeg with scl := false, drvScl := true, init := .held h, queue := [1, 0] })

theorem witness_HoldTakesItsContinuation :
    ((heldState { aHold with closing := some .lapse }).seg 0).init = .held { aHold with closing := some .lapse } ∧
      ((engine { onSeg with init := .held aHold }).seg 0).queue = [] ∧
      ((heldState aHold).seg 0).init = .held aHold ∧ aHold.closing = none ∧
      ((heldState aHold).seg 0).queue = [1] ++ 0 :: [] ∧ (heldState aHold).job? 1 = none ∧
      (heldState aHold).job? 0 = some (contJob .contOpen) ∧ (contJob .contOpen).continuesChain 1 = true := by
  decide +kernel

theorem witness_PhaseCompletes :
    (let s := withJob { aJob with phases := aJob.phases ++ aJob.phases } (engine (running .write))
     s.job? (aRun .write).slot = some { aJob with phases := aJob.phases ++ aJob.phases } ∧
       ({ aJob with phases := aJob.phases ++ aJob.phases } : Job).cancelPending = false ∧
       1 < (aJob.phases ++ aJob.phases).length) ∧
      (withJob aJob on).job? (aRun .write).slot = some aJob ∧ aJob.phases.length ≤ aJob.phaseIndex ∧
      aJob.chain = none ∧
      (withJob { contJob .opening with phaseIndex := 1 } on).job? 0 = some (contJob .opening) ∧
      (contJob .opening).phases.length ≤ (contJob .opening).phaseIndex ∧ Role.opening ≠ .cont := by
  decide +kernel

/-- Segment 0 with a transaction of entry 0. -/
def serving (n : Entry) (r : Transaction → Responder) (a : Access) : Segment :=
  ({ onSeg with
     resp := r { entry := 0, access := a, undo := none, sender := 0xFF, ackLow := true, nacked := false, preloaded := false } } :
    Segment).setEntry 0 n

/-- Segment 0 in an outside write that keeps what stood before its last byte. -/
def openByte (a : Access) (u : ByteUndo) (n : Entry) : Segment :=
  serving n (fun t => .selectedWrite { t with undo := some u }) a

/-- A window byte 55h sent to index 5, which held 11h, and a mail byte sent behind 01h. -/
def cutWindow : Segment :=
  sampled .data 0x55
    (openByte (.windowWrite true (some { first := 5, steps := 1, count := 1 })) (.window true none 5 0x11)
      { anEntry with pointer := 6, window := Memory.write 5 0x55 [] })

/-- The same for a mailbox. -/
def cutMail : Segment :=
  sampled .data 0x02 (openByte (.mailWrite 0x20 [0x01, 0x02] false) (.mail [0x01] false) aBox)

/-- A byte cut at its ninth pulse is taken back: the window byte, the pointer and the record of changes stand as before it
and no WINDOW_WRITTEN is made, and a mail byte is not in MAIL_IN (R4, R110, R111, R120, R121). -/
theorem test_cut_byte_is_taken_back :
    (let t := after (.stopSeen 0) (engine { cutWindow with framer := { cutWindow.framer with taken := true } })
     Memory.read 5 ((t.seg 0).entry 0).window = 0x11 ∧ ((t.seg 0).entry 0).pointer = 5 ∧
       t.notices.queue.length = 1) ∧
      (let t := after (.stopSeen 0) (engine { cutMail with framer := { cutMail.framer with taken := true } })
       t.notices.queue.map (·.payload) = [[1], [0, 0, 0x20, 1, 0, 0x01]]) := by
  decide +kernel

theorem witness_TransactionEnds :
    ((∀ a ∈ [.windowRead, .windowWrite true none, .windowWrite true (some { first := 63, steps := 2, count := 2 }),
          .mailWrite 0x20 [1] false, .mailRead false 0 255 true, .mailRead true 0 0 false, .mailRead true 1 0 false],
        ((serving { aBox with outbox := [[0x55]] } .selectedRead a).resp.transaction?.map (·.access)) = some a ∧
          ((serving { aBox with outbox := [[0x55]] } .selectedRead a).entry 0).outbox = [0x55] :: []) ∧
        (Entry.atReset.deferred = none) ∧
        (({ anEntry with deferred := some { offset := 63, bytes := [1], request := { tag := 7, age := 0 } } } : Entry).deferred.isSome =
          true)) ∧
      (((cutWindow.resp.transaction?.bind (·.undo)) = some (.window true none 5 0x11) ∧
        (cutWindow.resp.transaction?.map (·.access)) =
          some (.windowWrite true (some { first := 5, steps := 1, count := 1 }))) ∧
      ((cutMail.resp.transaction?.bind (·.undo)) = some (.mail [0x01] false) ∧
        (cutMail.resp.transaction?.map (·.access)) = some (.mailWrite 0x20 [0x01, 0x02] false)) ∧
      (({ onSeg with resp := .ignore } : Segment).resp.transaction? = none ∧ onSeg.resp.transaction? = none) ∧
      Memory.wf [] ∧ 63 + [(1 : Byte)].length ≤ 64) := by
  decide +kernel

/-- A request in the inbound buffer. -/
def arrived (r : Request) (s : State) : State := { s with link := { s.link with inbound := [r] } }

/-- The reply cache holding a duplicate of a request. -/
def cached (r : Request) (reply : Option (List Byte)) (s : State) : State :=
  { s with
    link := { s.link with cache := [{ tag := r.tag, code := r.code, crc := r.crc, reply := reply, age := 0 }] } }

/-- Eight places reserved. -/
def noPlace (s : State) : State := { s with link := { s.link with reserved := 8 } }

theorem witness_RequestIsTaken :
    (let s := arrived (aReq 0x01 []) on
     Quiescent s ∧ s.link.inHand = none ∧ s.link.resetTaken = false ∧ s.link.inbound = aReq 0x01 [] :: [] ∧
       (∀ e ∈ s.link.cache, ¬(e.tag = 0x07 ∧ e.code = 0x01 ∧ e.crc = 0x1234)) ∧
       s.link.replies.length + s.link.reserved < 8) ∧
      (let s := noPlace (arrived (aReq 0x01 []) on)
       Quiescent s ∧ s.link.inHand = none ∧ 8 ≤ s.link.replies.length + s.link.reserved) ∧
      (let s := cached (aReq 0x01 []) none (arrived (aReq 0x01 []) on)
       Quiescent s ∧ s.link.inHand = none ∧
         duplicateOf (aReq 0x01 []) s.link.cache =
           some { tag := 0x07, code := 0x01, crc := 0x1234, reply := none, age := 0 }) ∧
      (let s := cached (aReq 0x01 []) (some [0x81]) (arrived (aReq 0x01 []) on)
       Quiescent s ∧ s.link.inHand = none ∧
         duplicateOf (aReq 0x01 []) s.link.cache =
           some { tag := 0x07, code := 0x01, crc := 0x1234, reply := some [0x81], age := 0 }) := by
  decide +kernel

theorem witness_DuplicateAndUnknownRequests :
    (watchLines (dupInHand (some [0x81])) = dupInHand (some [0x81]) ∧
        (dupInHand (some [0x81])).link.inHand = some (.duplicate (aReq 0x01 []) (some [0x81]))) ∧
      (dupInHand none).link.inHand = some (.duplicate (aReq 0x01 []) none) ∧
      (watchLines (hand 0x04 [] on) = hand 0x04 [] on ∧
        (hand 0x04 [] on).link.inHand = some (.fresh (aReq 0x04 []) 0)) ∧
      (0x04 : Byte) ∉ ([0x01, 0x02, 0x03, 0x10, 0x11, 0x12, 0x13, 0x20, 0x21, 0x22, 0x30, 0x31, 0x32, 0x33, 0x34] :
        List Byte) ∧
      (0x02 : Byte) ≠ 0x00 ∧ (0x02 : Byte) ≠ 0x01 := by
  decide +kernel

/-- A request of each code can be in hand. -/
theorem witness_requests_in_hand :
    ∀ c ∈ requestCodes, InHandIs (hand c [] on) c (aReq c []) 0 ∧ InHandIs (hand c [0, 0] on) c (aReq c [0, 0]) 0 := by
  decide +kernel

theorem witness_DevResetAnswers :
    InHandIs (hand 0x02 [] on) 0x02 (aReq 0x02 []) 0 ∧ InHandIs (hand 0x02 [0] on) 0x02 (aReq 0x02 [0]) 0 ∧
      Quiescent { on with link := { on.link with resetTaken := true } } := by
  decide +kernel

theorem witness_DevInfoAndLinkConfigAnswer :
    InHandIs (hand 0x01 [] on) 0x01 (aReq 0x01 []) 0 ∧ InHandIs (hand 0x01 [0] on) 0x01 (aReq 0x01 [0]) 0 ∧
      InHandIs (hand 0x03 [8, 1, 0xF4] on) 0x03 (aReq 0x03 [8, 1, 0xF4]) 0 ∧
      (within 1 8 (8 : Byte).toNat ∧ within 5 500 (wordOf 0x01 0xF4).toNat) ∧
      ¬(within 1 8 (9 : Byte).toNat ∧ within 5 500 (wordOf 0x00 0x05).toNat) ∧ [(0 : Byte), 1].length ≠ 3 := by
  decide +kernel

/-- The parameters of a SEG_CONFIG of segment 0. -/
def cfgParams (enable : Byte) : List Byte := [0, enable, 0, 25, 35, 10, 8, 2, 5, 8, 1]

theorem witness_SegConfigApplies :
    (∃ rc, segConfigParams [] = .error rc) ∧ (∃ c, segConfigParams (cfgParams 1) = .ok (0, c) ∧ c.enable = true) ∧
      (∃ c, segConfigParams (cfgParams 0) = .ok (0, c) ∧ c.enable = false) ∧ (on.seg 0).disabling = false ∧
      (on.seg 0).isOff = false ∧ (State.reset.seg 0).isOff = true ∧
      InHandIs (hand 0x10 (cfgParams 1) on) 0x10 (aReq 0x10 (cfgParams 1)) 0 ∧
      InHandIs (hand 0x10 (cfgParams 1) State.reset) 0x10 (aReq 0x10 (cfgParams 1)) 0 ∧
      InHandIs (hand 0x10 (cfgParams 0) on) 0x10 (aReq 0x10 (cfgParams 0)) 0 :=
  ⟨⟨_, rfl⟩, ⟨_, rfl, rfl⟩, ⟨_, rfl, rfl⟩, by decide +kernel, by decide +kernel, by decide +kernel, by decide +kernel,
    by decide +kernel, by decide +kernel⟩

theorem witness_DisableTurnsOff :
    (let x := (engine { onSeg with cfg := SegConfig.atReset }).seg 0
     x.isOff = false ∧ x.cfg.enable = false ∧ x.init.ownsBus = false) ∧
      (let x := (engine { running .address with cfg := SegConfig.atReset }).seg 0
       x.isOff = false ∧ x.cfg.enable = false ∧ x.init.ownsBus = true) :=
  ⟨⟨rfl, rfl, rfl⟩, rfl, rfl, rfl⟩

theorem witness_SegRequests :
    (InHandIs (hand 0x11 [indexByte 3] on) 0x11 (aReq 0x11 [indexByte 3]) 0 ∧ 4 ≤ (4 : Byte).toNat) ∧
      (InHandIs (hand 0x12 [indexByte 0] on) 0x12 (aReq 0x12 [indexByte 0]) 0 ∧ (on.seg 0).cfg.enable = true ∧
        (on.seg 0).disabling = false ∧ (State.reset.seg 0).cfg.enable = false) ∧
      (InHandIs (hand 0x12 [indexByte 0] (heldState aHold)) 0x12 (aReq 0x12 [indexByte 0]) 0 ∧
        ((heldState aHold).seg 0).init = .held aHold ∧ aHold.closing = none) ∧
      InHandIs (hand 0x13 [indexByte 0] on) 0x13 (aReq 0x13 [indexByte 0]) 0 := by
  decide +kernel

/-- Segment 0 in its stop, SCL high, SDA driven low. -/
def stopping (i : Initiator) : Segment :=
  { onSeg with
    sda := false, drvSda := true, init := i, resp := .ignore
    mon := { line := .busy, stopTime := none, idleSince := none } }

/-- Segment 0 in each place a segment reset may find its initiator. -/
def resetPlaces : List Segment :=
  [onSeg, { onSeg with init := .waiting 0 }, { onSeg with init := .backoff 0 (.wait 0 50) },
    { onSeg with init := .running (aRun .start) }, { onSeg with init := .running { aRun .start with drove := true } },
    running .address, running (.stop .retry), running (.stop (.ends .cancelled)),
    { onSeg with init := .running { aRun .write with closing := true } }, { onSeg with init := .held aHold },
    { onSeg with init := .held { aHold with closing := some .lapse } }, { onSeg with clear := .stuck none },
    { onSeg with clear := .clearing (aRound 1 0 .pulseHigh) }]

/-- A cancel pending in the stop of a reached outcome is answered FINISHED, CANCELLED though the outcome is, when a
segment reset is taken in that stop; without one it is answered OK (R138, R142). The JOB_DONE of a queued job stands before
that of a job in START with nothing driven, and behind that of a WAITING job (R141, R142). -/
theorem test_jobs_at_a_segment_reset :
    (let j := { aJob with cancelPending := true, cancelReply := some { tag := 9, age := 5 } }
     let s := withJob j (engine (stopping (.running (aRun (.stop (.ends .cancelled))))))
     (after (.stopMade 0) (segmentReset 0 s)).link.replies.map (·.body) = [[0x81, 9, 0x21, 0x0D, 0, 1, 0x06, 0x01]] ∧
       (after (.stopMade 0) s).link.replies.map (·.body) = [[0x81, 9, 0x21, 0x00, 0, 1, 0x06, 0x01]]) ∧
      (let two := (withJob aJob on).setJob 1 (some { aJob with id := 2, status := .queued })
       ((segmentReset 0 (two.setSeg 0 { onSeg with queue := [1], init := .running (aRun .start) })).notices.queue.map
           (·.source)) = [.record, .job 1, .job 0] ∧
         ((segmentReset 0 (two.setSeg 0 { onSeg with queue := [1], init := .waiting 0 })).notices.queue.map (·.source)) =
           [.record, .job 0, .job 1]) := by
  decide +kernel

theorem witness_SegResetAnswers :
    (((onSeg.resp ≠ .off ∧ onSeg.init.ownsBus = false ∧ onSeg.clear = .normal) ∧
          ((running .address).init = .running (aRun .address) ∧ (running .address).init.ownsBus = true)) ∧
        ((running (.stop .retry)).init = .running (aRun (.stop .retry)) ∧
          (running (.stop (.ends .done))).init = .running (aRun (.stop (.ends .done)))) ∧
        ((clearing (aRound 3 9 .pulseLow) true false).seg 0).clear = .clearing (aRound 3 9 .pulseLow) ∧
        ((engine { onSeg with clear := .stuck none }).seg 0).clear = .stuck none) ∧
      ((∀ x ∈ resetPlaces,
      let s := hand 0x13 [indexByte 0] (withJob aJob (engine x))
      InHandIs s 0x13 (aReq 0x13 [indexByte 0]) 0 ∧ x.cfg.enable = true ∧ x.disabling = false) ∧
      (let s := hand 0x13 [indexByte 0] State.reset
       InHandIs s 0x13 (aReq 0x13 [indexByte 0]) 0 ∧ (s.seg 0).cfg.enable = false)) := by
  decide +kernel

/-- A JOB_SUBMIT of one empty write phase on segment 0. -/
def submitOne : List Byte := [0, 1, 0, 0, 0xFF, 0xFF, 0, 0, 1, 0x08, 1, 0]

/-- What that submission says. -/
def theSubmission : Submission :=
  { id := 1, seg := 0, cls := .normal, arbLimit := none, nackLimit := none, chain := none,
    phases := [{ target := 0x08, kind := .write [] }] }

/-- Every slot holds a job. -/
def fullSlots : State := { on with jobs := Vector.replicate 32 (some { aJob with id := 2 }) }

theorem witness_JobSubmitRefusals :
    InHandIs (hand 0x20 submitOne on) 0x20 (aReq 0x20 submitOne) 0 ∧ (∃ rc, submitParams [] = .error rc) ∧
      submitParams submitOne = .ok theSubmission ∧ (on.seg 0).cfg.enable = true ∧ (on.seg 0).disabling = false ∧
      (State.reset.seg 0).cfg.enable = false ∧ HoldsId (withJob aJob on) 1 0 aJob ∧ NoJob on 1 ∧
      (on.seg 0).liveCount < (on.seg 0).cfg.queueLimit ∧
      (let x : Segment := { onSeg with queue := [1, 2, 3, 4, 5, 6, 7, 8] }
       x.cfg.queueLimit ≤ x.liveCount) ∧
      (∀ i, fullSlots.job? i ≠ none) ∧ NoJob fullSlots 1 ∧
      (on.job? 0 = none ∧ freeBlocks on < 65) := by
  refine ⟨by decide +kernel, ⟨_, rfl⟩, rfl, by decide +kernel, by decide +kernel, by decide +kernel,
    holdsId (by decide +kernel), noJob (by decide +kernel) 1, by decide +kernel, by decide +kernel, by decide +kernel,
    ?_, by decide +kernel⟩
  intro i j e
  have h : fullSlots.job? i = some { aJob with id := 2 } := by simp [fullSlots, State.job?]
  rw [h] at e
  cases e
  decide

theorem witness_JobSubmitAdmits :
    (on.job? 0 = none ∧ blockCount theSubmission.phases ≤ freeBlocks on) ∧
      (let s := withJob { aJob with cls := .urgent } on
       isUrgent s 0 = true ∧ isUrgent s 1 = false ∧ [0, 1] = [0] ++ [(1 : Slot)]) ∧
      (on.seg 0).init = .idle ∧ ((heldState aHold).seg 0).init = .held aHold ∧
      (running .address).init.slot?.isSome = true := by
  decide +kernel

/-- A job in slot 0 in a state. -/
def jobIs (st : JobState) (x : Segment) : State := withJob { aJob with status := st } (engine x)

/-- A completion. -/
def aCompletion : Completion := { outcome := .done, failPhase := none, byteIndex := none, duration := 65535, results := [] }

theorem witness_JobCancelAnswers :
    InHandIs (hand 0x21 [0, 1] on) 0x21 (aReq 0x21 [0, 1]) 0 ∧ (∃ rc, jobIdParams [0, 0] = .error rc) ∧
      jobIdParams [0, 1] = .ok 1 ∧ NoJob on 1 ∧ HoldsId (jobIs (.finished aCompletion) onSeg) 1 0 { aJob with status := .finished aCompletion } ∧
      HoldsId (jobIs .queued { onSeg with queue := [0] }) 1 0 { aJob with status := .queued } ∧
      HoldsId (jobIs .current { onSeg with init := .waiting 0 }) 1 0 aJob ∧
      (∀ k, ({ onSeg with init := .waiting 0 } : Segment).init = .running k → k.slot ≠ 0) ∧
      HoldsId (jobIs .current (running .address)) 1 0 aJob ∧
      (running .address).init = .running (aRun .address) ∧ aJob.cancelPending = false := by
  refine ⟨by decide +kernel, ⟨_, rfl⟩, rfl, noJob (by decide +kernel) 1, holdsId (by decide +kernel),
    holdsId (by decide +kernel), holdsId (by decide +kernel), fun k e => by simp at e, holdsId (by decide +kernel), rfl,
    rfl⟩

theorem witness_JobQueryAnswers :
    InHandIs (hand 0x22 (wordBytes 1) on) 0x22 (aReq 0x22 (wordBytes 1)) 0 ∧ (1 : Word) ≠ 0 ∧
      ((jobIs .queued { onSeg with queue := [1, 0] }).seg 0).queue = [1] ++ 0 :: [] ∧ (0 : Slot) ∉ [(1 : Slot)] ∧
      (∃ n, (finishJob 0 .done true (withJob aJob on)).notices.queue = on.notices.queue ++ n :: [] ∧
        n.source = .job 0 ∧ ∀ m ∈ on.notices.queue, m.source ≠ .job 0) := by
  refine ⟨by decide +kernel, by decide +kernel, by decide +kernel, by decide +kernel, ⟨_, rfl, rfl, by decide +kernel⟩⟩

/-- A SET of entry 3 of segment 0 to a mailbox at 77h. -/
def setParams : List Byte := [0, 3, 1, 1, 0x77, 1, 1, 64, 20]

theorem witness_RespSetChangesEntry :
    InHandIs (hand 0x30 setParams on) 0x30 (aReq 0x30 setParams) 0 ∧ (∃ rc, respSetParams [] = .error rc) ∧
      respSetParams setParams =
        .ok (0, 3, some { enable := true, address := 0x77, mode := .mailbox, notify := true, protectFrom := 64, mailWaitMs := 20 }) ∧
      respSetParams [0, 3, 2] = .ok (0, 3, none) ∧ (on.seg 0).inFlight 3 = false ∧
      (serving aBox .selectedRead .windowRead).inFlight 0 = true ∧ ((on.seg 0).entry 3).mode ≠ .mailbox ∧
      ((onSeg.setEntry 0 { anEntry with address := some 0x77 }).entry 0).address = some 0x77 ∧
      (∀ k : EntryId, k ≠ 3 → ((on.seg 0).entry k).enable = true → ((on.seg 0).entry k).address ≠ some 0x77) := by
  refine ⟨by decide +kernel, ⟨_, rfl⟩, rfl, rfl, by decide +kernel, by decide +kernel, by decide +kernel, by decide +kernel,
    by decide +kernel⟩

theorem witness_WinWriteAppliesOrDefers :
    InHandIs (hand 0x31 [0, 0, 63, 1, 5] on) 0x31 (aReq 0x31 [0, 0, 63, 1, 5]) 0 ∧
      winWriteParams [0, 0, 63, 1, 5] = .ok (0, 0, 63, [5]) ∧ (∃ rc, winWriteParams [0, 0, 63, 2, 5, 6] = .error rc) ∧
      Memory.wf ((on.seg 0).entry 0).window ∧ ((on.seg 0).entry 0).deferred = none ∧ (on.seg 0).inFlight 0 = false ∧
      (serving anEntry .selectedRead .windowRead).inFlight 0 = true ∧
      ({ anEntry with deferred := some { offset := 0, bytes := [1], request := { tag := 7, age := 0 } } } : Entry).deferred ≠ none := by
  refine ⟨by decide +kernel, rfl, ⟨_, rfl⟩, by decide +kernel, by decide +kernel, by decide +kernel, by decide +kernel,
    by decide +kernel⟩

theorem witness_WinReadAnswers :
    InHandIs (hand 0x32 [indexByte 3, indexByte 3, 0, 64] on) 0x32 (aReq 0x32 [indexByte 3, indexByte 3, 0, 64]) 0 ∧
      within 1 64 (64 : Byte).toNat ∧ (0 : Byte).toNat + (64 : Byte).toNat ≤ 64 ∧
      ¬((3 : Byte).toNat < 4 ∧ (3 : Byte).toNat < 4 ∧ within 1 64 (64 : Byte).toNat ∧
        (1 : Byte).toNat + (64 : Byte).toNat ≤ 64) := by
  decide +kernel

theorem witness_MailPostAppends :
    InHandIs (hand 0x33 [0, 0, 1, 5] on) 0x33 (aReq 0x33 [0, 0, 1, 5]) 0 ∧ mailPostParams [0, 0, 1, 5] = .ok (0, 0, [5]) ∧
      (∃ rc, mailPostParams [0, 0, 0] = .error rc) ∧ ((on.seg 0).entry 0).mode = .window ∧
      (let s := engine (onSeg.setEntry 0 aBox)
       ((s.seg 0).entry 0).mode = .mailbox ∧ ((s.seg 0).entry 0).outbox.length < 4 ∧ 0 < freeBlocks s ∧
         InHandIs (hand 0x33 [0, 0, 1, 5] s) 0x33 (aReq 0x33 [0, 0, 1, 5]) 0) ∧
      4 ≤ ({ aBox with outbox := [[1], [2], [3], [4]] } : Entry).outbox.length ∧
      (let x := serving aBox (fun t => .mailWait t 20 (some 0)) (.mailRead false 0 0 false)
       x.resp.transaction?.map (·.entry) = some 0 ∧ x.waits 0 = true) ∧
      (serving aBox (fun t => .mailWait t 20 none) (.mailRead false 0 0 false)).waits 0 = true := by
  refine ⟨by decide +kernel, rfl, ⟨_, rfl⟩, by decide +kernel, by decide +kernel, by decide +kernel, by decide +kernel,
    by decide +kernel⟩

theorem witness_MailWithdrawRemoves :
    InHandIs (hand 0x34 [indexByte 0, indexByte 0] on) 0x34 (aReq 0x34 [indexByte 0, indexByte 0]) 0 ∧
      ((on.seg 0).entry 0).mode = .window ∧ aBox.mode = .mailbox ∧ (onSeg.setEntry 0 aBox).bound 0 = false ∧
      (serving { aBox with outbox := [[1], [2]] } .selectedRead (.mailRead true 0 0 false)).bound 0 = true ∧
      ¬((4 : Byte).toNat < 4 ∧ (0 : Byte).toNat < 4) := by
  decide +kernel

theorem witness_FrameStarts :
    (let s := { on with link := { on.link with tx := some { frame := [0xB7], isReply := false, devReset := false } } }
     Quiescent s ∧ s.link.tx ≠ none ∧ txdLevels s = byteLevels 0xB7) ∧
      (let s := { on with link := { on.link with replies := [{ body := [0x81], devReset := false }] } }
       Quiescent s ∧ s.link.tx = none ∧ s.link.replies = { body := [0x81], devReset := false } :: []) ∧
      (Quiescent on ∧ on.link.tx = none ∧ on.link.replies = [] ∧ on.notices.silent = false ∧
        on.notices.queue[on.notices.sendPoint]? = some { seq := 0, kind := .restarted, source := .record, payload := [1] } ∧
        on.notices.sendPoint = on.notices.sentLimit ∧ on.notices.sentLimit < on.notices.window) ∧
      (Quiescent sentOne ∧ sentOne.notices.queue.length ≤ sentOne.notices.sendPoint) ∧
      (let s := { sentOne with notices := { sentOne.notices with sendPoint := 0 } }
       Quiescent s ∧ s.link.tx = none ∧ s.link.replies = [] ∧ s.notices.silent = false ∧
         s.notices.queue[0]? = some { seq := 0, kind := .restarted, source := .record, payload := [1] } ∧
         s.notices.sendPoint < s.notices.sentLimit) ∧
      (let s := joinNotice .segSummary .record [] { sentOne with notices := { sentOne.notices with window := 1 } }
       Quiescent s ∧ s.notices.sendPoint < s.notices.queue.length ∧ s.notices.sendPoint = s.notices.sentLimit ∧
         s.notices.window ≤ s.notices.sentLimit) ∧
      (let s := { sentOne with notices := { sentOne.notices with silent := true, sendPoint := 0 } }
       Quiescent s ∧ s.notices.silent = true) ∧
      (let s := { sentOne with notices := { sentOne.notices with sentLimit := 0 } }
       Quiescent s ∧ s.notices.sentLimit < s.notices.sendPoint) := by
  decide +kernel

theorem witness_FrameEnds :
    ∀ t ∈ [{ frame := [], isReply := false, devReset := false }, { frame := [], isReply := true, devReset := false },
        { frame := [], isReply := true, devReset := true }],
      Quiescent { on with link := { on.link with tx := some t } } := by
  decide +kernel

theorem witness_ResendExpiryGoesBack :
    (Quiescent (later 4000 sentOne) ∧ sentOne.notices.timer = some { since := 0, lenMs := 40 } ∧ 0 + 40 * 100 ≤ 4000 ∧
        sentOne.notices.expiries + 1 < 16) ∧
      (let s := { sentOne with notices := { sentOne.notices with expiries := 15 } }
       Quiescent (later 4000 s) ∧ 16 ≤ s.notices.expiries + 1) ∧
      Quiescent (later 3999 sentOne) ∧ on.notices.timer = none := by
  decide +kernel

/-- The running engine at a bit position of a byte it sends, SCL high. -/
def sending (sub : SubStep) (pos : Nat) : Segment :=
  { running sub with
    scl := true, quiet := none, framer := { kind := .address, pos := pos, shift := 1, ackHigh := true, taken := false } }

/-- The jobs a running job may be: plain, beyond its arbitration limit, a continuation, with a cancel pending. -/
def runningJobs : List Job :=
  [aJob, { aJob with arbLimit := 0 }, { contJob .cont with status := .current },
    { aJob with cancelPending := true, cancelReply := some { tag := 9, age := 0 } }]

theorem witness_StartSeenTakesBus :
    ((Quiescent on ∧ onSeg.isOff = false ∧ onSeg.scl = true ∧ onSeg.sda = true ∧ onSeg.resp = .listen ∧
          ∀ r, onSeg.init ≠ .running r) ∧
        (let s := withJob aJob (engine { onSeg with init := .running (aRun .start) })
         Quiescent s ∧ (s.seg 0).init = .running (aRun .start) ∧ (aRun .start).drove = false ∧
           (aRun .start).closing = false)) ∧
      ((∀ j ∈ runningJobs, ∀ sub ∈ [SubStep.address, .write, .read, .restart],
      let s := withJob j (engine (sending sub 3))
      Quiescent s ∧ (s.seg 0).init = .running (aRun sub) ∧ (s.seg 0).isOff = false ∧ (s.seg 0).scl = true ∧
        (s.seg 0).sda = true ∧ s.job? 0 = some j) ∧
      (let x := { sending .write 3 with init := .running { aRun .write with closing := true } }
       Quiescent (withJob aJob (engine x)) ∧ x.isOff = false) ∧
      (let x := { serving anEntry .selectedWrite (.windowWrite true none) with init := .running (aRun .start) }
       Quiescent (withJob aJob (engine x)) ∧ x.isOff = false ∧ x.scl = true ∧ x.sda = true ∧
         x.resp.transaction? ≠ none) ∧
      (Quiescent State.reset ∧ (State.reset.seg 0).isOff = true ∧ (State.reset.seg 0).scl = true ∧
        (State.reset.seg 0).sda = true) ∧
      (∀ j ∈ runningJobs,
        let s := withJob j (engine { onSeg with init := .running (aRun .start) })
        Quiescent s ∧ (s.seg 0).init = .running (aRun .start) ∧ s.job? 0 = some j) ∧
      (∀ r ∈ [{ aRun .start with drove := true }, aRun (.stop .retry), aRun (.stop (.ends .done))],
        let s := withJob aJob (engine { onSeg with init := .running r })
        Quiescent s ∧ (s.seg 0).isOff = false ∧ (s.seg 0).scl = true ∧ (s.seg 0).sda = true)) :=
  ⟨⟨⟨by decide +kernel, rfl, rfl, rfl, rfl, noRun rfl⟩, by decide +kernel⟩, by decide +kernel⟩

/-- Segment 0 busy with SDA low and SCL high. -/
def sdaLow : Segment :=
  { onSeg with
    sda := false, mon := { line := .busy, stopTime := none, idleSince := none }
    quiet := some { since := 0, limitMs := 35 } }

/-- The running engine in the middle of a byte with SDA low, not by its own drive. -/
def sendingLow (r : Run) : Segment :=
  { sending r.sub 3 with sda := false, init := .running r, quiet := some { since := 0, limitMs := 35 } }

theorem witness_StopSeenFreesBus :
    (Quiescent (engine sdaLow) ∧ sdaLow.isOff = false ∧ sdaLow.scl = true ∧ sdaLow.sda = false ∧
        sdaLow.drvSda = false ∧ sdaLow.resp = .listen ∧ ∀ r, sdaLow.init ≠ .running r) ∧
      ((∀ j ∈ runningJobs,
      ∀ r ∈ [aRun .address, aRun .write, aRun .read, { aRun .restart with drove := true },
          { aRun .write with closing := true }],
      let s := withJob j (engine (sendingLow r))
      Quiescent s ∧ (s.seg 0).init = .running r ∧ (s.seg 0).isOff = false ∧ (s.seg 0).scl = true ∧
        (s.seg 0).sda = false ∧ (s.seg 0).drvSda = false ∧ s.job? r.slot = some j) ∧
      (∀ r ∈ [aRun .start, aRun (.stop .retry), aRun (.stop (.ends .done))],
        Quiescent (withJob aJob (engine (sendingLow r)))) ∧
      (let s := engine (Segment.atReset true false)
       Quiescent s ∧ (s.seg 0).isOff = true ∧ (s.seg 0).scl = true ∧ (s.seg 0).sda = false ∧
         (s.seg 0).drvSda = false) ∧
      (Quiescent roundStop ∧ (roundStop.seg 0).isOff = false ∧ (roundStop.seg 0).scl = true ∧
        (roundStop.seg 0).sda = false ∧ (roundStop.seg 0).clear = .clearing (aRound 1 3 .stopLow) ∧
        (roundStop.seg 0).resp = .listen)) :=
  ⟨⟨by decide +kernel, rfl, rfl, rfl, rfl, rfl, noRun rfl⟩, by decide +kernel⟩

/-- Segment 0 busy in a transaction, SCL high in a place of a byte. -/
def servingAt (kind : Framing) (pos : Nat) (ack : Bool) (r : Responder) : Segment :=
  { onSeg with
    resp := r, mon := { line := .busy, stopTime := none, idleSince := none }
    framer := { kind := kind, pos := pos, shift := 0, ackHigh := ack, taken := true } }

/-- A transaction of entry 0. -/
def aTransaction (a : Access) : Transaction :=
  { entry := 0, access := a, undo := none, sender := 0xFF, ackLow := true, nacked := false, preloaded := false }

/-- The places of a transaction at a falling clock that the statement tells apart. -/
def edgeResponders : List Segment :=
  let write := { aTransaction (.windowWrite true none) with undo := some (.window true none 5 0) }
  [servingAt .data 9 false (.selectedWrite write), servingAt .data 8 false (.selectedWrite write),
    servingAt .data 9 true (.selectedRead (aTransaction .windowRead)),
    servingAt .address 8 true (.selectedRead (aTransaction .windowRead)),
    servingAt .address 9 false (.selectedRead { aTransaction (.mailRead true 1 0 false) with preloaded := true }),
    servingAt .address 8 true (.mailWait (aTransaction (.mailRead false 0 0 false)) 20 none),
    servingAt .address 9 false (.mailWait (aTransaction (.mailRead false 0 0 false)) 20 none)]

/-- The places of the initiator at a falling clock that the statement tells apart, besides a byte it sends. -/
def edgeInitiators : List Initiator :=
  [.running { aRun .start with drove := true }, .running { aRun .restart with drove := true },
    .running { aRun .read with closing := true }, .running (aRun (.stop .retry)), .held aHold,
    .held { aHold with closing := some .order }]

theorem witness_MonitorLeavesAndReachesFree :
    (Quiescent on ∧ onSeg.scl = true ∧ onSeg.mon.line = .free ∧ ∀ r, onSeg.init ≠ .running r) ∧
      (let s := withJob aJob (engine { onSeg with init := .running (aRun .start) })
       Quiescent s ∧ s.job? (aRun .start).slot = some aJob ∧ aJob.cancelPending = false) ∧
      (let j := { aJob with cancelPending := true, cancelReply := some { tag := 9, age := 0 } }
       let s := withJob j (engine { onSeg with init := .running (aRun .start) })
       Quiescent s ∧ s.job? (aRun .start).slot = some j ∧ j.cancelPending = true) ∧
      (Quiescent windowDone ∧ (windowDone.seg 0).mon.line = .unknown ∧ (windowDone.seg 0).mon.idleSince = some 0 ∧
        0 + 10 ≤ windowDone.now) ∧
      (Quiescent (later 9 windowDone) ∧ 9 < 0 + 10) ∧
      (let s := engine { onSeg with mon := Monitor.atReset }
       Quiescent s ∧ (s.seg 0).mon.idleSince = none) ∧
      (∀ x ∈ edgeResponders,
        let y := { x with mon := onSeg.mon }
        Quiescent (engine y) ∧ y.isOff = false ∧ y.scl = true ∧ y.init.ownsBus = false) ∧
      (∀ r ∈ [{ aRun .start with drove := true }, aRun .address, aRun .write, aRun .read, aRun (.stop .retry),
          { aRun .read with closing := true }],
        let y := { onSeg with init := .running r }
        Quiescent (withJob aJob (engine y)) ∧ y.resp.transaction? = none) ∧
      (∀ st ∈ [ClearStage.pulseHigh, .pulseLow, .stopHigh, .stopLow, .stopDone, .wait 0], ∀ n ∈ [3, 9],
        let y := { onSeg with clear := .clearing (aRound 1 n st) }
        Quiescent (engine y) ∧ y.scl = true ∧ y.mon.line = .free) ∧
      Quiescent (engine { onSeg with clear := .stuck (some 0) }) :=
  ⟨⟨by decide +kernel, rfl, rfl, noRun rfl⟩, by decide +kernel⟩

theorem witness_LineEdgeIsSeen :
    (Quiescent State.reset ∧ (State.reset.seg 0).canEdge .sclFall = true ∧ (State.reset.seg 0).isOff = true) ∧
      (∀ sub ∈ [.address, .write, .read], ∀ pos ∈ [0, 7],
        Quiescent (withJob aJob (engine (sending sub pos))) ∧ (sending sub pos).canEdge .sclFall = true ∧
          (sending sub pos).mon.line ≠ .free ∧ (sending sub pos).resp = .ignore) ∧
      (Quiescent (withJob aJob (engine (sending .read 8))) ∧ (sending .read 8).canEdge .sclFall = true) ∧
      (let s := after (.lineEdge 0 .sclFall) (withJob aJob (engine (sending .address 3)))
       Quiescent s ∧ (s.seg 0).canEdge .sclRise = true) ∧
      (let x := servingAt .data 7 true (.selectedRead (aTransaction .windowRead))
       Quiescent (engine x) ∧ x.canEdge .sclFall = true ∧ x.init.ownsBus = false) ∧
      (∀ x ∈ edgeResponders,
        Quiescent (engine x) ∧ x.canEdge .sclFall = true ∧ x.isOff = false ∧ x.init.ownsBus = false ∧
          x.mon.line ≠ .free) ∧
      (∀ i ∈ edgeInitiators,
        let x := { sending .read 9 with init := i }
        Quiescent (withJob aJob (engine x)) ∧ x.canEdge .sclFall = true ∧ x.mon.line ≠ .free) ∧
      (∀ p ∈ [(ClearStage.pulseHigh, false), (.pulseLow, false), (.pulseLow, true), (.stopHigh, true), (.stopLow, true),
          (.stopDone, false), (.wait 0, true)],
        ∀ n ∈ [3, 9],
          let s := clearing (aRound 1 n p.1) true p.2
          Quiescent s ∧ (s.seg 0).canEdge .sclFall = true ∧ (s.seg 0).mon.line ≠ .free) ∧
      (∀ st ∈ [ClearStage.pulseLow, .stopLow],
        let s := clearing (aRound 1 3 st) false true
        Quiescent s ∧ (s.seg 0).canEdge .sclRise = true) ∧
      (let x := { onSeg with
                  clear := .stuck (some 0), mon := { line := .busy, stopTime := none, idleSince := none } }
       Quiescent (engine x) ∧ x.canEdge .sclFall = true) := by
  decide +kernel

theorem witness_StartIsDecided :
    (let s := withJob aJob (engine { onSeg with init := .waiting 0 })
     Quiescent s ∧ (s.seg 0).init = .waiting 0 ∧ s.job? 0 = some aJob ∧ (s.seg 0).mon.line = .free ∧
       (s.seg 0).clear = .normal ∧ (s.seg 0).mon.stopTime = none) ∧
      (let s := withJob aJob (engine { onSeg with init := .waiting 0, mon := { onSeg.mon with stopTime := some 0 } })
       Quiescent s ∧ (s.seg 0).mon.stopTime = some 0 ∧ (s.now - 0) * 100 < Config.busFreeTime .s100) := by
  decide +kernel

/-- The acknowledge bit of the running engine has ended. -/
theorem ackEnded (sub : SubStep) (x : Segment) (h : x = running sub ∨ x = nacked (running sub)) :
    AckEnded x (aRun sub) sub := by
  rcases h with h | h <;> subst h <;> exact ⟨rfl, rfl, rfl, rfl, rfl, rfl⟩

/-- A job whose only phase has a given kind. -/
def jobOf (k : PhaseKind) (at_ : Nat) : Job := { aJob with phases := [{ target := 0x20, kind := k }], byteIndex := at_ }

/-- A job with a cancel pending. -/
def cancelled (j : Job) : Job := { j with cancelPending := true, cancelReply := some { tag := 9, age := 0 } }

theorem witness_AddressAckDecides :
    (∀ k ∈ [.write [], .write [1], .read 64, .countedRead 32], ∀ x ∈ [running .address, nacked (running .address)],
      let s := withJob (cancelled (jobOf k 0)) (engine x)
      NoneInHand s ∧ s.job? 0 = some (cancelled (jobOf k 0)) ∧ (cancelled (jobOf k 0)).cancelPending = true ∧
        (cancelled (jobOf k 0)).nackCount < (cancelled (jobOf k 0)).nackLimit) ∧
    (∀ k ∈ [.write [], .write [1], .read 64, .countedRead 32],
      NoneInHand (withJob (jobOf k 0) (engine (running .address))) ∧
        (withJob (jobOf k 0) (engine (running .address))).job? 0 = some (jobOf k 0) ∧
        (running .address).framer.ackHigh = false) ∧
      (nacked (running .address)).framer.ackHigh = true ∧ aJob.nackCount < aJob.nackLimit ∧
      ({ aJob with nackLimit := 0 } : Job).nackLimit ≤ aJob.nackCount := by
  decide +kernel

theorem witness_WriteByteAckDecides :
    (∀ x ∈ [running .write, nacked (running .write)],
      NoneInHand (withJob (cancelled aJob) (engine x)) ∧ (cancelled aJob).cancelPending = true ∧
        (cancelled aJob).byteIndex + 1 < [(0x80 : Byte), 0x01].length) ∧
    NoneInHand (withJob aJob (engine (running .write))) ∧ aJob.byteIndex + 1 < [(0x80 : Byte), 0x01].length ∧
      [(0x80 : Byte), 0x01].length ≤ ({ aJob with byteIndex := 1 } : Job).byteIndex + 1 ∧
      NoneInHand (withJob aJob (engine (nacked (running .write)))) := by
  decide +kernel

theorem witness_ReadAndLengthBytes :
    (∀ k ∈ [.read 2, .countedRead 64],
      NoneInHand (withJob (cancelled (jobOf k 0)) (engine (running .read))) ∧
        (cancelled (jobOf k 0)).cancelPending = true ∧ (cancelled (jobOf k 0)).byteIndex + 1 < 2) ∧
    within 1 64 (running .read).framer.shift.toNat ∧
    NoneInHand (withJob (jobOf (.read 2) 0) (engine (running .read))) ∧ (jobOf (.read 2) 0).byteIndex + 1 < 2 ∧
      2 ≤ (jobOf (.read 2) 1).byteIndex + 1 ∧
      (let j := { jobOf (.countedRead 32) 1 with readBuf := [1] }
       j.readBuf = 1 :: [] ∧ 0 < j.byteIndex ∧ (1 : Byte).toNat + 1 ≤ j.byteIndex + 1) ∧
      ¬within 1 32 (running .read).framer.shift.toNat ∧ within 1 32 (32 : Byte).toNat ∧
      (jobOf (.countedRead 32) 0).byteIndex = 0 := by
  decide +kernel

theorem witness_StopIsMade :
    ∀ i ∈ [.running (aRun (.stop (.ends .done))), .running (aRun (.stop .retry)),
        .held { aHold with closing := some .lapse }, .held { aHold with closing := some .order }],
      Quiescent (withJob aJob (engine (stopping i))) ∧ (stopping i).init = i ∧ (stopping i).scl = true ∧
        (stopping i).drvSda = true := by
  decide +kernel

/-- SDA seen low at a rising edge at a place of a byte. -/
def losing (sub : SubStep) (pos : Nat) : Segment :=
  { running sub with
    scl := true, sda := false, framer := { kind := .address, pos := pos, shift := 0, ackHigh := false, taken := false } }

theorem witness_ArbitrationLossDecides :
    (∀ p ∈ [(SubStep.address, 1), (.write, 8), (.read, 9), (.restart, 0)],
      NoneInHand (withJob aJob (engine (losing p.1 p.2))) ∧ (losing p.1 p.2).init = .running (aRun p.1) ∧
        (losing p.1 p.2).lossSeen = true ∧ (losing p.1 p.2).mon.line ≠ .free) ∧
      aJob.arbCount + 1 ≤ aJob.arbLimit ∧ ({ aJob with arbLimit := 0 } : Job).arbLimit < aJob.arbCount + 1 := by
  decide +kernel

/-- A run stretched since 0. -/
def stretched (r : Run) : Segment := { running r.sub with init := .running { r with lowSince := some 0 } }

theorem witness_InitiatorLimitsExpire :
    (∀ sub ∈ [SubStep.address, .stop (.ends .done)],
      Quiescent (later 2500 (withJob aJob (engine { stretched (aRun sub) with framer := Framer.atReset }))) ∧
        0 + 25 * 100 ≤ 2500) ∧
      (∀ e ∈ [HoldEnd.lapse, .order],
        let x := { running .address with
                   framer := Framer.atReset, init := .held { aHold with closing := some e, lowSince := some 0 } }
        Quiescent (later 2500 (engine x))) ∧
      (let s := withJob aJob (engine { onSeg with init := .backoff 0 (.wait 0 50) })
       Quiescent (later 50 s) ∧ Quiescent (later 49 s)) ∧
      (Quiescent (later 1000 (heldState aHold)) ∧ Quiescent (later 999 (heldState aHold)) ∧
        0 + aHold.limitMs * 100 ≤ 1000) := by
  decide +kernel

theorem witness_AddressByteSelects :
    ((∀ b ∈ [(0x40 : Byte), 0x41], ∀ n ∈ [anEntry, aBox, { aBox with outbox := [[1]] }, { aBox with mailWaitMs := 0 }],
        let x := sampled .address b (onSeg.setEntry 3 n)
        NoneInHand (engine x) ∧ x.resp = .listen ∧ x.lossSeen = false ∧ (x.entry 3).enable = true ∧
          (x.entry 3).address = some (x.framer.shift >>> 1) ∧ x.clear.isClearing = false) ∧
        (let x := sampled .address 0xEF onSeg
         NoneInHand (engine x) ∧ ∀ e, (x.entry e).enable = true → (x.entry e).address ≠ some (x.framer.shift >>> 1))) ∧
      ((∀ i ∈ [.running (aRun .address), .held aHold],
      let x := { sampled .address 0x41 onSeg with init := i }
      NoneInHand (withJob aJob (engine x)) ∧ x.resp = .listen ∧ x.lossSeen = false) ∧
      (let x := { sampled .address 0x41 onSeg with clear := .clearing (aRound 1 0 .pulseHigh), quiet := none }
       NoneInHand (engine x) ∧ x.clear.isClearing = true) ∧
      (∀ l ∈ [LineState.unknown, .free],
        let x := { sampled .address 0x41 (onSeg.setEntry 3 anEntry) with
                   mon := { line := l, stopTime := none, idleSince := none } }
        NoneInHand (engine x) ∧ (x.entry 3).address = some (x.framer.shift >>> 1)) ∧
      NoneInHand (withJob aJob (engine (losing .address 8)))) := by
  decide +kernel

theorem witness_WindowBytesMove :
    (∀ got ∈ [true, false],
      let x := sampled .data 0x55 (serving { anEntry with pointer := 63 } .selectedWrite (.windowWrite got none))
      NoneInHand (engine x) ∧ x.framer.taken = false ∧ Memory.wf (x.entry 0).window) ∧
      (let x := ackDone .data (serving anEntry .selectedRead .windowRead)
       NoneInHand (engine x) ∧ x.framer.pos = 9 ∧ x.scl = false) := by
  decide +kernel

theorem witness_MailboxBytesMove :
    (let x := sampled .data 0x55 (serving aBox .selectedWrite (.mailWrite 0x20 [] false))
     NoneInHand (engine x) ∧ x.framer.taken = false) ∧
      (List.replicate 32 (0 : Byte)).length = 32 ∧
      (let x := ackDone .data (serving { aBox with outbox := [[0x55]] } .selectedRead (.mailRead true 0 0 false))
       NoneInHand (engine x) ∧ [(0x55 : Byte)][0]? = some 0x55 ∧ [(0x55 : Byte)].length ≤ 1) := by
  decide +kernel

/-- Segment 0 in MAIL_WAIT with SCL held. -/
def waiting : Segment :=
  { ackDone .address (serving aBox (fun t => .mailWait t 20 (some 0)) (.mailRead false 0 0 false)) with
    drvScl := true, quiet := none }

theorem witness_MailWaitExpires :
    Quiescent (later 2000 (engine waiting)) ∧ Quiescent (later 1999 (engine waiting)) ∧
      waiting.resp.transaction?.isSome = true := by
  decide +kernel

/-- Segment 0 with SCL stuck low. -/
def stuckScl (i : Initiator) : Segment :=
  { onSeg with
    scl := false, init := i, mon := { line := .unknown, stopTime := none, idleSince := none }
    quiet := some { since := 0, limitMs := 35 } }

theorem witness_StuckDetectionEnds :
    (∀ i ∈ [.idle, .running (aRun .address), .held { aHold with closing := some .lapse }],
        let s := later 3500 (withJob aJob (engine (stuckScl i)))
        Quiescent s ∧ (stuckScl i).isOff = false ∧ (stuckScl i).clear = .normal ∧ (stuckScl i).quietLow = true ∧
          0 + 35 * 100 ≤ s.now) ∧
      (onSeg.quietLow = false ∧ (State.reset.seg 0).init = .off ∧ ({ onSeg with clear := .stuck none } : Segment).clear ≠ .normal ∧
      (let x := stuckScl .idle
       x.scl = false ∧ x.drvScl = false ∧ x.init ≠ .off ∧ x.clear = .normal ∧ x.quiet = some { since := 0, limitMs := 35 }) ∧
      ({ stuckScl .idle with quiet := none, resetting := true } : Segment).quiet = none) := by
  decide +kernel

theorem witness_ClearingRounds :
    (Quiescent (later 1000 (clearing (aRound 2 0 (.wait 0)) true true)) ∧
        Quiescent (later 999 (clearing (aRound 2 0 (.wait 0)) true true)) ∧
        Quiescent (later 2500 (clearing { aRound 3 9 .pulseLow with lowSince := some 0 } false true)) ∧
        Quiescent (clearing (aRound 3 9 .pulseLow) true false) ∧ Quiescent (clearing (aRound 1 0 .stopDone) true true) ∧
        Quiescent (clearing (aRound 1 0 .stopDone) true false) ∧ Quiescent roundStop ∧
        Quiescent (clearing (aRound 1 3 .stopLow) false true) ∧
        (let s := later 10 (engine { onSeg with clear := .stuck (some 0) })
         Quiescent s ∧ 0 + 10 ≤ s.now ∧ (s.seg 0).resp = .listen)) ∧
      ((let x := { serving anEntry .selectedRead .windowRead with
                clear := .stuck (some 0), mon := { line := .busy, stopTime := none, idleSince := none } }
     let s := later 10 (engine x)
     Quiescent s ∧ 0 + 10 ≤ s.now ∧ x.resp.transaction? ≠ none) ∧
      (∀ t ∈ [none, some 0],
        ({ onSeg with
            init := .backoff 0 (.winnerStop 50), mon := { line := .free, stopTime := t, idleSince := none } } :
          Segment).mon.line = .free)) := by
  decide +kernel

theorem witness_RequestParametersRoundTrip :
    linkConfigParams [8, 1, 0xF4] = .ok (8, 500) ∧ linkConfigParams [9, 1, 0xF4] = .error .badParam ∧
      segParams [4] = .error .badParam ∧ submitParams submitOne = .ok theSubmission ∧
      submitParams (submitOne ++ [0]) = .error .badRequest ∧ submitParams (submitOne.set 10 4) = .error .badRequest ∧
      submitParams (submitOne.set 2 4) = .error .badParam ∧ respSetParams [0, 3, 1] = .error .badRequest ∧
      respSetParams [0, 3, 3] = .error .badParam ∧ winWriteParams [0, 0, 63, 2, 5, 6] = .error .badParam ∧
      mailPostParams [0, 0, 0] = .error .badParam ∧
      ({ target := 0x20, kind := 0x01, arg := 1, payload := [5] } : RawEntry).bytes = [0x20, 0x01, 1, 5] :=
  ⟨rfl, rfl, rfl, rfl, rfl, rfl, rfl, rfl, rfl, rfl, rfl, rfl⟩

theorem witness_InvariantKeptByEveryStep :
    Inv (rstFalls owing) ∧ step (rstFalls owing) = .next (idle (rstFalls owing)) := ⟨rstFalls_inv _, rfl⟩

theorem witness_PoolsNeverRunOver :
    (heldRecords State.reset ≤ 24 ∧ heldBlocks State.reset ≤ 64) ∧ Inv (rstFalls owing) ∧ heldRecords (rstFalls owing) ≤ 24 :=
  ⟨by decide +kernel, rstFalls_inv _, by decide +kernel⟩

end Sys2Proof.Tests
end

section
/-! PROOFS. The invariant, at reset and along every step. -/

namespace Sys2Proof.Machine

/-! ## The invariant along every run (R1, R11, R31, R36, R92, R101, R136, R146, R172) -/

/-- The state at reset is a part powered up with its straps low. -/
theorem reset_eq_powerUp : State.reset = powerUp false ⟨false, false⟩ State.reset := by decide +kernel

/-- Settles O58: power-up answers a state that meets the invariant, and the state at reset is one. -/
theorem invariantHoldsAtReset : Obligations.InvariantHoldsAtReset :=
  show Inv State.reset from reset_eq_powerUp ▸ powerUp_inv false ⟨false, false⟩ State.reset

/-- A request row whose answer keeps the invariant keeps it. -/
theorem answers_inv {s t : State} {code : Byte} {f : Request → Deferral → State → State}
    (hf : ∀ {u}, Inv u → ∀ {r d}, Hand u d → Inv (f r d u)) (h : Inv s)
    (e : asRequest (withRequest code f) s = .next t) : Inv t :=
  asRequest_inv (fun _ hu => withRequest_inv hu code fun _ _ => hf hu) h e

/-- A command keeps the invariant: each arm is an operation that keeps it, taken as an event, as a step owed or as an
answer to the request in hand. -/
theorem exec_inv {s t : State} (c : Instr) (h : Inv s) (e : exec c s = .next t) : Inv t := by
  cases c with
  | powerOn b p => cases e; exact powerUp_inv b p s
  | rstLow => cases e; exact rstFalls_inv s
  | rstRelease p => cases e; exact rstRises_inv h p
  | rxByte b => exact asEvent_inv (fun _ hu => receive_inv hu b) h e
  | rxFramingError => exact asEvent_inv (fun _ => enterHunt_inv) h e
  | rxGapTimeout => exact asEvent_inv (fun _ => gapExpires_inv) h e
  | requestTaken => exact asEvent_inv (fun _ => takeRequest_inv) h e
  | duplicateRequest => exact asRequest_inv (fun _ => settleDuplicate_inv) h e
  | unknownRequest => exact asRequest_inv (fun _ => refuseUnknown_inv) h e
  | devInfo => exact answers_inv answerDevInfo_inv h e
  | devReset => exact answers_inv answerDevReset_inv h e
  | linkConfig => exact answers_inv answerLinkConfig_inv h e
  | segConfig => exact answers_inv answerSegConfig_inv h e
  | segStatus => exact answers_inv answerSegStatus_inv h e
  | segFlush => exact answers_inv answerSegFlush_inv h e
  | segReset => exact answers_inv answerSegReset_inv h e
  | jobSubmit => exact answers_inv answerJobSubmit_inv h e
  | jobCancel => exact answers_inv answerJobCancel_inv h e
  | jobQuery => exact answers_inv answerJobQuery_inv h e
  | respSet => exact answers_inv answerRespSet_inv h e
  | winWrite => exact answers_inv answerWinWrite_inv h e
  | winRead => exact answers_inv answerWinRead_inv h e
  | mailPost => exact answers_inv answerMailPost_inv h e
  | mailWithdraw => exact answers_inv answerMailWithdraw_inv h e
  | txFrameStart => exact asEvent_inv (fun _ => startFrame_inv) h e
  | txFrameEnd p => exact asEvent_inv (fun _ hu => endFrame_inv hu p) h e
  | resendTimerExpiry => exact asEvent_inv (fun _ => resendExpires_inv) h e
  | startSeen g m => exact asEvent_inv (fun _ hu => startSeen_inv hu g m) h e
  | stopSeen g => exact asEvent_inv (fun _ hu => stopSeen_inv hu g) h e
  | sclFallWhileFree g => exact asEvent_inv (fun _ hu => sclFallsWhileFree_inv hu g) h e
  | busIdleWindowExpiry g => exact asEvent_inv (fun _ hu => windowExpires_inv hu g) h e
  | startDecision g => exact asEvent_inv (fun _ hu => decideStart_inv hu g) h e
  | addressAck g => exact asOwed_inv (fun _ hu => addressAck_inv hu g) h e
  | writeByteAck g => exact asOwed_inv (fun _ hu => writeByteAck_inv hu g) h e
  | readByte g => exact asOwed_inv (fun _ hu => readByte_inv hu g) h e
  | lengthByte g => exact asOwed_inv (fun _ hu => lengthByte_inv hu g) h e
  | stopMade g => exact asEvent_inv (fun _ hu => makeStop_inv hu g) h e
  | arbitrationLoss g => exact asOwed_inv (fun _ hu => arbitrationLoss_inv hu g) h e
  | stretchLimitExpiry g => exact asEvent_inv (fun _ hu => stretchExpires_inv hu g) h e
  | backoffEnd g => exact asEvent_inv (fun _ hu => backoffEnds_inv hu g) h e
  | holdLimitExpiry g => exact asEvent_inv (fun _ hu => holdExpires_inv hu g) h e
  | respAddressByte g => exact asOwed_inv (fun _ hu => respAddressByte_inv (arbitrationLoss_inv hu g) g) h e
  | windowWriteByte g => exact asOwed_inv (fun _ hu => windowWriteByte_inv hu g) h e
  | windowReadByte g => exact asOwed_inv (fun _ hu => windowReadByte_inv hu g) h e
  | mailWriteByte g => exact asOwed_inv (fun _ hu => mailWriteByte_inv hu g) h e
  | mailReadByte g => exact asOwed_inv (fun _ hu => mailReadByte_inv hu g) h e
  | mailWaitExpiry g => exact asEvent_inv (fun _ hu => mailWaitExpires_inv hu g) h e
  | stuckDetection g => exact asEvent_inv (fun _ hu => stuckDetected_inv hu g) h e
  | clearWaitExpiry g => exact asEvent_inv (fun _ hu => clearWaitExpires_inv hu g) h e
  | clearingRoundEnd g => exact asEvent_inv (fun _ hu => roundEnds_inv hu g) h e
  | clearStretchExpiry g => exact asEvent_inv (fun _ hu => clearStretchExpires_inv hu g) h e
  | idleWatchExpiry g => exact asEvent_inv (fun _ hu => idleWatchExpires_inv hu g) h e
  | lineEdge g e' => exact asEvent_inv (fun _ hu => lineEdge_inv hu g e') h e
  | clearingPulse g => exact asEvent_inv (fun _ hu => clearingPulse_inv hu g) h e

/-- Settles O59: a step is the command at the front of the queue, whose arm keeps the invariant, or the idle step. -/
theorem invariantKeptByEveryStep : Obligations.InvariantKeptByEveryStep := by
  intro s t h e
  rw [step] at e
  split at e
  · exact Host.Outcome.next.inj e ▸ idle_inv h
  · exact exec_inv _ (h.withPending _) e

end Sys2Proof.Machine
end

section
/-! PROOFS. Steps on one engine, the values at reset and the decision to start. -/

namespace Sys2Proof.Machine

/-! ## Steps on one engine -/

/-- An event whose operation replaces one engine leaves that engine to look at. -/
theorem asEvent_setSeg {s : State} (h : Quiescent s) {f : State → State} {g : SegId} {x : Segment}
    (hf : f s = s.setSeg g x) : asEvent f s = .next (withEngine g x s) := by
  rw [asEvent_of_quiescent h, hf, watchLines_setSeg h.2]

/-- An event whose operation changes nothing is no step. -/
theorem asEvent_same {s : State} (h : Quiescent s) {f : State → State} (hf : f s = s) : asEvent f s = .next s := by
  rw [asEvent_of_quiescent h, hf, h.2]

/-- The slots are not looked at with the lines. -/
theorem watchLines_setJob {s : State} (h : watchLines s = s) (i : Slot) (j : Option Job) :
    watchLines (s.setJob i j) = s.setJob i j := watchLines_of_segs h rfl rfl

/-! ## An empty queue -/

theorem seg_countStep (s : State) (g : SegId) : (countStep s).seg g = countBackoff (s.now + 1) (s.seg g) := by
  simp [countStep, State.seg]

/-- Settles O2: with nothing owed an idle step is the count step alone, or none while an expiry is due. -/
theorem emptyQueueTakesOneCountStep : Obligations.EmptyQueueTakesOneCountStep := by
  intro s hp hq
  have hstep : step s = .next (if due s then s else countStep s) := by
    rw [step, hp]
    simp only [idle, hq.1, hq.2]
  refine ⟨fun hd => by simp [hstep, hd], fun hd => ⟨countStep s, by simp [hstep, hd], rfl, fun g => ?_⟩⟩
  rw [seg_countStep]
  rfl

/-! ## The values at reset -/

theorem seg_reset (g : SegId) : State.reset.seg g = Segment.atReset true true := by
  simp [State.reset, State.seg]

theorem entry_atReset (scl sda : Bool) (e : EntryId) : (Segment.atReset scl sda).entry e = Entry.atReset := by
  simp [Segment.atReset, Segment.entry]

/-- Settles O5: the pools are counted on the one state; every engine is the engine at reset, every entry the entry at
reset. -/
theorem resetValues : Obligations.ResetValues := by
  refine ⟨rfl, rfl, rfl, rfl, by decide +kernel, by decide +kernel, by decide +kernel, rfl, rfl, rfl, rfl, rfl, rfl, rfl,
    fun g => ?_⟩
  rw [seg_reset]
  refine ⟨rfl, rfl, rfl, rfl, rfl, rfl, rfl, rfl, rfl, rfl, by decide +kernel, fun e => ?_⟩
  rw [entry_atReset]
  exact ⟨rfl, fun _ _ => rfl⟩

/-! ## The decision to start -/

/-- A waiting initiator is to start exactly under the three conditions of R48. -/
theorem startDue_waiting {x : Segment} {i : Slot} (h : x.init = .waiting i) (now : Nat) :
    x.startDue? now =
      if x.mon.line = .free ∧ x.clear = .normal ∧
          (∀ t, x.mon.stopTime = some t → Config.busFreeTime x.cfg.grade ≤ (now - t) * 100)
      then some i else none := by
  have hn : x.clear.isNormal = true ↔ x.clear = .normal := by cases x.clear <;> simp [BusClear.isNormal]
  have hb : busFreeElapsed now x = true ↔
      ∀ t, x.mon.stopTime = some t → Config.busFreeTime x.cfg.grade ≤ (now - t) * 100 := by
    unfold busFreeElapsed
    cases x.mon.stopTime with
    | none => simp
    | some t => exact ⟨fun hd _ e => Option.some.inj e ▸ of_decide_eq_true hd, fun hf => decide_eq_true (hf t rfl)⟩
  simp only [Segment.startDue?, h, Bool.and_eq_true, beq_iff_eq, hn, hb, and_assoc]
  grind

/-- Settles O44. -/
theorem startIsDecided : Obligations.StartIsDecided := by
  rintro g s x i j hq rfl hi hj
  constructor
  · intro hc
    have hd : decideStart g s =
        (s.setJob i (some (j.beginAttempt s.now))).setSeg g
          { s.seg g with init := .running (freshRun i (s.seg g).cfg) } := by
      simp only [decideStart, startDue_waiting hi, if_pos hc, modJob, hj, modSeg]
      rfl
    refine (asEvent_of_quiescent hq (decideStart g)).trans ?_
    rw [hd, watchLines_setSeg (watchLines_setJob hq.2 _ _)]
    rfl
  · intro hc
    refine asEvent_same hq ?_
    have hn : ¬((s.seg g).mon.line = .free ∧ (s.seg g).clear = .normal ∧
        ∀ t, (s.seg g).mon.stopTime = some t → Config.busFreeTime (s.seg g).cfg.grade ≤ (s.now - t) * 100) := by
      rintro ⟨h1, h2, h3⟩
      rcases hc with h | h | ⟨t, ht, hlt⟩
      · exact h h1
      · exact h h2
      · exact absurd (h3 t ht) (by omega)
    simp only [decideStart, startDue_waiting hi, if_neg hn]

end Sys2Proof.Machine
end

section
/-! PROOFS. SEG_STATUS and SEG_CONFIG. -/

namespace Sys2Proof.Machine

/-! ## Requests of a segment: the parameters, and what a row adds around its answer -/

theorem segParams_length {bs : List Byte} (h : bs.length ≠ 1) : segParams bs = .error .badRequest := by
  match bs with
  | [] => rfl
  | [_] => exact absurd rfl h
  | _ :: _ :: _ => rfl

theorem segParams_range {b : Byte} (h : 4 ≤ b.toNat) : segParams [b] = .error .badParam := by
  simp [segParams, indexOf, orBadParam, Nat.not_lt.mpr h]

theorem indexOf_indexByte (i : Fin 4) : indexOf (indexByte i) = some i := by
  revert i
  decide

theorem segParams_indexByte (g : SegId) : segParams [indexByte g] = .ok g := by
  simp only [segParams, indexOf_indexByte, orBadParam]

/-- A request row runs its answer to the request in hand, then the lines are looked at. -/
theorem asRequest_inHand {s : State} {code : Byte} {r : Request} {age : Nat} (h : InHandIs s code r age)
    (f : Request → Deferral → State → State) :
    asRequest (withRequest code f) s = .next (watchLines (f r { tag := r.tag, age := age } s)) := by
  rw [asRequest, withRequest_inHand h]

/-- A request row whose answer is a reply alone. -/
theorem asRequest_replies {s : State} {code : Byte} {r : Request} {age : Nat} (h : InHandIs s code r age)
    {f : Request → Deferral → State → State} {rc : ReplyCode} {data : List Byte}
    (hf : ∀ d, f r d s = answer r d rc data s) :
    asRequest (withRequest code f) s = .next (answer r { tag := r.tag, age := age } rc data s) := by
  obtain ⟨_, _, _, hw⟩ := id h
  rw [asRequest_inHand h, hf, watchLines_answer hw]

/-- A request row whose answer is a reply and one engine replaced. -/
theorem asRequest_setSeg {s : State} {code : Byte} {r : Request} {age : Nat} (h : InHandIs s code r age)
    {f : Request → Deferral → State → State} {rc : ReplyCode} {data : List Byte} {g : SegId} {x : Segment}
    (hf : ∀ d, f r d s = answer r d rc data (s.setSeg g x)) :
    asRequest (withRequest code f) s = .next (answer r { tag := r.tag, age := age } rc data (withEngine g x s)) := by
  obtain ⟨_, _, _, hw⟩ := id h
  rw [asRequest_inHand h, hf, watchLines_answer_comm, watchLines_setSeg hw]

/-! ## SEG_STATUS -/

theorem levelsByte_eq (x : Segment) :
    levelsByte x = (if x.scl then 1 else 0) + (if x.sda then 2 else 0) := by
  unfold levelsByte flagByte
  cases x.scl <;> cases x.sda <;> decide

/-- Settles O25. -/
theorem segStatusAnswers : Obligations.SegStatusAnswers := by
  intro s r age h
  refine ⟨fun hl => ?_, fun b hp hb => ?_, ?_⟩
  · exact asRequest_replies h (f := answerSegStatus) fun d => by simp only [answerSegStatus, segParams_length hl]
  · exact asRequest_replies h (f := answerSegStatus) fun d => by simp only [answerSegStatus, hp, segParams_range hb]
  · rintro g x hp rfl
    refine asRequest_replies h (f := answerSegStatus) fun d => ?_
    simp only [answerSegStatus, hp, segParams_indexByte, statusData, configBytes, levelsByte_eq, Segment.liveCount]
    cases (s.seg g).mon.stopTime <;> rfl

/-! ## SEG_CONFIG -/

/-- A disable under way, or an enable field that agrees with the segment: no transition (R17, R145). -/
theorem applyEnable_stays {g : SegId} {enable : Bool} {s : State}
    (h : (s.seg g).disabling = true ∨ (enable = true ∧ (s.seg g).isOff = false) ∨
      (enable = false ∧ (s.seg g).isOff = true)) : applyEnable g enable s = s := by
  unfold applyEnable
  rcases h with hd | ⟨rfl, ho⟩ | ⟨rfl, ho⟩ <;> simp [*]

theorem applyEnable_enables {g : SegId} {s : State} (hd : (s.seg g).disabling = false)
    (ho : (s.seg g).isOff = true) : applyEnable g true s = s.setSeg g (enableSegment s.now (s.seg g)) := by
  simp [applyEnable, hd, ho, modSeg]

theorem applyEnable_disables {g : SegId} {s : State} (hd : (s.seg g).disabling = false)
    (ho : (s.seg g).isOff = false) : applyEnable g false s = disableSegment g s := by
  simp [applyEnable, hd, ho]

/-- Settles O23. -/
theorem segConfigApplies : Obligations.SegConfigApplies := by
  intro s r age h
  refine ⟨fun rc hp => ?_, ?_⟩
  · exact asRequest_replies h (f := answerSegConfig) fun d => by simp only [answerSegConfig, hp]
  · intro g cfg x hp hx
    have hxs : (s.setSeg g x).seg g = x := seg_setSeg s g x
    have hdis : x.disabling = (s.seg g).disabling := hx ▸ rfl
    have hoff : x.isOff = (s.seg g).isOff := hx ▸ rfl
    have hanswer : ∀ d, answerSegConfig r d s = answer r d .ok [] (applyEnable g cfg.enable (s.setSeg g x)) := by
      intro d
      simp only [answerSegConfig, hp, modSeg, hx]
    refine ⟨fun hc => ?_, fun hd he ho => ?_, fun hd he ho => ?_⟩
    · refine asRequest_setSeg h (f := answerSegConfig) fun d => ?_
      rw [hanswer, applyEnable_stays (by rwa [hxs, hdis, hoff])]
    · refine asRequest_setSeg h (f := answerSegConfig) fun d => ?_
      rw [hanswer, he, applyEnable_enables (by rw [hxs, hdis, hd]) (by rw [hxs, hoff, ho]), setSeg_setSeg, hxs]
      rfl
    · refine (asRequest_inHand h answerSegConfig).trans ?_
      rw [hanswer, he, applyEnable_disables (by rw [hxs, hdis, hd]) (by rw [hxs, hoff, ho])]

end Sys2Proof.Machine
end

section
/-! PROOFS. A segment reset: the operations it is made of. -/

namespace Sys2Proof.Machine

/-! ## A segment reset -/

/-- A clearing round begins: it fails at once on a low SCL, goes to its stop on a high SDA, makes a pulse otherwise
(R93, R95). -/
theorem startRound_eq (now n : Nat) (x : Segment) :
    startRound now n x =
      { x with
        quiet := none
        drvScl := if x.scl then x.drvScl else false
        drvSda := if x.scl then x.drvSda else false
        clear :=
          if x.scl then
            .clearing
              { round := n, pulses := 0, stage := if x.sda then .stopHigh else .pulseHigh, grade := x.cfg.grade,
                stretchMs := x.cfg.stretchMs, lowSince := none, stopAt := none }
          else if n < 3 then
            .clearing
              { round := n, pulses := 0, stage := .wait now, grade := x.cfg.grade, stretchMs := x.cfg.stretchMs,
                lowSince := none, stopAt := none }
          else .stuck none } := by
  unfold startRound failRound releaseLines Segment.highSince
  by_cases h : x.scl = true
  · simp [h]
  · by_cases hn : n < 3 <;> simp [h, hn, Config.clearingRounds]

/-- What a segment reset does at the lines and at the bus-clear unit (R14, R98, R141, R144). -/
theorem resetLines_eq (now : Nat) (x z : Segment)
    (hz : z =
      { x with
        resetting := x.init.ownsBus, quiet := none
        mon := { line := .unknown, stopTime := none,
                 idleSince := if x.scl = true ∧ x.sda = true then some now else none } }) :
    resetLines now x = match x.clear with | .stuck _ => startRound now 1 z | _ => z := by
  subst hz
  unfold resetLines resetClear
  cases hc : x.clear <;> simp [resetMonitor, Segment.highSince, startRound_eq]

theorem flushQueue_setSeg (g : SegId) (x : Segment) (s : State) :
    flushQueue g (s.setSeg g x) = (finishAll .flushed x.queue s).setSeg g { x with queue := [] } := by
  simp [flushQueue, modSeg, finishAll_setSeg]

theorem flushStart_setSeg_other {g : SegId} {x : Segment} {s : State}
    (h : ∀ r, x.init = .running r → r.sub = .start → r.drove = true) :
    flushStart g (s.setSeg g x) = s.setSeg g x := by
  unfold flushStart
  rw [seg_setSeg]
  split
  · rename_i r hr
    by_cases hs : r.sub = .start
    · simp [h r hr hs]
    · simp [hs]
  · rfl

theorem flushStart_setSeg_undriven {g : SegId} {x : Segment} {s : State} {r : Run} (h : x.init = .running r)
    (hs : r.sub = .start) (hd : r.drove = false) :
    flushStart g (s.setSeg g x) = (finishJob r.slot .flushed true s).setSeg g { x with init := .idle } := by
  simp [flushStart, h, hs, hd, flushCurrent, modSeg, finishJob_setSeg]

/-- A segment reset whose initiator leaves the engine `x` on the jobs of `w`, not in START with nothing driven: the
queued jobs finish, then the lines are reset. -/
theorem segmentReset_flushes {g : SegId} {s u v w : State} {x y z : Segment} (hu : u = endTransaction g true s)
    (hr : resetInitiator g u = w.setSeg g x)
    (hx : ∀ r, x.init = .running r → r.sub = .start → r.drove = true)
    (hv : v = finishAll .flushed x.queue w)
    (hz : z =
      { x with
        queue := [], resetting := x.init.ownsBus, quiet := none
        mon := { line := .unknown, stopTime := none,
                 idleSince := if x.scl = true ∧ x.sda = true then some s.now else none } })
    (hy : y = match x.clear with | .stuck _ => startRound s.now 1 z | _ => z) :
    segmentReset g s = v.setSeg g y := by
  have hlines : y = resetLines s.now { x with queue := [] } := hy.trans (resetLines_eq s.now { x with queue := [] } z hz).symm
  unfold segmentReset
  dsimp only
  rw [← hu, hr, flushQueue_setSeg, flushStart_setSeg_other (x := { x with queue := [] }) hx, modSeg, seg_setSeg, setSeg_setSeg,
    hv, hlines]

/-- A segment reset that finds a START with nothing driven: its job finishes behind the queued ones (R141, R142). -/
theorem segmentReset_undriven {g : SegId} {s u v : State} {y z : Segment} {r : Run} (hu : u = endTransaction g true s)
    (hi : (u.seg g).init = .running r) (hs : r.sub = .start) (hd : r.drove = false)
    (hv : v = finishJob r.slot .flushed true (finishAll .flushed (u.seg g).queue u))
    (hz : z =
      { u.seg g with
        queue := [], init := .idle, resetting := false, quiet := none
        mon := { line := .unknown, stopTime := none,
                 idleSince := if (u.seg g).scl = true ∧ (u.seg g).sda = true then some s.now else none } })
    (hy : y = match (u.seg g).clear with | .stuck _ => startRound s.now 1 z | _ => z) :
    segmentReset g s = v.setSeg g y := by
  have hr : resetInitiator g u = u.setSeg g (u.seg g) := by
    simp [resetInitiator, hi, hs, hd]
  have hlines : y = resetLines s.now { u.seg g with queue := [], init := .idle } :=
    hy.trans (resetLines_eq s.now { u.seg g with queue := [], init := .idle } z hz).symm
  unfold segmentReset
  dsimp only
  rw [← hu, hr, flushQueue_setSeg, flushStart_setSeg_undriven (x := { u.seg g with queue := [] }) hi hs hd, modSeg, seg_setSeg,
    setSeg_setSeg, hv, hlines]

theorem resetCount_eq (x : Segment) :
    x.resetCount =
      x.queue.length +
        (match x.init with
         | .waiting _ | .backoff _ _ => 1
         | .running k =>
           if k.closing then 0
           else
             (match k.sub with
              | .stop (.ends _) => 0
              | _ => 1)
         | _ => 0) := by
  unfold Segment.resetCount Initiator.resetFlushes
  rcases x.init with _ | _ | _ | ⟨slot, sub, _, closing, _, _, _⟩ | _ | _ <;> try rfl
  cases closing with
  | true => rfl
  | false => cases sub with
    | stop why => cases why <;> rfl
    | _ => rfl

theorem ownsBus_eq (x : Segment) :
    x.init.ownsBus =
      (match x.init with
       | .running k => decide (k.sub ≠ .start) || k.drove
       | .held _ => true
       | _ => false) := by
  unfold Initiator.ownsBus
  rcases x.init with _ | _ | _ | k | _ | _ <;> try rfl
  by_cases h : k.sub = .start <;> simp [h]

end Sys2Proof.Machine
end

section
/-! PROOFS. SEG_RESET. -/

namespace Sys2Proof.Machine

/-! The initiator at a segment reset, one equation for each way it takes one (R142). `x` is the engine as the end of
the transaction left it. -/

theorem resetInitiator_keeps {g : SegId} {s : State} (h : (s.seg g).init = .off ∨ (s.seg g).init = .idle) :
    resetInitiator g s = s.setSeg g (s.seg g) := by
  rcases h with h | h <;> simp [resetInitiator, h]

theorem resetInitiator_flushes {g : SegId} {s : State} {i : Slot}
    (h : (s.seg g).init = .waiting i ∨ ∃ b, (s.seg g).init = .backoff i b) :
    resetInitiator g s = (finishJob i .flushed false s).setSeg g { s.seg g with init := .idle } := by
  rcases h with h | ⟨b, h⟩ <;> simp [resetInitiator, h, flushCurrent, modSeg, finishJob_setSeg]

theorem resetInitiator_closes {g : SegId} {s : State} {k : Hold} (h : (s.seg g).init = .held k)
    (hc : k.closing = none) :
    resetInitiator g s =
      s.setSeg g
        { letClockGo true (s.seg g) with init := .held { k with closing := some .order, lowSince := some s.now } } := by
  simp [resetInitiator, h, hc, closeHold, modSeg]

theorem resetInitiator_closing {g : SegId} {s : State} {k : Hold} (h : (s.seg g).init = .held k)
    (hc : k.closing ≠ none) : resetInitiator g s = s.setSeg g (s.seg g) := by
  obtain ⟨why, hw⟩ := Option.ne_none_iff_exists'.mp hc
  simp [resetInitiator, h, hw]

theorem resetInitiator_marks {g : SegId} {s : State} {r : Run} {o : JobOutcome} (h : (s.seg g).init = .running r)
    (hs : r.sub = .stop (.ends o)) :
    resetInitiator g s = (modJob r.slot (fun j => { j with resetTaken := true }) s).setSeg g (s.seg g) := by
  simp [resetInitiator, h, hs, modJob, ← setJob_setSeg]

/-- The run a segment reset leaves of one that goes on on the lines: the stop before a retry is made for FLUSHED, any
other run is to make its stop. -/
def Run.flushing (r : Run) : Run :=
  match r.sub with
  | .stop .retry => { r with sub := .stop (.ends .flushed) }
  | _ => { r with closing := true }

theorem ownsBus_flushing (r : Run) : Initiator.ownsBus (.running r.flushing) = Initiator.ownsBus (.running r) := by
  unfold Run.flushing
  split
  · rename_i hs
    simp only [Initiator.ownsBus, hs]
    rfl
  · rfl

theorem flushing_start {r : Run} (h : r.flushing.sub = .start) : r.flushing = { r with closing := true } ∧ r.sub = .start := by
  unfold Run.flushing at *
  split at h
  · simp at h
  · exact ⟨rfl, h⟩

theorem resetInitiator_stops {g : SegId} {s : State} {r : Run} (h : (s.seg g).init = .running r)
    (hs : ∀ o, r.sub ≠ .stop (.ends o)) (hd : r.sub = .start → r.drove = true) :
    resetInitiator g s = s.setSeg g { s.seg g with init := .running r.flushing } := by
  unfold resetInitiator Run.flushing
  rw [h]
  cases hr : r.sub with
  | stop why => cases why with
    | ends o => exact absurd hr (hs o)
    | retry => simp [hr, modSeg]
  | start => simp [hr, hd hr, modSeg]
  | _ => simp [hr, modSeg]

/-- Settles O27: the transaction ends first, which leaves the queue, the initiator and the unit to the reset; then the
initiator's state says which job finishes when. -/
theorem segResetAnswers : Obligations.SegResetAnswers := by
  constructor
  · intro s r age h
    refine ⟨fun hl => ?_, fun b hp hb => ?_⟩
    · exact asRequest_replies h (f := answerSegReset) fun d => by simp only [answerSegReset, segParams_length hl]
    · exact asRequest_replies h (f := answerSegReset) fun d => by simp only [answerSegReset, hp, segParams_range hb]
  · intro g s x y z u v count owned hx hu hcount howned hv hz hy
    replace hcount : count = x.resetCount := hcount.trans (resetCount_eq x).symm
    replace howned : owned = x.init.ownsBus := howned.trans (ownsBus_eq x).symm
    have hkeep : ResponderOnly x (u.seg g) := hx ▸ hu ▸ endTransaction_only g g true s
    obtain ⟨hcfg, hscl, hsda, -, -, hqueue, hinit, hclear, -, -, -⟩ := hkeep
    have hreset : segmentReset g s = v.setSeg g y := by
      rw [← hqueue] at hv
      rw [← hclear] at hy
      rw [← hscl, ← hsda, howned] at hz
      have hnow : u.now = s.now := hu ▸ endTransaction_now g true s
      have hstops : ∀ k, (u.seg g).init = .running k → (∀ o, k.sub ≠ .stop (.ends o)) →
          (k.sub = .start → k.drove = true) → v = finishAll .flushed (u.seg g).queue u →
          z =
            { u.seg g with
              queue := [], resetting := Initiator.ownsBus (.running k), quiet := none
              mon := { line := .unknown, stopTime := none,
                       idleSince := if (u.seg g).scl = true ∧ (u.seg g).sda = true then some s.now else none }
              init := .running k.flushing } → segmentReset g s = v.setSeg g y := by
        intro k hk hn hd hv hz
        refine segmentReset_flushes hu (resetInitiator_stops hk hn hd) ?_ hv (by rw [hz, ownsBus_flushing]) hy
        rintro _ ⟨rfl⟩ hs
        rw [(flushing_start hs).1]
        exact hd (flushing_start hs).2
      cases hi : x.init with
      | off =>
        simp only [hi] at hv hz hinit
        exact segmentReset_flushes hu (resetInitiator_keeps (.inl hinit)) (by simp [hinit]) hv (by rw [hz, hinit]) hy
      | idle =>
        simp only [hi] at hv hz hinit
        exact segmentReset_flushes hu (resetInitiator_keeps (.inr hinit)) (by simp [hinit]) hv (by rw [hz, hinit]) hy
      | waiting i =>
        simp only [hi] at hv hz hinit
        exact segmentReset_flushes hu (resetInitiator_flushes (.inl hinit)) (by simp) hv hz hy
      | backoff i b =>
        simp only [hi] at hv hz hinit
        exact segmentReset_flushes hu (resetInitiator_flushes (.inr ⟨b, hinit⟩)) (by simp) hv hz hy
      | held k =>
        simp only [hi] at hv hz hinit
        by_cases hc : k.closing = none
        · simp only [if_pos hc] at hz
          exact segmentReset_flushes hu (resetInitiator_closes hinit hc) (by simp) hv (by rw [hz, hnow]; rfl) hy
        · simp only [if_neg hc] at hz
          exact segmentReset_flushes hu (resetInitiator_closing hinit hc) (by simp [hinit]) hv (by rw [hz, hinit]) hy
      | running k =>
        simp only [hi] at hv hz hinit
        cases hs : k.sub with
        | start =>
          cases hd : k.drove with
          | false =>
            simp only [hs, hd] at hv hz
            exact segmentReset_undriven hu hinit hs hd hv (hz.trans (by simp [Initiator.ownsBus, hs, hd])) hy
          | true =>
            simp only [hs, hd, if_true] at hv hz
            exact hstops k hinit (by simp [hs]) (fun _ => hd) hv (by rw [hz, Run.flushing, hs, hd])
        | stop why =>
          simp only [hs] at hv hz
          cases why with
          | ends o => exact segmentReset_flushes hu (resetInitiator_marks hinit hs) (by simp [hinit, hs]) hv (by rw [hz, hinit]) hy
          | retry => exact hstops k hinit (by simp [hs]) (by simp [hs]) hv (by rw [hz, Run.flushing, hs])
        | _ =>
          simp only [hs] at hv hz
          exact hstops k hinit (by simp [hs]) (by simp [hs]) hv (by rw [hz, Run.flushing, hs])
    obtain ⟨hyq, hyc, hyr, hyp, hym, hyi⟩ : y.queue = z.queue ∧ y.cfg = z.cfg ∧ y.resetting = z.resetting ∧
        y.resp = z.resp ∧ y.mon = z.mon ∧ y.init = z.init := by
      rw [hy]
      split
      · simp [startRound_eq]
      · simp
    have hzp : x.resp ≠ .off → z.resp = .listen := fun hn => by
      rw [hz, hu]
      exact (resp_endTransaction g true s).trans (if_neg (hx ▸ hn))
    have hzc : z.clear = x.clear := by rw [hz]; exact hclear
    refine ⟨hreset, by rw [hyq, hz], by rw [hyc, hz, ← hcfg], by rw [hyr, hz], fun hn => by rw [hyp, hzp hn], by rw [hym, hz],
      by rw [hym, hz], ?_, fun hc => ?_, fun c hc => ?_, fun w hc => ?_, ?_⟩
    · intro ho
      rw [ho] at howned
      rw [hyi, hz]
      cases hi : x.init with
      | running k =>
        simp only [hi, Initiator.ownsBus] at howned ⊢
        simp at howned
        simp [howned, Segment.isOff, hi]
      | held k => simp [hi, Initiator.ownsBus] at howned
      | _ => simp [Segment.isOff, hi]
    · rw [hy, hc]; simp [hzc, hc]
    · rw [hy, hc]; simp [hzc, hc]
    · rw [hy, hc, startRound_eq]
      by_cases hl : z.scl = true <;> simp [hl]
    · intro r age h hp
      refine ⟨fun hoff => asRequest_replies h (f := answerSegReset) fun d => ?_, fun he hd => ?_⟩
      · have : x.refuses = true := by rcases hoff with ho | ho <;> simp [Segment.refuses, ho]
        simp [answerSegReset, hp, segParams_indexByte, ← hx, this]
      · refine (asRequest_inHand h answerSegReset).trans ?_
        have : x.refuses = false := by simp [Segment.refuses, he, hd]
        simp [answerSegReset, hp, segParams_indexByte, this, hreset, resetData, ← hx, hcount, howned]

end Sys2Proof.Machine
end

section
/-! PROOFS. A disable. -/

namespace Sys2Proof.Machine

/-! ## A disable -/

/-- With the responder in LISTEN or OFF the end of a transaction changes nothing. -/
theorem endTransaction_same {g : SegId} {s : State} (h : (s.seg g).resp = .listen ∨ (s.seg g).resp = .off) (b : Bool) :
    endTransaction g b s = s := by
  unfold endTransaction
  rcases h with h | h <;> simp [h, Responder.transaction?]

/-- A segment reset leaves the responder in LISTEN, or OFF as before. -/
theorem segmentReset_resp (g : SegId) (s : State) :
    ((segmentReset g s).seg g).resp = .listen ∨ ((segmentReset g s).seg g).resp = .off := by
  have hlines : ∀ x, (resetLines s.now x).resp = x.resp := fun x => by
    rw [resetLines_eq s.now x _ rfl]
    split <;> simp [startRound_eq]
  have : ((segmentReset g s).seg g).resp = ((endTransaction g true s).seg g).resp := by
    simp [segmentReset, hlines, flushStart_resp, flushQueue_seg, resetInitiator_resp]
  rw [this, resp_endTransaction]
  split <;> simp

/-- A segment reset leaves an enabled segment enabled. -/
theorem segmentReset_on (g : SegId) (s : State) (h : (s.seg g).isOff = false) :
    ((segmentReset g s).seg g).isOff = false := by
  have hlines : ∀ x, (resetLines s.now x).init = x.init := fun x => by
    rw [resetLines_eq s.now x _ rfl]
    split <;> simp [startRound_eq]
  rw [isOff_eq_false] at *
  simp only [segmentReset, seg_modSeg, hlines]
  exact flushStart_on g _ (flushQueue_on g _ (resetInitiator_on g _ (by rwa [init_endTransaction])))

/-- What a segment reset leaves at its engine (R141). -/
theorem segmentReset_leaves (g : SegId) (s : State) :
    ((segmentReset g s).seg g).queue = [] ∧ ((segmentReset g s).seg g).cfg = (s.seg g).cfg ∧
      ((segmentReset g s).seg g).resetting = (s.seg g).init.ownsBus := by
  obtain ⟨he, hq, hc, hr, -⟩ := segResetAnswers.2 g s _ _ _ _ _ _ _ rfl rfl rfl rfl rfl rfl rfl
  rw [he, seg_setSeg]
  exact ⟨hq, hc, hr.trans (ownsBus_eq _).symm⟩

/-- The engine at the end of a disable whose enable field stayed off (R21, R98, R145). -/
theorem turnOff_disabled (now : Nat) {x : Segment} (h : x.cfg.enable = false) :
    turnOff now x =
      { x.freed with
        init := .off, resp := .off, mon := { line := .unknown, stopTime := none, idleSince := none }
        framer := Framer.atReset, clear := .normal, quiet := none, resetting := false, disabling := false } := by
  unfold turnOff
  exact if_neg (by simp [releaseLines, h])

/-- Settles O24: the segment reset has ended at once exactly where the initiator did not own the bus, and its end is that
of the disable. -/
theorem disableTurnsOff : Obligations.DisableTurnsOff := by
  intro g s u hon hen hu
  obtain ⟨hq, hc, hr⟩ := segmentReset_leaves g (s.setSeg g { s.seg g with disabling := true })
  have hd := segmentReset_disabling g (s.setSeg g { s.seg g with disabling := true })
  have ho := segmentReset_on g (s.setSeg g { s.seg g with disabling := true }) (by rw [seg_setSeg]; exact hon)
  have hp := segmentReset_resp g (s.setSeg g { s.seg g with disabling := true })
  rw [← hu] at hq hc hr hd ho hp
  simp only [seg_setSeg] at hc hr hd
  have hdis : disableSegment g s = if (u.seg g).resetting then u else goOff g u := by rw [hu]; rfl
  constructor
  · intro hb
    have hoff : disableSegment g s = u.setSeg g
        { (u.seg g).freed with
          init := .off, resp := .off, mon := { line := .unknown, stopTime := none, idleSince := none }
          framer := Framer.atReset, clear := .normal, quiet := none, resetting := false, disabling := false } := by
      rw [hdis, hr, hb, goOff, endTransaction_same hp, modSeg, turnOff_disabled _ (hc ▸ hen)]
      rfl
    refine ⟨hoff, ?_⟩
    rw [hoff, seg_setSeg]
    exact ⟨rfl, rfl, rfl, rfl, rfl, rfl, rfl, hq, hc, rfl, rfl⟩
  · intro hb
    have hu' : disableSegment g s = u := by rw [hdis, hr, hb]; rfl
    rw [hu']
    exact ⟨rfl, ho, hd, hr.trans hb, by simp [Segment.refuses, hd], hq⟩

end Sys2Proof.Machine
end

section
/-! PROOFS. Bytes at the responder. -/

namespace Sys2Proof.Machine

/-! ## Bytes at the responder -/

/-- A step owed whose operation replaces one engine leaves that engine to look at. -/
theorem asOwed_setSeg {s : State} (h : NoneInHand s) {f : State → State} {g : SegId} {x : Segment}
    (hf : f s = s.setSeg g x) : asOwed f s = .next (withEngine g x s) := by
  rw [asOwed_of_none h, hf, watchLines_setSeg h.2]

/-- A change of an entry and then of its engine is one change of the engine. -/
theorem modSeg_modEntry (g : SegId) (f : Segment → Segment) (e : EntryId) (k : Entry → Entry) (s : State) :
    modSeg g f (modEntry g e k s) = s.setSeg g (f ((s.seg g).setEntry e (k ((s.seg g).entry e)))) := by
  simp [modEntry, modSeg]

theorem receives_eq {x : Segment} {t : Transaction} (hr : x.resp = .selectedWrite t) (hk : x.framer.kind = .data)
    (hp : x.framer.pos = 8) (hs : x.scl = true) (hf : x.framer.taken = false) : x.receives? = some t := by
  simp [Segment.receives?, Segment.byteEnded, hr, hk, hp, hs, hf]

theorem loads_eq {x : Segment} {t : Transaction} (hr : x.resp = .selectedRead t) (hp : x.framer.pos = 9)
    (hs : x.scl = false) (hf : x.framer.taken = false) (hn : t.nacked = false) (hl : t.preloaded = false) :
    x.loads? = some t := by
  simp [Segment.loads?, Segment.ackEnded, hr, hp, hs, hf, hn, hl]

/-- The first bit of a byte stands in its highest place (R2). -/
theorem bitLow_one (b : Byte) : bitLow b 1 = !b.getLsbD 7 := rfl

/-! ### Windows -/

/-- The window after a byte at the pointer: stored below the protect boundary, discarded at it and above (R110). -/
theorem windowStore_window (b : Byte) {n : Entry} (h : Memory.wf n.window) :
    Memory.wf (windowStore b n).window ∧
      (∀ a, a ≠ n.pointer.val → Memory.read a (windowStore b n).window = Memory.read a n.window) ∧
      Memory.read n.pointer.val (windowStore b n).window =
        if n.pointer.val < n.protectFrom then b else Memory.read n.pointer.val n.window := by
  unfold windowStore
  dsimp only
  split
  · refine ⟨write_wf n.pointer.isLt h, fun a ha => ?_, ?_⟩
    · rw [read_write h.1, if_neg ha]
    · rw [read_write h.1, if_pos rfl]
  · exact ⟨h, fun _ _ => rfl, rfl⟩

/-- A byte is recorded as a change exactly where it changed the window (R111). -/
theorem storeChanges_iff (b : Byte) {n : Entry} (h : Memory.wf n.window) :
    storeChanges b n = true ↔
      Memory.read n.pointer.val (windowStore b n).window ≠ Memory.read n.pointer.val n.window := by
  obtain ⟨-, -, hread⟩ := windowStore_window b h
  rw [hread]
  unfold storeChanges
  by_cases hp : n.pointer.val < n.protectFrom
  · simp only [hp, decide_true, Bool.true_and, bne_iff_ne, if_true]
    exact ne_comm
  · simp [hp]

/-- Settles O52. -/
theorem windowBytesMove : Obligations.WindowBytesMove := by
  rintro g s x t n hnone hx rfl hfresh
  refine ⟨fun got c hr hk hp hs ha => ⟨?_, ?_⟩, fun hr hp hs hn hl ha b hb => ?_⟩
  · rintro rfl
    refine asOwed_setSeg hnone (f := windowWriteByte g) ?_
    have hrec := receives_eq hr hk hp hs hfresh
    subst hx
    simp only [windowWriteByte, hrec, ha, modSeg_modEntry]
    rfl
  · rintro rfl hwf
    have hrec := receives_eq hr hk hp hs hfresh
    obtain ⟨hw, hother, hread⟩ := windowStore_window x.framer.shift hwf
    refine ⟨(windowStore x.framer.shift (x.entry t.entry)).window,
      trackChange (x.entry t.entry).pointer (storeChanges x.framer.shift (x.entry t.entry)) c,
      asOwed_setSeg hnone (f := windowWriteByte g) ?_, hw, hother, hread, ?_⟩
    · subst hx
      simp only [windowWriteByte, hrec, ha, modSeg_modEntry]
      rfl
    · have hch := storeChanges_iff x.framer.shift hwf
      cases c with
      | none => simp only [trackChange, hch]
      | some c => simp only [trackChange, hch, saturate, Config.windowBytes]
  · refine asOwed_setSeg hnone (f := windowReadByte g) ?_
    have hload := loads_eq hr hp hs hfresh hn hl
    subst hx hb
    have heq : windowReadByte g s =
        modSeg g (loadSender t (Memory.read ((s.seg g).entry t.entry).pointer.val ((s.seg g).entry t.entry).window))
          (modEntry g t.entry (fun n => { n with pointer := n.pointer + 1 }) s) := by
      simp only [windowReadByte, hload, ha]
    rw [heq, modSeg_modEntry]
    rfl

/-! ### Mailboxes -/

/-- Settles O53. -/
theorem mailboxBytesMove : Obligations.MailboxBytesMove := by
  rintro g s x t hnone rfl hfresh
  refine ⟨fun a bytes overlong hr hk hp hs ha => ⟨fun hlen => ?_, fun hlen => ?_⟩,
    fun bound k pad expired hr hp hs hn hl ha => ⟨fun m rest b hb hm hbyte => ?_, fun hnone' => ?_⟩⟩
  · refine asOwed_setSeg hnone (f := mailWriteByte g) ?_
    have hlen' : bytes.length < Config.mailBytes := hlen
    simp only [mailWriteByte, receives_eq hr hk hp hs hfresh, ha, if_pos hlen', modSeg]
    rfl
  · refine asOwed_setSeg hnone (f := mailWriteByte g) ?_
    have hlen' : ¬bytes.length < Config.mailBytes := Nat.not_lt.mpr hlen
    simp only [mailWriteByte, receives_eq hr hk hp hs hfresh, ha, if_neg hlen', modSeg]
    rfl
  · refine asOwed_setSeg hnone (f := mailReadByte g) ?_
    have hbound : boundByte ((s.seg g).entry t.entry) k = some b := by simp [boundByte, hm, hbyte]
    simp only [mailReadByte, loads_eq hr hp hs hfresh hn hl, ha, hb, if_true, hbound, modSeg]
    rfl
  · refine asOwed_setSeg hnone (f := mailReadByte g) ?_
    have hbound : (if bound = true then boundByte ((s.seg g).entry t.entry) k else none) = none := by
      split
      · rename_i hb
        unfold boundByte
        split
        · rename_i m rest hm
          exact List.getElem?_eq_none (hnone' hb m rest hm)
        · rfl
      · rfl
    simp only [mailReadByte, loads_eq hr hp hs hfresh hn hl, ha, hbound, modSeg]
    rfl

end Sys2Proof.Machine
end

section
/-! PROOFS. The queue, and the end of a disable. -/

namespace Sys2Proof.Machine

/-! ## The queue, and the end of a disable -/

theorem isContinuation_iff (j : Job) : j.isContinuation = true ↔ ∃ c, j.chain = some c ∧ c.role ≠ .opening := by
  unfold Job.isContinuation Role.continues
  cases j.chain with
  | none => simp
  | some c => cases hr : c.role <;> simp [hr]

theorem enterIdle_nil {g : SegId} {s : State} (h : (s.seg g).queue = []) :
    enterIdle g s = s.setSeg g { s.seg g with init := .idle } := by
  rw [enterIdle, h, examineQueue, modSeg, ← h]

theorem enterIdle_cons {g : SegId} {s : State} {i : Slot} {rest : List Slot} {j : Job} (hq : (s.seg g).queue = i :: rest)
    (hj : s.job? i = some j) :
    enterIdle g s =
      if j.isContinuation then enterIdle g (finishJob i .chainBroken false (s.setSeg g { s.seg g with queue := rest }))
      else
        (s.setJob i (some { j with status := .current })).setSeg g { s.seg g with queue := rest, init := .waiting i } := by
  rw [enterIdle, hq, examineQueue, hj]
  dsimp only
  split
  · simp only [enterIdle, finishJob_seg, seg_setSeg, modSeg]
  · rfl

theorem toIdle_enabled {g : SegId} {s : State} (h : (s.seg g).disabling = false) : toIdle g s = enterIdle g s := by
  simp [toIdle, h]

theorem toIdle_disabling {g : SegId} {s : State} (h : (s.seg g).disabling = true) :
    toIdle g s = s.setSeg g { s.seg g with init := .idle } := by
  simp [toIdle, h, modSeg]

theorem endDisable_enabled {g : SegId} {s : State} (h : (s.seg g).disabling = false) : endDisable g s = s := by
  simp [endDisable, h]

theorem endDisable_disabling {g : SegId} {s : State} (h : (s.seg g).disabling = true) :
    endDisable g s = (endTransaction g true s).setSeg g (turnOff s.now ((endTransaction g true s).seg g)) := by
  simp [endDisable, h, goOff, modSeg]

/-- The engine at the end of a disable whose enable field has been set again: enabled as R20 gives (R145). -/
theorem turnOff_enabled (now : Nat) {x : Segment} (h : x.cfg.enable = true) :
    turnOff now x =
      { x.freed with
        init := .idle, resp := .listen
        mon := { line := .unknown, stopTime := none, idleSince := if x.scl = true ∧ x.sda = true then some now else none }
        framer := Framer.atReset, clear := .normal, quiet := none, resetting := false, disabling := false } := by
  unfold turnOff
  refine (if_pos (by simp [releaseLines, h])).trans ?_
  simp [enableSegment, resetMonitor, Segment.highSince, releaseLines, Segment.freed]

/-- Settles O14. -/
theorem initiatorExaminesQueue : Obligations.InitiatorExaminesQueue := by
  intro g s
  refine ⟨enterIdle_nil, fun i rest j hq hj => ⟨fun hc => ?_, fun hc => ?_⟩, fun hd => ?_, fun hd he => ?_, rfl,
    fun hd => ⟨toIdle_enabled hd, endDisable_enabled hd⟩, fun hd => ⟨toIdle_disabling hd, ?_⟩⟩
  · rw [enterIdle_cons hq hj, if_pos ((isContinuation_iff j).mpr hc)]
  · refine (enterIdle_cons hq hj).trans (if_neg fun h => ?_)
    obtain ⟨c, hch, hr⟩ := (isContinuation_iff j).mp h
    exact hr (hc c hch)
  · have hd' : ((modSeg g leaveLines s).seg g).disabling = false := by rw [seg_modSeg]; exact hd
    rw [leave, toIdle_enabled hd', endDisable_enabled]
    · rfl
    · rw [enterIdle, examineQueue_disabling, hd']
  · have hd' : ((modSeg g leaveLines s).seg g).disabling = true := by rw [seg_modSeg]; exact hd
    rw [leave, toIdle_disabling hd', endDisable_disabling (by rw [seg_setSeg]; exact hd'), seg_setSeg, turnOff_disabled]
    · rfl
    · rw [(endTransaction_only g g true _).cfg]
      simpa [leaveLines, releaseLines] using he
  · rintro u x rfl rfl
    refine ⟨fun he => ?_, fun he => ?_⟩
    · rw [endDisable_disabling hd, turnOff_disabled s.now (x := (endTransaction g true s).seg g) he]
    · rw [endDisable_disabling hd, turnOff_enabled s.now (x := (endTransaction g true s).seg g) he]
      rfl

end Sys2Proof.Machine
end

section
/-! PROOFS. The end of a transaction. -/

namespace Sys2Proof.Machine

/-! ## The end of a transaction -/

theorem endTransaction_some {g : SegId} {s : State} {t : Transaction} (h : (s.seg g).resp.transaction? = some t)
    (b : Bool) :
    endTransaction g b s =
      applyDeferred g t.entry
        (endAccess g { t with access := t.kept } b
          (cutByte g t (s.setSeg g { (s.seg g).freed with resp := .listen }))) := by
  rw [endTransaction]
  simp only [h]
  rfl

/-- How a transaction stands to its end (R4, log 27): `a` is what it has done without a byte whose ninth pulse has not
ended, and `u` is the state `v` with what that byte stored taken back. -/
def Cut (g : SegId) (t : Transaction) (a : Access) (v u : State) : Prop :=
  a = t.kept ∧ u = cutByte g t v

theorem cut_none {g : SegId} {t : Transaction} (h : t.undo = none) (v : State) : Cut g t t.access v v := by
  refine ⟨?_, by simp [cutByte, h]⟩
  unfold Transaction.kept
  cases t.access <;> simp [h]

theorem cut_window {g : SegId} {t : Transaction} {got got' : Bool} {c c' : Option ChangeRecord} {i : Fin 64} {b : Byte}
    (h : t.undo = some (.window got c i b)) (ha : t.access = .windowWrite got' c') (s : State) (z : Segment) :
    Cut g t (.windowWrite got c) (s.setSeg g z)
      (s.setSeg g
        (z.setEntry t.entry
          { z.entry t.entry with pointer := i, window := Memory.write i.val b (z.entry t.entry).window })) := by
  constructor
  · simp [Transaction.kept, h, ha]
  · simp [cutByte, h, modEntry, modSeg]

theorem cut_mail {g : SegId} {t : Transaction} {bytes bytes' : List Byte} {overlong overlong' : Bool} {address : Byte}
    (h : t.undo = some (.mail bytes overlong)) (ha : t.access = .mailWrite address bytes' overlong') (v : State) :
    Cut g t (.mailWrite address bytes overlong) v v := by
  constructor
  · simp [Transaction.kept, h, ha]
  · simp [cutByte, h]

theorem endTransaction_cut {g : SegId} {s u : State} {t : Transaction} {a : Access}
    (h : (s.seg g).resp.transaction? = some t) (hc : Cut g t a (s.setSeg g { (s.seg g).freed with resp := .listen }) u)
    (b : Bool) : endTransaction g b s = applyDeferred g t.entry (endAccess g { t with access := a } b u) := by
  obtain ⟨rfl, rfl⟩ := hc
  exact endTransaction_some h b

theorem applyDeferred_none {g : SegId} {e : EntryId} {v : State} (h : ((v.seg g).entry e).deferred = none) :
    applyDeferred g e v = v := by
  simp [applyDeferred, h]

theorem applyDeferred_some {g : SegId} {e : EntryId} {v : State} {w : DeferredWrite}
    (h : ((v.seg g).entry e).deferred = some w) :
    applyDeferred g e v =
      makeReply w.request codeWinWrite .ok [0x01] false
        (v.setSeg g
          ((v.seg g).setEntry e
            { (v.seg g).entry e with
              window := Memory.writeRun w.offset w.bytes ((v.seg g).entry e).window, deferred := none })) := by
  simp only [applyDeferred, h]
  rfl

/-- With no transaction in flight, IGNORE goes to LISTEN and nothing else happens. -/
theorem endTransaction_idle {g : SegId} {s : State} (h : (s.seg g).resp.transaction? = none) (b : Bool) :
    endTransaction g b s =
      if (s.seg g).resp = .ignore then s.setSeg g { s.seg g with resp := .listen } else s := by
  rw [endTransaction]
  simp only [h]
  cases hr : (s.seg g).resp <;> simp [modSeg]

/-- Settles O17. -/
theorem transactionEnds : Obligations.TransactionEnds := by
  refine ⟨?_, fun g s b h => ⟨fun hi => ?_, fun hi => ?_⟩, fun m hm => ⟨fun i b => ⟨?_, fun k => ?_⟩, fun offset bytes hl => ?_⟩⟩
  · rintro g s u t n a z ht rfl hu rfl
    have hcut : Cut g t a (s.setSeg g { (s.seg g).freed with resp := .listen }) u := by
      rcases hu with ⟨h, rfl, rfl⟩ | ⟨got, c, i, held, got', c', h, ha, rfl, rfl⟩ |
        ⟨bytes, overlong, address, bytes', overlong', h, ha, rfl, rfl⟩
      · exact cut_none h _
      · exact cut_window h ha s _
      · exact cut_mail h ha _
    have hend := endTransaction_cut ht hcut
    refine ⟨?_, ?_, ?_, ?_, ?_, ?_, ?_, fun v => ⟨applyDeferred_none, fun w => applyDeferred_some⟩⟩
    · rintro rfl b
      exact hend b
    · rintro p rfl b
      exact hend b
    · rintro p c rfl b
      exact hend b
    · rintro address bytes overlong rfl
      exact ⟨hend false, hend true⟩
    · rintro taken pad expired rfl b
      exact hend b
    · rintro pad expired rfl b
      exact hend b
    · rintro taken pad expired m rest rfl hm b
      rw [hend]
      simp [endAccess, hm, modEntry, modSeg]
  · rw [endTransaction_idle h, if_pos hi]
  · rw [endTransaction_idle h, if_neg hi]
  · exact write_wf i.isLt hm
  · exact read_write hm.1
  · refine ⟨writeRun_wf hl hm, fun k hk => ?_, fun k hk => ?_⟩
    · rw [read_writeRun hm.1]
      simp [hk]
    · rw [read_writeRun hm.1]
      rcases hk with hk | hk
      · exact if_neg (by omega)
      · rw [List.getElem?_eq_none (by omega), Option.getD_none, ite_self]

end Sys2Proof.Machine
end

section
/-! PROOFS. The quiet-low interval and a stuck detection. -/

namespace Sys2Proof.Machine

/-! ## The quiet-low interval and a stuck detection -/

theorem isNormal_iff {c : BusClear} : c.isNormal = true ↔ c = .normal := by cases c <;> simp [BusClear.isNormal]

theorem measures_iff {x : Segment} : x.measures = true ↔ x.init ≠ .off ∧ x.clear = .normal := by
  rw [Segment.measures, Bool.and_eq_true, Bool.not_eq_true', isOff_eq_false, isNormal_iff]

theorem quietLow_iff {x : Segment} :
    x.quietLow = true ↔ (x.scl = false ∧ x.drvScl = false) ∨ (x.sda = false ∧ x.drvSda = false) := by
  simp [Segment.quietLow]

theorem watchSegment_none {now : Nat} {x : Segment} (h : (x.measures && x.quietLow) = false) :
    (watchSegment now x).quiet = none := by
  simp [watchSegment, h]

theorem watchSegment_some {now : Nat} {x : Segment} (h : (x.measures && x.quietLow) = true) :
    (watchSegment now x).quiet =
      match x.quiet with
      | some q => some q
      | none => if x.resetting then none else some { since := now, limitMs := x.cfg.stuckMs } := by
  unfold watchSegment
  exact if_pos h

/-- What the look at the lines makes of an interval (R86, R87, log 15). -/
theorem watchSegment_quiet (now : Nat) (x : Segment) :
    (x.init = .off ∨ x.clear ≠ .normal ∨ ((x.scl = true ∨ x.drvScl = true) ∧ (x.sda = true ∨ x.drvSda = true)) →
        (watchSegment now x).quiet = none) ∧
      (x.init ≠ .off → x.clear = .normal →
        ((x.scl = false ∧ x.drvScl = false) ∨ (x.sda = false ∧ x.drvSda = false)) →
        (∀ q, x.quiet = some q → (watchSegment now x).quiet = some q) ∧
          (x.quiet = none → x.resetting = false →
            (watchSegment now x).quiet = some { since := now, limitMs := x.cfg.stuckMs }) ∧
          (x.quiet = none → x.resetting = true → (watchSegment now x).quiet = none)) := by
  constructor
  · intro h
    refine watchSegment_none (Bool.eq_false_iff.mpr fun hc => ?_)
    obtain ⟨hm, hl⟩ := Bool.and_eq_true_iff.mp hc
    obtain ⟨hi, hn⟩ := measures_iff.mp hm
    have hlow := quietLow_iff.mp hl
    rcases h with h | h | ⟨h1, h2⟩
    · exact hi h
    · exact h hn
    · rcases hlow with ⟨a, b⟩ | ⟨a, b⟩ <;> simp [a, b] at h1 h2
  · intro hi hn hlow
    have hq := watchSegment_some (now := now) (Bool.and_eq_true_iff.mpr ⟨measures_iff.mpr ⟨hi, hn⟩, quietLow_iff.mpr hlow⟩)
    exact ⟨fun q h => by rw [hq, h], fun h hr => by simp [hq, h, hr], fun h hr => by simp [hq, h, hr]⟩

theorem stuckDetected_due {g : SegId} {s : State} {q : Quiet} (hi : (s.seg g).init ≠ .off)
    (hn : (s.seg g).clear = .normal) (hl : (s.seg g).quietLow = true) (hq : (s.seg g).quiet = some q)
    (ht : q.since + q.limitMs * 100 ≤ s.now) :
    stuckDetected g s =
      endDisable g
        (modSeg g (enterClearing s.now)
          (claimEvent g (stuckEvent (s.seg g)) (endTransaction g false (stuckInitiator g s)))) := by
  have hdue : (s.seg g).stuckDue s.now = true := by
    simp only [Segment.stuckDue, hq, measures_iff.mpr ⟨hi, hn⟩, hl, reached, Bool.true_and]
    exact decide_eq_true ht
  rw [stuckDetected]
  exact if_pos hdue

theorem stuckInitiator_running {g : SegId} {s : State} {r : Run} (h : (s.seg g).init = .running r) :
    stuckInitiator g s = toIdle g (finishJob r.slot r.stuckOutcome true (modSeg g leaveLines s)) := by
  simp [stuckInitiator, h]

theorem stuckInitiator_held {g : SegId} {s : State} {k : Hold} (h : (s.seg g).init = .held k) :
    stuckInitiator g s =
      toIdle g
        (if k.closing = some .lapse then claimEvent g (.holdLapsed k.chain) (modSeg g leaveLines s)
        else modSeg g leaveLines s) := by
  simp only [stuckInitiator, h]
  rcases k.closing with _ | w
  · rfl
  · cases w <;> rfl

theorem stuckInitiator_other {g : SegId} {s : State} (h : ∀ r, (s.seg g).init ≠ .running r)
    (h' : ∀ k, (s.seg g).init ≠ .held k) : stuckInitiator g s = s := by
  unfold stuckInitiator
  split
  · exact absurd ‹_› (h _)
  · exact absurd ‹_› (h' _)
  · rfl

/-- Settles O55. -/
theorem stuckDetectionEnds : Obligations.StuckDetectionEnds := by
  constructor
  · refine fun s => ⟨⟨(watchLines s).segs, rfl⟩, ?_⟩
    rintro g x y rfl rfl
    rw [seg_watchLines]
    exact ⟨rfl, watchSegment_quiet s.now (s.seg g)⟩
  · rintro g s u x q hs rfl hon hn hl hq ht rfl
    refine ⟨stuckInitiator g s, ?_, fun r hr => ?_, fun k hk => stuckInitiator_held hk, stuckInitiator_other,
      fun y => ⟨fun hy => ?_, fun hy => ?_⟩⟩
    · refine (asEvent_of_quiescent hs (stuckDetected g)).trans ?_
      rw [stuckDetected_due (isOff_eq_false.mp hon) hn hl hq ht]
      rfl
    · rw [stuckInitiator_running hr]
      unfold Run.stuckOutcome
      cases r.sub with
      | stop why => cases why <;> rfl
      | _ => rfl
    · simp [enterClearing, hy, Segment.highSince]
    · simp [enterClearing, hy]

end Sys2Proof.Machine
end

section
/-! PROOFS. A loss at a condition, and a stop. -/

namespace Sys2Proof.Machine

/-! ## A loss at a condition -/

theorem loseByCondition_same {g : SegId} {s : State} (h : (s.seg g).init.losesByCondition = false) :
    loseByCondition g s = s := by
  simp [loseByCondition, h]

theorem loseByCondition_loses {g : SegId} {s : State} {r : Run} (h : (s.seg g).init = .running r)
    (hs : r.sub = .address ∨ r.sub = .write ∨ r.sub = .read ∨ r.sub = .restart) :
    loseByCondition g s = loseBus g s := by
  rcases hs with hs | hs | hs | hs <;> simp [loseByCondition, h, Initiator.losesByCondition, hs]

theorem losesByCondition_notRunning {i : Initiator} (h : ∀ r, i ≠ .running r) : i.losesByCondition = false := by
  cases i with
  | running r => exact absurd rfl (h r)
  | _ => rfl

theorem losesByCondition_stays {r : Run} (h : r.sub = .start ∨ ∃ why, r.sub = .stop why) :
    (Initiator.running r).losesByCondition = false := by
  rcases h with h | ⟨why, h⟩ <;> simp [Initiator.losesByCondition, h]

/-- The loss of the bus at a condition: `u` is where the condition has been seen and a transaction ended, and `rest` is the
part of the backoff that the condition leaves to wait for (R76, R77, R80, R81). -/
theorem losesAtCondition {c : Instr} {g : SegId} {r : Run} {j : Job} {rest : Nat → Backoff} {s u : State}
    (he : exec c s = .next (watchLines (loseBus g u))) (hi : (u.seg g).init = .running r)
    (hj : u.job? r.slot = some j)
    (hb : ∀ len, freeBackoff u.now { (u.seg g).freed with init := .backoff r.slot (.winnerStop len) } =
      { (u.seg g).freed with init := .backoff r.slot (rest len) }) :
    LosesAtCondition c g r j rest s u := by
  intro k hk
  obtain rfl : k = j.countLoss := hk
  have hlose : loseBus g u =
      if r.closing then leave g (finishJob r.slot .flushed true (u.setSeg g (u.seg g).freed))
      else if (if j.isContinuation then 0 else j.arbLimit) < j.countLoss.arbCount then
        leave g (finishJob r.slot .arbLost true ((u.setSeg g (u.seg g).freed).setJob r.slot (some j.countLoss)))
      else if j.cancelPending then
        leave g (finishJob r.slot .cancelled true ((u.setSeg g (u.seg g).freed).setJob r.slot (some j.countLoss)))
      else backOff g r.slot j.countLoss.arbCount ((u.setSeg g (u.seg g).freed).setJob r.slot (some j.countLoss)) := by
    have hfreed : (modSeg g releaseLines u).job? r.slot = some j := hj
    simp only [loseBus, hi, hfreed]
    rfl
  rw [he, hlose]
  refine ⟨fun hc => by rw [if_pos hc], fun hc => ⟨fun hlim => ?_, fun hlim => ⟨fun hp => ?_, fun hp => ?_⟩⟩⟩
  · rw [if_neg (by simp [hc]), if_pos hlim]
  · rw [if_neg (by simp [hc]), if_neg (Nat.not_lt.mpr hlim), if_pos hp]
  · rw [if_neg (by simp [hc]), if_neg (Nat.not_lt.mpr hlim), if_neg (by simp [hp]), backOff, modSeg, setJob_setSeg,
      seg_setSeg, setSeg_setSeg]
    exact congrArg (fun y => Host.Outcome.next (watchLines ((u.setJob r.slot _).setSeg g y))) (hb _)

/-! ## A stop -/

/-- What a stop does at the lines of an enabled segment where the part does not drive SDA, or a round makes it. -/
theorem stopAt_released (now : Nat) {x : Segment} (h : x.scl = true)
    (hd : x.drvSda = false ∨ ∃ c, x.clear = .clearing c ∧ c.stage = .stopLow) :
    stopAt now x =
      { x with
        sda := true, drvSda := false
        mon := { line := .free, stopTime := some now, idleSince := none }
        framer := { kind := .none, pos := 0, shift := 0, ackHigh := true, taken := false }
        init :=
          (match x.init with
           | .backoff i (.winnerStop len) => .backoff i (.busFree now len)
           | k => k)
        clear :=
          (match x.clear with
           | .stuck _ => .stuck (some now)
           | .clearing c =>
             .clearing (if c.stage = .stopLow then { c with stage := .stopDone, stopAt := some now } else c)
           | .normal => .normal)
        quiet := none } := by
  have hsda : (!x.makesRoundStop && x.drvSda) = false := by
    rcases hd with hd | ⟨c, hc, hs⟩
    · simp [hd]
    · simp [Segment.makesRoundStop, hc, hs]
  have hat := stopAt_eq now x h
  rw [hsda] at hat
  exact hat

theorem stopSeen_on {g : SegId} {s : State} (hon : (s.seg g).isOff = false) (hscl : (s.seg g).scl = true)
    (hsda : (s.seg g).sda = false)
    (hd : (s.seg g).drvSda = false ∨ ∃ c, (s.seg g).clear = .clearing c ∧ c.stage = .stopLow) :
    stopSeen g s = loseByCondition g (endTransaction g false (modSeg g (stopAt s.now) s)) := by
  have hmade : (!(s.seg g).drvSda || (s.seg g).makesRoundStop) = true := by
    rcases hd with hd | ⟨c, hc, hs⟩
    · simp [hd]
    · simp [Segment.makesRoundStop, hc, hs]
  simp [stopSeen, hscl, hsda, hmade, hon]

/-- Settles O41: the stop is seen at the lines, a transaction ends, and a job that did not make it loses the bus. -/
theorem stopSeenFreesBus : Obligations.StopSeenFreesBus := by
  constructor
  · rintro g s x hq rfl hoff hscl hsda hdrv
    exact asEvent_setSeg hq (f := stopSeen g) (by simp [stopSeen, hoff, hscl, hsda, hdrv, modSeg, setLevel])
  · intro g s u x y hq hx hon hscl hsda hdrv hy hu
    have hseen : stopSeen g s = loseByCondition g u := by
      have hat : stopAt s.now (s.seg g) = y := by rw [hy, ← hx]; exact stopAt_released s.now hscl hdrv
      rw [stopSeen_on (hx ▸ hon) (hx ▸ hscl) (hx ▸ hsda) (hx ▸ hdrv), modSeg, hat, hu]
    have hexec : exec (.stopSeen g) s = .next (watchLines (loseByCondition g u)) := by
      rw [← hseen]
      exact asEvent_of_quiescent hq (stopSeen g)
    have hinit : (u.seg g).init = y.init := by rw [hu, init_endTransaction, seg_setSeg]
    have hrun : ∀ r, y.init = .running r ↔ x.init = .running r := by
      intro r
      rw [hy]
      rcases x.init with _ | _ | _ | _ | ⟨i, b⟩ | _ <;> try rfl
      cases b <;> simp
    refine ⟨fun hresp hnr => ?_, fun hstay => ?_, fun r j hr hs hj => ?_⟩
    · have hend : u = s.setSeg g { y with resp := .listen } :=
        hu.trans (endTransaction_none (x := y) (by rw [hy]; exact hresp) false s)
      rw [hexec, loseByCondition_same, hend, watchLines_setSeg hq.2]
      rw [hinit]
      exact losesByCondition_notRunning fun r h => hnr r ((hrun r).mp h)
    · rw [hexec, loseByCondition_same]
      rw [hinit]
      cases hi : y.init with
      | running r => exact losesByCondition_stays (hstay r ((hrun r).mp hi))
      | _ => rfl
    · have hi : (u.seg g).init = .running r := hinit.trans ((hrun r).mpr hr)
      have hmon : (u.seg g).mon = { line := .free, stopTime := some s.now, idleSince := none } := by
        rw [hu, (endTransaction_only g g false _).mon, seg_setSeg, hy]
      refine losesAtCondition (hexec.trans (by rw [loseByCondition_loses hi hs])) hi ?_ fun len => ?_
      · rw [hu, endTransaction_job?]
        exact hj
      · simp [freeBackoff, Segment.freed, hmon]

end Sys2Proof.Machine
end

section
/-! PROOFS. A start. -/

namespace Sys2Proof.Machine

/-! ## A start -/

theorem collide_same {g : SegId} {s : State} (h : (s.seg g).collided? = none) : collide g s = s := by
  simp [collide, h]

/-- Only a START not yet driven collides (R72). -/
theorem collided_none {x : Segment} (h : ∀ r, x.init = .running r → r.sub = .start → r.drove = true) :
    x.collided? = none := by
  unfold Segment.collided?
  split
  · rename_i r hr
    by_cases hs : r.sub = .start
    · simp [h r hr hs]
    · simp [hs]
  · rfl

theorem collided_some {x : Segment} {r : Run} (hi : x.init = .running r) (hs : r.sub = .start) (hd : r.drove = false)
    (hl : x.mon.line ≠ .free) : x.collided? = some r := by
  simp [Segment.collided?, hi, hs, hd, hl]

/-- A start not yet driven is given up: its job is deferred, or ends CANCELLED if a cancel is pending (R72, R138). -/
theorem collide_collided {g : SegId} {s : State} {r : Run} {j : Job} (h : (s.seg g).collided? = some r)
    (hj : s.job? r.slot = some j) :
    collide g s =
      if j.cancelPending then
        enterIdle g (finishJob r.slot .cancelled true (s.setJob r.slot (some j.countDeferral)))
      else (s.setJob r.slot (some j.countDeferral)).setSeg g { s.seg g with init := .waiting r.slot } := by
  have hk : modJob r.slot Job.countDeferral s = s.setJob r.slot (some j.countDeferral) := by simp [modJob, hj]
  simp only [collide, h, hk, job?_setJob]
  rfl

/-- A collided initiator, WAITING or after its queue, loses nothing more at the condition. -/
theorem loseByCondition_collided {g : SegId} {s : State} {r : Run} {j : Job} (h : (s.seg g).collided? = some r)
    (hj : s.job? r.slot = some j) : loseByCondition g (collide g s) = collide g s := by
  refine loseByCondition_same (losesByCondition_notRunning fun k hk => ?_)
  rw [collide_collided h hj] at hk
  split at hk
  · rcases examineQueue_init g _ (finishJob r.slot .cancelled true (s.setJob r.slot (some j.countDeferral))) with hq | ⟨i, hq⟩ <;>
      rw [enterIdle, hq] at hk <;> cases hk
  · rw [seg_setSeg] at hk
    cases hk

theorem startSeen_outside {g : SegId} {s : State} (hon : (s.seg g).isOff = false) (hscl : (s.seg g).scl = true)
    (hsda : (s.seg g).sda = true) : startSeen g .outside s = startFromOutside g s := by
  simp [startSeen, hscl, hsda, hon]

theorem startSeen_part {g : SegId} {s : State} {r : Run} (hscl : (s.seg g).scl = true) (hsda : (s.seg g).sda = true)
    (hi : (s.seg g).init = .running r) (hs : r.sub = .start ∨ r.sub = .restart) (hd : r.drove = false)
    (hc : r.closing = false) : startSeen g .part s = startFromPart g s := by
  have hon : (s.seg g).isOff = false := isOff_eq_false.mpr (by simp [hi])
  have hmakes : (s.seg g).makesStart = true := by
    rcases hs with hs | hs <;> simp [Segment.makesStart, hi, hs, hd, hc]
  simp [startSeen, hscl, hsda, hon, hmakes]

/-- The part's own start at its engine: the drive of SDA is the start (R3, R7, R8, R13). -/
theorem startAt_driveStart (now : Nat) {x : Segment} {r : Run} (hscl : x.scl = true) (hi : x.init = .running r) :
    startAt now (driveStart x) =
      { x with
        sda := false, drvSda := true, init := .running { r with drove := true }
        mon := { x.mon with line := .busy, idleSince := none }
        framer := { kind := .address, pos := 0, shift := 0, ackHigh := true, taken := false }
        clear := (match x.clear with | .stuck _ => .stuck none | c => c)
        quiet := none } := by
  have hdrive : driveStart x = { x with drvSda := true, init := .running { r with drove := true } } := by
    simp [driveStart, hi]
  have hat := startAt_eq now { x with drvSda := true, init := .running { r with drove := true } } hscl rfl
  simp only [Bool.true_eq_false, and_false, if_false] at hat
  rw [hdrive]
  exact hat

/-- Settles O40: the start is seen at the lines, a transaction ends, a start not yet driven collides and a running job loses
the bus; the part's own start ends a transaction before it drives. -/
theorem startSeenTakesBus : Obligations.StartSeenTakesBus := by
  constructor
  · rintro g s x hq rfl hoff hscl hsda
    refine ⟨asEvent_setSeg hq (f := startSeen g .outside) ?_, asEvent_same hq (f := startSeen g .part) ?_⟩
    · simp [startSeen, hoff, hscl, hsda, modSeg, setLevel]
    · simp [startSeen, hoff, hscl, hsda]
  · intro g s u x y hq hx hon hscl hsda hy hu
    have hu' : u = endTransaction g false (modSeg g (startAt s.now) s) := by
      rw [hu, modSeg, ← hx, hy]
      exact congrArg (fun z => endTransaction g false (s.setSeg g z)) (startAt_eq s.now x hscl hon).symm
    have hexec : exec (.startSeen g .outside) s = .next (watchLines (loseByCondition g (collide g u))) := by
      refine (asEvent_of_quiescent hq (startSeen g .outside)).trans ?_
      rw [startSeen_outside (hx ▸ hon) (hx ▸ hscl) (hx ▸ hsda), startFromOutside, hu']
    have hinit : (u.seg g).init = x.init := by rw [hu, init_endTransaction, seg_setSeg, hy]
    have hmon : (u.seg g).mon.line = .busy := by rw [hu, (endTransaction_only g g false _).mon, seg_setSeg, hy]
    have hjob : ∀ i, u.job? i = s.job? i := fun i => by rw [hu, endTransaction_job?]; rfl
    refine ⟨fun hresp hnr => ?_, fun hstay => ?_, fun r j k hr hs hd hj hk => ?_, fun r j hr hs hj => ?_,
      fun r hr hs hd hc => ⟨fun hresp => ?_, fun w hw ht => ?_⟩⟩
    · have hnr' : ∀ r, (u.seg g).init ≠ .running r := hinit ▸ hnr
      rw [hexec, collide_same (collided_none fun r hr => absurd hr (hnr' r)),
        loseByCondition_same (losesByCondition_notRunning hnr'), hu,
        endTransaction_none (by rw [hy]; exact hresp), watchLines_setSeg hq.2]
    · have hcol : (u.seg g).collided? = none := collided_none fun r hr hs => by
        rcases hstay r (hinit ▸ hr) with ⟨-, hd⟩ | ⟨why, hw⟩
        · exact hd
        · rw [hw] at hs
          cases hs
      rw [hexec, collide_same hcol, loseByCondition_same]
      cases hi : (u.seg g).init with
      | running r => exact losesByCondition_stays ((hstay r (hinit ▸ hi)).imp And.left id)
      | _ => rfl
    · obtain rfl : k = j.countDeferral := hk
      have hcol := collided_some (hinit.trans hr) hs hd (by rw [hmon]; simp)
      have hj' : u.job? r.slot = some j := (hjob _).trans hj
      rw [hexec, loseByCondition_collided hcol hj', collide_collided hcol hj']
      exact ⟨fun hc => by simp only [hc]; rfl, fun hc => by simp only [hc]; rfl⟩
    · have hi := hinit.trans hr
      have hcol : (u.seg g).collided? = none := collided_none fun r' hr' hs' => by
        obtain rfl : r = r' := by simpa [hi] using hr'
        simp [hs'] at hs
      refine losesAtCondition (hexec.trans (by rw [collide_same hcol, loseByCondition_loses hi hs])) hi
        ((hjob _).trans hj) fun len => ?_
      simp [freeBackoff, Segment.freed, hmon]
    · have hend : endTransaction g false s = s.setSeg g { s.seg g with resp := .listen } := by
        simpa using endTransaction_none (g := g) (x := s.seg g) (hx ▸ hresp) false s
      refine asEvent_setSeg hq (f := startSeen g .part) ?_
      rw [startSeen_part (hx ▸ hscl) (hx ▸ hsda) (hx ▸ hr) hs hd hc, startFromPart, hend, modSeg, seg_setSeg, setSeg_setSeg,
        startAt_driveStart (x := { s.seg g with resp := .listen }) s.now (hx ▸ hscl) (r := r) (hx ▸ hr), hy, ← hx] <;> rfl
    · have hkeep : ResponderOnly x (w.seg g) := hw ▸ hx ▸ endTransaction_only g g false s
      refine (asEvent_of_quiescent hq (startSeen g .part)).trans ?_
      rw [startSeen_part (hx ▸ hscl) (hx ▸ hsda) (hx ▸ hr) hs hd hc, startFromPart, modSeg, ← hw,
        startAt_driveStart s.now (hkeep.scl.trans hscl) (hkeep.init.trans hr), hkeep.mon, hkeep.clear] <;> rfl

end Sys2Proof.Machine
end

section
/-! PROOFS. What each unit takes from an edge. -/

namespace Sys2Proof.Machine

/-! ## What each unit takes from an edge -/

theorem monitorEdge_frame (now : Nat) (x : Segment) : monitorEdge now x = { x with mon := (monitorEdge now x).mon } := by
  unfold monitorEdge
  split
  · rfl
  · split <;> rfl
  · rfl

theorem restartWatch_frame (now : Nat) (x : Segment) :
    restartWatch now x = { x with clear := (restartWatch now x).clear } := by
  unfold restartWatch
  split <;> rfl

theorem initiatorFalls_frame (now : Nat) (j : Option Job) (x : Segment) :
    initiatorFalls now j x =
      { x with drvSda := (initiatorFalls now j x).drvSda, init := (initiatorFalls now j x).init } := by
  unfold initiatorFalls runFalls
  (repeat' split) <;> rfl

theorem responderFalls_frame (now : Nat) (x : Segment) :
    responderFalls now x =
      { x with
        drvScl := (responderFalls now x).drvScl, drvSda := (responderFalls now x).drvSda
        resp := (responderFalls now x).resp, framer := (responderFalls now x).framer } := by
  unfold responderFalls writerFalls readerFalls waiterFalls
  (repeat' split) <;> rfl

theorem pulseEnds_frame (now : Nat) (x : Segment) :
    pulseEnds now x =
      { x with
        drvScl := (pulseEnds now x).drvScl, drvSda := (pulseEnds now x).drvSda, clear := (pulseEnds now x).clear } := by
  unfold pulseEnds failRound
  dsimp only
  (repeat' split) <;> rfl

theorem stageFalls_frame (now : Nat) (x : Segment) :
    stageFalls now x =
      { x with
        drvScl := (stageFalls now x).drvScl, drvSda := (stageFalls now x).drvSda, clear := (stageFalls now x).clear } := by
  unfold stageFalls
  (repeat' split) <;> rfl

theorem clearFalls_frame (now : Nat) (x : Segment) :
    clearFalls now x =
      { x with
        drvScl := (clearFalls now x).drvScl, drvSda := (clearFalls now x).drvSda, clear := (clearFalls now x).clear } := by
  have h := stageFalls_frame now (pulseEnds now x)
  rw [pulseEnds_frame now x] at h
  unfold clearFalls
  rw [pulseEnds_frame now x]
  exact h

/-! ### The values a fall of SCL leaves, said once

Each of these is tied to the model's operation by the lemma about it below. -/

/-- The initiator after a fall of SCL (R2, R7, R8, R142; logs 1, 17, 29). -/
def Initiator.fallen (now : Nat) : Initiator → Initiator
  | .running r =>
    if r.closing then .running { r with sub := .stop (.ends .flushed), closing := false, lowSince := some now }
    else if r.drove ∧ (r.sub = .start ∨ r.sub = .restart) then
      .running { r with sub := .address, drove := false, lowSince := some now }
    else .running { r with lowSince := some now }
  | .held h => .held { h with lowSince := if h.closing = none then h.lowSince else some now }
  | k => k

/-- The level a running initiator gives SDA after a fall of SCL (R2, R50, R51, R53, R142). -/
def Segment.initiatorBit (r : Run) (j : Job) (x : Segment) : Bool :=
  if r.closing then true
  else
    match r.sub with
    | .start | .restart => if r.drove then !j.addressByte.getLsbD 7 else x.drvSda
    | .address => decide (x.framer.pos < 8) && !j.addressByte.getLsbD (7 - x.framer.pos)
    | .write => decide (x.framer.pos < 8) && !j.payloadByte.getLsbD (7 - x.framer.pos)
    | .read => decide (x.framer.pos = 8) && j.acksRead x.framer.shift
    | .stop _ => x.drvSda

/-- The responder after a fall of SCL (R4, R112, R125, R127; log 27). -/
def Responder.fallen (now : Nat) (f : Framer) : Responder → Responder
  | .selectedWrite t => .selectedWrite (if f.pos = 9 then { t with undo := none } else t)
  | .selectedRead t =>
    if f.pos ≠ 9 then .selectedRead t
    else if t.preloaded then .selectedRead { t with preloaded := false }
    else if f.kind = .data ∧ f.ackHigh = true then
      .selectedRead { t with nacked := true, sender := 0xFF }
    else .selectedRead t
  | .mailWait t l w => .mailWait t l (if f.pos = 9 then some now else w)
  | k => k

/-- The level the responder gives SDA after a fall of SCL: in a transaction its own, else none (R106, R110, R112, R127,
R128). -/
def Segment.responderBit (x : Segment) : Bool :=
  match x.resp with
  | .selectedWrite t => decide (x.framer.pos = 8) && (decide (x.framer.kind = .address) || t.ackLow)
  | .selectedRead t =>
    if x.framer.pos = 9 then t.preloaded && !t.sender.getLsbD 7
    else if x.framer.kind = .address then decide (x.framer.pos = 8)
    else decide (x.framer.pos < 8) && !t.sender.getLsbD (7 - x.framer.pos)
  | .mailWait _ _ _ => decide (x.framer.pos = 8)
  | _ => x.drvSda

/-- What a fall of SCL leaves of the part's drive of SCL: in MAIL_WAIT the fall after position 9 holds it (R127). -/
def Segment.responderClock (x : Segment) : Bool :=
  match x.resp with
  | .mailWait _ _ _ => decide (x.framer.pos = 9) || x.drvScl
  | _ => x.drvScl

/-- The place in the byte after a fall of SCL: a byte loaded before the fall that would load it takes the bit place (R128,
log 14). -/
def Segment.responderFramer (x : Segment) : Framer :=
  match x.resp with
  | .selectedRead t => if x.framer.pos = 9 ∧ t.preloaded = true then { x.framer with taken := true } else x.framer
  | _ => x.framer

/-! ### The initiator -/

theorem initiatorFalls_init (now : Nat) {j : Option Job} {x : Segment} (hj : ∀ r, x.init = .running r → j ≠ none) :
    (initiatorFalls now j x).init = x.init.fallen now := by
  unfold initiatorFalls
  cases hi : x.init with
  | running r =>
    obtain ⟨b, rfl⟩ := Option.ne_none_iff_exists'.mp (hj r hi)
    simp only [runFalls, Initiator.fallen]
    by_cases hc : r.closing = true
    · simp only [hc, if_true]
      rfl
    · rw [Bool.not_eq_true] at hc
      simp only [hc, if_false, Bool.false_eq_true]
      cases hs : r.sub with
      | start => cases hd : r.drove <;> simp [sendBit]
      | restart => cases hd : r.drove <;> simp [sendBit]
      | address => by_cases hp : x.framer.pos < 8 <;> simp [hp, sendBit, releaseBit, hc, hs]
      | write => by_cases hp : x.framer.pos < 8 <;> simp [hp, sendBit, releaseBit, hc, hs]
      | read => by_cases hp : x.framer.pos = 8 <;> simp [hp, releaseBit, hc, hs]
      | stop why => simp
  | held h =>
    cases hc : h.closing with
    | none => simp [Initiator.fallen, hc, hi]; rw [← hc]
    | some w => simp [Initiator.fallen, hc]
  | _ => simp [Initiator.fallen, hi]

/-- A RUNNING initiator whose slot holds no job takes nothing from a fall. -/
theorem initiatorFalls_orphan (now : Nat) {x : Segment} {r : Run} (h : x.init = .running r) :
    initiatorFalls now none x = x := by
  simp [initiatorFalls, h]

theorem bitLow_succ (b : Byte) (p : Nat) : bitLow b (p + 1) = !b.getLsbD (7 - p) := by
  unfold bitLow
  congr 2
  omega

theorem initiatorFalls_bit (now : Nat) {j : Job} {x : Segment} {r : Run} (hi : x.init = .running r) :
    (initiatorFalls now (some j) x).drvSda = x.initiatorBit r j := by
  simp only [initiatorFalls, hi, runFalls, Segment.initiatorBit]
  by_cases hc : r.closing = true
  · simp only [hc, if_true]
    rfl
  · simp only [hc, if_false, Bool.false_eq_true]
    cases hs : r.sub with
    | start => cases hd : r.drove <;> simp [sendBit, bitLow_one]
    | restart => cases hd : r.drove <;> simp [sendBit, bitLow_one]
    | address => by_cases hp : x.framer.pos < 8 <;> simp [hp, sendBit, releaseBit, bitLow_succ, Job.sends]
    | write => by_cases hp : x.framer.pos < 8 <;> simp [hp, sendBit, releaseBit, bitLow_succ, Job.sends]
    | read => by_cases hp : x.framer.pos = 8 <;> simp [hp, releaseBit]
    | stop why => simp

/-- An initiator that is not RUNNING leaves SDA at a fall of SCL. -/
theorem initiatorFalls_notRunning (now : Nat) (j : Option Job) {x : Segment} (h : ∀ r, x.init ≠ .running r) :
    (initiatorFalls now j x).drvSda = x.drvSda := by
  unfold initiatorFalls
  split
  · exact absurd ‹_› (h _)
  · split <;> rfl
  · rfl

/-- An initiator that does not own the bus and is not to stop leaves SDA at a fall of SCL. -/
theorem initiatorFalls_undriven (now : Nat) (j : Option Job) {x : Segment} (h : x.init.ownsBus = false)
    (hc : ∀ r, x.init = .running r → r.closing = false) : (initiatorFalls now j x).drvSda = x.drvSda := by
  cases hi : x.init with
  | running r =>
    have hs : r.sub = .start ∧ r.drove = false := by simpa [hi, Initiator.ownsBus] using h
    cases j with
    | none => rw [initiatorFalls_orphan now hi]
    | some b => simp [initiatorFalls_bit now hi, Segment.initiatorBit, hc r hi, hs.1, hs.2]
  | _ => exact initiatorFalls_notRunning now j (by simp [hi])

/-! ### The responder -/

theorem responderFalls_resp (now : Nat) (x : Segment) :
    (responderFalls now x).resp = x.resp.fallen now x.framer := by
  unfold responderFalls
  cases hr : x.resp with
  | selectedWrite t => rfl
  | selectedRead t =>
    simp only [readerFalls, Responder.fallen, Transaction.stopSending]
    by_cases hp : x.framer.pos = 9
    · by_cases hl : t.preloaded = true
      · simp [hp, hl]
      · by_cases hk : x.framer.kind = .data ∧ x.framer.ackHigh = true
        · simp [hp, hl, hk]
        · simp [hp, hl, hk, hr]
    · by_cases hk : x.framer.kind = .address <;> simp [hp, hk, hr]
  | mailWait t l w => by_cases hp : x.framer.pos = 9 <;> simp [waiterFalls, Responder.fallen, hp, hr]
  | _ => simp [Responder.fallen, hr]

theorem responderFalls_bit (now : Nat) (x : Segment) :
    (responderFalls now x).drvSda = x.responderBit := by
  unfold responderFalls Segment.responderBit
  cases hr : x.resp with
  | selectedWrite t => rfl
  | selectedRead t =>
    simp only [readerFalls]
    by_cases hp : x.framer.pos = 9
    · by_cases hl : t.preloaded = true
      · simp [hp, hl, bitLow_one]
      · by_cases hk : x.framer.kind = .data ∧ x.framer.ackHigh = true <;> simp [hp, hl, hk]
    · by_cases hk : x.framer.kind = .address <;> simp [hp, hk, bitLow_succ]
  | mailWait t l w => by_cases hp : x.framer.pos = 9 <;> simp [waiterFalls, hp]
  | _ => rfl

theorem responderFalls_clock (now : Nat) (x : Segment) :
    (responderFalls now x).drvScl = x.responderClock := by
  unfold responderFalls Segment.responderClock
  cases hr : x.resp with
  | selectedRead t =>
    simp only [readerFalls]
    (repeat' split) <;> rfl
  | mailWait t l w => by_cases hp : x.framer.pos = 9 <;> simp [waiterFalls, hp]
  | _ => rfl

theorem responderFalls_framer (now : Nat) (x : Segment) :
    (responderFalls now x).framer = x.responderFramer := by
  unfold responderFalls Segment.responderFramer
  cases hr : x.resp with
  | selectedRead t =>
    simp only [readerFalls]
    by_cases hp : x.framer.pos = 9
    · by_cases hl : t.preloaded = true
      · simp [hp, hl]
      · by_cases hk : x.framer.kind = .data ∧ x.framer.ackHigh = true <;> simp [hp, hl, hk]
    · by_cases hk : x.framer.kind = .address <;> simp [hp, hk]
  | mailWait t l w => by_cases hp : x.framer.pos = 9 <;> simp [waiterFalls, hp]
  | _ => rfl

/-! ### The bus-clear unit -/

theorem clearFalls_same (now : Nat) {x : Segment} (h : x.clear.isClearing = false) : clearFalls now x = x := by
  cases hc : x.clear with
  | clearing c => simp [hc, BusClear.isClearing] at h
  | _ => simp [clearFalls, pulseEnds, stageFalls, hc]

theorem clearFalls_pulse (now : Nat) {x : Segment} {c : Clearing} (h : x.clear = .clearing c)
    (hs : c.stage = .pulseHigh ∨ (c.stage = .pulseLow ∧ x.sda = false ∧ c.pulses < 9)) :
    clearFalls now x =
      { x with clear := .clearing { c with stage := .pulseLow, pulses := c.pulses + 1, lowSince := some now } } := by
  rcases hs with hs | ⟨hs, hd, hp⟩
  · simp [clearFalls, pulseEnds, stageFalls, h, hs]
  · simp [clearFalls, pulseEnds, stageFalls, h, hs, hd, hp, Config.clearingPulses]

theorem clearFalls_stop (now : Nat) {x : Segment} {c : Clearing} (h : x.clear = .clearing c)
    (hs : c.stage = .stopHigh ∨ (c.stage = .pulseLow ∧ x.sda = true)) :
    clearFalls now x =
      { x with drvSda := true, clear := .clearing { c with stage := .stopLow, lowSince := some now } } := by
  rcases hs with hs | ⟨hs, hd⟩
  · simp [clearFalls, pulseEnds, stageFalls, h, hs]
  · simp [clearFalls, pulseEnds, stageFalls, h, hs, hd]

theorem clearFalls_fails (now : Nat) {x : Segment} {c : Clearing} (h : x.clear = .clearing c)
    (hs : c.stage = .pulseLow) (hd : x.sda = false) (hp : 9 ≤ c.pulses) :
    clearFalls now x =
      { x.freed with
        clear :=
          if c.round < 3 then .clearing { c with pulses := 0, stage := .wait now, lowSince := none, stopAt := none }
          else .stuck none } := by
  have hp' : ¬c.pulses < 9 := Nat.not_lt.mpr hp
  by_cases hr : c.round < 3 <;>
    simp [clearFalls, pulseEnds, stageFalls, h, hs, hd, hp', hr, Config.clearingPulses, Config.clearingRounds, failRound,
      releaseLines, Segment.freed, Segment.highSince]

theorem clearFalls_stopLow (now : Nat) {x : Segment} {c : Clearing} (h : x.clear = .clearing c)
    (hs : c.stage = .stopLow) : clearFalls now x = { x with clear := .clearing { c with lowSince := some now } } := by
  simp [clearFalls, pulseEnds, stageFalls, h, hs]

theorem clearFalls_after (now : Nat) {x : Segment} {c : Clearing} (h : x.clear = .clearing c)
    (hs : c.stage = .stopDone ∨ ∃ since, c.stage = .wait since) : clearFalls now x = x := by
  rcases hs with hs | ⟨t, hs⟩ <;> simp [clearFalls, pulseEnds, stageFalls, h, hs]

theorem restartWatch_clear (now : Nat) (x : Segment) :
    (restartWatch now x).clear =
      match x.clear with
      | .stuck _ => .stuck (if x.scl = true ∧ x.sda = true then some now else none)
      | k => k := by
  unfold restartWatch Segment.highSince
  cases hc : x.clear <;> simp [hc]

/-- An edge measures the quiet-low time of an enabled segment afresh (R86). -/
theorem restartQuiet_quiet (now : Nat) {x : Segment} (h : x.init ≠ .off) :
    (restartQuiet now x).quiet =
      if x.clear = .normal ∧ ((x.scl = false ∧ x.drvScl = false) ∨ (x.sda = false ∧ x.drvSda = false)) then
        some { since := now, limitMs := x.cfg.stuckMs }
      else none := by
  have hc : (x.measures && x.quietLow) = true ↔
      x.clear = .normal ∧ ((x.scl = false ∧ x.drvScl = false) ∨ (x.sda = false ∧ x.drvSda = false)) := by
    rw [Bool.and_eq_true, measures_iff, quietLow_iff]
    simp [h]
  simp only [restartQuiet, hc]

end Sys2Proof.Machine
end

section
/-! PROOFS. An edge at an engine. -/

namespace Sys2Proof.Machine

/-! ## An edge at an engine -/

/-- The engine when its line monitor has taken a fall of SCL and the initiator and the responder have set the bit after it,
before the bus-clear unit takes the fall. -/
def fallBits (now : Nat) (j : Option Job) (x : Segment) : Segment :=
  responderFalls now (initiatorFalls now j (monitorEdge now (setLevel .sclFall x)))

theorem monitorEdge_mon (now : Nat) (x : Segment) :
    (monitorEdge now x).mon =
      match x.mon.line with
      | .unknown => { x.mon with idleSince := x.highSince now }
      | .free => if x.scl then x.mon else { line := .unknown, stopTime := none, idleSince := x.highSince now }
      | .busy => x.mon := by
  unfold monitorEdge resetMonitor
  cases hm : x.mon.line with
  | free => cases x.scl <;> rfl
  | _ => rfl

theorem edgeRestarts_frame (now : Nat) (x : Segment) :
    restartQuiet now (restartWatch now x) =
      { x with
        clear := (restartWatch now x).clear, quiet := (restartQuiet now (restartWatch now x)).quiet } :=
  congrArg (fun y : Segment => { y with quiet := (restartQuiet now (restartWatch now x)).quiet }) (restartWatch_frame now x)

theorem initiatorRises_frame (x : Segment) : initiatorRises x = { x with init := (initiatorRises x).init } := by
  unfold initiatorRises
  split <;> rfl

theorem clearRises_frame (x : Segment) : clearRises x = { x with clear := (clearRises x).clear } := by
  unfold clearRises
  split <;> rfl

/-! ### What every edge does -/

/-- Of an engine an edge touches besides the units' own fields only the level, the monitor and, at a rise of SCL, the place
in the byte. -/
theorem edgeAt_keeps (now : Nat) (j : Option Job) (e : Edge) (x : Segment) :
    UnitsOnly
      { setLevel e x with
        mon := (monitorEdge now (setLevel e x)).mon, framer := if e = .sclRise then x.framer.rise x.sda else x.framer }
      (edgeAt now j e x) := by
  have hm := monitorEdge_frame now (setLevel e x)
  refine .trans ?_ (edgeAt_units now j e x)
  rw [hm]
  cases e with
  | sclRise => exact (initiatorRises_units _).trans (clearRises_units _)
  | sclFall => exact unitsFall_units now j _
  | sdaRise => exact .refl _
  | sdaFall => exact .refl _

/-- In UNKNOWN an edge starts the window afresh, and in BUSY it does nothing to the monitor (R13, R14). -/
theorem edgeAt_mon (now : Nat) (j : Option Job) (e : Edge) {x : Segment} (h : x.mon.line ≠ .free) :
    (edgeAt now j e x).mon =
      if x.mon.line = .unknown then
        { x.mon with
          idleSince := if (edgeAt now j e x).scl = true ∧ (edgeAt now j e x).sda = true then some now else none }
      else x.mon := by
  have hk := edgeAt_keeps now j e x
  have hmon : (setLevel e x).mon = x.mon := by cases e <;> rfl
  rw [hk.mon, hk.scl, hk.sda]
  simp only [monitorEdge_mon, hmon, Segment.highSince, Bool.and_eq_true]
  cases hl : x.mon.line with
  | free => exact absurd hl h
  | _ => simp

/-- An edge measures the quiet-low time afresh (R86). -/
theorem edgeAt_quiet (now : Nat) (j : Option Job) (e : Edge) {x y : Segment} (hy : y = edgeAt now j e x)
    (h : y.init ≠ .off) :
    y.quiet =
      if y.clear = .normal ∧ ((y.scl = false ∧ y.drvScl = false) ∨ (y.sda = false ∧ y.drvSda = false)) then
        some { since := now, limitMs := x.cfg.stuckMs }
      else none := by
  have hcfg : y.cfg = x.cfg := by
    rw [hy, (edgeAt_keeps now j e x).cfg]
    cases e <;> rfl
  rw [← hcfg]
  subst hy
  exact restartQuiet_quiet now h

theorem edgeAt_resp (now : Nat) (j : Option Job) (e : Edge) (x : Segment) :
    (edgeAt now j e x).resp = (unitsEdge now j e (monitorEdge now (setLevel e x))).resp := by
  rw [edgeAt, edgeRestarts_frame]

theorem edgeAt_drvScl (now : Nat) (j : Option Job) (e : Edge) (x : Segment) :
    (edgeAt now j e x).drvScl = (unitsEdge now j e (monitorEdge now (setLevel e x))).drvScl := by
  rw [edgeAt, edgeRestarts_frame]

theorem edgeAt_framer (now : Nat) (j : Option Job) (e : Edge) (x : Segment) :
    (edgeAt now j e x).framer = (unitsEdge now j e (monitorEdge now (setLevel e x))).framer := by
  rw [edgeAt, edgeRestarts_frame]

/-- The bus-clear unit after an edge: of a watch its wait, of any other what the units left (R97). -/
theorem edgeAt_clear (now : Nat) (j : Option Job) (e : Edge) (x : Segment) :
    (edgeAt now j e x).clear =
      match (unitsEdge now j e (monitorEdge now (setLevel e x))).clear with
      | .stuck _ =>
        .stuck (if (edgeAt now j e x).scl = true ∧ (edgeAt now j e x).sda = true then some now else none)
      | k => k := by
  rw [(edgeAt_units now j e x).scl, (edgeAt_units now j e x).sda]
  exact restartWatch_clear now _

/-! ### A rise of SCL and an edge of SDA -/

/-- The initiator after a rise of SCL: its stretch measurement is discarded (R60). -/
def Initiator.risen : Initiator → Initiator
  | .running r => .running { r with lowSince := none }
  | .held h => .held { h with lowSince := none }
  | k => k

theorem initiatorRises_init (x : Segment) : (initiatorRises x).init = x.init.risen := by
  unfold initiatorRises
  cases hx : x.init <;> simp [Initiator.risen, hx]

theorem edgeAt_rise_init (now : Nat) (j : Option Job) (x : Segment) :
    (edgeAt now j .sclRise x).init = x.init.risen := by
  have hi : (monitorEdge now (setLevel .sclRise x)).init = x.init := monitorEdge_init now _
  rw [edgeAt_init, ← hi]
  exact (clearRises_init _).trans (initiatorRises_init _)

theorem edgeAt_rise_framer (now : Nat) (j : Option Job) (x : Segment) :
    (edgeAt now j .sclRise x).framer = x.framer.rise x.sda := by
  rw [edgeAt_framer]
  simp only [unitsEdge, unitsRise]
  rw [clearRises_frame, initiatorRises_frame, monitorEdge_frame]
  rfl

/-- A rise of SCL leaves the responder and the part's drives. -/
theorem edgeAt_rise_same (now : Nat) (j : Option Job) (x : Segment) :
    (edgeAt now j .sclRise x).resp = x.resp ∧ (edgeAt now j .sclRise x).drvScl = x.drvScl ∧
      (edgeAt now j .sclRise x).drvSda = x.drvSda := by
  rw [edgeAt_resp, edgeAt_drvScl, edgeAt_drvSda]
  simp only [unitsEdge, unitsRise]
  rw [clearRises_frame, initiatorRises_frame, monitorEdge_frame]
  exact ⟨rfl, rfl, rfl⟩

/-- The bus-clear unit after a rise of SCL: a round discards its stretch measurement (R93). -/
theorem unitsRise_clear (now : Nat) (x : Segment) :
    (unitsRise (monitorEdge now (setLevel .sclRise x))).clear =
      match x.clear with
      | .clearing c => .clearing { c with lowSince := none }
      | k => k := by
  rw [monitorEdge_frame]
  unfold unitsRise
  rw [initiatorRises_frame]
  unfold clearRises
  cases hc : x.clear <;> simp [setLevel, hc]

/-- An edge of SDA with no condition leaves the initiator, the responder, the place in the byte and the part's drives. -/
theorem edgeAt_sda_same (now : Nat) (j : Option Job) {e : Edge} (he : e = .sdaRise ∨ e = .sdaFall) (x : Segment) :
    (edgeAt now j e x).init = x.init ∧ (edgeAt now j e x).resp = x.resp ∧ (edgeAt now j e x).drvScl = x.drvScl ∧
      (edgeAt now j e x).drvSda = x.drvSda ∧ (edgeAt now j e x).framer = x.framer := by
  rw [edgeAt_init, edgeAt_resp, edgeAt_drvScl, edgeAt_drvSda, edgeAt_framer, monitorEdge_frame]
  rcases he with rfl | rfl <;> exact ⟨rfl, rfl, rfl, rfl, rfl⟩

theorem unitsEdge_sda_clear (now : Nat) (j : Option Job) {e : Edge} (he : e = .sdaRise ∨ e = .sdaFall) (x : Segment) :
    (unitsEdge now j e (monitorEdge now (setLevel e x))).clear = x.clear := by
  rw [monitorEdge_frame]
  rcases he with rfl | rfl <;> rfl

/-! ### The bits of a byte at a rise of SCL -/

theorem getLsbD_shiftIn_zero (b : Byte) (level : Bool) : (shiftIn b level).getLsbD 0 = level := by
  cases level <;> simp [shiftIn]

theorem getLsbD_shiftIn_succ (b : Byte) (level : Bool) {k : Nat} (h : k < 7) :
    (shiftIn b level).getLsbD (k + 1) = b.getLsbD k := by
  have hk : k + 1 < 8 := by omega
  rw [BitVec.getLsbD_eq_getElem (show k < 8 by omega)]
  cases level <;> simp [shiftIn, hk]

/-- The place and the bits after a rise of SCL in a byte (R2). -/
theorem rise_framed {f : Framer} (hk : f.kind ≠ .none) (sda : Bool) :
    (f.rise sda).pos = (if 9 ≤ f.pos then 1 else f.pos + 1) ∧
      (f.pos < 8 → ∀ k < 7, (f.rise sda).shift.getLsbD (k + 1) = f.shift.getLsbD k) ∧
      (f.pos ≠ 8 → (f.rise sda).shift.getLsbD 0 = sda) ∧
      (f.pos = 8 → (f.rise sda).ackHigh = sda ∧ (f.rise sda).shift = f.shift) := by
  rcases Nat.lt_trichotomy f.pos 8 with hp | hp | hp
  · have h9 : ¬9 ≤ f.pos := by omega
    simp only [Framer.rise, hk, hp, h9, if_false, if_true]
    exact ⟨trivial, fun _ k h => getLsbD_shiftIn_succ _ _ h, fun _ => getLsbD_shiftIn_zero _ _, fun h => by omega⟩
  · simp [Framer.rise, hk, hp]
  · have h8 : ¬f.pos < 8 := by omega
    have h8' : f.pos ≠ 8 := by omega
    simp only [Framer.rise, hk, h8, h8', if_false, if_pos (show 9 ≤ f.pos from hp)]
    exact ⟨trivial, fun h => absurd h id, fun _ => getLsbD_shiftIn_zero _ _, fun h => absurd h id⟩

theorem rise_kind (f : Framer) (sda : Bool) :
    (f.rise sda).kind = if f.kind ≠ .none ∧ 9 ≤ f.pos then .data else f.kind := by
  by_cases hk : f.kind = .none
  · simp [Framer.rise, hk]
  · rcases Nat.lt_trichotomy f.pos 8 with hp | hp | hp
    · simp [Framer.rise, hk, hp, show ¬9 ≤ f.pos by omega]
    · simp [Framer.rise, hk, hp]
    · simp [Framer.rise, hk, show ¬f.pos < 8 by omega, show f.pos ≠ 8 by omega, show 9 ≤ f.pos from hp]

theorem rise_taken (f : Framer) (sda : Bool) : (f.rise sda).taken = if f.kind = .none then f.taken else false := by
  unfold Framer.rise
  (repeat' split) <;> rfl

/-! ### A fall of SCL -/

/-- With no transaction in flight the responder takes nothing from a fall. -/
theorem responderFalls_idle (now : Nat) {x : Segment} (h : x.resp.transaction? = none) : responderFalls now x = x := by
  unfold responderFalls
  cases hr : x.resp <;> simp [hr, Responder.transaction?] at h ⊢

section
variable (now : Nat) (j : Option Job) (x : Segment)

theorem edgeAt_fall_units :
    unitsEdge now j .sclFall (monitorEdge now (setLevel .sclFall x)) = clearFalls now (fallBits now j x) := rfl

/-- The initiator leaves the responder, the framer and the clock as the fall found them. -/
theorem initiatorBits_same :
    (initiatorFalls now j (monitorEdge now (setLevel .sclFall x))).resp = x.resp ∧
      (initiatorFalls now j (monitorEdge now (setLevel .sclFall x))).framer = x.framer ∧
      (initiatorFalls now j (monitorEdge now (setLevel .sclFall x))).drvScl = x.drvScl := by
  rw [initiatorFalls_frame, monitorEdge_frame]
  exact ⟨rfl, rfl, rfl⟩

theorem fallBits_resp : (fallBits now j x).resp = x.resp.fallen now x.framer := by
  obtain ⟨hresp, hframer, -⟩ := initiatorBits_same now j x
  rw [fallBits, responderFalls_resp, hresp, hframer]

theorem fallBits_framer : (fallBits now j x).framer = x.responderFramer := by
  obtain ⟨hresp, hframer, -⟩ := initiatorBits_same now j x
  rw [fallBits, responderFalls_framer, Segment.responderFramer, hresp, hframer]
  rfl

theorem fallBits_clock : (fallBits now j x).drvScl = x.responderClock := by
  obtain ⟨hresp, hframer, hclock⟩ := initiatorBits_same now j x
  rw [fallBits, responderFalls_clock, Segment.responderClock, hresp, hframer, hclock]
  rfl

theorem fallBits_init (hj : ∀ r, x.init = .running r → j ≠ none) :
    (fallBits now j x).init = x.init.fallen now := by
  have hi : (monitorEdge now (setLevel .sclFall x)).init = x.init := monitorEdge_init now _
  rw [fallBits, responderFalls_init, initiatorFalls_init now (hi ▸ hj), hi]

theorem fallBits_init_or : (fallBits now j x).init = x.init ∨ (fallBits now j x).init = x.init.fallen now := by
  have hi : (monitorEdge now (setLevel .sclFall x)).init = x.init := monitorEdge_init now _
  by_cases hj : ∀ r, x.init = .running r → j ≠ none
  · exact .inr (fallBits_init now j x hj)
  · obtain ⟨r, hr, rfl⟩ : ∃ r, x.init = .running r ∧ j = none := by simpa using hj
    rw [fallBits, responderFalls_init, initiatorFalls_orphan now (hi.trans hr)]
    exact .inl hi

theorem fallBits_clear : (fallBits now j x).clear = x.clear := by
  rw [fallBits, responderFalls_frame, initiatorFalls_frame, monitorEdge_frame]
  rfl

theorem fallBits_sda : (fallBits now j x).sda = x.sda := by
  rw [fallBits, responderFalls_frame, initiatorFalls_frame, monitorEdge_frame]
  rfl

end

section
variable (now : Nat) {j : Option Job} {x : Segment}

/-- With no transaction in flight the level after a fall is the running initiator's. -/
theorem fallBits_initiator {r : Run} {b : Job} (hi : x.init = .running r) (ht : x.resp.transaction? = none) :
    (fallBits now (some b) x).drvSda = x.initiatorBit r b := by
  have hw : (initiatorFalls now (some b) (monitorEdge now (setLevel .sclFall x))).resp = x.resp :=
    (initiatorBits_same now (some b) x).1
  have h := initiatorFalls_bit now (j := b) (x := monitorEdge now (setLevel .sclFall x)) (r := r)
    ((monitorEdge_init now _).trans hi)
  rw [fallBits, responderFalls_idle now (hw ▸ ht)]
  rw [monitorEdge_frame] at h ⊢
  exact h

/-- With nothing to send or to stop for the initiator, the level after a fall is the responder's. -/
theorem fallBits_responder (ho : x.init.ownsBus = false) (hc : ∀ r, x.init = .running r → r.closing = false) :
    (fallBits now j x).drvSda = x.responderBit := by
  obtain ⟨hresp, hframer, -⟩ := initiatorBits_same now j x
  have hi : (monitorEdge now (setLevel .sclFall x)).init = x.init := monitorEdge_init now _
  have hbit : (initiatorFalls now j (monitorEdge now (setLevel .sclFall x))).drvSda = x.drvSda := by
    rw [initiatorFalls_undriven now j (hi ▸ ho) (hi ▸ hc), monitorEdge_frame]
    rfl
  rw [fallBits, responderFalls_bit, Segment.responderBit, hresp, hframer, hbit]
  rfl

/-- With no RUNNING initiator and no transaction a fall leaves the level the part gives SDA. -/
theorem fallBits_undriven (hi : ∀ r, x.init ≠ .running r) (ht : x.resp.transaction? = none) :
    (fallBits now j x).drvSda = x.drvSda := by
  have hw : (initiatorFalls now j (monitorEdge now (setLevel .sclFall x))).resp = x.resp := (initiatorBits_same now j x).1
  have hn : (monitorEdge now (setLevel .sclFall x)).init = x.init := monitorEdge_init now _
  rw [fallBits, responderFalls_idle now (hw ▸ ht), initiatorFalls_notRunning now j (hn ▸ hi), monitorEdge_frame]
  rfl

/-- Where no round is under way the bus-clear unit takes nothing from a fall. -/
theorem edgeAt_fall_drives (h : x.clear.isClearing = false) :
    (edgeAt now j .sclFall x).drvScl = (fallBits now j x).drvScl ∧
      (edgeAt now j .sclFall x).drvSda = (fallBits now j x).drvSda := by
  rw [edgeAt_drvScl, edgeAt_drvSda, edgeAt_fall_units, clearFalls_same now (by rw [fallBits_clear]; exact h)]
  exact ⟨rfl, rfl⟩

theorem edgeAt_fall_init : (edgeAt now j .sclFall x).init = (fallBits now j x).init := by
  rw [edgeAt_init, edgeAt_fall_units, clearFalls_init]

theorem edgeAt_fall_resp : (edgeAt now j .sclFall x).resp = (fallBits now j x).resp := by
  rw [edgeAt_resp, edgeAt_fall_units, clearFalls_frame]

theorem edgeAt_fall_framer : (edgeAt now j .sclFall x).framer = (fallBits now j x).framer := by
  rw [edgeAt_framer, edgeAt_fall_units, clearFalls_frame]

/-- What the bus-clear unit takes from a fall of SCL (R93, R94; logs 18, 29, 34). -/
theorem edgeAt_fall_round {c : Clearing} (h : x.clear = .clearing c) :
    (c.stage = .pulseHigh ∨ (c.stage = .pulseLow ∧ x.sda = false ∧ c.pulses < 9) →
        (edgeAt now j .sclFall x).clear =
          .clearing { c with stage := .pulseLow, pulses := c.pulses + 1, lowSince := some now }) ∧
      (c.stage = .stopHigh ∨ (c.stage = .pulseLow ∧ x.sda = true) →
        (edgeAt now j .sclFall x).clear = .clearing { c with stage := .stopLow, lowSince := some now } ∧
          (edgeAt now j .sclFall x).drvSda = true) ∧
      (c.stage = .pulseLow → x.sda = false → 9 ≤ c.pulses →
        (edgeAt now j .sclFall x).drvScl = false ∧ (edgeAt now j .sclFall x).drvSda = false ∧
          (edgeAt now j .sclFall x).clear =
            if c.round < 3 then .clearing { c with pulses := 0, stage := .wait now, lowSince := none, stopAt := none }
            else .stuck none) ∧
      (c.stage = .stopLow →
        (edgeAt now j .sclFall x).clear = .clearing { c with lowSince := some now } ∧
          ((∀ r, x.init ≠ .running r) → x.resp.transaction? = none →
            (edgeAt now j .sclFall x).drvSda = x.drvSda)) ∧
      (c.stage = .stopDone ∨ (∃ since, c.stage = .wait since) → (edgeAt now j .sclFall x).clear = .clearing c) := by
  have hc : (fallBits now j x).clear = .clearing c := (fallBits_clear now j x).trans h
  have hd : (fallBits now j x).sda = x.sda := fallBits_sda now j x
  have hlow : (edgeAt now j .sclFall x).scl = false := (edgeAt_keeps now j .sclFall x).scl
  have hclear := edgeAt_clear now j .sclFall x
  simp only [hlow, Bool.false_eq_true, false_and, if_false, edgeAt_fall_units] at hclear
  simp only [edgeAt_drvScl, edgeAt_drvSda, edgeAt_fall_units, hclear, ← hd]
  refine ⟨fun hs => ?_, fun hs => ?_, fun hs hlo hp => ?_, fun hs => ⟨?_, fun hn ht => ?_⟩, fun hs => ?_⟩
  · rw [clearFalls_pulse now hc hs]
  · rw [clearFalls_stop now hc hs]
    exact ⟨rfl, rfl⟩
  · rw [clearFalls_fails now hc hs hlo hp]
    refine ⟨rfl, rfl, ?_⟩
    by_cases hr : c.round < 3 <;> simp [hr]
  · rw [clearFalls_stopLow now hc hs]
  · rw [clearFalls_stopLow now hc hs]
    exact fallBits_undriven now hn ht
  · rw [clearFalls_after now hc hs, hc]

end

/-! ### The bus-clear unit after an edge -/

/-- Where no round is under way the units leave the bus-clear unit at an edge. -/
theorem unitsEdge_clear (now : Nat) (j : Option Job) (e : Edge) {x : Segment} (h : x.clear.isClearing = false) :
    (unitsEdge now j e (monitorEdge now (setLevel e x))).clear = x.clear := by
  cases e with
  | sclRise =>
    rw [unitsEdge, unitsRise_clear]
    cases hc : x.clear with
    | clearing c => simp [hc, BusClear.isClearing] at h
    | _ => rfl
  | sclFall =>
    rw [edgeAt_fall_units, clearFalls_same now (by rw [fallBits_clear]; exact h)]
    exact fallBits_clear now j x
  | sdaRise => exact unitsEdge_sda_clear now j (.inl rfl) x
  | sdaFall => exact unitsEdge_sda_clear now j (.inr rfl) x

/-- An edge leaves NORMAL, and starts the idle watch again (R97). -/
theorem edgeAt_watch (now : Nat) (j : Option Job) (e : Edge) (x : Segment) :
    (x.clear = .normal → (edgeAt now j e x).clear = .normal) ∧
      ∀ w, x.clear = .stuck w →
        (edgeAt now j e x).clear =
          .stuck (if (edgeAt now j e x).scl = true ∧ (edgeAt now j e x).sda = true then some now else none) := by
  refine ⟨fun hc => ?_, fun w hc => ?_⟩ <;> rw [edgeAt_clear, unitsEdge_clear now j e (by simp [hc, BusClear.isClearing]), hc]

/-- An edge of SDA with no condition leaves a round as it is, and a rise of SCL discards its stretch measurement (R93). -/
theorem edgeAt_round (now : Nat) (j : Option Job) (e : Edge) {x : Segment} {c : Clearing} (h : x.clear = .clearing c) :
    (e = .sdaRise ∨ e = .sdaFall → (edgeAt now j e x).clear = .clearing c) ∧
      (e = .sclRise → (edgeAt now j e x).clear = .clearing { c with lowSince := none }) := by
  constructor
  · intro he
    rw [edgeAt_clear, unitsEdge_sda_clear now j he, h]
  · rintro rfl
    rw [edgeAt_clear, unitsEdge, unitsRise_clear, h]

/-! ### The initiator after an edge -/

theorem edgeAt_init_or (now : Nat) (j : Option Job) (e : Edge) (x : Segment) :
    (edgeAt now j e x).init = x.init ∨ (edgeAt now j e x).init = x.init.fallen now ∨
      (edgeAt now j e x).init = x.init.risen := by
  cases e with
  | sclRise => exact .inr (.inr (edgeAt_rise_init now j x))
  | sclFall =>
    rw [edgeAt_fall_init]
    exact (fallBits_init_or now j x).imp_right .inl
  | sdaRise => exact .inl (edgeAt_sda_same now j (.inl rfl) x).1
  | sdaFall => exact .inl (edgeAt_sda_same now j (.inr rfl) x).1

/-- An edge switches no segment off. -/
theorem edgeAt_on (now : Nat) (j : Option Job) (e : Edge) {x : Segment} (h : x.init ≠ .off) :
    (edgeAt now j e x).init ≠ .off := by
  rcases edgeAt_init_or now j e x with he | he | he <;> rw [he]
  · exact h
  · cases hx : x.init with
    | off => exact absurd hx h
    | running r =>
      simp only [Initiator.fallen]
      split
      · simp
      · split <;> simp
    | _ => simp [Initiator.fallen]
  · cases hx : x.init with
    | off => exact absurd hx h
    | _ => simp [Initiator.risen]

/-- No edge leaves a start undriven that was driven before it, or makes a start. -/
theorem edgeAt_started (now : Nat) (j : Option Job) (e : Edge) {x : Segment}
    (h : ∀ r, x.init = .running r → r.sub = .start → r.drove = true) :
    ∀ r, (edgeAt now j e x).init = .running r → r.sub = .start → r.drove = true := by
  rcases edgeAt_init_or now j e x with he | he | he <;> rw [he]
  · exact h
  · cases hx : x.init with
    | running k =>
      have hk := h k hx
      simp only [Initiator.fallen]
      split
      · rintro r ⟨⟩ hs
        cases hs
      · split
        · rintro r ⟨⟩ hs
          cases hs
        · rintro r ⟨⟩ hs
          exact hk hs
    | _ => simp [Initiator.fallen]
  · cases hx : x.init with
    | running k =>
      rintro r ⟨⟩ hs
      exact h k hx hs
    | _ => simp [Initiator.risen]

end Sys2Proof.Machine
end

section
/-! PROOFS. A fall of SCL while FREE, and the bus-idle window. -/

namespace Sys2Proof.Machine

/-! ## A fall of SCL while FREE, and the bus-idle window -/

theorem currentJob_running {g : SegId} {s : State} {r : Run} (h : (s.seg g).init = .running r) :
    currentJob s g = s.job? r.slot := by
  simp [currentJob, h, Initiator.slot?]

theorem edgeAt_fall_initiator {g : SegId} {s : State} (hj : ∀ r, (s.seg g).init = .running r → s.job? r.slot ≠ none) :
    (edgeAt s.now (currentJob s g) .sclFall (s.seg g)).init = (s.seg g).init.fallen s.now := by
  rw [edgeAt_fall_init]
  exact fallBits_init s.now _ _ fun r hr => by rw [currentJob_running hr]; exact hj r hr

/-- The edge at the engine alone, where it brings no collision. -/
theorem seeEdge_setSeg {g : SegId} {e : Edge} {s : State}
    (h : ∀ r, (s.seg g).init = .running r → r.sub = .start → r.drove = true) :
    seeEdge g e s = s.setSeg g (edgeAt s.now (currentJob s g) e (s.seg g)) := by
  refine collide_same ?_
  rw [modSeg, seg_setSeg]
  exact collided_none (edgeAt_started s.now _ e h)

theorem edgeAt_fallsWhileFree {g : SegId} {s : State} (hon : (s.seg g).isOff = false)
    (hfree : (s.seg g).mon.line = .free) :
    FallsWhileFree s (s.seg g) (edgeAt s.now (currentJob s g) .sclFall (s.seg g)) := by
  have hk := edgeAt_keeps s.now (currentJob s g) .sclFall (s.seg g)
  have hlow : (edgeAt s.now (currentJob s g) .sclFall (s.seg g)).scl = false := hk.scl
  constructor
  case levels => exact ⟨hk.scl, hk.sda⟩
  case monitor =>
    rw [hk.mon, monitorEdge_mon]
    simp [setLevel, hfree, Segment.highSince]
  case kept => exact ⟨hk.cfg, hk.queue, hk.entries, hk.summary, hk.resetting, hk.disabling⟩
  case framing => exact (edgeAt_fall_framer _).trans (fallBits_framer _ _ _)
  case initiator => exact edgeAt_fall_initiator
  case responder => exact (edgeAt_fall_resp _).trans (fallBits_resp _ _ _)
  case clock => exact fun hc => (edgeAt_fall_drives _ hc).1.trans (fallBits_clock _ _ _)
  case initiatorBit =>
    intro r j hi hj ht hc
    rw [(edgeAt_fall_drives _ hc).2, currentJob_running hi, hj]
    exact fallBits_initiator _ hi ht
  case responderBit =>
    exact fun ho hcl hc => (edgeAt_fall_drives _ hc).2.trans (fallBits_responder _ ho hcl)
  case watch =>
    obtain ⟨hnormal, hstuck⟩ := edgeAt_watch s.now (currentJob s g) .sclFall (s.seg g)
    exact ⟨hnormal, fun w hw => by rw [hstuck w hw]; simp [hlow]⟩
  case round => exact fun c hc => edgeAt_fall_round _ hc
  case quiet => exact edgeAt_quiet s.now _ .sclFall rfl (edgeAt_on s.now _ .sclFall (isOff_eq_false.mp hon))

/-- A fall of SCL collides with a start not yet driven (R72, R138). -/
theorem seeEdge_collides {g : SegId} {s : State} {r : Run} {j : Job} {y : Segment} (hr : (s.seg g).init = .running r)
    (hs : r.sub = .start) (hd : r.drove = false) (hc : r.closing = false) (hj : s.job? r.slot = some j)
    (hy : edgeAt s.now (currentJob s g) .sclFall (s.seg g) = y) (hmon : y.mon.line ≠ .free) :
    seeEdge g .sclFall s =
      if j.cancelPending then
        enterIdle g (finishJob r.slot .cancelled true ((s.setSeg g y).setJob r.slot (some j.countDeferral)))
      else (s.setJob r.slot (some j.countDeferral)).setSeg g { y with init := .waiting r.slot } := by
  have hi : y.init = .running { r with lowSince := some s.now } := by
    rw [← hy, edgeAt_fall_initiator fun k hk => by
      obtain rfl : r = k := by simpa [hr] using hk
      simp [hj], hr]
    simp [Initiator.fallen, hc, hd]
  have hcol : ((s.setSeg g y).seg g).collided? = some { r with lowSince := some s.now } := by
    rw [seg_setSeg]
    exact collided_some hi hs hd hmon
  have hjob : (s.setSeg g y).job? r.slot = some j := hj
  rw [seeEdge, modSeg, hy, collide_collided hcol hjob, seg_setSeg, setJob_setSeg, setSeg_setSeg]

/-- FREE with no stop time: a backoff that waited for FREE goes on with its retry wait (R14, R81). -/
theorem monitorFree_none (now : Nat) (x : Segment) :
    monitorFree none now x =
      { x with
        mon := { line := .free, stopTime := none, idleSince := none }
        init :=
          (match x.init with
           | .backoff i (.winnerStop len) => .backoff i (.wait now len)
           | k => k) } := by
  unfold monitorFree freeBackoff
  rcases x.init with _ | _ | _ | _ | ⟨i, b⟩ | _
  case backoff => cases b <;> simp
  all_goals simp

/-- The bus-idle window changes nothing before 100 µs and where it is not running (log 3). -/
theorem windowExpires_same {g : SegId} {s : State} (h : ∀ since, (s.seg g).mon.idleSince = some since → s.now < since + 10) :
    windowExpires g s = s := by
  have hdue : (s.seg g).windowDue s.now = false := by
    unfold Segment.windowDue
    split
    · rfl
    · rename_i since hi
      have := h since hi
      simp [reached, Config.busIdleSteps, Nat.not_le.mpr this]
  simp [windowExpires, hdue]

/-- Settles O42: the units at the fall and the collision with a start not yet driven; the window due or not. -/
theorem monitorLeavesAndReachesFree : Obligations.MonitorLeavesAndReachesFree := by
  rintro g s x hq rfl hon
  refine ⟨fun hscl hfree => ?_, fun hun => ⟨fun since hi hdue => ?_, fun since hi hdue => ?_, fun hi => ?_⟩⟩
  · have hfalls := edgeAt_fallsWhileFree hon hfree
    have hsees : sclFallsWhileFree g s = seeEdge g .sclFall s := by simp [sclFallsWhileFree, hscl, hon, hfree]
    refine ⟨_, hfalls, fun hstart => ?_, fun r j k hr hs hd hc hj hk => ?_⟩
    · exact asEvent_setSeg hq (f := sclFallsWhileFree g) (hsees.trans (seeEdge_setSeg hstart))
    · obtain rfl : k = j.countDeferral := hk
      have hcol := seeEdge_collides hr hs hd hc hj rfl (by rw [hfalls.monitor]; simp)
      have hexec : exec (.sclFallWhileFree g) s = .next (watchLines (seeEdge g .sclFall s)) := by
        rw [← hsees]
        exact asEvent_of_quiescent hq (sclFallsWhileFree g)
      refine ⟨fun hp => ?_, fun hp => ?_⟩
      · rw [hexec, hcol, if_pos hp]
      · rw [hexec, hcol, if_neg (by simp [hp]), watchLines_setSeg (watchLines_setJob hq.2 _ _)]
  · refine asEvent_setSeg hq (f := windowExpires g) ?_
    have hd : (s.seg g).windowDue s.now = true := by
      simp [Segment.windowDue, hi, hun, hon, reached, Config.busIdleSteps, hdue]
    rw [windowExpires, if_pos hd, modSeg]
    exact congrArg (s.setSeg g) (monitorFree_none s.now (s.seg g))
  · exact asEvent_same hq (f := windowExpires g) (windowExpires_same fun t ht => by
      obtain rfl : since = t := by simpa [hi] using ht
      exact hdue)
  · exact asEvent_same hq (f := windowExpires g) (windowExpires_same (by simp [hi]))

end Sys2Proof.Machine
end

section
/-! PROOFS. An edge with no condition. -/

namespace Sys2Proof.Machine

/-! ## An edge with no condition -/

theorem lineEdge_off {g : SegId} {e : Edge} {s : State} (he : (s.seg g).canEdge e = true) (hoff : (s.seg g).isOff = true) :
    lineEdge g e s = s.setSeg g (setLevel e (s.seg g)) := by
  simp [lineEdge, he, hoff, modSeg]

theorem lineEdge_on {g : SegId} {e : Edge} {s : State} (he : (s.seg g).canEdge e = true) (hon : (s.seg g).isOff = false)
    (hm : (s.seg g).mon.line ≠ .free) : lineEdge g e s = seeEdge g e s := by
  simp [lineEdge, he, hon, hm]

/-- A RUNNING initiator whose start is driven owns the bus. -/
theorem notRunning_of_ownsBus {x : Segment} (h : ∀ r, x.init = .running r → r.sub = .start → r.drove = true)
    (ho : x.init.ownsBus = false) : ∀ r, x.init ≠ .running r := by
  intro r hr
  have hs : r.sub = .start ∧ r.drove = false := by simpa [hr, Initiator.ownsBus] using ho
  simp [h r hr hs.1] at hs

/-- The bit a running initiator sets after a fall of SCL where nothing else of the part is on the lines. -/
theorem edgeAt_fall_sends {g : SegId} {s : State} {r : Run} {j : Job} (hi : (s.seg g).init = .running r)
    (hj : s.job? r.slot = some j) (ht : (s.seg g).resp = .listen ∨ (s.seg g).resp = .ignore)
    (hc : (s.seg g).clear = .normal) :
    (edgeAt s.now (currentJob s g) .sclFall (s.seg g)).drvSda = (s.seg g).initiatorBit r j := by
  rw [(edgeAt_fall_drives s.now (by simp [hc, BusClear.isClearing])).2, currentJob_running hi, hj]
  exact fallBits_initiator s.now hi (by rcases ht with ht | ht <;> simp [ht, Responder.transaction?])

/-- The bit a responder sets after a fall of SCL where nothing else of the part is on the lines. -/
theorem edgeAt_fall_answers {x : Segment} (now : Nat) (j : Option Job)
    (h : ∀ r, x.init = .running r → r.sub = .start → r.drove = true) (ho : x.init.ownsBus = false)
    (hc : x.clear = .normal) : (edgeAt now j .sclFall x).drvSda = x.responderBit := by
  rw [(edgeAt_fall_drives now (by simp [hc, BusClear.isClearing])).2]
  exact fallBits_responder now ho fun r hr => absurd hr (notRunning_of_ownsBus h ho r)

/-- With no transaction in flight only a rise of SCL moves the place in the byte. -/
theorem edgeAt_framer_idle (now : Nat) (j : Option Job) {e : Edge} {x : Segment} (he : e ≠ .sclRise)
    (h : x.resp.transaction? = none) : (edgeAt now j e x).framer = x.framer := by
  cases e with
  | sclRise => exact absurd rfl he
  | sclFall =>
    rw [edgeAt_fall_framer, fallBits_framer, Segment.responderFramer]
    cases hr : x.resp with
    | selectedRead t => simp [hr, Responder.transaction?] at h
    | _ => rfl
  | sdaRise =>
    obtain ⟨-, -, -, -, hf⟩ := edgeAt_sda_same now j (.inl rfl) x
    exact hf
  | sdaFall =>
    obtain ⟨-, -, -, -, hf⟩ := edgeAt_sda_same now j (.inr rfl) x
    exact hf

/-- Settles O43: the level, the monitor and each unit at the edge, which brings no collision where a start is driven. -/
theorem lineEdgeIsSeen : Obligations.LineEdgeIsSeen := by
  rintro g e s x hq rfl he
  refine ⟨fun hoff => asEvent_setSeg hq (f := lineEdge g e) (lineEdge_off he hoff), fun hon hm hstart => ?_⟩
  have hk := edgeAt_keeps s.now (currentJob s g) e (s.seg g)
  have hwatch := edgeAt_watch s.now (currentJob s g) e (s.seg g)
  refine ⟨edgeAt s.now (currentJob s g) e (s.seg g),
    asEvent_setSeg hq (f := lineEdge g e) ((lineEdge_on he hon hm).trans (seeEdge_setSeg hstart)),
    ?scl, ?sda, edgeAt_mon s.now _ e hm, ?cfg, ?queue, ?entries, ?summary, ?framing, ?sends, ?receives, ?reads, ?readsRest,
    ?waits, ?resetting, ?disabling, ?taken, fun hr ht => edgeAt_framer_idle _ _ hr ht, ?sdaEdge, ?rise, ?initiator,
    ?sendsOther, ?responder, ?clock, hwatch.1, hwatch.2, ?round,
    edgeAt_quiet s.now _ e rfl (edgeAt_on s.now _ e (isOff_eq_false.mp hon))⟩
  case scl => exact hk.scl.trans (by cases e <;> rfl)
  case sda => exact hk.sda.trans (by cases e <;> rfl)
  case cfg => exact hk.cfg.trans (by cases e <;> rfl)
  case queue => exact hk.queue.trans (by cases e <;> rfl)
  case entries => exact hk.entries.trans (by cases e <;> rfl)
  case summary => exact hk.summary.trans (by cases e <;> rfl)
  case resetting => exact hk.resetting.trans (by cases e <;> rfl)
  case disabling => exact hk.disabling.trans (by cases e <;> rfl)
  case framing =>
    rintro rfl
    rw [edgeAt_rise_framer]
    exact ⟨rise_kind _ _, fun hf => rise_framed hf _⟩
  case taken =>
    rintro rfl
    rw [edgeAt_rise_framer]
    exact rise_taken _ _
  case sends =>
    rintro r j rfl hi hc hj ht hn
    rw [edgeAt_fall_sends hi hj ht hn]
    refine ⟨fun hs hp => ?_, fun hs hp => ?_, fun hs hp => ?_, fun hs hp => ?_, fun hs hp => ?_⟩
    · simp [Segment.initiatorBit, hc, hs, hp]
    · simp [Segment.initiatorBit, hc, hs, hp]
    · rcases hs with hs | hs <;> simp [Segment.initiatorBit, hc, hs, Nat.not_lt.mpr hp]
    · simp [Segment.initiatorBit, hc, hs, hp]
    · simp [Segment.initiatorBit, hc, hs, hp]
  case sendsOther =>
    rintro r j rfl hi hj ht hn
    rw [edgeAt_fall_sends hi hj ht hn]
    refine ⟨fun hc => ?_, fun hc hs hd => ?_, fun hc why hs => ?_⟩
    · simp [Segment.initiatorBit, hc]
    · rcases hs with hs | hs <;> simp [Segment.initiatorBit, hc, hs, hd]
    · simp [Segment.initiatorBit, hc, hs]
  case receives =>
    rintro t rfl hr ho hn
    rw [edgeAt_fall_answers s.now _ hstart ho hn]
    simp [Segment.responderBit, hr]
  case reads =>
    rintro t rfl hr ho hn hd hp
    rw [edgeAt_fall_answers s.now _ hstart ho hn]
    simp [Segment.responderBit, hr, hd, hp, show (s.seg g).framer.pos ≠ 9 by omega]
  case readsRest =>
    rintro t rfl hr ho hn
    rw [edgeAt_fall_answers s.now _ hstart ho hn]
    refine ⟨fun ha hp => ?_, fun hd hp => ?_, fun hp => ?_⟩
    · simp [Segment.responderBit, hr, ha, Nat.ne_of_lt hp]
    · simp [Segment.responderBit, hr, hd, hp]
    · simp [Segment.responderBit, hr, ← hp]
  case waits =>
    rintro t l w rfl hr ho hn
    rw [edgeAt_fall_answers s.now _ hstart ho hn]
    simp [Segment.responderBit, hr]
  case sdaEdge =>
    intro hs
    obtain ⟨hi, hr, hc, hd, -⟩ := edgeAt_sda_same s.now (currentJob s g) hs (s.seg g)
    exact ⟨hi, hr, hc, hd⟩
  case rise =>
    rintro rfl
    exact ⟨edgeAt_rise_init _ _ _, edgeAt_rise_same _ _ _⟩
  case initiator =>
    rintro rfl hj
    exact edgeAt_fall_initiator hj
  case responder =>
    rintro rfl
    exact (edgeAt_fall_resp _).trans (fallBits_resp _ _ _)
  case clock =>
    rintro rfl hc
    exact (edgeAt_fall_drives _ hc).1.trans (fallBits_clock _ _ _)
  case round =>
    intro c hc
    obtain ⟨hsda, hrise⟩ := edgeAt_round s.now (currentJob s g) e hc
    refine ⟨hsda, hrise, ?_⟩
    by_cases hf : e = .sclFall
    · subst hf
      simpa only [forall_const] using edgeAt_fall_round s.now hc
    · simp [hf]

end Sys2Proof.Machine
end

section
/-! PROOFS. A hold takes its continuation, and what follows a completed phase. -/

namespace Sys2Proof.Machine

/-! ## The continuation of a chain -/

/-- The search for a continuation, slot by slot: an empty slot continues no chain. -/
theorem findContinuation_eq (c : Byte) (s : State) (q : List Slot) :
    findContinuation c s q = q.find? fun i => (s.job? i).any (·.continuesChain c) := by
  refine congrArg (List.find? · q) (funext fun i => ?_)
  cases s.job? i <;> rfl

theorem any_continuesChain_eq_false {c : Byte} {s : State} {k : Slot}
    (h : ∀ b, s.job? k = some b → b.continuesChain c = false) : (s.job? k).any (·.continuesChain c) = false := by
  cases hk : s.job? k with
  | none => rfl
  | some b => exact h b hk

theorem findContinuation_none {c : Byte} {s : State} {q : List Slot}
    (h : ∀ k ∈ q, ∀ b, s.job? k = some b → b.continuesChain c = false) : findContinuation c s q = none := by
  rw [findContinuation_eq, List.find?_eq_none]
  intro k hk
  simp [any_continuesChain_eq_false (h k hk)]

theorem findContinuation_first {c : Byte} {s : State} {before after : List Slot} {i : Slot} {j : Job}
    (h : FirstContinuation c s before i j) : findContinuation c s (before ++ i :: after) = some i := by
  obtain ⟨hbefore, hi, hj⟩ := h
  rw [findContinuation_eq, List.find?_eq_some_iff_append]
  refine ⟨by simp [hi, hj], before, after, rfl, fun k hk => ?_⟩
  simp [any_continuesChain_eq_false (hbefore k hk)]

theorem FirstContinuation.not_mem {c : Byte} {s : State} {before : List Slot} {i : Slot} {j : Job}
    (h : FirstContinuation c s before i j) : i ∉ before := by
  obtain ⟨hbefore, hi, hj⟩ := h
  exact fun hmem => Bool.false_ne_true ((hbefore i hmem j hi).symm.trans hj)

/-! ## The hold -/

theorem takeContinuation_closing {g : SegId} {s : State} {h : Hold} (hi : (s.seg g).init = .held h)
    (hc : h.closing ≠ none) : takeContinuation g s = s := by
  obtain ⟨why, hw⟩ := Option.ne_none_iff_exists'.mp hc
  simp [takeContinuation, hi, hw]

theorem takeContinuation_none {g : SegId} {s : State} {h : Hold} (hi : (s.seg g).init = .held h)
    (hf : findContinuation h.chain s (s.seg g).queue = none) : takeContinuation g s = s := by
  cases hc : h.closing with
  | some why => exact takeContinuation_closing hi (by simp [hc])
  | none => simp [takeContinuation, hi, hc, hf]

theorem takeContinuation_some {g : SegId} {s : State} {h : Hold} {i : Slot} {j : Job} (hi : (s.seg g).init = .held h)
    (hc : h.closing = none) (hf : findContinuation h.chain s (s.seg g).queue = some i) (hj : s.job? i = some j) :
    takeContinuation g s =
      (s.setJob i (some { j with status := .current, startTime := some s.now })).setSeg g
        { (s.seg g).freed with
          queue := (s.seg g).queue.erase i
          init :=
            .running
              { slot := i, sub := .restart, drove := false, closing := false, grade := (s.seg g).cfg.grade,
                stretchMs := (s.seg g).cfg.stretchMs, lowSince := some s.now } } := by
  simp only [takeContinuation, hi, hc, hf, modJob, hj, modSeg]
  rfl

/-- Settles O15: the search of the queue finds the first continuation of the chain, which does not stand before itself, or
none. -/
theorem holdTakesItsContinuation : Obligations.HoldTakesItsContinuation := by
  intro g s h hi
  refine ⟨takeContinuation_closing hi, fun hnone => takeContinuation_none hi (findContinuation_none hnone),
    fun before i after j hc hq hfirst => ?_⟩
  have hf : findContinuation h.chain s (s.seg g).queue = some i := hq ▸ findContinuation_first hfirst
  obtain ⟨-, hj, -⟩ := id hfirst
  rw [takeContinuation_some hi hc hf hj, hq, List.erase_append_right _ hfirst.not_mem,
    List.erase_cons_head]

/-! ## A completed phase -/

theorem beginStop_eq (g : SegId) (r : Run) (why : StopWhy) (s : State) :
    beginStop g r why s = s.setSeg g ((s.seg g).stopping s.now r why) := rfl

theorem beginRestart_eq {g : SegId} {r : Run} {s : State} {j : Job} (hj : s.job? r.slot = some j) :
    beginRestart g r s =
      (s.setJob r.slot (some { j with phaseIndex := j.phaseIndex + 1, byteIndex := 0, readBuf := [] })).setSeg g
        { s.seg g with
          drvSda := false, init := .running { r with sub := .restart, drove := false, lowSince := some s.now } } := by
  simp only [beginRestart, modJob, hj, modSeg]
  rfl

theorem role_holds_iff (o : Role) : o.holds = true ↔ o ≠ .cont := by cases o <;> simp [Role.holds]

theorem atLastPhase_iff (j : Job) : j.atLastPhase = true ↔ j.phases.length ≤ j.phaseIndex := decide_eq_true_iff

theorem phaseComplete_before {g : SegId} {r : Run} {j : Job} {s : State} (h : j.phaseIndex < j.phases.length) :
    phaseComplete g r j s = if j.cancelPending then beginStop g r (.ends .cancelled) s else beginRestart g r s :=
  if_neg fun hlast => Nat.not_le.mpr h ((atLastPhase_iff j).mp hlast)

theorem phaseComplete_stops {g : SegId} {r : Run} {j : Job} {s : State} (h : j.phases.length ≤ j.phaseIndex)
    (hc : ∀ c, j.chain = some c → c.role = .cont) : phaseComplete g r j s = beginStop g r (.ends .done) s := by
  rw [phaseComplete, if_pos ((atLastPhase_iff j).mpr h)]
  cases hch : j.chain with
  | none => rfl
  | some c => exact if_neg fun hh => (role_holds_iff c.role).mp hh (hc c hch)

theorem phaseComplete_holds {g : SegId} {r : Run} {j : Job} {s : State} {c : Chain}
    (h : j.phases.length ≤ j.phaseIndex) (hc : j.chain = some c) (hr : c.role ≠ .cont) :
    phaseComplete g r j s = enterHeld g c.id r (finishJob r.slot .done true s) := by
  rw [phaseComplete, if_pos ((atLastPhase_iff j).mpr h), hc]
  exact if_pos ((role_holds_iff c.role).mpr hr)

/-- Settles O16: before the last phase the cancel decides, after it the role in the chain. -/
theorem phaseCompletes : Obligations.PhaseCompletes := by
  intro g r s j hj
  refine ⟨fun h => ⟨fun hp => ?_, fun hp => ?_⟩, fun h => ⟨fun hc => ?_, fun c hc hr => ?_⟩⟩
  · rw [phaseComplete_before h, if_pos hp, beginStop_eq]
  · rw [phaseComplete_before h, if_neg (by simp [hp]), beginRestart_eq hj]
  · rw [phaseComplete_stops h hc, beginStop_eq]
  · rw [phaseComplete_holds h hc hr, enterHeld, modSeg, finishJob_seg, finishJob_now]

end Sys2Proof.Machine
end

section
/-! PROOFS. The acknowledges of the bytes a job sends and receives. -/

namespace Sys2Proof.Machine

/-! ## The phase under way -/

section

variable {j : Job} {p : Phase}

theorem payloadByte_write {bs : List Byte} (hp : j.phase? = some p) (hk : p.kind = .write bs)
    (h : j.byteIndex < bs.length) : j.payloadByte = bs[j.byteIndex] := by
  obtain ⟨target, kind⟩ := p
  subst hk
  simp [Job.payloadByte, hp, h]

theorem payloadLength_write {bs : List Byte} (hp : j.phase? = some p) (hk : p.kind = .write bs) :
    j.payloadLength = bs.length := by
  simp [Job.payloadLength, hp, Phase.writeLength, hk]

theorem awaitsLength_read {n : Nat} (hp : j.phase? = some p) (hk : p.kind = .read n) : j.awaitsLength = false := by
  obtain ⟨target, kind⟩ := p
  subst hk
  simp [Job.awaitsLength, hp]

theorem awaitsLength_counted {m : Nat} (hp : j.phase? = some p) (hk : p.kind = .countedRead m) :
    j.awaitsLength = decide (j.byteIndex = 0) := by
  obtain ⟨target, kind⟩ := p
  subst hk
  simp [Job.awaitsLength, hp]

theorem acceptsLength_iff {m : Nat} {b : Byte} (hp : j.phase? = some p) (hk : p.kind = .countedRead m) :
    j.acceptsLength b = true ↔ within 1 m b.toNat := by
  obtain ⟨target, kind⟩ := p
  subst hk
  simp [Job.acceptsLength, hp, within]

theorem readTotal_read {n : Nat} (hp : j.phase? = some p) (hk : p.kind = .read n) : j.readTotal = n := by
  obtain ⟨target, kind⟩ := p
  subst hk
  simp [Job.readTotal, hp]

theorem readTotal_counted {m : Nat} {n : Byte} {rest : List Byte} (hp : j.phase? = some p)
    (hk : p.kind = .countedRead m) (hb : j.readBuf = n :: rest) : j.readTotal = n.toNat + 1 := by
  obtain ⟨target, kind⟩ := p
  subst hk
  simp [Job.readTotal, hp, hb]

end

/-! ## The next byte -/

/-- A step owed whose operation stores the job and replaces one engine. -/
theorem asOwed_setJob_setSeg {s : State} (h : NoneInHand s) {f : State → State} {g : SegId} {i : Slot} {j : Option Job}
    {x : Segment} (hf : f s = (s.setJob i j).setSeg g x) : asOwed f s = .next (withEngine g x (s.setJob i j)) := by
  rw [asOwed_of_none h, hf, watchLines_setSeg (watchLines_setJob h.2 i j)]

/-- A step owed that ends in another operation. -/
theorem asOwed_eq {s t : State} (h : NoneInHand s) {f : State → State} (hf : f s = t) :
    asOwed f s = .next (watchLines t) := by
  rw [asOwed_of_none h, hf]

/-- On the way to the next byte a pending cancel makes the stop (R49, R137). -/
theorem goOn_setSeg (g : SegId) (r : Run) (j : Job) (sub : SubStep) (s : State) (x : Segment) :
    goOn g r j sub (s.setSeg g x) =
      s.setSeg g
        (if j.cancelPending then x.stopping s.now r (.ends .cancelled)
        else x.sending s.now r sub (!(j.sends sub).getLsbD 7)) := by
  unfold goOn
  split <;> simp [beginStop_eq, modSeg, sendBit, Segment.sending, bitLow_one]

/-- A receiving job leaves SDA released. -/
theorem sends_read (j : Job) : (!(j.sends .read).getLsbD 7) = false := by simp [Job.sends]

theorem beginStop_setSeg (g : SegId) (r : Run) (why : StopWhy) (s : State) (x : Segment) :
    beginStop g r why (s.setSeg g x) = s.setSeg g (x.stopping s.now r why) := by
  simp [beginStop_eq]

/-! ## The acknowledge of an address byte -/

theorem addressAck_eq {g : SegId} {s : State} {r : Run} {j : Job} (h : AckEnded (s.seg g) r .address)
    (hj : s.job? r.slot = some j) :
    addressAck g s =
      if (s.seg g).framer.ackHigh then addressNacked g r j (s.setSeg g (s.seg g).took)
      else addressAcked g r j (s.setSeg g (s.seg g).took) := by
  simp only [addressAck, ackedRun_eq h, hj]
  rfl

/-- A NACK with the retry count at its limit ends the job, whether or not a cancel is pending (R57, R137). -/
theorem addressNacked_ends {g : SegId} {r : Run} {j : Job} {s : State}
    (h : j.appliedLimit j.nackLimit ≤ j.nackCount) : addressNacked g r j s = beginStop g r (.ends .addrNack) s :=
  if_pos h

theorem addressNacked_retries {g : SegId} {r : Run} {j : Job} {s : State}
    (h : j.nackCount < j.appliedLimit j.nackLimit) :
    addressNacked g r j s = beginStop g r (if j.cancelPending then .ends .cancelled else .retry) s := by
  rw [addressNacked, if_neg (Nat.not_le.mpr h)]
  split <;> rfl

section

variable {g : SegId} {r : Run} {j : Job} {s : State} {p : Phase} (hp : j.phase? = some p)
include hp

theorem addressAcked_empty (hk : p.kind = .write []) : addressAcked g r j s = phaseComplete g r j s := by
  obtain ⟨target, kind⟩ := p
  subst hk
  simp [addressAcked, hp]

theorem addressAcked_write {b : Byte} {bs : List Byte} (hk : p.kind = .write (b :: bs)) :
    addressAcked g r j s = goOn g r j .write s := by
  obtain ⟨target, kind⟩ := p
  subst hk
  simp [addressAcked, hp]

theorem addressAcked_read (hk : ∀ bs, p.kind ≠ .write bs) : addressAcked g r j s = goOn g r j .read s := by
  obtain ⟨target, kind⟩ := p
  cases kind with
  | write bs => exact absurd rfl (hk bs)
  | _ => simp [addressAcked, hp]

/-- A phase that is not an empty write goes on to a byte of its own. -/
theorem addressAcked_goOn (hk : p.kind ≠ .write []) : ∃ sub, addressAcked g r j s = goOn g r j sub s := by
  cases hkind : p.kind with
  | write bs =>
    cases bs with
    | nil => exact absurd hkind hk
    | cons b bs => exact ⟨.write, addressAcked_write hp hkind⟩
  | read n => exact ⟨.read, addressAcked_read hp (by simp [hkind])⟩
  | countedRead m => exact ⟨.read, addressAcked_read hp (by simp [hkind])⟩

end

/-- Settles O45: on a NACK the retry count decides, on an ACK the kind of the phase. -/
theorem addressAckDecides : Obligations.AddressAckDecides := by
  rintro g s x r j hnone rfl hack hj
  refine ⟨fun hhigh => ?_, fun hlow p hp => ?_⟩
  · have hnacked : addressAck g s = addressNacked g r j (s.setSeg g (s.seg g).took) := by
      rw [addressAck_eq hack hj, if_pos hhigh]
    refine ⟨fun hlim => ?_, fun hlim => ?_⟩
    · exact asOwed_setSeg hnone (by rw [hnacked, addressNacked_ends hlim, beginStop_setSeg])
    · exact asOwed_setSeg hnone (by rw [hnacked, addressNacked_retries hlim, beginStop_setSeg])
  · have hacked : addressAck g s = addressAcked g r j (s.setSeg g (s.seg g).took) := by
      rw [addressAck_eq hack hj, if_neg (by simp [hlow])]
    refine ⟨fun hk => ?_, fun hk hc => ?_, fun b bs hk hc hi => ?_, fun hk hc => ?_⟩
    · exact asOwed_eq hnone (hacked.trans (addressAcked_empty hp hk))
    · obtain ⟨sub, hgo⟩ := addressAcked_goOn (g := g) (r := r) (s := s.setSeg g (s.seg g).took) hp hk
      exact asOwed_setSeg hnone (by rw [hacked, hgo, goOn_setSeg, if_pos hc])
    · have hb : j.sends .write = b := by
        rw [Job.sends, payloadByte_write hp hk (by simp [hi])]
        simp [hi]
      exact asOwed_setSeg hnone
        (by rw [hacked, addressAcked_write hp hk, goOn_setSeg, if_neg (by simp [hc]), hb])
    · have hread : ∀ bs, p.kind ≠ .write bs := by
        rcases hk with ⟨n, hk⟩ | ⟨m, hk⟩ <;> simp [hk]
      exact asOwed_setSeg hnone (by rw [hacked, addressAcked_read hp hread, goOn_setSeg, if_neg (by simp [hc]), sends_read])

/-! ## The acknowledge of a write byte -/

theorem writeByteAck_nack {g : SegId} {s : State} {r : Run} {j : Job} (h : AckEnded (s.seg g) r .write)
    (hj : s.job? r.slot = some j) (hn : (s.seg g).framer.ackHigh = true) :
    writeByteAck g s = beginStop g r (.ends .dataNack) (s.setSeg g (s.seg g).took) := by
  simp only [writeByteAck, ackedRun_eq h, hj, hn, if_true]
  rfl

theorem writeByteAck_ack {g : SegId} {s : State} {r : Run} {j k : Job} (h : AckEnded (s.seg g) r .write)
    (hj : s.job? r.slot = some j) (hn : (s.seg g).framer.ackHigh = false)
    (hk : k = { j with byteIndex := j.byteIndex + 1 }) :
    writeByteAck g s =
      if k.byteIndex < k.payloadLength then goOn g r k .write ((s.setJob r.slot (some k)).setSeg g (s.seg g).took)
      else phaseComplete g r k ((s.setSeg g (s.seg g).took).setJob r.slot (some k)) := by
  subst hk
  simp only [writeByteAck, ackedRun_eq h, hj, hn]
  rfl

/-- Settles O46: on an ACK the counted job has a payload byte left, or its phase is complete. -/
theorem writeByteAckDecides : Obligations.WriteByteAckDecides := by
  rintro g s x r j k p bs hnone rfl hack hj hp hkind hk
  have hpk : k.phase? = some p := by rw [hk]; exact hp
  refine ⟨fun hhigh => ?_, fun hlow => ⟨fun hlen => ?_, fun hlen => ?_⟩⟩
  · exact asOwed_setSeg hnone (by rw [writeByteAck_nack hack hj hhigh, beginStop_setSeg])
  · refine asOwed_eq hnone ?_
    rw [writeByteAck_ack hack hj hlow hk, payloadLength_write hpk hkind, if_neg (Nat.not_lt.mpr hlen)]
  · refine asOwed_setJob_setSeg hnone ?_
    have hcancel : k.cancelPending = j.cancelPending := by rw [hk]
    rw [writeByteAck_ack hack hj hlow hk, payloadLength_write hpk hkind, if_pos hlen, goOn_setSeg, Job.sends,
      payloadByte_write hpk hkind hlen, hcancel]
    rfl

/-! ## A received byte and a length byte -/

theorem readByte_eq {g : SegId} {s : State} {r : Run} {j k : Job} (h : AckEnded (s.seg g) r .read)
    (hj : s.job? r.slot = some j) (ha : j.awaitsLength = false) (hk : k = j.storeByte (s.seg g).framer.shift) :
    readByte g s =
      if k.byteIndex < k.readTotal then goOn g r k .read ((s.setJob r.slot (some k)).setSeg g (s.seg g).took)
      else phaseComplete g r k.closePhase ((s.setSeg g (s.seg g).took).setJob r.slot (some k.closePhase)) := by
  subst hk
  simp only [readByte, ackedRun_eq h, hj, ha]
  rfl

theorem lengthByte_eq {g : SegId} {s : State} {r : Run} {j k : Job} (h : AckEnded (s.seg g) r .read)
    (hj : s.job? r.slot = some j) (ha : j.awaitsLength = true) (hk : k = j.storeByte (s.seg g).framer.shift) :
    lengthByte g s =
      if j.acceptsLength (s.seg g).framer.shift then
        goOn g r k .read ((s.setJob r.slot (some k)).setSeg g (s.seg g).took)
      else beginStop g r (.ends .lengthBad) (s.setSeg g (s.seg g).took) := by
  subst hk
  simp only [lengthByte, ackedRun_eq h, hj, ha, if_true]
  rfl

/-- Before a byte of a phase with a known total its length byte is not awaited, and storing it keeps the total
(R53, R54). -/
theorem storeByte_readTotal {j : Job} {p : Phase} {total : Nat} (b : Byte) (hp : j.phase? = some p)
    (ht : p.kind = .read total ∨
      ∃ m n rest, p.kind = .countedRead m ∧ j.readBuf = n :: rest ∧ total = n.toNat + 1 ∧ 0 < j.byteIndex) :
    j.awaitsLength = false ∧ (j.storeByte b).readTotal = total := by
  have hpk : (j.storeByte b).phase? = some p := hp
  rcases ht with hk | ⟨m, n, rest, hk, hbuf, rfl, hpos⟩
  · exact ⟨awaitsLength_read hp hk, readTotal_read hpk hk⟩
  · refine ⟨?_, readTotal_counted hpk hk (rest := rest ++ [b]) (by simp [Job.storeByte, hbuf])⟩
    rw [awaitsLength_counted hp hk, decide_eq_false (Nat.ne_of_gt hpos)]

/-- Settles O47: a received byte is counted against the total of its phase, a length byte against its maximum. -/
theorem readAndLengthBytes : Obligations.ReadAndLengthBytes := by
  rintro g s x r j k p hnone rfl hack hj hp hk
  replace hk : k = j.storeByte (s.seg g).framer.shift := hk
  have hcancel : k.cancelPending = j.cancelPending := by rw [hk]; rfl
  have hnext : goOn g r k .read ((s.setJob r.slot (some k)).setSeg g (s.seg g).took) =
      (s.setJob r.slot (some k)).setSeg g
        (if j.cancelPending then (s.seg g).took.stopping s.now r (.ends .cancelled)
        else (s.seg g).took.sending s.now r .read false) := by
    rw [goOn_setSeg, hcancel, sends_read, setJob_now]
  refine ⟨fun total ht => ?_, fun m hm hi => ?_⟩
  · obtain ⟨hawaits, htotal⟩ := storeByte_readTotal (s.seg g).framer.shift hp ht
    rw [← hk] at htotal
    refine ⟨fun hlt => ?_, fun hle l hl => ?_⟩
    · exact asOwed_setJob_setSeg hnone (by rw [readByte_eq hack hj hawaits hk, htotal, if_pos hlt, hnext])
    · replace hl : l = k.closePhase := hl
      exact asOwed_eq hnone (by rw [readByte_eq hack hj hawaits hk, htotal, if_neg (Nat.not_lt.mpr hle), hl])
  · have hawaits : j.awaitsLength = true := by rw [awaitsLength_counted hp hm, decide_eq_true hi]
    refine ⟨fun hin => ?_, fun hout => ?_⟩
    · refine asOwed_setJob_setSeg hnone ?_
      rw [lengthByte_eq hack hj hawaits hk, if_pos ((acceptsLength_iff hp hm).mpr hin), hnext]
    · refine asOwed_setSeg hnone ?_
      rw [lengthByte_eq hack hj hawaits hk, if_neg (mt (acceptsLength_iff hp hm).mp hout), beginStop_setSeg]

end Sys2Proof.Machine
end

section
/-! PROOFS. The stop of the initiator, and the limits it measures. -/

namespace Sys2Proof.Machine

/-! ## The stop -/

/-- An event that ends in another operation. -/
theorem asEvent_eq {s t : State} (h : Quiescent s) {f : State → State} (hf : f s = t) :
    asEvent f s = .next (watchLines t) := by
  rw [asEvent_of_quiescent h, hf]

/-! The stop is made where SCL is seen high with SDA driven low: the part releases the lines, then the run or the hold
that was stopping goes its way (R9). -/

theorem makeStop_ends {g : SegId} {s : State} {r : Run} {o : JobOutcome} (hscl : (s.seg g).scl = true)
    (hsda : (s.seg g).drvSda = true) (hi : (s.seg g).init = .running r) (hs : r.sub = .stop (.ends o)) :
    makeStop g s = endRun g r.slot o (s.setSeg g (s.seg g).freed) := by
  simp only [makeStop, hscl, hsda, hi, hs, Bool.and_true, if_true]
  rfl

theorem makeStop_retry {g : SegId} {s : State} {r : Run} (hscl : (s.seg g).scl = true)
    (hsda : (s.seg g).drvSda = true) (hi : (s.seg g).init = .running r) (hs : r.sub = .stop .retry) :
    makeStop g s = retryAfterStop g r.slot (s.setSeg g (s.seg g).freed) := by
  simp only [makeStop, hscl, hsda, hi, hs, Bool.and_true, if_true]
  rfl

theorem makeStop_held {g : SegId} {s : State} {h : Hold} (hscl : (s.seg g).scl = true)
    (hsda : (s.seg g).drvSda = true) (hi : (s.seg g).init = .held h) (hc : h.closing ≠ none) :
    makeStop g s = endHold g h (s.setSeg g (s.seg g).freed) := by
  simp only [makeStop, hscl, hsda, hi, Bool.and_true, Option.isSome_iff_ne_none.mpr hc, if_true]
  rfl

theorem endHold_lapse {g : SegId} {s : State} {h : Hold} (hc : h.closing = some .lapse) :
    endHold g h s = leave g (claimEvent g (.holdLapsed h.chain) s) := by
  simp [endHold, hc]

theorem endHold_order {g : SegId} {s : State} {h : Hold} (hc : h.closing = some .order) : endHold g h s = leave g s := by
  simp [endHold, hc]

theorem retryAfterStop_cancelled {g : SegId} {i : Slot} {s : State} {j : Job} (hj : s.job? i = some j)
    (hc : j.cancelPending = true) : retryAfterStop g i s = endRun g i .cancelled s := by
  simp [retryAfterStop, hj, hc]

/-- Without a cancel the retry is counted and the backoff begins, or the job waits at once (R57, R58). -/
theorem retryAfterStop_backoff {g : SegId} {i : Slot} {s : State} {x : Segment} {j k : Job} (hj : s.job? i = some j)
    (hc : j.cancelPending = false) (hk : k = { j with nackCount := min (j.nackCount + 1) 255 }) :
    retryAfterStop g i (s.setSeg g x) =
      (s.setJob i (some k)).setSeg g
        { x.freed with
          init :=
            if x.cfg.retryInterval * 10 * k.nackCount = 0 then .waiting i
            else .backoff i (.wait s.now (x.cfg.retryInterval * 10 * k.nackCount)) } := by
  subst hk
  have hcount : j.countRetry = { j with nackCount := min (j.nackCount + 1) 255 } := rfl
  simp only [retryAfterStop, setSeg_job?, hj, hc, setJob_setSeg, modSeg, seg_setSeg, setSeg_setSeg, hcount]
  rfl

/-- Settles O48: the run or the hold that was stopping goes its way from the released lines. -/
theorem stopIsMade : Obligations.StopIsMade := by
  rintro g s x hq rfl hscl hsda
  refine ⟨fun r o hi hs => ?_, fun r j k hi hs hj hk => ⟨fun hc => ?_, fun hc => ?_⟩, fun h hi hc => ?_,
    fun h hi hc => ?_⟩
  · exact asEvent_eq hq (by rw [makeStop_ends hscl hsda hi hs]; rfl)
  · refine asEvent_eq hq ?_
    rw [makeStop_retry hscl hsda hi hs, retryAfterStop_cancelled (s := s.setSeg g (s.seg g).freed) hj hc]
    rfl
  · rw [← watchLines_setSeg (watchLines_setJob hq.2 r.slot (some k))]
    refine asEvent_eq hq ?_
    rw [makeStop_retry hscl hsda hi hs, retryAfterStop_backoff hj hc hk]
    rfl
  · exact asEvent_eq hq (by rw [makeStop_held hscl hsda hi (by simp [hc]), endHold_lapse hc])
  · exact asEvent_eq hq (by rw [makeStop_held hscl hsda hi (by simp [hc]), endHold_order hc])

/-! ## The limits -/

theorem reachedMs_some {now since ms : Nat} {lowSince : Option Nat} (hl : lowSince = some since)
    (h : since + ms * 100 ≤ now) : reachedMs now lowSince ms = true := by
  rw [hl]
  exact decide_eq_true h

theorem stretchExpires_running {g : SegId} {s : State} {r : Run} {since : Nat} (hi : (s.seg g).init = .running r)
    (hl : r.lowSince = some since) (h : since + r.stretchMs * 100 ≤ s.now) :
    stretchExpires g s = endRun g r.slot r.stretchOutcome (s.setSeg g (s.seg g).freed) := by
  have hdue : (s.seg g).stretchDue s.now = true := by
    simp only [Segment.stretchDue, hi, reachedMs_some hl h]
  simp only [stretchExpires, hdue, hi, if_true]
  rfl

theorem stretchExpires_held {g : SegId} {s : State} {h : Hold} {since : Nat} (hi : (s.seg g).init = .held h)
    (hc : h.closing ≠ none) (hl : h.lowSince = some since) (ht : since + h.stretchMs * 100 ≤ s.now) :
    stretchExpires g s = endHold g h (s.setSeg g (s.seg g).freed) := by
  have hdue : (s.seg g).stretchDue s.now = true := by
    simp only [Segment.stretchDue, hi, reachedMs_some hl ht, Option.isSome_iff_ne_none.mpr hc, Bool.and_true]
  simp only [stretchExpires, hdue, hi, if_true]
  rfl

theorem backoffDue_wait {x : Segment} {i : Slot} {since len : Nat} (hi : x.init = .backoff i (.wait since len))
    (now : Nat) : x.backoffDue? now = if since + len ≤ now then some i else none := by
  simp [Segment.backoffDue?, hi, reached]

theorem holdDue_held {x : Segment} {h : Hold} (hi : x.init = .held h) (hc : h.closing = none) (now : Nat) :
    x.holdDue? now = if h.since + h.limitMs * 100 ≤ now then some h else none := by
  simp only [Segment.holdDue?, hi, hc, Option.isNone_none, Bool.true_and, reached, decide_eq_true_eq]
  rfl

/-- Settles O50: each limit is due exactly when its time has been reached, and then its expiry acts. -/
theorem initiatorLimitsExpire : Obligations.InitiatorLimitsExpire := by
  rintro g s x hq rfl
  refine ⟨fun r since o hi hl ht ho => ?_, fun h since hi hl ht => ⟨fun hc => ?_, fun hc => ?_⟩,
    fun i since len hi => ⟨fun ht => ?_, fun ht => ?_⟩, fun h hi hc => ⟨fun ht => ?_, fun ht => ?_⟩⟩
  · have houtcome : r.stretchOutcome = o := by
      rw [ho, Run.stretchOutcome]
      cases r.sub with
      | stop why => cases why <;> rfl
      | _ => rfl
    exact asEvent_eq hq (by rw [stretchExpires_running hi hl ht, houtcome]; rfl)
  · exact asEvent_eq hq (by rw [stretchExpires_held hi (by simp [hc]) hl ht, endHold_lapse hc])
  · exact asEvent_eq hq (by rw [stretchExpires_held hi (by simp [hc]) hl ht, endHold_order hc])
  · exact asEvent_setSeg hq (f := backoffEnds g) (by rw [backoffEnds, backoffDue_wait hi, if_pos ht]; rfl)
  · exact asEvent_same hq (by rw [backoffEnds, backoffDue_wait hi, if_neg (Nat.not_le.mpr ht)])
  · exact asEvent_setSeg hq (f := holdExpires g) (by rw [holdExpires, holdDue_held hi hc, if_pos ht]; rfl)
  · exact asEvent_same hq (by rw [holdExpires, holdDue_held hi hc, if_neg (Nat.not_le.mpr ht)])

end Sys2Proof.Machine
end

section
/-! PROOFS. A loss of arbitration. -/

namespace Sys2Proof.Machine

/-! ## A loss of arbitration -/

theorem arbitrationLoss_seen {g : SegId} {s : State} (h : (s.seg g).lossSeen = true) :
    arbitrationLoss g s = loseBus g s := if_pos h

theorem arbitrationLoss_unseen {g : SegId} {s : State} (h : (s.seg g).lossSeen = false) : arbitrationLoss g s = s :=
  if_neg (by simp [h])

/-- SDA low where the part sends a 1 is a loss: a bit of an address or write byte, the NACK of a read, or the data-high
moment of a repeated start (R75). -/
theorem lossSeen_of_one {x : Segment} {r : Run} (hi : x.init = .running r) (hscl : x.scl = true)
    (hsda : x.drvSda = false)
    (h : ((r.sub = .address ∨ r.sub = .write) ∧ within 1 8 x.framer.pos ∧ x.framer.shift.getLsbD 0 = false) ∨
      (r.sub = .read ∧ x.framer.pos = 9 ∧ x.framer.ackHigh = false) ∨
      (r.sub = .restart ∧ r.drove = false ∧ x.sda = false)) : x.lossSeen = true := by
  rcases h with ⟨hs, ⟨hlo, hhi⟩, hbit⟩ | ⟨hs, hp, ha⟩ | ⟨hs, hd, hlow⟩
  · rcases hs with hs | hs <;> simpa [Segment.lossSeen, hi, hscl, hsda, hs, hlo, hhi] using hbit
  · simp [Segment.lossSeen, hi, hscl, hsda, hs, hp, ha]
  · simp [Segment.lossSeen, hi, hscl, hsda, hs, hd, hlow]

/-- A backoff after a loss begins in the same part for every length: with the winner's stop, unless the monitor is FREE
already (R81). -/
theorem freeBackoff_begins (now : Nat) (x : Segment) (i : Slot) :
    ∃ rest : Nat → Backoff,
      (∀ len, freeBackoff now { x with init := .backoff i (.winnerStop len) } =
        { x with init := .backoff i (rest len) }) ∧
      (x.mon.line ≠ .free → rest = .winnerStop) := by
  by_cases hf : x.mon.line = .free
  · cases ht : x.mon.stopTime with
    | none => exact ⟨.wait now, fun len => by simp [freeBackoff, hf, ht], fun h => absurd hf h⟩
    | some t => exact ⟨.busFree t, fun len => by simp [freeBackoff, hf, ht], fun h => absurd hf h⟩
  · exact ⟨.winnerStop, fun len => by simp [freeBackoff, hf], fun _ => rfl⟩

/-- Settles O49: the loss is seen, and it decides the job as a loss at a condition does. -/
theorem arbitrationLossDecides : Obligations.ArbitrationLossDecides := by
  rintro g s x r j k hnone rfl hi hscl hsda hone hj hk
  obtain ⟨rest, hrest, hwinner⟩ := freeBackoff_begins s.now (s.seg g).freed r.slot
  have hexec : exec (.arbitrationLoss g) s = .next (watchLines (loseBus g s)) :=
    asOwed_eq hnone (arbitrationLoss_seen (lossSeen_of_one hi hscl hsda hone))
  obtain ⟨hclosing, hcounted⟩ := losesAtCondition hexec hi hj hrest k hk
  refine ⟨hclosing, fun hc => ?_⟩
  obtain ⟨hlost, hstays⟩ := hcounted hc
  refine ⟨hlost, fun hlim => ?_⟩
  obtain ⟨hcancelled, hbacksOff⟩ := hstays hlim
  refine ⟨hcancelled, fun hp hm => ?_⟩
  rw [hbacksOff hp, hwinner hm, watchLines_setSeg (watchLines_setJob hnone.2 r.slot (some k))]

end Sys2Proof.Machine
end

section
/-! PROOFS. The address byte at the responder. -/

namespace Sys2Proof.Machine

/-! ## The comparison of an address byte -/

theorem matchEntry_none {x : Segment} {a : Byte}
    (h : ∀ e, (x.entry e).enable = true → (x.entry e).address ≠ some (a >>> 1)) : x.matchEntry a = none := by
  rw [Segment.matchEntry, List.find?_eq_none]
  intro e _ hm
  obtain ⟨hen, had⟩ := Bool.and_eq_true_iff.mp hm
  exact h e hen (beq_iff_eq.mp had)

/-- The one enabled entry with the address is the match (R101, R105). -/
theorem matchEntry_unique {x : Segment} {a : Byte} {e : EntryId} (hen : (x.entry e).enable = true)
    (had : (x.entry e).address = some (a >>> 1))
    (h : ∀ k, k ≠ e → (x.entry k).enable = true → (x.entry k).address ≠ some (a >>> 1)) :
    x.matchEntry a = some e := by
  have hall : ∀ k : EntryId, k ∈ [0, 1, 2, 3] := by decide
  cases hm : x.matchEntry a with
  | none => exact absurd (by simp [hen, had]) (List.find?_eq_none.mp hm e (hall e))
  | some k =>
    rw [Segment.matchEntry] at hm
    have hfound := List.find?_some hm
    obtain ⟨hk, hka⟩ := Bool.and_eq_true_iff.mp hfound
    have hke : k = e := Decidable.byContradiction fun hne => h k hne hk (beq_iff_eq.mp hka)
    rw [hke]

theorem drives_eq_false {i : Initiator} (hr : ∀ r, i ≠ .running r) (hh : ∀ h, i ≠ .held h) : i.drives = false := by
  cases i with
  | running r => exact absurd rfl (hr r)
  | held h => exact absurd rfl (hh h)
  | _ => rfl

theorem compareAddress_ignores {x : Segment} (grant : Bool)
    (h : (∃ r, x.init = .running r) ∨ (∃ h, x.init = .held h) ∨ x.clear.isClearing = true ∨
      ∀ e, (x.entry e).enable = true → (x.entry e).address ≠ some (x.framer.shift >>> 1)) :
    compareAddress x grant = .ignore := by
  rcases h with ⟨r, hi⟩ | ⟨h, hi⟩ | hc | hm
  · simp [compareAddress, Segment.selectable, hi, Initiator.drives]
  · simp [compareAddress, Segment.selectable, hi, Initiator.drives]
  · simp [compareAddress, Segment.selectable, hc]
  · simp [compareAddress, matchEntry_none hm]

theorem compareAddress_selects {x : Segment} {e : EntryId} (grant : Bool) (hr : ∀ r, x.init ≠ .running r)
    (hh : ∀ h, x.init ≠ .held h) (hc : x.clear.isClearing = false)
    (hm : x.matchEntry x.framer.shift = some e) :
    compareAddress x grant =
      selectEntry e (x.entry e) (x.framer.shift.getLsbD 0) grant x.framer.shift := by
  simp [compareAddress, Segment.selectable, drives_eq_false hr hh, hc, hm]

/-- A byte compared leaves its engine in the state the comparison gives, the bit place taken (R105). -/
theorem respAddressByte_compares {g : SegId} {s : State} (h : (s.seg g).addressEnded = true) :
    respAddressByte g s =
      s.setSeg g { (s.seg g).took with resp := compareAddress (s.seg g) (decide (0 < freeRecords s)) } := if_pos h

/-! ## A loss at the last bit of the address byte -/

theorem releaseLines_same {x : Segment} (hscl : x.drvScl = false) (hsda : x.drvSda = false) : releaseLines x = x := by
  cases x
  simp_all [releaseLines]

/-- A loss once taken is not taken again. -/
theorem arbitrationLoss_again {g : SegId} {s : State} (h : LossTaken (s.seg g) s.job?) : arbitrationLoss g s = s := by
  cases hl : (s.seg g).lossSeen with
  | false => exact arbitrationLoss_unseen hl
  | true =>
    obtain ⟨r, hi, hc, hj, hscl⟩ := h hl
    have hsda : (s.seg g).drvSda = false := by
      simp only [Segment.lossSeen, hi, Bool.and_eq_true, Bool.not_eq_true'] at hl
      exact hl.1.2
    rw [arbitrationLoss_seen hl]
    simp [loseBus, hi, hc, hj, modSeg, releaseLines_same hscl hsda]

/-- The comparison reads nothing of the quiet-low intervals: it may come before or after a look at the lines. -/
theorem respAddressByte_watchLines (g : SegId) (s : State) :
    watchLines (respAddressByte g (watchLines s)) = watchLines (respAddressByte g s) := by
  have hended : ((watchLines s).seg g).addressEnded = (s.seg g).addressEnded := by rw [seg_watchLines]; rfl
  cases ha : (s.seg g).addressEnded with
  | false =>
    rw [respAddressByte, respAddressByte, hended, ha]
    exact watchLines_idem s
  | true =>
    have hfree : freeRecords (watchLines s) = freeRecords s := by
      simp only [freeRecords, heldRecords, seg_watchLines, watchLines_notices]
      rfl
    rw [respAddressByte_compares ha, respAddressByte_compares (hended.trans ha), hfree]
    refine State.ext_segs rfl (fun k => ?_) rfl rfl rfl rfl rfl
    simp only [seg_watchLines, setSeg_now, watchLines_now, seg_setSeg_eq]
    split
    · exact congrArg
        (fun y : Segment =>
          { y.took with resp := compareAddress (s.seg g) (decide (0 < freeRecords s)) })
        (watchSegment_idem s.now (s.seg g))
    · exact watchSegment_idem s.now (s.seg k)

/-- Settles O51: the byte is compared with the entries; a loss at its last bit comes first, and is not taken again. -/
theorem addressByteSelects : Obligations.AddressByteSelects := by
  refine ⟨?_, fun g s t hnone ht => ?_⟩
  · rintro g s x hnone rfl hresp hkind hpos hscl hfresh hloss
    have hended : (s.seg g).addressEnded = true := by
      simp [Segment.addressEnded, Segment.byteEnded, hresp, hkind, hpos, hscl, hfresh, hloss]
    have hexec : ∀ p, compareAddress (s.seg g) (decide (0 < freeRecords s)) = p →
        exec (.respAddressByte g) s = .next (withEngine g { (s.seg g).took with resp := p } s) := by
      rintro p rfl
      refine asOwed_setSeg hnone (f := fun t => respAddressByte g (arbitrationLoss g t)) ?_
      rw [arbitrationLoss_unseen hloss, respAddressByte_compares hended]
    refine ⟨fun h => hexec _ (compareAddress_ignores _ h), ?_⟩
    rintro e n hr hh hc rfl hen had hothers
    refine hexec _ ?_
    rw [compareAddress_selects _ hr hh hc (matchEntry_unique hen had hothers), selectEntry]
    cases ((s.seg g).entry e).mode with
    | window => cases (s.seg g).framer.shift.getLsbD 0 <;> rfl
    | mailbox =>
      cases (s.seg g).framer.shift.getLsbD 0 with
      | false => simp
      | true => cases ((s.seg g).entry e).outbox <;> simp
  · obtain rfl : watchLines (arbitrationLoss g s) = t :=
      Host.Outcome.next.inj ((asOwed_of_none hnone (arbitrationLoss g)).symm.trans ht)
    have hagain : arbitrationLoss g (watchLines (arbitrationLoss g s)) = watchLines (arbitrationLoss g s) := by
      refine arbitrationLoss_again ?_
      rw [seg_watchLines]
      exact arbitrationLoss_taken g s
    have hnone' : NoneInHand (watchLines (arbitrationLoss g s)) :=
      ⟨(arbitrationLoss_inHand g s).trans hnone.1, watchLines_idem _⟩
    calc exec (.respAddressByte g) s
        = .next (watchLines (respAddressByte g (arbitrationLoss g s))) :=
          asOwed_of_none hnone fun t => respAddressByte g (arbitrationLoss g t)
      _ = .next (watchLines (respAddressByte g (watchLines (arbitrationLoss g s)))) := by
          rw [respAddressByte_watchLines]
      _ = exec (.respAddressByte g) (watchLines (arbitrationLoss g s)) :=
          (asOwed_eq hnone' (f := fun t => respAddressByte g (arbitrationLoss g t)) (by rw [hagain])).symm

end Sys2Proof.Machine
end

section
/-! PROOFS. The clearing rounds and the idle watch. -/

namespace Sys2Proof.Machine

/-! ## A round -/

/-- A failed round releases both lines; after rounds 1 and 2 the unit waits, after round 3 it is STUCK (R95, R97). -/
theorem failRound_eq (now : Nat) (c : Clearing) (x : Segment) :
    failRound now c x =
      { x.freed with
        clear :=
          if c.round < 3 then .clearing { c with pulses := 0, stage := .wait now, lowSince := none, stopAt := none }
          else .stuck (if x.scl && x.sda then some now else none) } := by
  by_cases hr : c.round < 3 <;>
    simp [failRound, Config.clearingRounds, hr, releaseLines, Segment.freed, Segment.highSince]

theorem clearWaitDue_wait {x : Segment} {c : Clearing} {since : Nat} (hc : x.clear = .clearing c)
    (hs : c.stage = .wait since) (now : Nat) :
    x.clearWaitDue? now = if since + 1000 ≤ now then some c else none := by
  simp only [Segment.clearWaitDue?, hc, hs, reached, decide_eq_true_eq]
  rfl

theorem clearStretchExpires_due {g : SegId} {s : State} {c : Clearing} {since : Nat}
    (hc : (s.seg g).clear = .clearing c) (hl : c.lowSince = some since) (h : since + c.stretchMs * 100 ≤ s.now) :
    clearStretchExpires g s = s.setSeg g (failRound s.now c (s.seg g)) := by
  simp only [clearStretchExpires, Segment.clearStretchDue?, hc, reachedMs_some hl h, if_true]
  rfl

/-- SDA sampled at the end of a pulse: the stop, the next pulse, or failure after the ninth (R93). -/
theorem clearingPulse_samples {g : SegId} {s : State} {c : Clearing} (hc : (s.seg g).clear = .clearing c)
    (hs : c.stage = .pulseLow) (hscl : (s.seg g).scl = true) :
    clearingPulse g s =
      s.setSeg g
        (if (s.seg g).sda then { s.seg g with clear := .clearing { c with stage := .stopHigh } }
        else if c.pulses < 9 then { s.seg g with clear := .clearing { c with stage := .pulseHigh } }
        else failRound s.now c (s.seg g)) := by
  simp only [clearingPulse, hscl, if_true, modSeg, pulseEnds, hc, hs]
  rfl

/-! ## The end of a round -/

theorem roundDone_some {x : Segment} {c : Clearing} (hc : x.clear = .clearing c)
    (h : c.stage = .stopDone ∨ (c.stage = .stopLow ∧ x.scl = true ∧ x.sda = false)) : x.roundDone? = some c := by
  simp [Segment.roundDone?, hc, h]

theorem roundEnds_fails {g : SegId} {s : State} {c : Clearing} (hd : (s.seg g).roundDone? = some c)
    (h : (s.seg g).scl = false ∨ (s.seg g).sda = false) :
    roundEnds g s = s.setSeg g (failRound s.now c (s.seg g)) := by
  rcases h with h | h <;> simp [roundEnds, hd, h, modSeg]

theorem roundEnds_recovers {g : SegId} {s : State} {c : Clearing} (hd : (s.seg g).roundDone? = some c)
    (hscl : (s.seg g).scl = true) (hsda : (s.seg g).sda = true) :
    roundEnds g s =
      claimEvent g (.busRecovered c.round c.pulses) (s.setSeg g (recover c.stopAt s.now (s.seg g))) := by
  simp [roundEnds, hd, hscl, hsda, modSeg]

/-- In a round's stop the lines are not sampled before SDA is to rise with SCL high (R94, log 3). -/
theorem roundEnds_waits {g : SegId} {s : State} {c : Clearing} (hc : (s.seg g).clear = .clearing c)
    (hs : c.stage = .stopLow) (h : (s.seg g).scl = false ∨ (s.seg g).sda = true) : roundEnds g s = s := by
  rcases h with h | h <;> simp [roundEnds, Segment.roundDone?, hc, hs, h]

/-- The unit is NORMAL again; a monitor that is not FREE becomes so, and a backoff that waited for it goes on (R81, R96,
R97). -/
theorem recover_eq (stop : Option Nat) (now : Nat) (x : Segment) :
    recover stop now x =
      if x.mon.line = .free then { x with clear := .normal }
      else
        freeBackoff now { x with clear := .normal, mon := { line := .free, stopTime := stop, idleSince := none } } :=
  rfl

/-- With the monitor FREE the first part of a backoff is over: the bus-free time follows a stop time, the retry wait
follows at once without one (R81). -/
theorem freeBackoff_free {x : Segment} (h : x.mon.line = .free) (now : Nat) :
    freeBackoff now x =
      { x with
        init :=
          (match x.init, x.mon.stopTime with
           | .backoff i (.winnerStop len), some t => .backoff i (.busFree t len)
           | .backoff i (.winnerStop len), none => .backoff i (.wait now len)
           | k, _ => k) } := by
  have hkeep : ∀ k, x.init = k → x = { x with init := k } := by
    rintro k rfl
    rfl
  cases hi : x.init with
  | backoff i b =>
    cases b with
    | winnerStop len => cases ht : x.mon.stopTime <;> simp [freeBackoff, hi, h, ht]
    | _ => simpa only [freeBackoff, hi] using hkeep _ hi
  | _ => simpa only [freeBackoff, hi] using hkeep _ hi

/-! ## The idle watch -/

theorem idleWatchExpires_due {g : SegId} {s : State} {since : Nat} (hc : (s.seg g).clear = .stuck (some since))
    (h : since + 10 ≤ s.now) :
    idleWatchExpires g s =
      claimEvent g (.busRecovered 0 0) (modSeg g (recover none s.now) (endLeftTransaction g s)) := by
  have hdue : (s.seg g).idleWatchDue s.now = true := by
    simp [Segment.idleWatchDue, hc, reached, Config.busIdleSteps, h]
  exact if_pos hdue

theorem endLeftTransaction_some {g : SegId} {s : State} (h : (s.seg g).resp.transaction? ≠ none) :
    endLeftTransaction g s = endTransaction g false s := if_pos (Option.isSome_iff_ne_none.mpr h)

theorem endLeftTransaction_none {g : SegId} {s : State} (h : (s.seg g).resp = .listen ∨ (s.seg g).resp = .ignore) :
    endLeftTransaction g s = s := by
  rcases h with h | h <;> simp [endLeftTransaction, h, Responder.transaction?]

/-- Settles O56: what each step of the bus-clear unit makes of a round, and of the idle watch. -/
theorem clearingRounds : Obligations.ClearingRounds := by
  rintro g s x hq rfl
  refine ⟨fun n => startRound_eq s.now n _, fun c since hc hs => ⟨fun ht => ?_, fun ht => ?_⟩, ?_,
    fun y hy => freeBackoff_free hy s.now, ?_, fun since hc ht hr => ?_⟩
  · exact asEvent_setSeg hq (f := clearWaitExpires g)
      (by rw [clearWaitExpires, clearWaitDue_wait hc hs, if_pos ht]; rfl)
  · exact asEvent_same hq (f := clearWaitExpires g)
      (by rw [clearWaitExpires, clearWaitDue_wait hc hs, if_neg (Nat.not_le.mpr ht)])
  · rintro c hc failed hfailed
    replace hfailed : failed = failRound s.now c (s.seg g) := hfailed.trans (failRound_eq s.now c _).symm
    subst hfailed
    refine ⟨fun since hl ht => ?_, fun hs hscl => ?_, fun hs => ⟨fun hscl hsda => ?_, fun h => ?_⟩,
      fun hs => ⟨fun hscl hsda hm => ?_, fun hscl hsda hm => ?_, fun h => ?_⟩⟩
    · exact asEvent_setSeg hq (f := clearStretchExpires g) (clearStretchExpires_due hc hl ht)
    · exact asEvent_setSeg hq (f := clearingPulse g) (clearingPulse_samples hc hs hscl)
    · exact asEvent_setSeg hq (f := roundEnds g)
        (roundEnds_fails (roundDone_some hc (.inr ⟨hs, hscl, hsda⟩)) (.inr hsda))
    · exact asEvent_same hq (f := roundEnds g) (roundEnds_waits hc hs h)
    · refine asEvent_eq hq (f := roundEnds g) ?_
      rw [roundEnds_recovers (roundDone_some hc (.inl hs)) hscl hsda, recover_eq, if_pos hm]
    · refine asEvent_eq hq (f := roundEnds g) ?_
      rw [roundEnds_recovers (roundDone_some hc (.inl hs)) hscl hsda, recover_eq, if_neg hm]
    · exact asEvent_setSeg hq (f := roundEnds g) (roundEnds_fails (roundDone_some hc (.inl hs)) h)
  · rintro since u hc ht hr rfl
    refine asEvent_eq hq (f := idleWatchExpires g) ?_
    rw [idleWatchExpires_due hc ht, endLeftTransaction_some hr, modSeg, recover_eq,
      ← (endTransaction_only g g false s).mon]
  · refine asEvent_eq hq (f := idleWatchExpires g) ?_
    rw [idleWatchExpires_due hc ht, endLeftTransaction_none hr, modSeg, recover_eq]

end Sys2Proof.Machine
end

section
/-! PROOFS. Every command completes. -/

namespace Sys2Proof.Machine

/-! ## What every command does around its operation -/

/-- What is taken before a command (log 4): everything owed before an event, the request in hand before a step that an
edge has brought about, nothing before the other rows. -/
def takenBefore (c : Instr) (s : State) : State :=
  if isEvent c then settle s else if isOwed c then answerInHand s else s

theorem takenBefore_event {c : Instr} (h : isEvent c = true) (s : State) : takenBefore c s = settle s := by
  simp [takenBefore, h]

theorem takenBefore_owed {c : Instr} (he : isEvent c = false) (ho : isOwed c = true) (s : State) :
    takenBefore c s = answerInHand s := by
  simp [takenBefore, he, ho]

theorem takenBefore_other {c : Instr} (he : isEvent c = false) (ho : isOwed c = false) (s : State) :
    takenBefore c s = s := by
  simp [takenBefore, he, ho]

/-- What is taken before a command is not owed again. -/
theorem takenBefore_idem (c : Instr) (s : State) : takenBefore c (takenBefore c s) = takenBefore c s := by
  unfold takenBefore
  split
  · exact settle_idem s
  · split
    · exact answerInHand_idem s
    · rfl

theorem takenBefore_pending (c : Instr) (s : State) : (takenBefore c s).pending = s.pending := by
  unfold takenBefore
  repeat' split
  all_goals simp

theorem takenBefore_now (c : Instr) (s : State) : (takenBefore c s).now = s.now := by
  unfold takenBefore
  repeat' split
  all_goals simp

/-- No row is both an event and a step that an edge has brought about. -/
theorem isEvent_of_isOwed {c : Instr} (h : isOwed c = true) : isEvent c = false := by
  cases c with
  | addressAck | writeByteAck | readByte | lengthByte | arbitrationLoss | respAddressByte | windowWriteByte
  | windowReadByte | mailWriteByte | mailReadByte => rfl
  | _ => cases h

/-- A command takes what is owed before it, then ends in the next state an operation answers. The operation keeps the
time and the commands that wait, and leaves the lines looked at, but for a release of RST (R86, logs 1 to 4 and 8). -/
structure CompletesBy (c : Instr) (f : State → State) : Prop where
  runs : ∀ s, exec c s = .next (f (takenBefore c s))
  pending : ∀ s, (f s).pending = s.pending
  now : ∀ s, (f s).now = s.now
  watched : (∀ p, c ≠ .rstRelease p) → ∀ s, watchLines (f s) = f s

/-- An operation followed by a look at the lines. -/
theorem CompletesBy.watching {c : Instr} {f : State → State}
    (runs : ∀ s, exec c s = .next (watchLines (f (takenBefore c s)))) (pending : ∀ s, (f s).pending = s.pending)
    (now : ∀ s, (f s).now = s.now) : CompletesBy c (fun s => watchLines (f s)) :=
  ⟨runs, fun s => (watchLines_pending _).trans (pending s), fun s => (watchLines_now _).trans (now s),
    fun _ s => watchLines_idem (f s)⟩

theorem CompletesBy.event {c : Instr} {f : State → State} (he : isEvent c = true) (runs : exec c = asEvent f)
    (pending : ∀ s, (f s).pending = s.pending) (now : ∀ s, (f s).now = s.now) :
    CompletesBy c (fun s => watchLines (f s)) :=
  .watching (fun s => by rw [runs, takenBefore_event he, asEvent]) pending now

theorem CompletesBy.owed {c : Instr} {f : State → State} (ho : isOwed c = true) (runs : exec c = asOwed f)
    (pending : ∀ s, (f s).pending = s.pending) (now : ∀ s, (f s).now = s.now) :
    CompletesBy c (fun s => watchLines (f s)) :=
  .watching (fun s => by rw [runs, takenBefore_owed (isEvent_of_isOwed ho) ho, asOwed]) pending now

theorem CompletesBy.request {c : Instr} {f : State → State} (he : isEvent c = false) (ho : isOwed c = false)
    (runs : exec c = asRequest f) (pending : ∀ s, (f s).pending = s.pending) (now : ∀ s, (f s).now = s.now) :
    CompletesBy c (fun s => watchLines (f s)) :=
  .watching (fun s => by rw [runs, takenBefore_other he ho, asRequest]) pending now

/-- A row that answers the request in hand with its code. -/
theorem CompletesBy.answers {c : Instr} {code : Byte} {f : Request → Deferral → State → State}
    (he : isEvent c = false) (ho : isOwed c = false) (runs : exec c = asRequest (withRequest code f))
    (pending : ∀ r d s, (f r d s).pending = s.pending) (now : ∀ r d s, (f r d s).now = s.now) :
    CompletesBy c (fun s => watchLines (withRequest code f s)) :=
  .request he ho runs (withRequest_pending code pending) (withRequest_now code now)

/-! ## Resets -/

/-- No quiet-low interval runs on an engine at its reset values, which is OFF (R86, R98). -/
theorem watchLines_atReset {s : State} (h : ∀ g, ∃ scl sda, s.seg g = Segment.atReset scl sda) : watchLines s = s := by
  rw [watchLines_eq_iff]
  intro g
  obtain ⟨scl, sda, hg⟩ := h g
  rw [hg]
  rfl

theorem watchLines_fullReset (c : Cause) (p : Straps) (s : State) : watchLines (fullReset c p s) = fullReset c p s :=
  watchLines_atReset fun g => ⟨_, _, seg_fullReset c p s g⟩

theorem watchLines_holdReset (c : Cause) (s : State) : watchLines (holdReset c s) = holdReset c s :=
  watchLines_atReset fun g => ⟨_, _, seg_holdReset c s g⟩

theorem watchLines_powerUp (b : Bool) (p : Straps) (s : State) : watchLines (powerUp b p s) = powerUp b p s := by
  cases b with
  | true => exact watchLines_holdReset .powerOn s
  | false => exact watchLines_fullReset .powerOn p s

/-! ## Every row -/

/-- Every row of the table is an operation of this kind. -/
theorem exec_completes (c : Instr) : ∃ f, CompletesBy c f := by
  cases c with
  | powerOn b p =>
    exact ⟨powerUp b p, fun _ => rfl, powerUp_pending b p, powerUp_now b p, fun _ => watchLines_powerUp b p⟩
  | rstLow => exact ⟨rstFalls, fun _ => rfl, rstFalls_pending, rstFalls_now, fun _ s => watchLines_holdReset _ s⟩
  | rstRelease p =>
    exact ⟨rstRises p, fun _ => rfl, rstRises_pending p, rstRises_now p, fun h => absurd rfl (h p)⟩
  | rxByte b => exact ⟨_, .event rfl rfl (receive_pending b) (receive_now b)⟩
  | rxFramingError => exact ⟨_, .event rfl rfl enterHunt_pending enterHunt_now⟩
  | rxGapTimeout => exact ⟨_, .event rfl rfl gapExpires_pending gapExpires_now⟩
  | requestTaken => exact ⟨_, .event rfl rfl takeRequest_pending takeRequest_now⟩
  | duplicateRequest => exact ⟨_, .request rfl rfl rfl settleDuplicate_pending settleDuplicate_now⟩
  | unknownRequest => exact ⟨_, .request rfl rfl rfl refuseUnknown_pending refuseUnknown_now⟩
  | devInfo => exact ⟨_, .answers rfl rfl rfl answerDevInfo_pending answerDevInfo_now⟩
  | devReset => exact ⟨_, .answers rfl rfl rfl answerDevReset_pending answerDevReset_now⟩
  | linkConfig => exact ⟨_, .answers rfl rfl rfl answerLinkConfig_pending answerLinkConfig_now⟩
  | segConfig => exact ⟨_, .answers rfl rfl rfl answerSegConfig_pending answerSegConfig_now⟩
  | segStatus => exact ⟨_, .answers rfl rfl rfl answerSegStatus_pending answerSegStatus_now⟩
  | segFlush => exact ⟨_, .answers rfl rfl rfl answerSegFlush_pending answerSegFlush_now⟩
  | segReset => exact ⟨_, .answers rfl rfl rfl answerSegReset_pending answerSegReset_now⟩
  | jobSubmit => exact ⟨_, .answers rfl rfl rfl answerJobSubmit_pending answerJobSubmit_now⟩
  | jobCancel => exact ⟨_, .answers rfl rfl rfl answerJobCancel_pending answerJobCancel_now⟩
  | jobQuery => exact ⟨_, .answers rfl rfl rfl answerJobQuery_pending answerJobQuery_now⟩
  | respSet => exact ⟨_, .answers rfl rfl rfl answerRespSet_pending answerRespSet_now⟩
  | winWrite => exact ⟨_, .answers rfl rfl rfl answerWinWrite_pending answerWinWrite_now⟩
  | winRead => exact ⟨_, .answers rfl rfl rfl answerWinRead_pending answerWinRead_now⟩
  | mailPost => exact ⟨_, .answers rfl rfl rfl answerMailPost_pending answerMailPost_now⟩
  | mailWithdraw => exact ⟨_, .answers rfl rfl rfl answerMailWithdraw_pending answerMailWithdraw_now⟩
  | txFrameStart => exact ⟨_, .event rfl rfl startFrame_pending startFrame_now⟩
  | txFrameEnd p => exact ⟨_, .event rfl rfl (endFrame_pending p) (endFrame_now p)⟩
  | resendTimerExpiry => exact ⟨_, .event rfl rfl resendExpires_pending resendExpires_now⟩
  | startSeen g m => exact ⟨_, .event rfl rfl (startSeen_pending g m) (startSeen_now g m)⟩
  | stopSeen g => exact ⟨_, .event rfl rfl (stopSeen_pending g) (stopSeen_now g)⟩
  | sclFallWhileFree g => exact ⟨_, .event rfl rfl (sclFallsWhileFree_pending g) (sclFallsWhileFree_now g)⟩
  | busIdleWindowExpiry g => exact ⟨_, .event rfl rfl (windowExpires_pending g) (windowExpires_now g)⟩
  | startDecision g => exact ⟨_, .event rfl rfl (decideStart_pending g) (decideStart_now g)⟩
  | addressAck g => exact ⟨_, .owed rfl rfl (addressAck_pending g) (addressAck_now g)⟩
  | writeByteAck g => exact ⟨_, .owed rfl rfl (writeByteAck_pending g) (writeByteAck_now g)⟩
  | readByte g => exact ⟨_, .owed rfl rfl (readByte_pending g) (readByte_now g)⟩
  | lengthByte g => exact ⟨_, .owed rfl rfl (lengthByte_pending g) (lengthByte_now g)⟩
  | stopMade g => exact ⟨_, .event rfl rfl (makeStop_pending g) (makeStop_now g)⟩
  | arbitrationLoss g => exact ⟨_, .owed rfl rfl (arbitrationLoss_pending g) (arbitrationLoss_now g)⟩
  | stretchLimitExpiry g => exact ⟨_, .event rfl rfl (stretchExpires_pending g) (stretchExpires_now g)⟩
  | backoffEnd g => exact ⟨_, .event rfl rfl (backoffEnds_pending g) (backoffEnds_now g)⟩
  | holdLimitExpiry g => exact ⟨_, .event rfl rfl (holdExpires_pending g) (holdExpires_now g)⟩
  | respAddressByte g =>
    exact ⟨_, .owed (f := fun s => respAddressByte g (arbitrationLoss g s)) rfl rfl (fun _ => by simp) (fun _ => by simp)⟩
  | windowWriteByte g => exact ⟨_, .owed rfl rfl (windowWriteByte_pending g) (windowWriteByte_now g)⟩
  | windowReadByte g => exact ⟨_, .owed rfl rfl (windowReadByte_pending g) (windowReadByte_now g)⟩
  | mailWriteByte g => exact ⟨_, .owed rfl rfl (mailWriteByte_pending g) (mailWriteByte_now g)⟩
  | mailReadByte g => exact ⟨_, .owed rfl rfl (mailReadByte_pending g) (mailReadByte_now g)⟩
  | mailWaitExpiry g => exact ⟨_, .event rfl rfl (mailWaitExpires_pending g) (mailWaitExpires_now g)⟩
  | stuckDetection g => exact ⟨_, .event rfl rfl (stuckDetected_pending g) (stuckDetected_now g)⟩
  | clearWaitExpiry g => exact ⟨_, .event rfl rfl (clearWaitExpires_pending g) (clearWaitExpires_now g)⟩
  | clearingRoundEnd g => exact ⟨_, .event rfl rfl (roundEnds_pending g) (roundEnds_now g)⟩
  | clearStretchExpiry g => exact ⟨_, .event rfl rfl (clearStretchExpires_pending g) (clearStretchExpires_now g)⟩
  | idleWatchExpiry g => exact ⟨_, .event rfl rfl (idleWatchExpires_pending g) (idleWatchExpires_now g)⟩
  | lineEdge g e => exact ⟨_, .event rfl rfl (lineEdge_pending g e) (lineEdge_now g e)⟩
  | clearingPulse g => exact ⟨_, .event rfl rfl (clearingPulse_pending g) (clearingPulse_now g)⟩

/-- To take what is owed and then run the command is to run the command. -/
theorem exec_takenBefore (c : Instr) (s : State) : exec c s = exec c (takenBefore c s) := by
  obtain ⟨f, hf⟩ := exec_completes c
  rw [hf.runs, hf.runs, takenBefore_idem]

/-- Settles O3: each row runs one operation on what is left once what is owed before it has been taken. -/
theorem everyCommandCompletes : Obligations.EveryCommandCompletes := by
  refine ⟨fun c s => ?_, fun c s he => ?_, fun c s ho => ?_, fun c s t hc e => ?_⟩
  · obtain ⟨f, hf⟩ := exec_completes c
    exact ⟨_, hf.runs s, (hf.pending _).trans (takenBefore_pending c s), (hf.now _).trans (takenBefore_now c s)⟩
  · rw [← takenBefore_event he]
    exact exec_takenBefore c s
  · rw [← takenBefore_owed (isEvent_of_isOwed ho) ho]
    exact exec_takenBefore c s
  · obtain ⟨f, hf⟩ := exec_completes c
    have ht : f (takenBefore c s) = t := Host.Outcome.next.inj ((hf.runs s).symm.trans e)
    exact ht ▸ hf.watched hc _

end Sys2Proof.Machine
end

section
/-! PROOFS. SEG_FLUSH. -/

namespace Sys2Proof.Machine

/-! ## SEG_FLUSH -/

theorem refuses_iff {x : Segment} : x.refuses = true ↔ x.cfg.enable = false ∨ x.disabling = true := by
  simp [Segment.refuses]

/-- A flush finds the hold of the engine in its state open: the hold begins its stop, whose drive of SDA discards the
quiet-low interval (R86, R140). -/
theorem flushHold_open {g : SegId} {s : State} {h : Hold} (hi : (s.seg g).init = .held h) (hc : h.closing = none) :
    flushHold g s =
      s.setSeg g
        { s.seg g with
          drvScl := false, drvSda := true, quiet := none
          init := .held { h with closing := some .order, lowSince := some s.now } } := by
  simp only [flushHold, hi, hc]
  rfl

/-- A flush that finds no open hold leaves the initiator alone (R140). -/
theorem flushHold_none {g : SegId} {s : State} (h : ∀ k, (s.seg g).init = .held k → k.closing ≠ none) :
    flushHold g s = s := by
  unfold flushHold
  split
  · rename_i k hk
    split
    · rfl
    · rename_i hc
      exact absurd hc (h k hk)
  · rfl

theorem holdOpen_held {i : Initiator} {h : Hold} (hi : i = .held h) (hc : h.closing = none) : i.holdOpen = true := by
  simp [hi, Initiator.holdOpen, hc]

theorem holdOpen_none {i : Initiator} (h : ∀ k, i = .held k → k.closing ≠ none) : i.holdOpen = false := by
  cases i with
  | held k => simpa [Initiator.holdOpen] using Option.isSome_iff_ne_none.mpr (h k rfl)
  | _ => rfl

/-- The answer to a SEG_FLUSH that is not refused: the queue is flushed first, then the hold (R139, R140). -/
theorem answerSegFlush_taken {r : Request} {g : SegId} {s : State} (hp : r.params = [indexByte g])
    (hr : (s.seg g).refuses = false) (d : Deferral) :
    answerSegFlush r d s =
      answer r d .ok [byteOf (s.seg g).queue.length, flagByte (s.seg g).init.holdOpen]
        (flushHold g (flushQueue g s)) := by
  simp [answerSegFlush, hp, segParams_indexByte, hr]

/-- Settles O26: the flush of the queue touches no initiator, so that the hold it leaves is the one it found. -/
theorem segFlushEmptiesQueue : Obligations.SegFlushEmptiesQueue := by
  refine ⟨fun _ _ => ⟨rfl, fun _ _ => rfl⟩, fun s r age h => ⟨fun hl => ?_, fun b hp hb => ?_, ?_⟩⟩
  · exact asRequest_replies h (f := answerSegFlush) fun d => by simp only [answerSegFlush, segParams_length hl]
  · exact asRequest_replies h (f := answerSegFlush) fun d => by simp only [answerSegFlush, hp, segParams_range hb]
  · rintro g x hp rfl
    refine ⟨fun hoff => ?_, fun he hd => ?_⟩
    · refine asRequest_replies h (f := answerSegFlush) fun d => ?_
      simp only [answerSegFlush, hp, segParams_indexByte, refuses_iff.mpr hoff, if_true]
    have hr : (s.seg g).refuses = false := by simp [Segment.refuses, he, hd]
    refine ⟨fun k hk hc => (asRequest_inHand h answerSegFlush).trans ?_,
      fun hno => (asRequest_inHand h answerSegFlush).trans ?_⟩
    · have hq : ((flushQueue g s).seg g).init = .held k := by rw [flushQueue_seg]; exact hk
      rw [answerSegFlush_taken hp hr, holdOpen_held hk hc, flushHold_open hq hc, flushQueue_seg, flushQueue_now]
      rfl
    · have hq : ∀ k, ((flushQueue g s).seg g).init = .held k → k.closing ≠ none := by rwa [flushQueue_seg]
      rw [answerSegFlush_taken hp hr, holdOpen_none hno, flushHold_none hq]
      rfl

end Sys2Proof.Machine
end

section
/-! PROOFS. MAIL_POST. -/

namespace Sys2Proof.Machine

/-! ## MAIL_POST -/

/-- An engine with other entries has the same lines to look at. -/
theorem watchLines_setEntry {s : State} (h : watchLines s = s) (g : SegId) (e : EntryId) (n : Entry) :
    watchLines (s.setSeg g ((s.seg g).setEntry e n)) = s.setSeg g ((s.seg g).setEntry e n) := by
  have hx := (watchLines_eq_iff s).mp h g
  rw [watchLines_setSeg h]
  exact congrArg (fun y : Segment => s.setSeg g (y.setEntry e n)) hx

/-- A message more in an outbox of an engine is a block more that the engine's outboxes hold (R117). -/
theorem outboxBlocks_setEntry_append (x : Segment) (e : EntryId) (m : List Byte) :
    (x.setEntry e { x.entry e with outbox := (x.entry e).outbox ++ [m] }).outboxBlocks = x.outboxBlocks + 1 := by
  unfold Segment.outboxBlocks
  simp only [entry_setEntry_eq]
  match e with
  | 0 | 1 | 2 | 3 => simp; omega

/-- The blocks held rise by one where one engine's outboxes hold one more (R37). -/
theorem heldBlocks_setSeg_succ {s : State} {g : SegId} {x : Segment} (h : x.outboxBlocks = (s.seg g).outboxBlocks + 1) :
    heldBlocks (s.setSeg g x) = heldBlocks s + 1 := by
  have hjobs : slotBlocks (s.setSeg g x) = slotBlocks s := rfl
  unfold heldBlocks
  rw [hjobs]
  generalize (slots.map (slotBlocks s)).sum = jobs
  match g with
  | 0 | 1 | 2 | 3 => simp [seg_setSeg_ne, h]; omega

theorem serveWaiting_outboxBlocks (e : EntryId) (first : Byte) (x : Segment) :
    (serveWaiting e first x).outboxBlocks = x.outboxBlocks := by
  unfold serveWaiting
  dsimp only
  repeat' split
  all_goals rfl

/-- The service of a waiting read looks at no entry and changes none. -/
theorem serveWaiting_setEntry (e k : EntryId) (first : Byte) (x : Segment) (n : Entry) :
    serveWaiting e first (x.setEntry k n) = (serveWaiting e first x).setEntry k n := by
  cases hr : x.resp with
  | mailWait t l since =>
    have hk : (x.setEntry k n).resp = .mailWait t l since := hr
    by_cases ht : t.entry = e
    · cases since <;> simp only [serveWaiting, hr, hk, if_pos ht] <;> rfl
    · simp only [serveWaiting, hr, hk, if_neg ht]
  | _ =>
    have hk : (x.setEntry k n).resp = x.resp := rfl
    simp only [serveWaiting, hk, hr]

/-- An accepted post replaces one engine: a waiting read is served, and the message stands in the outbox (R123, R128). -/
theorem post_eq (g : SegId) (e : EntryId) (bytes : List Byte) (s : State) :
    post g e bytes s =
      s.setSeg g
        ((serveWaiting e (bytes.headD 0xFF) (s.seg g)).setEntry e
          { (s.seg g).entry e with outbox := ((s.seg g).entry e).outbox ++ [bytes] }) := by
  simp [post, modEntry, modSeg, serveWaiting_setEntry]

/-- A post takes one free block (R37, R123). -/
theorem freeBlocks_post (g : SegId) (e : EntryId) (bytes : List Byte) (s : State) :
    freeBlocks (post g e bytes s) = freeBlocks s - 1 := by
  have h : heldBlocks (post g e bytes s) = heldBlocks s + 1 := by
    rw [post_eq, ← serveWaiting_setEntry]
    exact heldBlocks_setSeg_succ ((serveWaiting_outboxBlocks _ _ _).trans (outboxBlocks_setEntry_append _ e bytes))
  simp only [freeBlocks, h]
  omega

/-! ### The read that waits -/

theorem serveWaiting_other {x : Segment} {e : EntryId} (h : ∀ t l since, x.resp = .mailWait t l since → t.entry ≠ e)
    (first : Byte) : serveWaiting e first x = x := by
  unfold serveWaiting
  split
  · rename_i t l since hr
    exact if_neg (h t l since hr)
  · rfl

/-- The clock is held: it is released behind the first bit, which discards the quiet-low interval if it is 0 (R86,
R128). -/
theorem serveWaiting_held {x : Segment} {e : EntryId} {t : Transaction} {l since : Nat}
    (hr : x.resp = .mailWait t l (some since)) (ht : t.entry = e) (first : Byte) :
    serveWaiting e first x =
      { x.took with
        drvScl := false, drvSda := bitLow first 1, quiet := if bitLow first 1 then none else x.quiet
        resp :=
          .selectedRead { t with access := .mailRead true 1 0 false, sender := first, preloaded := false } } := by
  simp only [serveWaiting, hr, if_pos ht]
  rfl

/-- The clock is not held yet: the first byte stands loaded for the falling edge (log 14). -/
theorem serveWaiting_unheld {x : Segment} {e : EntryId} {t : Transaction} {l : Nat}
    (hr : x.resp = .mailWait t l none) (ht : t.entry = e) (first : Byte) :
    serveWaiting e first x =
      { x with
        resp := .selectedRead { t with access := .mailRead true 1 0 false, sender := first, preloaded := true } } := by
  simp only [serveWaiting, hr, if_pos ht]
  rfl

theorem waits_other {x : Segment} {e : EntryId} (h : ∀ t l since, x.resp = .mailWait t l since → t.entry ≠ e) :
    x.waits e = false := by
  unfold Segment.waits
  split
  · rename_i t l since hr
    exact decide_eq_false (h t l since hr)
  · rfl

theorem waits_mailWait {x : Segment} {e : EntryId} {t : Transaction} {l : Nat} {since : Option Nat}
    (hr : x.resp = .mailWait t l since) (ht : t.entry = e) : x.waits e = true := by
  simp [Segment.waits, hr, ht]

/-! ### The answer -/

/-- The answer to a MAIL_POST that is accepted (R123, R189). -/
theorem answerMailPost_accepted {r : Request} {g : SegId} {e : EntryId} {bytes : List Byte} {s : State}
    (hp : mailPostParams r.params = .ok (g, e, bytes)) (hm : ((s.seg g).entry e).mode = .mailbox)
    (hl : ((s.seg g).entry e).outbox.length < 4) (hb : 0 < freeBlocks s) (d : Deferral) :
    answerMailPost r d s =
      answer r d .ok
        [byteOf (((s.seg g).entry e).outbox.length + 1), flagByte ((s.seg g).waits e), byteOf (freeBlocks s - 1)]
        (post g e bytes s) := by
  have hfull : ¬Config.outboxMessages ≤ ((s.seg g).entry e).outbox.length := Nat.not_le.mpr hl
  simp [answerMailPost, hp, hm, hfull, Nat.ne_of_gt hb, freeBlocks_post]

/-- Settles O35: a post that is accepted takes one block, and what it does beside the outbox is decided by the read that
waits. -/
theorem mailPostAppends : Obligations.MailPostAppends := by
  intro s r age h
  refine ⟨fun rc hp => asRequest_replies h (f := answerMailPost) fun d => by simp only [answerMailPost, hp], ?_⟩
  rintro g e bytes n x hp rfl rfl
  refine ⟨fun hm => ?_, fun hm => ⟨fun hl => ?_, fun hl => ⟨fun hb => ?_, fun hb => ?_⟩⟩⟩
  · exact asRequest_replies h (f := answerMailPost) fun d => by simp [answerMailPost, hp, hm]
  · have hfull : Config.outboxMessages ≤ ((s.seg g).entry e).outbox.length := hl
    exact asRequest_replies h (f := answerMailPost) fun d => by simp [answerMailPost, hp, hm, hfull]
  · have hfull : ¬Config.outboxMessages ≤ ((s.seg g).entry e).outbox.length := Nat.not_le.mpr hl
    refine asRequest_replies h (f := answerMailPost) fun d => ?_
    simp only [answerMailPost, hp, hm, hfull, hb, ne_eq, not_true_eq_false, if_false, if_true]
    rfl
  have ha := answerMailPost_accepted hp hm hl hb
  refine ⟨fun hno => ?_, fun t l since hr ht => ?_, fun t l hr ht => ?_⟩
  · refine (asRequest_inHand h answerMailPost).trans ?_
    rw [ha, post_eq, serveWaiting_other hno, waits_other hno, watchLines_answer (watchLines_setEntry h.2.2.2 _ _ _)]
    rfl
  · refine asRequest_setSeg h (f := answerMailPost) fun d => ?_
    rw [ha, post_eq, serveWaiting_held hr ht, waits_mailWait hr ht]
    rfl
  · refine asRequest_setSeg h (f := answerMailPost) fun d => ?_
    rw [ha, post_eq, serveWaiting_unheld hr ht, waits_mailWait hr ht]
    rfl

end Sys2Proof.Machine
end

section
/-! PROOFS. RESP_SET, WIN_WRITE and WIN_READ. -/

namespace Sys2Proof.Machine

/-- A request row whose answer is a reply and one address entry replaced. -/
theorem asRequest_setEntry {s : State} {code : Byte} {r : Request} {age : Nat} (h : InHandIs s code r age)
    {f : Request → Deferral → State → State} {rc : ReplyCode} {data : List Byte} {g : SegId} {e : EntryId} {n : Entry}
    (hf : ∀ d, f r d s = answer r d rc data (s.setSeg g ((s.seg g).setEntry e n))) :
    asRequest (withRequest code f) s =
      .next (answer r { tag := r.tag, age := age } rc data (s.setSeg g ((s.seg g).setEntry e n))) := by
  obtain ⟨_, _, _, hw⟩ := id h
  rw [asRequest_inHand h, hf, watchLines_answer (watchLines_setEntry hw g e n)]

/-! ## WIN_READ -/

theorem readRun_eq_map (a n : Nat) (m : Memory) :
    Memory.readRun a n m = (List.range n).map (fun k => Memory.read (a + k) m) := by
  induction n generalizing a with
  | zero => rfl
  | succ n ih =>
    have shift : (fun k => Memory.read (a + 1 + k) m) = (fun k => Memory.read (a + k) m) ∘ Nat.succ :=
      funext fun k => congrArg (Memory.read · m) (by simp only [Nat.succ_eq_add_one]; omega)
    rw [Memory.readRun, ih, shift, List.range_succ_eq_map, List.map_cons, List.map_map, Nat.add_zero]

theorem numberOf_of_within {lo hi : Nat} {b : Byte} (h : within lo hi b.toNat) : numberOf lo hi b = some b.toNat :=
  if_pos h

theorem numberOf_of_not_within {lo hi : Nat} {b : Byte} (h : ¬within lo hi b.toNat) : numberOf lo hi b = none :=
  if_neg h

theorem winReadParams_length {bs : List Byte} (h : bs.length ≠ 4) : winReadParams bs = .error .badRequest := by
  match bs with
  | [] | [_] | [_, _] | [_, _, _] => rfl
  | [_, _, _, _] => exact absurd rfl h
  | _ :: _ :: _ :: _ :: _ :: _ => rfl

/-- The values are read in their order, and the first that is out of range refuses them all (R113, R182). -/
theorem winReadParams_range {bg be bo bl : Byte}
    (h : ¬(bg.toNat < 4 ∧ be.toNat < 4 ∧ within 1 64 bl.toNat ∧ bo.toNat + bl.toNat ≤ 64)) :
    winReadParams [bg, be, bo, bl] = .error .badParam := by
  unfold winReadParams
  by_cases hg : bg.toNat < 4
  · by_cases he : be.toNat < 4
    · by_cases hl : within 1 64 bl.toNat
      · have hb : ¬bo.toNat + bl.toNat ≤ Config.windowBytes := fun hb => h ⟨hg, he, hl, hb⟩
        simp [indexOf, hg, he, numberOf_of_within hl, hb, orBadParam]
      · simp [indexOf, hg, he, numberOf_of_not_within hl, orBadParam]
    · simp [indexOf, hg, he, orBadParam]
  · simp [indexOf, hg, orBadParam]

theorem winReadParams_ok {g : SegId} {e : EntryId} {bo bl : Byte} (hl : within 1 64 bl.toNat)
    (hb : bo.toNat + bl.toNat ≤ 64) :
    winReadParams [indexByte g, indexByte e, bo, bl] = .ok (g, e, bo.toNat, bl.toNat) := by
  have hw : bo.toNat + bl.toNat ≤ Config.windowBytes := hb
  simp [winReadParams, indexOf_indexByte, numberOf_of_within hl, hw, orBadParam]

/-- Settles O34: the run of bytes that the reply carries is the window read index by index. -/
theorem winReadAnswers : Obligations.WinReadAnswers := by
  refine fun s r age h => ⟨fun hl => ?_, fun bg be bo bl hp => ⟨fun hbad => ?_, ?_⟩⟩
  · exact asRequest_replies h (f := answerWinRead) fun d => by simp only [answerWinRead, winReadParams_length hl]
  · exact asRequest_replies h (f := answerWinRead) fun d => by simp only [answerWinRead, hp, winReadParams_range hbad]
  · rintro g e rfl rfl hl hb
    exact asRequest_replies h (f := answerWinRead) fun d => by
      simp only [answerWinRead, hp, winReadParams_ok hl hb, readRun_eq_map]

/-! ## WIN_WRITE -/

section

variable {r : Request} {g : SegId} {e : EntryId} {offset : Nat} {bytes : List Byte} {s : State}
  (hp : winWriteParams r.params = .ok (g, e, offset, bytes))
include hp

/-- Only one write of an entry is deferred at a time (R114). -/
theorem answerWinWrite_busy (hd : ((s.seg g).entry e).deferred ≠ none) (d : Deferral) :
    answerWinWrite r d s = answer r d .busy [] s := by
  simp [answerWinWrite, hp, Option.isSome_iff_ne_none.mpr hd]

/-- A write behind a transaction in flight keeps the request's reply with it (R114). -/
theorem answerWinWrite_defers (hd : ((s.seg g).entry e).deferred = none) (hf : (s.seg g).inFlight e = true)
    (d : Deferral) :
    answerWinWrite r d s =
      letGo
        (s.setSeg g
          ((s.seg g).setEntry e
            { (s.seg g).entry e with deferred := some { offset := offset, bytes := bytes, request := d } })) := by
  simp [answerWinWrite, hp, hd, hf, modEntry, modSeg]

theorem answerWinWrite_applies (hd : ((s.seg g).entry e).deferred = none) (hf : (s.seg g).inFlight e = false)
    (d : Deferral) :
    answerWinWrite r d s =
      answer r d .ok [flagByte false]
        (s.setSeg g
          ((s.seg g).setEntry e
            { (s.seg g).entry e with window := Memory.writeRun offset bytes ((s.seg g).entry e).window })) := by
  simp [answerWinWrite, hp, hd, hf, modEntry, modSeg]

end

theorem watchLines_letGo {s : State} (h : watchLines s = s) : watchLines (letGo s) = letGo s :=
  watchLines_of_segs h rfl rfl

theorem read_writeRun_inside {a k : Nat} {bs : List Byte} {m : Memory} (h : Memory.wf m) (hk : k < bs.length) :
    Memory.read (a + k) (Memory.writeRun a bs m) = bs[k] := by
  simp [read_writeRun h.1, hk]

theorem read_writeRun_outside {a k : Nat} {bs : List Byte} {m : Memory} (h : Memory.wf m)
    (hk : k < a ∨ a + bs.length ≤ k) : Memory.read k (Memory.writeRun a bs m) = Memory.read k m := by
  rw [read_writeRun h.1]
  rcases hk with below | above
  · rw [if_neg (by omega)]
  · rw [List.getElem?_eq_none (by omega), Option.getD_none, ite_self]

/-- Settles O33: the deferred write decides first, then the transaction in flight; a write that is applied is a run of
writes inside the window. -/
theorem winWriteAppliesOrDefers : Obligations.WinWriteAppliesOrDefers := by
  intro s r age h
  refine ⟨fun rc hp => asRequest_replies h (f := answerWinWrite) fun d => by simp only [answerWinWrite, hp], ?_⟩
  rintro g e offset bytes n hp rfl hwf
  refine ⟨fun hd => ?_, fun hd hf => ?_, fun hd hf => ?_⟩
  · exact asRequest_replies h (f := answerWinWrite) (answerWinWrite_busy hp hd)
  · obtain ⟨_, _, _, hw⟩ := id h
    refine (asRequest_inHand h answerWinWrite).trans ?_
    rw [answerWinWrite_defers hp hd hf, watchLines_letGo (watchLines_setEntry hw g e _)]
    rfl
  · exact ⟨Memory.writeRun offset bytes ((s.seg g).entry e).window,
      asRequest_setEntry h (f := answerWinWrite) (answerWinWrite_applies hp hd hf),
      writeRun_wf (winWrite_range hp) hwf, fun k hk => read_writeRun_inside hwf hk,
      fun a ha => read_writeRun_outside hwf ha⟩

/-! ## RESP_SET -/

theorem mem_entryIds (k : EntryId) : k ∈ entryIds := by
  revert k
  decide

theorem addressTaken_iff {x : Segment} {e : EntryId} {a : Byte} :
    x.addressTaken e a = true ↔ ∃ k, k ≠ e ∧ (x.entry k).enable = true ∧ (x.entry k).address = some a := by
  simp [Segment.addressTaken, mem_entryIds, and_assoc]

theorem duplicatesAddress_of_taken {x : Segment} {e k : EntryId} {w : EntrySettings} (hw : w.enable = true) (hk : k ≠ e)
    (hen : (x.entry k).enable = true) (ha : (x.entry k).address = some w.address) :
    duplicatesAddress x e (some w) = true := by
  rw [duplicatesAddress, hw, addressTaken_iff.mpr ⟨k, hk, hen, ha⟩, Bool.and_self]

theorem duplicatesAddress_of_free {x : Segment} {e : EntryId} {w : EntrySettings}
    (h : w.enable = true → ∀ k, k ≠ e → (x.entry k).enable = true → (x.entry k).address ≠ some w.address) :
    duplicatesAddress x e (some w) = false := by
  rw [duplicatesAddress, Bool.and_eq_false_imp]
  intro hw
  rw [Bool.eq_false_iff, ne_eq, addressTaken_iff]
  exact fun ⟨k, hk, hen, ha⟩ => h hw k hk hen ha

section

variable {r : Request} {g : SegId} {e : EntryId} {v : Option EntrySettings} {s : State}
  (hp : respSetParams r.params = .ok (g, e, v))
include hp

theorem answerRespSet_busy (hf : (s.seg g).inFlight e = true) (d : Deferral) :
    answerRespSet r d s = answer r d .busy [] s := by
  simp only [answerRespSet, hp, hf, if_true]

theorem answerRespSet_dupAddr (hf : (s.seg g).inFlight e = false) (hdup : duplicatesAddress (s.seg g) e v = true)
    (d : Deferral) : answerRespSet r d s = answer r d .dupAddr [] s := by
  simp [answerRespSet, hp, hf, hdup]

/-- An accepted RESP_SET replaces the one entry by the entry `m` that its settings or its CLEAR leave; the reply carries
`m` and the count of messages discarded (R102, R189). -/
theorem answerRespSet_accepted {m : Entry} (hf : (s.seg g).inFlight e = false)
    (hdup : duplicatesAddress (s.seg g) e v = false) (hm : settledEntry v ((s.seg g).entry e) = m) (d : Deferral) :
    answerRespSet r d s =
      answer r d .ok (entryData m (((s.seg g).entry e).outbox.length - m.outbox.length))
        (s.setSeg g ((s.seg g).setEntry e m)) := by
  subst hm
  simp [answerRespSet, hp, hf, hdup, modEntry, modSeg]

end

theorem setEntryTo_sameMode {w : EntrySettings} {n : Entry} (h : w.mode = n.mode) :
    setEntryTo w n =
      { n with
        enable := w.enable, address := some w.address, notify := w.notify, protectFrom := w.protectFrom,
        mailWaitMs := w.mailWaitMs } := if_pos h.symm

theorem setEntryTo_newMode {w : EntrySettings} {n : Entry} (h : w.mode ≠ n.mode) :
    setEntryTo w n =
      { n with
        enable := w.enable, address := some w.address, mode := w.mode, notify := w.notify, protectFrom := w.protectFrom,
        mailWaitMs := w.mailWaitMs, pointer := 0, outbox := [] } := if_neg h.symm

/-- Settles O32: after the two refusals, a SET in the mode the entry has, a SET that changes it, and a CLEAR each replace
the one entry; the last two empty its outbox, so the reply counts every message of it as discarded. -/
theorem respSetChangesEntry : Obligations.RespSetChangesEntry := by
  intro s r age h
  refine ⟨fun rc hp => asRequest_replies h (f := answerRespSet) fun d => by simp only [answerRespSet, hp], ?_⟩
  rintro g e v n hp rfl
  refine ⟨fun hf => asRequest_replies h (f := answerRespSet) (answerRespSet_busy hp hf), fun hf => ⟨?_, ?_, ?_⟩⟩
  · rintro w k rfl hw hk hen ha
    exact asRequest_replies h (f := answerRespSet)
      (answerRespSet_dupAddr hp hf (duplicatesAddress_of_taken hw hk hen ha))
  · rintro w rfl hfree
    have hdup := duplicatesAddress_of_free hfree
    refine ⟨fun hm => asRequest_setEntry h (f := answerRespSet) fun d => ?_,
      fun hm => asRequest_setEntry h (f := answerRespSet) fun d => ?_⟩
    · rw [answerRespSet_accepted hp hf hdup (setEntryTo_sameMode hm), Nat.sub_self, hm]
      rfl
    · rw [answerRespSet_accepted hp hf hdup (setEntryTo_newMode hm)]
      rfl
  · rintro rfl
    exact asRequest_setEntry h (f := answerRespSet) (answerRespSet_accepted hp hf rfl rfl)

end Sys2Proof.Machine
end

section
/-! PROOFS. MAIL_WITHDRAW, and the wait for mail. -/

namespace Sys2Proof.Machine

/-! ## MAIL_WITHDRAW -/

theorem mailWithdrawParams_length {bs : List Byte} (h : bs.length ≠ 2) :
    mailWithdrawParams bs = .error .badRequest := by
  match bs with
  | [] | [_] => rfl
  | [_, _] => exact absurd rfl h
  | _ :: _ :: _ :: _ => rfl

theorem mailWithdrawParams_range {bg be : Byte} (h : ¬(bg.toNat < 4 ∧ be.toNat < 4)) :
    mailWithdrawParams [bg, be] = .error .badParam := by
  unfold mailWithdrawParams
  by_cases hg : bg.toNat < 4
  · have he : ¬be.toNat < 4 := fun he => h ⟨hg, he⟩
    simp [indexOf, hg, he, orBadParam]
  · simp [indexOf, hg, orBadParam]

theorem mailWithdrawParams_ok (g : SegId) (e : EntryId) :
    mailWithdrawParams [indexByte g, indexByte e] = .ok (g, e) := by
  simp [mailWithdrawParams, indexOf_indexByte, orBadParam]

section

variable {r : Request} {g : SegId} {e : EntryId} {s : State} (hp : r.params = [indexByte g, indexByte e])
include hp

theorem answerMailWithdraw_entryMode (hm : ((s.seg g).entry e).mode = .window) (d : Deferral) :
    answerMailWithdraw r d s = answer r d .entryMode [] s := by
  simp [answerMailWithdraw, hp, mailWithdrawParams_ok, hm]

/-- A withdrawal from a mailbox entry replaces its outbox by the messages kept; the reply carries the counts removed and
kept (R124, R189). -/
theorem answerMailWithdraw_accepted {kept : List (List Byte)} (hm : ((s.seg g).entry e).mode = .mailbox)
    (hk : keptMessages ((s.seg g).bound e) ((s.seg g).entry e).outbox = kept) (d : Deferral) :
    answerMailWithdraw r d s =
      answer r d .ok [byteOf (((s.seg g).entry e).outbox.length - kept.length), byteOf kept.length]
        (s.setSeg g ((s.seg g).setEntry e { (s.seg g).entry e with outbox := kept })) := by
  subst hk
  simp [answerMailWithdraw, hp, mailWithdrawParams_ok, hm, modEntry, modSeg]

end

theorem keptMessages_unbound (q : List (List Byte)) : keptMessages false q = [] := rfl

theorem keptMessages_bound (m : List Byte) (rest : List (List Byte)) : keptMessages true (m :: rest) = [m] := rfl

/-- Settles O36: after the refusals, the messages kept are none where the entry has no bound one, and the head of the
outbox where it has. -/
theorem mailWithdrawRemoves : Obligations.MailWithdrawRemoves := by
  refine fun s r age h => ⟨fun hl => ?_, fun bg be hp hbad => ?_, ?_⟩
  · exact asRequest_replies h (f := answerMailWithdraw) fun d => by
      simp only [answerMailWithdraw, mailWithdrawParams_length hl]
  · exact asRequest_replies h (f := answerMailWithdraw) fun d => by
      simp only [answerMailWithdraw, hp, mailWithdrawParams_range hbad]
  · rintro g e n hp rfl
    refine ⟨fun hm => asRequest_replies h (f := answerMailWithdraw) (answerMailWithdraw_entryMode hp hm),
      fun hm => ⟨fun hb => ?_, fun m rest hb hq => ?_⟩⟩
    · have hk : keptMessages ((s.seg g).bound e) ((s.seg g).entry e).outbox = [] := by
        rw [hb, keptMessages_unbound]
      exact asRequest_setEntry h (f := answerMailWithdraw) (answerMailWithdraw_accepted hp hm hk)
    · have hk : keptMessages ((s.seg g).bound e) ((s.seg g).entry e).outbox = [m] := by
        rw [hb, hq, keptMessages_bound]
      have hremoved : ((s.seg g).entry e).outbox.length - [m].length = rest.length := by simp [hq]
      exact asRequest_setEntry h (f := answerMailWithdraw) fun d => by
        rw [answerMailWithdraw_accepted hp hm hk, hremoved]
        rfl

/-! ## The wait for mail -/

theorem mailWaitDue_held {x : Segment} {t : Transaction} {limitMs since : Nat}
    (hr : x.resp = .mailWait t limitMs (some since)) (now : Nat) :
    x.mailWaitDue? now = if since + limitMs * 100 ≤ now then some t else none := by
  simp only [Segment.mailWaitDue?, hr, reachedMs, reached, decide_eq_true_eq]
  rfl

/-- Settles O54: the wait is due exactly when its limit has been reached, and then its expiry acts. (`mailWaitExpires` alone
is the operation of the model.) -/
theorem mailWaitExpires_at_limit : Obligations.MailWaitExpires := by
  rintro g s x t limitMs since hq rfl hr
  refine ⟨fun ht => ?_, fun ht => ?_⟩
  · exact asEvent_setSeg hq (f := mailWaitExpires g) (by rw [mailWaitExpires, mailWaitDue_held hr, if_pos ht]; rfl)
  · exact asEvent_same hq (by rw [mailWaitExpires, mailWaitDue_held hr, if_neg (Nat.not_le.mpr ht)])

end Sys2Proof.Machine
end

section
/-! PROOFS. JOB_CANCEL. -/

namespace Sys2Proof.Machine

/-! ## The slot that an id names -/

theorem findJob_of_holdsId {s : State} {id : Word} {i : Slot} {j : Job} (h : HoldsId s id i j) :
    findJob s id = some i := by
  obtain ⟨hj, hid, hlowest⟩ := h
  rw [findJob, List.find?_eq_some_iff_getElem]
  refine ⟨by simp [hj, hid], i, by simp [slots], by simp [slots], fun k hk => ?_⟩
  have hlt : k < 32 := Nat.lt_trans hk i.isLt
  cases hb : s.job? ⟨k, hlt⟩ with
  | none => simp [slots, hb]
  | some b => simp [slots, hb, hlowest ⟨k, hlt⟩ hk b hb]

theorem findJob_of_noJob {s : State} {id : Word} (h : NoJob s id) : findJob s id = none := by
  refine List.find?_eq_none.mpr fun i _ => ?_
  cases hb : s.job? i with
  | none => simp
  | some b => simp [h i b hb]

theorem modJob_of_job {s : State} {i : Slot} {j : Job} (h : s.job? i = some j) (f : Job → Job) :
    modJob i f s = s.setJob i (some (f j)) := by
  rw [modJob, h, Option.map_some]

/-! ## JOB_CANCEL -/

theorem runsSlot_iff {n : Initiator} {i : Slot} : n.runsSlot i = true ↔ ∃ k, n = .running k ∧ k.slot = i := by
  cases n <;> simp [Initiator.runsSlot]

theorem answerJobCancel_noJob {r : Request} {id : Word} {s : State} (hp : jobIdParams r.params = .ok id)
    (h : NoJob s id) (d : Deferral) : answerJobCancel r d s = answer r d .notLive [] s := by
  simp only [answerJobCancel, hp, findJob_of_noJob h]

section

variable {r : Request} {id : Word} {i : Slot} {j : Job} {s : State} (hp : jobIdParams r.params = .ok id)
  (hj : HoldsId s id i j)
include hp hj

theorem answerJobCancel_finished {c : Completion} (hs : j.status = .finished c) (d : Deferral) :
    answerJobCancel r d s = answer r d .finished (cancelData j c.outcome false) s := by
  simp only [answerJobCancel, hp, findJob_of_holdsId hj, hj.1, hs]

theorem answerJobCancel_queued (hs : j.status = .queued) (d : Deferral) :
    answerJobCancel r d s = cancelQueued r d i j s := by
  simp only [answerJobCancel, hp, findJob_of_holdsId hj, hj.1, hs]

variable (hs : j.status = .current)
include hs

/-- A CURRENT job that the initiator is not RUNNING with waits between attempts (R135). -/
theorem answerJobCancel_waiting (hw : ∀ k, (s.seg j.seg).init = .running k → k.slot ≠ i) (d : Deferral) :
    answerJobCancel r d s = cancelWaiting r d i j s := by
  have hr : (s.seg j.seg).init.runsSlot i = false := by
    rw [Bool.eq_false_iff, ne_eq, runsSlot_iff]
    exact fun ⟨k, hk, hi⟩ => hw k hk hi
  simp only [answerJobCancel, hp, findJob_of_holdsId hj, hj.1, hs, hr, Bool.false_eq_true, if_false]

variable {k : Run} (hk : (s.seg j.seg).init = .running k) (hi : k.slot = i)
include hk hi

/-- The cancel of a RUNNING job waits behind no other (R136). -/
theorem answerJobCancel_running (d : Deferral) :
    answerJobCancel r d s =
      if j.cancelPending then answer r d .busy (wordBytes j.id) s else deferCancel d i s := by
  have hr : (s.seg j.seg).init.runsSlot i = true := runsSlot_iff.mpr ⟨k, hk, hi⟩
  simp only [answerJobCancel, hp, findJob_of_holdsId hj, hj.1, hs, hr, if_true]

end

/-- Settles O30: the slot that holds the id gives the job, its state gives the case, and a CURRENT job is RUNNING exactly
where the initiator of its segment runs its slot. -/
theorem jobCancelAnswers : Obligations.JobCancelAnswers := by
  intro s r age h
  obtain ⟨_, _, _, hw⟩ := id h
  refine ⟨fun rc hp => asRequest_replies h (f := answerJobCancel) fun d => by simp only [answerJobCancel, hp],
    fun id hp => ⟨fun hno => asRequest_replies h (f := answerJobCancel) (answerJobCancel_noJob hp hno), fun i j hj => ?_⟩⟩
  have taken := asRequest_inHand h answerJobCancel
  refine ⟨fun c hs => asRequest_replies h (f := answerJobCancel) (answerJobCancel_finished hp hj hs), fun hs => ?_,
    fun hs => ⟨fun hwait => ?_, fun k hk hi => ⟨fun hc => ?_, fun hc => ?_⟩⟩⟩
  · rw [answerJobCancel_queued hp hj hs] at taken
    exact taken
  · rw [answerJobCancel_waiting hp hj hs hwait, cancelWaiting, modJob_of_job hj.1] at taken
    exact taken
  · refine asRequest_replies h (f := answerJobCancel) fun d => ?_
    rw [answerJobCancel_running hp hj hs hk hi, if_pos hc]
  · rw [answerJobCancel_running hp hj hs hk hi, if_neg (Bool.eq_false_iff.mp hc), deferCancel, modJob_of_job hj.1,
      watchLines_letGo (watchLines_setJob hw i _)] at taken
    exact taken

end Sys2Proof.Machine
end

section
/-! PROOFS. The notice queue: ATTN, the resend timer, and the event records. -/

namespace Sys2Proof.Machine

/-- An event whose operation leaves the lines looked at is its operation alone. -/
theorem asEvent_watched {s t : State} (h : Quiescent s) {f : State → State} (hf : f s = t) (hw : watchLines t = t) :
    asEvent f s = .next t := by
  rw [asEvent_eq h hf, hw]

/-- An event whose outcome has the engines and the time of the state before is its operation alone. -/
theorem asEvent_engines {s t : State} (h : Quiescent s) {f : State → State} (hf : f s = t) (hs : t.segs = s.segs)
    (hn : t.now = s.now) : asEvent f s = .next t :=
  asEvent_watched h hf (watchLines_of_segs h.2 hs hn)

/-! ## ATTN -/

theorem attn_iff (s : State) : attn s = true ↔ s.notices.queue ≠ [] := by simp [attn]

theorem attn_of_nil {s : State} (h : s.notices.queue = []) : attn s = false := by simp [attn, h]

theorem joinNotice_queue (kind : NoticeKind) (source : Source) (payload : List Byte) (s : State) :
    (joinNotice kind source payload s).notices.queue =
      s.notices.queue ++ [{ seq := s.notices.next, kind := kind, source := source, payload := payload }] := rfl

/-- Settles O10: an entry that joins stands at the tail, and a full reset leaves RESTARTED in the queue. -/
theorem attnFollowsQueue : Obligations.AttnFollowsQueue := by
  refine ⟨attn_iff, fun _ _ => attn_of_nil, fun kind source payload s => ?_, fun _ _ _ => rfl⟩
  rw [attn_iff, joinNotice_queue]
  exact List.append_ne_nil_of_right_ne_nil _ (List.cons_ne_nil _ _)

/-! ## The resend timer -/

theorem resendDue_timer {s : State} {m : Timer} (h : s.notices.timer = some m) :
    resendDue s = true ↔ m.since + m.lenMs * 100 ≤ s.now := by
  rw [resendDue, h]
  exact decide_eq_true_iff

theorem resendDue_stopped {s : State} (h : s.notices.timer = none) : resendDue s = false := by simp [resendDue, h]

theorem resendExpires_early {s : State} (h : resendDue s = false) : resendExpires s = s := by
  simp [resendExpires, h]

theorem resendExpires_goesBack {s : State} (h : resendDue s = true) (hn : s.notices.expiries + 1 < 16) :
    resendExpires s =
      { s with
        notices :=
          { s.notices with
            expiries := s.notices.expiries + 1, sendPoint := 0,
            timer := some { since := s.now, lenMs := s.notices.resendMs } } } := by
  rw [resendExpires, if_pos h]
  exact if_pos hn

theorem resendExpires_silences {s : State} (h : resendDue s = true) (hn : 16 ≤ s.notices.expiries + 1) :
    resendExpires s =
      { s with notices := { s.notices with expiries := s.notices.expiries + 1, silent := true, timer := none } } := by
  rw [resendExpires, if_pos h]
  exact if_neg (Nat.not_lt.mpr hn)

/-- Settles O39: the run of the timer says whether the expiry is due, the expiry count which of the two follows it. -/
theorem resendExpiryGoesBack : Obligations.ResendExpiryGoesBack := by
  refine fun s h => ⟨fun m hm hdue => ?_, fun m hm hearly => ?_, fun hm => ?_⟩
  · have hd := (resendDue_timer hm).mpr hdue
    exact ⟨fun hn => asEvent_engines h (resendExpires_goesBack hd hn) rfl rfl,
      fun hn => asEvent_engines h (resendExpires_silences hd hn) rfl rfl⟩
  · have hd : resendDue s = false := by
      rw [Bool.eq_false_iff, ne_eq, resendDue_timer hm]
      exact Nat.not_le.mpr hearly
    exact asEvent_same h (resendExpires_early hd)
  · exact asEvent_same h (resendExpires_early (resendDue_stopped hm))

/-! ## A claim, and the fold into a summary -/

theorem claimEvent_joins (g : SegId) (ev : SegEvent) {s : State} (h : 0 < freeRecords s) :
    claimEvent g ev s = joinNotice ev.kind .record (ev.payload g) s := if_pos h

theorem claimEvent_folds (g : SegId) (ev : SegEvent) {s : State} (h : freeRecords s = 0) :
    claimEvent g ev s = s.setSeg g { s.seg g with summary := foldEvent ev (s.seg g).summary } :=
  if_neg (by omega)

/-- The bits of a run of window indices, in wrap order, are added to a dirty set and none is taken from it (R150). -/
theorem getLsbD_addRun (first : Fin 64) (n : Nat) (d : BitVec 64) {i : Nat} (hi : i < 64) :
    (addRun first n d).getLsbD i = true ↔ d.getLsbD i = true ∨ ∃ k < n, i = (first.val + k) % 64 := by
  induction n generalizing d with
  | zero => simp [addRun]
  | succ n ih =>
    have hbit : (1#64 <<< ((first.val + n) % 64)).getLsbD i = true ↔ i = (first.val + n) % 64 := by
      simp only [BitVec.getLsbD_shiftLeft, BitVec.getLsbD_one, hi, decide_true, Bool.true_and, Bool.and_eq_true,
        Bool.not_eq_true', decide_eq_false_iff_not, decide_eq_true_eq]
      omega
    rw [addRun, ih, Config.windowBytes, BitVec.getLsbD_or, Bool.or_eq_true, hbit, or_assoc,
      Nat.exists_lt_succ_right, or_comm (a := i = _)]

/-- A fold into one entry leaves the other entries of a summary alone. -/
theorem entries_set_ne (es : Vector EntrySummary 4) {e k : EntryId} (y : EntrySummary) (h : k ≠ e) :
    (es.set e y)[k] = es[k] :=
  Vector.getElem_set_ne e.isLt k.isLt fun he => h (Fin.ext he.symm)

theorem entries_set_self (es : Vector EntrySummary 4) (e : EntryId) (y : EntrySummary) : (es.set e y)[e] = y :=
  Vector.getElem_set_self e.isLt

/-! ## A release -/

/-- The search for a summary to serve starts after the segment last served and ends with it (R151). -/
theorem summaryToServe_eq (s : State) :
    summaryToServe s =
      ((List.finRange 4).map (s.notices.lastServed + 1 + ·)).find? (fun g => (s.seg g).summary.holds) := by
  have order : ∀ l : SegId, [l + 1, l + 2, l + 3, l] = (List.finRange 4).map (l + 1 + ·) := by decide
  rw [summaryToServe, order]

theorem summaryToServe_none {s : State} (h : ∀ g, (s.seg g).summary.holds = false) : summaryToServe s = none :=
  List.find?_eq_none.mpr fun g _ => by simp [h g]

theorem summaryToServe_first {s : State} {k : SegId}
    (hk : (s.seg (s.notices.lastServed + 1 + k)).summary.holds = true)
    (hbefore : ∀ j < k, (s.seg (s.notices.lastServed + 1 + j)).summary.holds = false) :
    summaryToServe s = some (s.notices.lastServed + 1 + k) := by
  rw [summaryToServe_eq, List.find?_eq_some_iff_getElem]
  refine ⟨hk, k, by simp, by simp, fun j hj => ?_⟩
  have hlt : j < 4 := Nat.lt_trans hj k.isLt
  simp [hbefore ⟨j, hlt⟩ hj]

theorem releaseRecord_none {s : State} (h : summaryToServe s = none) : releaseRecord s = s := by
  rw [releaseRecord, h]

theorem releaseRecord_some {s : State} {g : SegId} (h : summaryToServe s = some g) :
    releaseRecord s =
      { s.setSeg g { s.seg g with summary := Summary.empty } with
        notices :=
          { s.notices with
            queue :=
              s.notices.queue ++
                [{ seq := s.notices.next, kind := .segSummary, source := .record,
                   payload := summaryPayload g (s.seg g).summary }]
            next := s.notices.next + 1
            lastServed := g } } := by
  rw [releaseRecord, h]
  rfl

/-- Settles O12: a claim joins the queue or folds, one case for each event, and a release serves the first summary that
the search in wrap order finds. -/
theorem eventPoolClaimsAndReleases : Obligations.EventPoolClaimsAndReleases := by
  refine ⟨fun g ev s h => claimEvent_joins g ev h, fun g ev s h => ⟨_, claimEvent_folds g ev h, ?_⟩,
    fun s h => releaseRecord_none (summaryToServe_none h),
    fun k s hk hbefore => releaseRecord_some (summaryToServe_first hk hbefore)⟩
  cases ev with
  | busStuck | busRecovered | holdLapsed => rfl
  | windowWritten e first count =>
    refine ⟨rfl, fun k hk => entries_set_ne _ _ hk, ?_⟩
    dsimp only [foldEvent]
    rw [entries_set_self]
    exact ⟨rfl, rfl, fun i hi => getLsbD_addRun first count _ hi⟩
  | mailTaken e | mailEmptyRead e =>
    exact ⟨rfl, fun k hk => entries_set_ne _ _ hk, entries_set_self _ e _⟩

end Sys2Proof.Machine
end

section
/-! PROOFS. DEV_INFO and LINK_CONFIG. -/

namespace Sys2Proof.Machine

/-- A request row whose answer is a reply on a state with the lines looked at. -/
theorem asRequest_answer {s u : State} {code : Byte} {r : Request} {age : Nat} (h : InHandIs s code r age)
    {f : Request → Deferral → State → State} {rc : ReplyCode} {data : List Byte}
    (hf : ∀ d, f r d s = answer r d rc data u) (hu : watchLines u = u) :
    asRequest (withRequest code f) s = .next (answer r { tag := r.tag, age := age } rc data u) := by
  rw [asRequest_inHand h, hf, watchLines_answer hu]

/-! ## DEV_INFO -/

theorem noParams_some {bs : List Byte} (h : bs ≠ []) : noParams bs = .error .badRequest := by
  cases bs with
  | nil => exact absurd rfl h
  | cons => rfl

/-! ## LINK_CONFIG -/

theorem linkConfigParams_length {bs : List Byte} (h : bs.length ≠ 3) : linkConfigParams bs = .error .badRequest := by
  match bs with
  | [] | [_] | [_, _] => rfl
  | [_, _, _] => exact absurd rfl h
  | _ :: _ :: _ :: _ :: _ => rfl

theorem linkConfigParams_ok {w hi lo : Byte} (hw : within 1 8 w.toNat) (hms : within 5 500 (wordOf hi lo).toNat) :
    linkConfigParams [w, hi, lo] = .ok (w.toNat, (wordOf hi lo).toNat) := by
  have hms' : 5 ≤ (wordOf hi lo).toNat ∧ (wordOf hi lo).toNat ≤ 500 := hms
  simp [linkConfigParams, numberOf_of_within hw, hms', orBadParam]

/-- The window is read first, and either value out of range refuses both (R177, R182). -/
theorem linkConfigParams_range {w hi lo : Byte} (h : ¬(within 1 8 w.toNat ∧ within 5 500 (wordOf hi lo).toNat)) :
    linkConfigParams [w, hi, lo] = .error .badParam := by
  by_cases hw : within 1 8 w.toNat
  · have hms : ¬(5 ≤ (wordOf hi lo).toNat ∧ (wordOf hi lo).toNat ≤ 500) := fun hms => h ⟨hw, hms⟩
    simp [linkConfigParams, numberOf_of_within hw, hms, orBadParam]
  · simp [linkConfigParams, numberOf_of_not_within hw, orBadParam]

/-- A field of two bytes is written as it was read. -/
theorem wordBytes_wordOf (hi lo : Byte) : wordBytes (wordOf hi lo) = [hi, lo] := by
  rw [wordBytes, wordOf, BitVec.extractLsb'_append_eq_left, BitVec.extractLsb'_append_eq_right]

theorem countBytes_wordOf (hi lo : Byte) : countBytes (wordOf hi lo).toNat = [hi, lo] := by
  rw [countBytes, BitVec.ofNat_toNat, BitVec.setWidth_eq, wordBytes_wordOf]

/-- An accepted LINK_CONFIG answers the values as it read them, then the number of entries sent and not acknowledged
(R177, R189). -/
theorem answerLinkConfig_accepted {r : Request} {w hi lo : Byte} (hp : r.params = [w, hi, lo])
    (hw : within 1 8 w.toNat) (hms : within 5 500 (wordOf hi lo).toNat) (d : Deferral) (s : State) :
    answerLinkConfig r d s =
      answer r d .ok [w, hi, lo, byteOf s.notices.sentLimit]
        { s with notices := { s.notices with window := w.toNat, resendMs := (wordOf hi lo).toNat } } := by
  have hb : byteOf w.toNat = w := (BitVec.ofNat_toNat 8 w).trans (BitVec.setWidth_eq w)
  simp only [answerLinkConfig, hp, linkConfigParams_ok hw hms, countBytes_wordOf, hb, List.cons_append, List.nil_append]

/-- Settles O22: the readers of the parameters give the case, and a LINK_CONFIG that is accepted touches no engine. -/
theorem devInfoAndLinkConfigAnswer : Obligations.DevInfoAndLinkConfigAnswer := by
  refine fun s r age => ⟨fun h => ⟨fun hp => ?_, fun hp => ?_⟩,
    fun h => ⟨fun hl => ?_, fun w hi lo hp => ⟨fun hok => ?_, fun hbad => ?_⟩⟩⟩
  · exact asRequest_replies h (f := answerDevInfo) fun d => by simp only [answerDevInfo, hp]; rfl
  · exact asRequest_replies h (f := answerDevInfo) fun d => by simp only [answerDevInfo, noParams_some hp]
  · exact asRequest_replies h (f := answerLinkConfig) fun d => by
      simp only [answerLinkConfig, linkConfigParams_length hl]
  · obtain ⟨_, _, _, hwatched⟩ := id h
    exact asRequest_answer h (f := answerLinkConfig) (fun d => answerLinkConfig_accepted hp hok.1 hok.2 d s)
      (watchLines_of_segs hwatched rfl rfl)
  · exact asRequest_replies h (f := answerLinkConfig) fun d => by
      simp only [answerLinkConfig, hp, linkConfigParams_range hbad]

end Sys2Proof.Machine
end

section
/-! PROOFS. Frames sent on TXD. -/

namespace Sys2Proof.Machine

/-! ## The offered notice -/

theorem offered_silent {n : Notices} (h : n.silent = true) : n.offered = none := if_pos h

/-- The notice offered is the one at the send point, a resend or a new send below the window (R153). -/
theorem offered_sendable {n : Notices} (hs : n.silent = false)
    (h : n.sendPoint < n.sentLimit ∨ (n.sendPoint = n.sentLimit ∧ n.sentLimit < n.window)) :
    n.offered = n.queue[n.sendPoint]? := by
  simp only [Notices.offered, hs, Bool.false_eq_true, if_false]
  rcases h with hlt | hnew
  · exact if_pos hlt
  · rw [if_neg (by omega), if_pos hnew]

theorem offered_unsendable {n : Notices}
    (h : ¬(n.sendPoint < n.sentLimit ∨ (n.sendPoint = n.sentLimit ∧ n.sentLimit < n.window))) : n.offered = none := by
  obtain ⟨hlt, hnew⟩ := not_or.mp h
  simp only [Notices.offered, hlt, hnew, if_false, ite_self]

/-- No notice stands at a send point behind the tail. -/
theorem offered_none_of_length {n : Notices} (h : n.queue.length ≤ n.sendPoint) : n.offered = none := by
  cases ho : n.offered with
  | none => rfl
  | some a => exact absurd (offered_next ho) (Nat.not_lt.mpr h)

/-! ## The arbiter -/

theorem startFrame_busy {s : State} (h : s.link.tx ≠ none) : startFrame s = s :=
  if_pos (Option.isSome_iff_ne_none.mpr h)

section

variable {s : State} (htx : s.link.tx = none)
include htx

theorem startFrame_reply {p : Reply} {rest : List Reply} (hr : s.link.replies = p :: rest) :
    startFrame s = startReply p s := by
  simp [startFrame, htx, hr]

variable (hr : s.link.replies = [])
include hr

theorem startFrame_notice {n : Notice} (ho : s.notices.offered = some n) : startFrame s = startNotice n s := by
  simp [startFrame, htx, hr, ho]

theorem startFrame_none (ho : s.notices.offered = none) : startFrame s = s := by
  simp [startFrame, htx, hr, ho]

end

/-- Where a notice can be sent, the sent limit rises exactly if the send point stands at it (R153, R154). -/
theorem startNotice_eq {n : Notice} {s : State} (h : s.notices.sendPoint ≤ s.notices.sentLimit) :
    startNotice n s =
      { s with
        notices :=
          { s.notices with
            sentLimit := max s.notices.sentLimit (s.notices.sendPoint + 1)
            sendPoint := s.notices.sendPoint + 1
            timer :=
              if s.notices.timer = none then some { since := s.now, lenMs := s.notices.resendMs }
              else s.notices.timer }
        link :=
          { s.link with
            tx :=
              some
                { frame := frameOf (0x82 :: wordBytes n.seq ++ noticeByte n.kind :: n.payload)
                  isReply := false
                  devReset := false } } } := by
  have limit : (if s.notices.sendPoint < s.notices.sentLimit then s.notices.sentLimit else s.notices.sentLimit + 1) =
      max s.notices.sentLimit (s.notices.sendPoint + 1) := by split <;> omega
  have timer : (if s.notices.timer.isSome then s.notices.timer else freshTimer s) =
      if s.notices.timer = none then some { since := s.now, lenMs := s.notices.resendMs } else s.notices.timer := by
    cases s.notices.timer <;> rfl
  rw [startNotice, limit, timer]
  rfl

/-! ## TXD -/

theorem frameOf_layout (body : List Byte) :
    frameOf body =
      0xB7 :: byteOf body.length ::
        (body ++
          [(crc (byteOf body.length :: body)).extractLsb' 8 8, (crc (byteOf body.length :: body)).extractLsb' 0 8]) :=
  rfl

theorem txdLevels_none {s : State} (h : s.link.tx = none) : txdLevels s = [] := by rw [txdLevels, h]

theorem txdLevels_some {s : State} {t : Transmission} (h : s.link.tx = some t) : txdLevels s = frameLevels t.frame := by
  rw [txdLevels, h]

/-- Settles O37: a reply goes first, then the offered notice if there is one. -/
theorem frameStarts : Obligations.FrameStarts := by
  refine ⟨frameOf_layout, fun s h => ⟨by rw [txdIdle, h]; rfl, txdLevels_none h⟩, fun s t h => txdLevels_some h,
    fun s hq => ⟨fun h => asEvent_same hq (startFrame_busy h),
      fun p rest htx hr => asEvent_engines hq (startFrame_reply htx hr) rfl rfl, fun htx hr => ⟨fun hno => ?_, ?_⟩⟩⟩
  · refine asEvent_same hq (startFrame_none htx hr ?_)
    rcases hno with hs | hend | hpast
    · exact offered_silent hs
    · exact offered_none_of_length hend
    · exact offered_unsendable (by omega)
  · intro n hs hn hsend
    have ho : s.notices.offered = some n := (offered_sendable hs hsend).trans hn
    exact asEvent_engines hq ((startFrame_notice htx hr ho).trans (startNotice_eq (by omega))) rfl rfl

end Sys2Proof.Machine
end

section
/-! PROOFS. Bytes and frames on RXD. -/

namespace Sys2Proof.Machine

/-! ## The levels of RXD -/

/-- Eight data bits and a stop bit of either level after a start bit: the byte, or a framing error (R162). -/
theorem rxdCommands_byte (b : Byte) (stop : Bool) (ls : List Bool) :
    rxdCommands
        (false :: b.getLsbD 0 :: b.getLsbD 1 :: b.getLsbD 2 :: b.getLsbD 3 :: b.getLsbD 4 :: b.getLsbD 5 :: b.getLsbD 6 ::
          b.getLsbD 7 :: stop :: ls) =
      (if stop then .rxByte b else .rxFramingError) :: rxdCommands ls := by
  have bits : byteOfLevels [b.getLsbD 0, b.getLsbD 1, b.getLsbD 2, b.getLsbD 3, b.getLsbD 4, b.getLsbD 5, b.getLsbD 6,
      b.getLsbD 7] = b := byteOfLevels_bits b
  rw [rxdCommands_start, bits]

/-- Bytes sent back to back arrive as they are. -/
theorem rxdCommands_frameLevels (bs : List Byte) : rxdCommands (frameLevels bs) = bs.map .rxByte := by
  induction bs with
  | nil => rfl
  | cons b bs ih => rw [frameLevels_cons, rxdCommands_byteLevels, ih, List.map_cons]

/-- A break is a framing error on each byte time. -/
theorem rxdCommands_break (n : Nat) :
    rxdCommands (List.replicate (10 * n) false) = List.replicate n .rxFramingError := by
  induction n with
  | zero => rfl
  | succ n ih =>
    have byteTime : List.replicate (10 * (n + 1)) false = List.replicate 10 false ++ List.replicate (10 * n) false := by
      rw [List.replicate_append_replicate]
      congr 1
      omega
    rw [byteTime, List.replicate_succ (n := n), ← ih]
    exact rxdCommands_start false false false false false false false false false _

/-! ## The check of a frame -/

theorem woken_link (s : State) : (woken s).link = s.link := by
  unfold woken
  split <;> rfl

/-- The second CRC byte completes the frame, which is checked after the receiver has returned to HUNT (R164). -/
theorem receive_check {s : State} {len high : Byte} {body : List Byte} (hr : s.resetHeld = none)
    (hrx : s.link.rx = .check len body (some high)) (low : Byte) :
    receive low s = checkFrame len body (wordOf high low) (hunting s) := by
  simp only [receive, hr, receiveByte, hrx]
  rfl

theorem validFrame_iff {len : Byte} {body : List Byte} {c : Word} :
    validFrame len body c = true ↔
      crc (len :: body) = c ∧
        ((body.head? = some 0x01 ∧ 6 ≤ body.length) ∨ (body.head? = some 0x02 ∧ body.length = 3)) := by
  simp [validFrame, kindRequest, kindAck]

theorem checkFrame_discards {len : Byte} {body : List Byte} {c : Word} (s : State) (h : validFrame len body c = false) :
    checkFrame len body c s = s := by
  simp [checkFrame, h]

theorem checkFrame_ack {len a1 a0 : Byte} {c : Word} (s : State) (h : crc (len :: [0x02, a1, a0]) = c) :
    checkFrame len [0x02, a1, a0] c s = acknowledge (wordOf a1 a0) (woken s) :=
  if_pos (validFrame_iff.mpr ⟨h, .inr ⟨rfl, rfl⟩⟩)

theorem checkFrame_request {len tag valid a1 a0 code : Byte} {params : List Byte} {c : Word} (s : State)
    (h : crc (len :: 0x01 :: tag :: valid :: a1 :: a0 :: code :: params) = c) :
    checkFrame len (0x01 :: tag :: valid :: a1 :: a0 :: code :: params) c s =
      placeRequest
        { tag := tag, ackValid := valid, ackSeq := wordOf a1 a0, code := code, params := params, crc := c } (woken s) :=
  if_pos (validFrame_iff.mpr ⟨h, .inl ⟨rfl, by simp⟩⟩)

/-- A request joins the inbound buffer if it has room and no DEV_RESET is taken (R166, R178). -/
theorem placeRequest_woken (r : Request) (s : State) :
    placeRequest r (woken s) =
      if s.link.resetTaken = false ∧ s.link.inbound.length < 4 then
        { woken s with link := { s.link with inbound := s.link.inbound ++ [r] } }
      else woken s := by
  simp only [placeRequest, woken_link, Config.inboundFrames, Bool.and_eq_true, Bool.not_eq_true', decide_eq_true_eq]

/-- Settles O7: the levels bring the byte or the framing error, and the byte that completes a frame has it checked. -/
theorem frameIsCheckedOrDiscarded : Obligations.FrameIsCheckedOrDiscarded := by
  refine ⟨rxdCommands_high, rxdCommands_byte, rxdCommands_frameLevels, rxdCommands_break, fun s hq =>
    ⟨asEvent_engines hq (t := hunting s) rfl rfl rfl, fun len body high low hr hrx => ?_⟩⟩
  have hw : watchLines (hunting s) = hunting s := watchLines_of_segs hq.2 rfl rfl
  have checked : ∀ t, checkFrame len body (wordOf high low) (hunting s) = t → exec (.rxByte low) s = .next t :=
    fun t ht => asEvent_watched hq ((receive_check hr hrx low).trans ht) (ht ▸ watchLines_checkFrame hw len body _)
  refine ⟨fun hcrc => checked _ (checkFrame_discards _ ?_), fun hcrc => ⟨?_, ?_, fun hreq hack => ?_⟩⟩
  · rw [Bool.eq_false_iff, ne_eq, validFrame_iff]
    exact fun h => hcrc h.1
  · rintro a1 a0 rfl
    exact checked _ (checkFrame_ack _ hcrc)
  · rintro tag valid a1 a0 code params rfl
    exact checked _ ((checkFrame_request _ hcrc).trans (placeRequest_woken _ _))
  · refine checked _ (checkFrame_discards _ ?_)
    rw [Bool.eq_false_iff, ne_eq, validFrame_iff]
    rintro ⟨_, ⟨hkind, hsize⟩ | ⟨hkind, hsize⟩⟩
    · exact hreq.elim (absurd hkind) (Nat.not_lt.mpr hsize)
    · exact hack.elim (absurd hkind) (absurd hsize)

end Sys2Proof.Machine
end

section
/-! PROOFS. The receiver and its gap timer. -/

namespace Sys2Proof.Machine

/-! ## A byte in each state of the receiver -/

section

variable {s : State} (hr : s.resetHeld = none)
include hr

/-- Between frames only the sync byte is taken (R164). -/
theorem receive_hunt (hrx : s.link.rx = .hunt) (b : Byte) :
    receive b s = if b = 0xB7 then receiving .length s else s := by
  simp only [receive, hr, receiveByte, hrx]
  rfl

/-- A length out of range discards the frame (R164). -/
theorem receive_length (hrx : s.link.rx = .length) (b : Byte) :
    receive b s = if 3 ≤ b.toNat ∧ b.toNat ≤ 250 then receiving (.body b []) s else hunting s := by
  simp only [receive, hr, receiveByte, hrx]
  rfl

/-- The body ends with as many bytes as the length says (R164). -/
theorem receive_body {len : Byte} {got : List Byte} (hrx : s.link.rx = .body len got) (b : Byte) :
    receive b s =
      if got.length + 1 < len.toNat then receiving (.body len (got ++ [b])) s
      else receiving (.check len (got ++ [b]) none) s := by
  simp only [receive, hr, receiveByte, hrx, ← Nat.not_le, ite_not]
  rfl

theorem receive_checkHigh {len : Byte} {got : List Byte} (hrx : s.link.rx = .check len got none) (b : Byte) :
    receive b s = receiving (.check len got (some b)) s := by
  simp only [receive, hr, receiveByte, hrx]
  rfl

/-- A byte leaves the lines looked at. -/
theorem watchLines_receive (hw : watchLines s = s) (b : Byte) : watchLines (receive b s) = receive b s := by
  have moved : ∀ rx, watchLines (receiving rx s) = receiving rx s := fun _ => watchLines_of_segs hw rfl rfl
  have dropped : watchLines (hunting s) = hunting s := watchLines_of_segs hw rfl rfl
  match hrx : s.link.rx with
  | .hunt =>
    rw [receive_hunt hr hrx]
    split
    · exact moved _
    · exact hw
  | .length =>
    rw [receive_length hr hrx]
    split
    · exact moved _
    · exact dropped
  | .body len got =>
    rw [receive_body hr hrx]
    split <;> exact moved _
  | .check len got none =>
    rw [receive_checkHigh hr hrx]
    exact moved _
  | .check len got (some high) =>
    rw [receive_check hr hrx]
    exact watchLines_checkFrame dropped len got _

end

/-- With nothing owed and RST high a delivered byte is what the receiver makes of it. -/
theorem exec_rxByte {s : State} (hq : Quiescent s) (hr : s.resetHeld = none) (b : Byte) :
    exec (.rxByte b) s = .next (receive b s) :=
  asEvent_watched hq rfl (watchLines_receive hr hq.2 b)

/-- Settles O6: one equation for each state of the receiver, and a checked frame leaves it in HUNT. -/
theorem receiverAdvances : Obligations.ReceiverAdvances := by
  refine ⟨fun _ _ _ => rfl, fun b s hq hr => ?_⟩
  rw [exec_rxByte hq hr]
  match hrx : s.link.rx with
  | .hunt => exact congrArg _ (receive_hunt hr hrx b)
  | .length => exact congrArg _ (receive_length hr hrx b)
  | .body len got => exact congrArg _ (receive_body hr hrx b)
  | .check len got none => exact congrArg _ (receive_checkHigh hr hrx b)
  | .check len got (some high) =>
    obtain ⟨hunts, _⟩ := checkFrame_receiver len got (wordOf high b) (hunting s)
    exact ⟨congrArg _ (receive_check hr hrx b), hunts⟩

/-! ## The gap timer -/

/-- Two milliseconds are 200 count steps, whatever the rate. -/
theorem gapDue_iff (s : State) : gapDue s = true ↔ ∃ since, s.link.gapSince = some since ∧ since + 200 ≤ s.now := by
  cases h : s.link.gapSince with
  | none => simp [gapDue, h]
  | some since =>
    rw [gapDue, h]
    simp only [Option.some.injEq, exists_eq_left']
    exact decide_eq_true_iff

/-- A byte restarts the gap timer within a frame, stops it at the end of one, or is passed over between frames (R165). -/
theorem receive_gapSince {s : State} (hr : s.resetHeld = none) (b : Byte) :
    ((receive b s).link.rx ≠ .hunt ∧ (receive b s).link.gapSince = some s.now) ∨
      ((receive b s).link.rx = .hunt ∧ (receive b s).link.gapSince = none) ∨
      (s.link.rx = .hunt ∧ receive b s = s) := by
  match hrx : s.link.rx with
  | .hunt =>
    rw [receive_hunt hr hrx]
    split
    · exact .inl ⟨nofun, rfl⟩
    · exact .inr (.inr ⟨rfl, rfl⟩)
  | .length =>
    rw [receive_length hr hrx]
    split
    · exact .inl ⟨nofun, rfl⟩
    · exact .inr (.inl ⟨rfl, rfl⟩)
  | .body len got =>
    rw [receive_body hr hrx]
    split <;> exact .inl ⟨nofun, rfl⟩
  | .check len got none =>
    rw [receive_checkHigh hr hrx]
    exact .inl ⟨nofun, rfl⟩
  | .check len got (some high) =>
    rw [receive_check hr hrx]
    exact .inr (.inl (checkFrame_receiver len got (wordOf high b) (hunting s)))

theorem gapExpires_due {s : State} (h : gapDue s = true) : gapExpires s = hunting s := if_pos h

theorem gapExpires_early {s : State} (h : gapDue s = false) : gapExpires s = s := by simp [gapExpires, h]

/-- Settles O8: the timer follows the receiver, and its expiry hunts exactly when it is due. -/
theorem gapTimer : Obligations.GapTimer := by
  refine ⟨gapDue_iff, fun b s t hq hr ht => ?_, fun s hq hd => asEvent_engines hq (gapExpires_due hd) rfl rfl,
    fun s hq hd => asEvent_same hq (gapExpires_early hd), fun b s hq hr hrx => ?_⟩
  · rw [exec_rxByte hq hr] at ht
    obtain rfl := Host.Outcome.next.inj ht
    rcases receive_gapSince hr b with ⟨within, restarted⟩ | ⟨hunts, stopped⟩ | ⟨hunted, same⟩
    · exact ⟨fun _ => restarted, fun _ hunts => absurd hunts within⟩
    · exact ⟨fun within => absurd hunts within, fun _ _ => stopped⟩
    · rw [same]
      exact ⟨fun within => absurd hunted within, fun within => absurd hunted within⟩
  · rw [exec_rxByte hq hr, receive_hunt hr hrx]

end Sys2Proof.Machine
end

section
/-! PROOFS. The taking of a request. -/

namespace Sys2Proof.Machine

/-! ## The condition of each case -/

/-- A request is new when no cache entry has its tag, its code and its CRC (R170). -/
theorem duplicateOf_none_iff {r : Request} {c : List CacheEntry} :
    duplicateOf r c = none ↔ ∀ e ∈ c, ¬(e.tag = r.tag ∧ e.code = r.code ∧ e.crc = r.crc) := by
  simp only [duplicateOf, List.find?_eq_none, Bool.and_eq_true, beq_iff_eq, and_assoc]

theorem hasPlace_iff (l : Link) : l.hasPlace = true ↔ l.replies.length + l.reserved < 8 := decide_eq_true_iff

theorem hasPlace_full {l : Link} (h : 8 ≤ l.replies.length + l.reserved) : l.hasPlace = false := by
  rw [Bool.eq_false_iff, ne_eq, hasPlace_iff]
  exact Nat.not_lt.mpr h

theorem mayTake_fresh {r : Request} {l : Link} (h : duplicateOf r l.cache = none) : l.mayTake r = l.hasPlace := by
  rw [Link.mayTake, h]

theorem mayTake_pending {r : Request} {l : Link} {e : CacheEntry} (h : duplicateOf r l.cache = some e)
    (he : e.reply = none) : l.mayTake r = true := by
  obtain ⟨tag, code, crc, reply, age⟩ := e
  cases he
  rw [Link.mayTake, h]

theorem mayTake_complete {r : Request} {l : Link} {e : CacheEntry} {body : List Byte}
    (h : duplicateOf r l.cache = some e) (he : e.reply = some body) : l.mayTake r = l.hasPlace := by
  obtain ⟨tag, code, crc, reply, age⟩ := e
  cases he
  rw [Link.mayTake, h]

/-! ## The head leaves the inbound buffer -/

theorem applyAckField_link (r : Request) (s : State) : (applyAckField r s).link = s.link := by
  unfold applyAckField
  split
  · exact acknowledge_link _ s
  · rfl

theorem watchLines_applyAckField {s : State} (h : watchLines s = s) (r : Request) :
    watchLines (applyAckField r s) = applyAckField r s := by
  unfold applyAckField
  split
  · exact watchLines_acknowledge h _
  · exact h

/-- The place made for a new entry, the tests as propositions (R169). -/
theorem makeRoom_eq (tag : Byte) (c : List CacheEntry) :
    makeRoom tag c =
      if ∃ e ∈ c, e.tag = tag then c.filter (fun e => e.tag != tag)
      else if c.length < 16 then c
      else c.eraseP (fun e => e.reply.isSome) :=
  ite_congr (by simp only [List.any_eq_true, beq_iff_eq]) (fun _ => rfl) (fun _ => rfl)

/-- The state with the head off the inbound buffer and its ack field applied (R168). -/
def headApplied (r : Request) (rest : List Request) (s : State) : State :=
  applyAckField r { s with link := { s.link with inbound := rest } }

theorem headApplied_eq (r : Request) (rest : List Request) (s : State) :
    headApplied r rest s =
      if r.ackValid = 0x01 then acknowledge r.ackSeq { s with link := { s.link with inbound := rest } }
      else { s with link := { s.link with inbound := rest } } := rfl

/-- A request that is no duplicate is recorded. -/
theorem takeHead_fresh {r : Request} {s : State} (h : duplicateOf r s.link.cache = none) (rest : List Request) :
    takeHead r rest s =
      { headApplied r rest s with link := recordRequest r { s.link with inbound := rest } } := by
  simp only [takeHead, applyAckField_link, h]
  rfl

/-- A duplicate is kept with the entry it repeats. -/
theorem takeHead_duplicate {r : Request} {s : State} {e : CacheEntry} (h : duplicateOf r s.link.cache = some e)
    (rest : List Request) :
    takeHead r rest s =
      { headApplied r rest s with link := holdDuplicate r e { s.link with inbound := rest } } := by
  simp only [takeHead, applyAckField_link, h]
  rfl

theorem watchLines_takeHead {s : State} (h : watchLines s = s) (r : Request) (rest : List Request) :
    watchLines (takeHead r rest s) = takeHead r rest s := by
  have applied : watchLines (headApplied r rest s) = headApplied r rest s :=
    watchLines_applyAckField (s := { s with link := { s.link with inbound := rest } }) (watchLines_of_segs h rfl rfl) r
  exact watchLines_of_segs applied rfl rfl

/-! ## REQUEST_TAKEN -/

theorem takeRequest_afterReset {s : State} (h : s.link.resetTaken = true) : takeRequest s = s := by
  simp [takeRequest, h]

section

variable {s : State} {r : Request} {rest : List Request} (hq : Quiescent s) (hi : s.link.inHand = none)
  (hr : s.link.resetTaken = false) (hin : s.link.inbound = r :: rest)
include hq hi hr hin

theorem exec_requestTaken_takes (hm : s.link.mayTake r = true) :
    exec .requestTaken s = .next (takeHead r rest s) :=
  asEvent_watched hq (by simp [takeRequest, hi, hr, hin, hm]) (watchLines_takeHead hq.2 r rest)

theorem exec_requestTaken_waits (hm : s.link.mayTake r = false) : exec .requestTaken s = .next s :=
  asEvent_same hq (by simp [takeRequest, hi, hr, hin, hm])

end

/-- Settles O19: the head is taken where its case may be, a new request recorded and a duplicate held. -/
theorem requestIsTaken : Obligations.RequestIsTaken := by
  intro s u r rest hq hi hr hin hu
  rw [← headApplied_eq] at hu
  subst hu
  refine ⟨fun hnew => ?_, fun e he => ⟨fun hpending => ?_, fun body hbody => ⟨fun hplace => ?_, fun hfull => ?_⟩⟩⟩
  · have hnone := duplicateOf_none_iff.mpr hnew
    refine ⟨fun hplace => ?_, fun hfull => ?_⟩
    · rw [exec_requestTaken_takes hq hi hr hin ((mayTake_fresh hnone).trans ((hasPlace_iff _).mpr hplace)),
        takeHead_fresh hnone, recordRequest, makeRoom_eq]
    · exact exec_requestTaken_waits hq hi hr hin ((mayTake_fresh hnone).trans (hasPlace_full hfull))
  · rw [exec_requestTaken_takes hq hi hr hin (mayTake_pending he hpending), takeHead_duplicate he, holdDuplicate,
      hpending]
    rfl
  · rw [exec_requestTaken_takes hq hi hr hin ((mayTake_complete he hbody).trans ((hasPlace_iff _).mpr hplace)),
      takeHead_duplicate he, holdDuplicate, hbody]
    rfl
  · exact exec_requestTaken_waits hq hi hr hin ((mayTake_complete he hbody).trans (hasPlace_full hfull))

end Sys2Proof.Machine
end

section
/-! PROOFS. Replies, duplicates, refused requests and DEV_RESET. -/

namespace Sys2Proof.Machine

/-! ## A reply -/

/-- Settles O18: an answer lets the request go, then makes the reply, and both write fields of the link unit
alone, so the two updates are the one stated. -/
theorem replyIsMade : Obligations.ReplyIsMade := fun _ _ _ _ _ => rfl

/-! ## Duplicates and requests that are not decoded -/

theorem settleDuplicate_complete {s : State} {r : Request} {body : List Byte}
    (h : s.link.inHand = some (.duplicate r (some body))) :
    settleDuplicate s =
      { s with
        link :=
          { s.link with
            replies := s.link.replies ++ [{ body := body, devReset := false }]
            reserved := s.link.reserved - 1
            inHand := none } } := by
  rw [settleDuplicate, h]

theorem settleDuplicate_pendingEntry {s : State} {r : Request} (h : s.link.inHand = some (.duplicate r none)) :
    settleDuplicate s = { s with link := { s.link with inHand := none } } := by
  rw [settleDuplicate, h]

theorem decodes_iff (r : Request) :
    r.decodes = true ↔ (r.ackValid = 0x00 ∨ r.ackValid = 0x01) ∧ r.code ∈ requestCodes := by
  simp [Request.decodes]

theorem refuseUnknown_undecoded {s : State} {r : Request} {age : Nat} (h : s.link.inHand = some (.fresh r age))
    (hd : r.decodes = false) : refuseUnknown s = answer r { tag := r.tag, age := age } .badRequest [] s := by
  simp [refuseUnknown, h, hd]

/-- Settles O20: each case of the request in hand, and a request is decoded exactly when its ack-valid byte and its code
are in their tables. -/
theorem duplicateAndUnknownRequests : Obligations.DuplicateAndUnknownRequests := by
  intro s r hw
  refine ⟨fun body h => ?_, fun h => ?_, fun age h hbad => ?_⟩
  · exact (asRequest_of_segs hw (by rw [settleDuplicate_complete h]) (settleDuplicate_now s)).trans
      (congrArg _ (settleDuplicate_complete h))
  · exact (asRequest_of_segs hw (by rw [settleDuplicate_pendingEntry h]) (settleDuplicate_now s)).trans
      (congrArg _ (settleDuplicate_pendingEntry h))
  · have hd : r.decodes = false := by
      rw [Bool.eq_false_iff, ne_eq, decodes_iff]
      rintro ⟨hvalid, hcode⟩
      rcases hbad with ⟨h0, h1⟩ | hunknown
      · exact hvalid.elim h0 h1
      · exact hunknown hcode
    exact congrArg _ ((congrArg watchLines (refuseUnknown_undecoded h hd)).trans (watchLines_answer hw _ _ _ _))

/-! ## DEV_RESET -/

/-- An accepted DEV_RESET replies OK, marked so that the reset follows it, and closes the inbound buffer (R178). -/
theorem answerDevReset_accepted {r : Request} (hp : r.params = []) (hc : r.code = 0x02) (d : Deferral) (s : State) :
    answerDevReset r d s =
      { s with
        link :=
          { s.link with
            inHand := none
            inbound := []
            resetTaken := true
            replies := s.link.replies ++ [{ body := [0x81, d.tag, 0x02, 0x00], devReset := true }]
            reserved := s.link.reserved - 1
            cache := completeEntry d.age [0x81, d.tag, 0x02, 0x00] s.link.cache } } := by
  simp only [answerDevReset, hp, hc]
  rfl

/-- Settles O21: the parameters give the case, and a taken DEV_RESET stops the taking of requests. -/
theorem devResetAnswers : Obligations.DevResetAnswers := by
  intro s r age h
  refine ⟨fun hp => asRequest_replies h (f := answerDevReset) fun d => ?_, fun hp => ?_,
    fun u hq ht => asEvent_same hq (takeRequest_afterReset ht)⟩
  · simp only [answerDevReset, noParams_some hp]
  · obtain ⟨_, _, hcode, hwatched⟩ := id h
    refine (asRequest_inHand h answerDevReset).trans (congrArg _ ?_)
    rw [answerDevReset_accepted hp hcode]
    exact watchLines_of_segs hwatched rfl rfl

end Sys2Proof.Machine
end

section
/-! PROOFS. The end of a transmission, and the part after a full reset. -/

namespace Sys2Proof.Machine

/-! ## The pools after a full reset -/

theorem outboxBlocks_atReset (scl sda : Bool) : (Segment.atReset scl sda).outboxBlocks = 0 := by
  simp [Segment.outboxBlocks, entry_atReset, Entry.atReset]

theorem job?_fullReset (c : Cause) (p : Straps) (s : State) (i : Slot) : (fullReset c p s).job? i = none := by
  simp [fullReset, State.job?]

/-- No job and no message holds a block (R37). -/
theorem freeBlocks_fullReset (c : Cause) (p : Straps) (s : State) : freeBlocks (fullReset c p s) = 64 := by
  have slots_empty : slots.map (slotBlocks (fullReset c p s)) = slots.map (fun _ => 0) :=
    List.map_congr_left fun i _ => by rw [slotBlocks, job?_fullReset]
  simp only [freeBlocks, heldBlocks, slots_empty, seg_fullReset, outboxBlocks_atReset, List.map_const',
    List.sum_replicate_nat, Nat.mul_zero]
  rfl

/-- RESTARTED holds one of the 24 event records (R148, R152). -/
theorem freeRecords_fullReset (c : Cause) (p : Straps) (s : State) : freeRecords (fullReset c p s) = 23 := by
  have segs_none : ∀ scl sda, (Segment.atReset scl sda).holdsRecord = false := fun _ _ => rfl
  simp only [freeRecords, heldRecords, seg_fullReset, segs_none]
  rfl

/-- A full reset leaves every block at its reset values (R44, R152, R162). -/
theorem afterFullReset (c : Cause) (p : Straps) (s : State) : AfterFullReset c p s (fullReset c p s) where
  time := rfl
  queue := rfl
  released := rfl
  engines := seg_fullReset c p s
  slots := job?_fullReset c p s
  link := rfl
  restarted := ⟨rfl, rfl⟩
  sending := ⟨rfl, rfl, rfl, rfl, rfl, rfl, rfl, rfl⟩
  records := freeRecords_fullReset c p s
  blocks := freeBlocks_fullReset c p s

/-! ## The end of a transmission -/

section

variable {s : State} {t : Transmission} (ht : s.link.tx = some t)
include ht

theorem endFrame_notice (hr : t.isReply = false) (p : Straps) :
    endFrame p s = { s with link := { s.link with tx := none } } := by
  simp [endFrame, ht, hr]

theorem endFrame_reply (hr : t.isReply = true) (hd : t.devReset = false) (p : Straps) :
    endFrame p s = { s with link := { s.link with tx := none, replies := s.link.replies.tail } } := by
  simp [endFrame, ht, hr, hd]

theorem endFrame_devReset (hr : t.isReply = true) (hd : t.devReset = true) (p : Straps) :
    endFrame p s = fullReset .resetRequest p s := by
  simp [endFrame, ht, hr, hd]

end

/-- Settles O38: one equation for each kind of frame, and the reset after the reply of a taken DEV_RESET. -/
theorem frameEnds : Obligations.FrameEnds := fun p s _ hq ht =>
  ⟨fun hr => asEvent_engines hq (endFrame_notice ht hr p) rfl rfl,
    fun hr hd => asEvent_engines hq (endFrame_reply ht hr hd p) rfl rfl,
    fun hr hd => ⟨_, asEvent_watched hq (endFrame_devReset ht hr hd p) (watchLines_fullReset _ p s),
      afterFullReset _ p s⟩⟩

end Sys2Proof.Machine
end

section
/-! PROOFS. The CRC of a run of bytes followed by their CRC. -/

namespace Sys2Proof.Machine

/-! ## A word and its two bytes -/

theorem wordOf_wordBytes (w : Word) : wordOf (w.extractLsb' 8 8) (w.extractLsb' 0 8) = w :=
  BitVec.extractLsb'_append_extractLsb'

theorem toNat_wordOf (hi lo : Byte) : (wordOf hi lo).toNat = hi.toNat * 256 + lo.toNat := by
  rw [wordOf, BitVec.toNat_append, ← Nat.shiftLeft_add_eq_or_of_lt lo.isLt, Nat.shiftLeft_eq]

theorem toNat_wordOf_zero (lo : Byte) : (wordOf 0 lo).toNat = lo.toNat := by simp [toNat_wordOf]

theorem wordOf_xor (a b c d : Byte) : wordOf a b ^^^ wordOf c d = wordOf (a ^^^ c) (b ^^^ d) :=
  BitVec.xor_append

theorem wordOf_zero_shiftLeft (lo : Byte) : wordOf 0 lo <<< 8 = wordOf lo 0 := by
  apply BitVec.eq_of_toNat_eq
  rw [BitVec.toNat_shiftLeft, toNat_wordOf_zero, toNat_wordOf, Nat.shiftLeft_eq, show (0 : Byte).toNat = 0 from rfl]
  omega

/-! ## The CRC register -/

theorem crcStep_of_lt {r : Word} (h : r.toNat < 2 ^ 15) : crcStep r = r <<< 1 := by
  have msb_clear : r.msb = false :=
    (BitVec.msb_eq_decide r).trans (decide_eq_false (Nat.not_le.mpr h))
  simp [crcStep, msb_clear]

/-- While no 1 reaches the most significant bit, the steps of the register are a plain shift. -/
theorem crcStep_repeat {r : Word} : ∀ n : Nat, r.toNat * 2 ^ n < 2 ^ 16 → Nat.repeat crcStep n r = r <<< n
  | 0, _ => (BitVec.shiftLeft_zero r).symm
  | n + 1, h => by
    have small : r.toNat * 2 ^ n < 2 ^ 15 := by rw [Nat.pow_succ, ← Nat.mul_assoc] at h; omega
    have shifted : (r <<< n).toNat < 2 ^ 15 := by
      rw [BitVec.toNat_shiftLeft, Nat.shiftLeft_eq]
      exact Nat.lt_of_le_of_lt (Nat.mod_le _ _) small
    calc crcStep (Nat.repeat crcStep n r)
      _ = crcStep (r <<< n) := by rw [crcStep_repeat n (by omega)]
      _ = r <<< n <<< 1 := crcStep_of_lt shifted
      _ = r <<< (n + 1) := (BitVec.shiftLeft_add r n 1).symm

theorem crcByte_eq_repeat (r : Word) (b : Byte) : crcByte r b = Nat.repeat crcStep 8 (r ^^^ wordOf b 0) := rfl

/-- A byte equal to the register's high byte cancels it, and the low byte moves up. -/
theorem crcByte_highByte (hi lo : Byte) : crcByte (wordOf hi lo) hi = wordOf lo 0 := by
  have cancelled : wordOf hi lo ^^^ wordOf hi 0 = wordOf 0 lo := by simp [wordOf_xor]
  have small : (wordOf 0 lo).toNat * 2 ^ 8 < 2 ^ 16 := by rw [toNat_wordOf_zero]; omega
  calc crcByte (wordOf hi lo) hi
    _ = Nat.repeat crcStep 8 (wordOf 0 lo) := by rw [crcByte_eq_repeat, cancelled]
    _ = wordOf 0 lo <<< 8 := crcStep_repeat 8 small
    _ = wordOf lo 0 := wordOf_zero_shiftLeft lo

/-- A word's own two bytes, high byte first, take the register from it to zero. -/
theorem foldl_crcByte_wordBytes (w : Word) : (wordBytes w).foldl crcByte w = 0 := by
  obtain ⟨hi, lo, rfl⟩ : ∃ hi lo, w = wordOf hi lo := ⟨_, _, (wordOf_wordBytes w).symm⟩
  calc (wordBytes (wordOf hi lo)).foldl crcByte (wordOf hi lo)
    _ = crcByte (crcByte (wordOf hi lo) hi) lo := by rw [wordBytes_wordOf]; rfl
    _ = crcByte (wordOf lo 0) lo := by rw [crcByte_highByte]
    _ = 0 := crcByte_highByte lo 0

theorem crc_append (bs cs : List Byte) : crc (bs ++ cs) = cs.foldl crcByte (crc bs) := List.foldl_append

/-- Settles O9: the bytes of the CRC cancel the register they meet; the figure of the nine bytes is computed. -/
theorem crcLeavesNoResidue : Obligations.CrcLeavesNoResidue :=
  ⟨by decide +kernel, fun bs => (crc_append bs _).trans (foldl_crcByte_wordBytes (crc bs))⟩

end Sys2Proof.Machine
end

section
/-! PROOFS. A step on a queue that is not empty. -/

namespace Sys2Proof.Machine

/-- Settles O1: of the two branches of `step`, a queue with a front takes the one that runs it. -/
theorem stepRunsFrontCommand : Obligations.StepRunsFrontCommand := by
  intro c rest s front
  rw [step, front]

end Sys2Proof.Machine
end

section
/-! PROOFS. What is held of the pools, and how much of it an operation may take. -/

namespace Sys2Proof.Machine

/-! ## The amounts held, one engine and one slot at a time -/

/-- The event records a transaction holds for its access: a mailbox write holds one (R119). -/
def Access.records : Access → Nat
  | .mailWrite _ _ _ => 1
  | .windowWrite _ _ | .windowRead | .mailRead _ _ _ _ => 0

/-- The event records a responder holds (R119, R148). -/
def Responder.records : Responder → Nat
  | .selectedWrite t | .selectedRead t | .mailWait t _ _ => t.access.records
  | .off | .listen | .ignore => 0

theorem records_transaction {p : Responder} {t : Transaction} (h : p.transaction? = some t) :
    p.records = t.access.records := by
  cases p <;> cases h <;> rfl

theorem holdsRecord_records (x : Segment) : (if x.holdsRecord then 1 else 0) = x.resp.records := by
  have access : ∀ t : Transaction,
      (if (match some t with | some { access := .mailWrite _ _ _, .. } => true | _ => false) then 1 else 0) =
        t.access.records := by
    rintro ⟨e, a, u, b, l, n, p⟩
    cases a <;> rfl
  unfold Segment.holdsRecord
  cases x.resp with
  | off | listen | ignore => rfl
  | selectedWrite | selectedRead | mailWait => exact access _

/-- The sum of the amounts of the engines, of the slots or of the entries. -/
def total : {n : Nat} → (Fin n → Nat) → Nat
  | 0, _ => 0
  | _ + 1, a => a 0 + total fun k => a k.succ

theorem sum_finRange {n : Nat} (a : Fin n → Nat) : ((List.finRange n).map a).sum = total a := by
  induction n with
  | zero => rfl
  | succ n ih => rw [List.finRange_succ, List.map_cons, List.sum_cons, List.map_map, ih, total, Function.comp_def]

theorem total_four (a : Fin 4 → Nat) : total a = a 0 + a 1 + a 2 + a 3 :=
  calc total a
    _ = a 0 + (a 1 + (a 2 + (a 3 + 0))) := rfl
    _ = a 0 + a 1 + a 2 + a 3 := by omega

theorem total_zero (n : Nat) : total (fun _ : Fin n => 0) = 0 := by
  induction n with
  | zero => rfl
  | succ n ih => rw [total, ih]

theorem total_mono {n : Nat} {a b : Fin n → Nat} (h : ∀ k, a k ≤ b k) : total a ≤ total b := by
  induction n with
  | zero => exact Nat.le_refl 0
  | succ n ih => exact Nat.add_le_add (h 0) (ih fun k => h k.succ)

/-- Of the amounts one is changed. -/
theorem total_changed {n : Nat} {a b : Fin n → Nat} (i : Fin n) (h : ∀ k, k ≠ i → b k = a k) :
    total b + a i = total a + b i := by
  induction n with
  | zero => exact i.elim0
  | succ n ih =>
    simp only [total]
    cases i using Fin.cases with
    | zero =>
      have rest : (fun k : Fin n => b k.succ) = fun k => a k.succ := funext fun k => h _ (Fin.succ_ne_zero k)
      rw [rest]
      omega
    | succ i =>
      have first : b 0 = a 0 := h 0 (Fin.succ_ne_zero i).symm
      have rest := ih (a := fun k => a k.succ) (b := fun k => b k.succ) i
        fun k hk => h k.succ fun e => hk (Fin.succ_inj.mp e)
      omega

theorem heldRecords_eq (s : State) :
    heldRecords s = recordsQueued s.notices.queue + total fun g : SegId => (s.seg g).resp.records := by
  simp only [heldRecords, holdsRecord_records, total_four]

theorem heldBlocks_eq (s : State) :
    heldBlocks s = total (slotBlocks s) + total fun g : SegId => (s.seg g).outboxBlocks := by
  simp only [heldBlocks, slots, sum_finRange, total_four]

theorem heldRecords_setSeg (s : State) (g : SegId) (x : Segment) :
    heldRecords (s.setSeg g x) + (s.seg g).resp.records = heldRecords s + x.resp.records := by
  have h := total_changed (a := fun k : SegId => (s.seg k).resp.records)
    (b := fun k : SegId => ((s.setSeg g x).seg k).resp.records) g
    fun k hk => by rw [seg_setSeg_ne s x hk]
  simp only [seg_setSeg] at h
  simp only [heldRecords_eq, setSeg_notices]
  omega

theorem heldBlocks_setSeg (s : State) (g : SegId) (x : Segment) :
    heldBlocks (s.setSeg g x) + (s.seg g).outboxBlocks = heldBlocks s + x.outboxBlocks := by
  have h := total_changed (a := fun k : SegId => (s.seg k).outboxBlocks)
    (b := fun k : SegId => ((s.setSeg g x).seg k).outboxBlocks) g
    fun k hk => by rw [seg_setSeg_ne s x hk]
  have hjobs : slotBlocks (s.setSeg g x) = slotBlocks s := rfl
  simp only [seg_setSeg] at h
  simp only [heldBlocks_eq, hjobs]
  omega

/-- The blocks of what a slot holds (R26). -/
def blocksOf : Option Job → Nat
  | some j => blockCount j.phases
  | none => 0

theorem slotBlocks_eq (s : State) (i : Slot) : slotBlocks s i = blocksOf (s.job? i) := by
  unfold slotBlocks blocksOf
  cases s.job? i <;> rfl

theorem heldBlocks_setJob (s : State) (i : Slot) (j : Option Job) :
    heldBlocks (s.setJob i j) + blocksOf (s.job? i) = heldBlocks s + blocksOf j := by
  have h := total_changed (a := slotBlocks s) (b := slotBlocks (s.setJob i j)) i
    fun k hk => by rw [slotBlocks_eq, slotBlocks_eq, job?_setJob_ne s j hk]
  simp only [slotBlocks_eq, job?_setJob] at h
  simp only [heldBlocks_eq, setJob_seg]
  omega

theorem outboxBlocks_setEntry (x : Segment) (e : EntryId) (n : Entry) :
    (x.setEntry e n).outboxBlocks + (x.entry e).outbox.length = x.outboxBlocks + n.outbox.length := by
  have entries : ∀ y : Segment, y.outboxBlocks = total fun k : EntryId => (y.entry k).outbox.length := fun y =>
    (total_four fun k : EntryId => (y.entry k).outbox.length).symm
  have h := total_changed (a := fun k : EntryId => (x.entry k).outbox.length)
    (b := fun k : EntryId => ((x.setEntry e n).entry k).outbox.length) e fun k hk => by rw [entry_setEntry_ne x n hk]
  rw [entry_setEntry] at h
  rw [entries, entries]
  exact h

/-! ## What an operation may take -/

/-- From `s` to `t` the records held stay within the pool, or rise by `n` at most, and the blocks held stay within the
pool or do not rise. -/
structure PoolsWithin (n : Nat) (s t : State) : Prop where
  records : heldRecords t ≤ max Config.eventRecords (heldRecords s + n)
  blocks : heldBlocks t ≤ max Config.dataBlocks (heldBlocks s)

/-- An operation takes nothing that is not free (R36, R37, R148). -/
abbrev PoolsKept (s t : State) : Prop := PoolsWithin 0 s t

theorem PoolsWithin.of_le {n : Nat} {s t : State} (hr : heldRecords t ≤ heldRecords s + n)
    (hb : heldBlocks t ≤ heldBlocks s) : PoolsWithin n s t :=
  ⟨Nat.le_trans hr (Nat.le_max_right _ _), Nat.le_trans hb (Nat.le_max_right _ _)⟩

theorem PoolsKept.refl (s : State) : PoolsKept s s := .of_le (Nat.le_refl _) (Nat.le_refl _)

theorem PoolsWithin.trans {n : Nat} {s t u : State} (h : PoolsWithin n s t) (k : PoolsKept t u) :
    PoolsWithin n s u := by
  obtain ⟨hr, hb⟩ := h
  obtain ⟨kr, kb⟩ := k
  exact ⟨by omega, by omega⟩

/-- `trans` with the later operation first, whose place in a goal is known. -/
theorem PoolsWithin.after {n : Nat} {s t u : State} (k : PoolsKept t u) (h : PoolsWithin n s t) : PoolsWithin n s u :=
  h.trans k

/-- What has been given back first may be taken again. -/
theorem PoolsWithin.repaid {n : Nat} {s t u : State} (hr : heldRecords t + n ≤ heldRecords s)
    (hb : heldBlocks t ≤ max Config.dataBlocks (heldBlocks s)) (k : PoolsWithin n t u) : PoolsKept s u := by
  obtain ⟨kr, kb⟩ := k
  exact ⟨by omega, by omega⟩

theorem PoolsWithin.widen {n : Nat} {s t : State} (h : PoolsKept s t) : PoolsWithin n s t := by
  obtain ⟨hr, hb⟩ := h
  exact ⟨by omega, hb⟩

/-- Neither notices, nor responders, nor outboxes, nor jobs differ. -/
theorem PoolsKept.of_same {s t : State} (hq : t.notices.queue = s.notices.queue) (hj : t.jobs = s.jobs)
    (hs : ∀ g, (t.seg g).resp = (s.seg g).resp ∧ (t.seg g).entries = (s.seg g).entries) : PoolsKept s t := by
  have hslots : slotBlocks t = slotBlocks s := funext fun i => by simp only [slotBlocks, State.job?, hj]
  have hboxes : ∀ g, (t.seg g).outboxBlocks = (s.seg g).outboxBlocks := fun g => by
    simp only [Segment.outboxBlocks, Segment.entry, (hs g).2]
  refine .of_le (Nat.le_of_eq ?_) (Nat.le_of_eq ?_)
  · simp only [heldRecords_eq, hq, hs, Nat.add_zero]
  · simp only [heldBlocks_eq, hslots, hboxes]

theorem PoolsKept.of_segs {s t : State} (hq : t.notices.queue = s.notices.queue) (hj : t.jobs = s.jobs)
    (hs : t.segs = s.segs) : PoolsKept s t :=
  .of_same hq hj fun g => by simp only [State.seg, hs, and_self]

/-- The engine `y` holds no more than `x` does: neither a record for its responder nor blocks in its outboxes. -/
structure Segment.Lighter (x y : Segment) : Prop where
  records : y.resp.records ≤ x.resp.records
  blocks : y.outboxBlocks ≤ x.outboxBlocks

theorem Segment.Lighter.of_resp {x y : Segment} (hr : y.resp.records ≤ x.resp.records) (he : y.entries = x.entries) :
    x.Lighter y :=
  ⟨hr, by simp only [Segment.outboxBlocks, Segment.entry, he, Nat.le_refl]⟩

theorem Segment.Lighter.of_eq {x y : Segment} (hr : y.resp = x.resp) (he : y.entries = x.entries) : x.Lighter y :=
  .of_resp (hr ▸ Nat.le_refl _) he

theorem Segment.Lighter.refl (x : Segment) : x.Lighter x := .of_eq rfl rfl

theorem Segment.Lighter.trans {x y z : Segment} (h : x.Lighter y) (k : y.Lighter z) : x.Lighter z :=
  ⟨Nat.le_trans k.records h.records, Nat.le_trans k.blocks h.blocks⟩

theorem Segment.Lighter.after {x y z : Segment} (k : y.Lighter z) (h : x.Lighter y) : x.Lighter z := h.trans k

theorem modSeg_kept {g : SegId} {f : Segment → Segment} {s : State} (h : (s.seg g).Lighter (f (s.seg g))) :
    PoolsKept s (modSeg g f s) := by
  obtain ⟨hr, hb⟩ := h
  have kr := heldRecords_setSeg s g (f (s.seg g))
  have kb := heldBlocks_setSeg s g (f (s.seg g))
  exact .of_le (by rw [modSeg]; omega) (by rw [modSeg]; omega)

/-- An engine changes neither its responder nor its entries. -/
theorem modSeg_kept_of_eq {g : SegId} {f : Segment → Segment} (s : State) (hr : (f (s.seg g)).resp = (s.seg g).resp)
    (he : (f (s.seg g)).entries = (s.seg g).entries) : PoolsKept s (modSeg g f s) :=
  modSeg_kept (.of_eq hr he)

theorem modEntry_kept {g : SegId} {e : EntryId} {f : Entry → Entry} {s : State}
    (h : (f ((s.seg g).entry e)).outbox.length ≤ ((s.seg g).entry e).outbox.length) :
    PoolsKept s (modEntry g e f s) := by
  have hb := outboxBlocks_setEntry (s.seg g) e (f ((s.seg g).entry e))
  exact modSeg_kept ⟨Nat.le_refl _, by omega⟩

theorem setJob_kept {s : State} {i : Slot} {j : Option Job} (h : blocksOf j ≤ blocksOf (s.job? i)) :
    PoolsKept s (s.setJob i j) := by
  have hb := heldBlocks_setJob s i j
  exact .of_le (Nat.le_refl _) (by omega)

/-- A held slot keeps its phases, and with them its blocks. -/
theorem setJob_kept_of_phases {s : State} {i : Slot} {j k : Job} (hj : s.job? i = some j) (hp : k.phases = j.phases) :
    PoolsKept s (s.setJob i (some k)) :=
  setJob_kept (Nat.le_of_eq (by rw [hj, blocksOf, blocksOf, hp]))

theorem modJob_kept {i : Slot} {f : Job → Job} (s : State) (hf : ∀ j, (f j).phases = j.phases) :
    PoolsKept s (modJob i f s) := by
  refine setJob_kept ?_
  cases s.job? i with
  | none => exact Nat.le_refl _
  | some j => exact Nat.le_of_eq (by rw [Option.map_some, blocksOf, blocksOf, hf])

/-! ## Notices, records and replies -/

theorem recordsQueued_append (q : List Notice) (n : Notice) :
    recordsQueued (q ++ [n]) = recordsQueued q + if n.source = .record then 1 else 0 := by
  simp [recordsQueued, List.countP_append, List.countP_cons]

theorem heldRecords_joinNotice (kind : NoticeKind) (source : Source) (payload : List Byte) (s : State) :
    heldRecords (joinNotice kind source payload s) = heldRecords s + if source = .record then 1 else 0 := by
  simp only [heldRecords_eq, joinNotice_queue, recordsQueued_append, seg_joinNotice]
  omega

theorem joinNotice_job_kept (kind : NoticeKind) (i : Slot) (payload : List Byte) (s : State) :
    PoolsKept s (joinNotice kind (.job i) payload s) :=
  .of_le (Nat.le_of_eq (heldRecords_joinNotice _ _ _ s)) (Nat.le_refl _)

theorem joinNotice_record_within (kind : NoticeKind) (payload : List Byte) (s : State) :
    PoolsWithin 1 s (joinNotice kind .record payload s) :=
  .of_le (Nat.le_of_eq (heldRecords_joinNotice _ _ _ s)) (Nat.le_refl _)

/-- A claim takes a free record or none (R149). -/
theorem claimEvent_kept (g : SegId) (ev : SegEvent) (s : State) : PoolsKept s (claimEvent g ev s) := by
  unfold claimEvent
  split
  · rename_i hfree
    have hr := heldRecords_joinNotice ev.kind .record (ev.payload g) s
    rw [freeRecords] at hfree
    rw [if_pos rfl] at hr
    exact ⟨by omega, Nat.le_max_right _ _⟩
  · exact modSeg_kept_of_eq s rfl rfl

/-- A released record serves one summary at most (R151). -/
theorem releaseRecord_within (s : State) : PoolsWithin 1 s (releaseRecord s) := by
  unfold releaseRecord
  split
  · exact .widen (.refl s)
  · rename_i g _
    have h := (joinNotice_record_within .segSummary (summaryPayload g (s.seg g).summary) s).trans
      (modSeg_kept_of_eq (g := g) (f := fun x => { x with summary := Summary.empty }) _ rfl rfl)
    exact h.trans (.of_segs rfl rfl rfl)

theorem makeReply_kept (d : Deferral) (code : Byte) (rc : ReplyCode) (data : List Byte) (b : Bool) (s : State) :
    PoolsKept s (makeReply d code rc data b s) := .of_segs rfl rfl rfl

theorem answer_kept (r : Request) (d : Deferral) (rc : ReplyCode) (data : List Byte) (s : State) :
    PoolsKept s (answer r d rc data s) := .of_segs rfl rfl rfl

/-- The state with the head of the notice queue taken off, what the head refers to still held (R156). -/
def headTaken (rest : List Notice) (s : State) : State :=
  { s with
    notices :=
      { s.notices with
        queue := rest, sentLimit := s.notices.sentLimit - 1, sendPoint := s.notices.sendPoint - 1 } }

theorem retireHead_nil {s : State} (h : s.notices.queue = []) : retireHead s = s := by rw [retireHead, h]

theorem retireHead_job {s : State} {n : Notice} {rest : List Notice} {i : Slot} (hq : s.notices.queue = n :: rest)
    (hn : n.source = .job i) : retireHead s = (headTaken rest s).setJob i none := by
  simp only [retireHead, hq, hn]
  rfl

theorem retireHead_record {s : State} {n : Notice} {rest : List Notice} (hq : s.notices.queue = n :: rest)
    (hn : n.source = .record) : retireHead s = releaseRecord (headTaken rest s) := by
  simp only [retireHead, hq, hn]
  rfl

theorem heldRecords_headTaken {s : State} {n : Notice} {rest : List Notice} (hq : s.notices.queue = n :: rest) :
    heldRecords (headTaken rest s) + (if n.source = .record then 1 else 0) = heldRecords s := by
  have hrest : recordsQueued s.notices.queue = recordsQueued rest + if n.source = .record then 1 else 0 := by
    simp [hq, recordsQueued, List.countP_cons]
  rw [heldRecords_eq s, heldRecords_eq (headTaken rest s), hrest]
  show recordsQueued rest + total (fun g : SegId => (s.seg g).resp.records) + _ = _
  omega

/-- A retirement gives back what the head held before a summary takes it (R44, R151, R156). -/
theorem retireHead_kept (s : State) : PoolsKept s (retireHead s) := by
  cases hq : s.notices.queue with
  | nil => rw [retireHead_nil hq]; exact .refl s
  | cons n rest =>
    have hr := heldRecords_headTaken hq
    cases hn : n.source with
    | job i =>
      rw [retireHead_job hq hn]
      have htaken : PoolsKept s (headTaken rest s) := .of_le (by omega) (Nat.le_refl _)
      exact htaken.trans (setJob_kept (Nat.zero_le _))
    | record =>
      rw [retireHead_record hq hn]
      rw [hn, if_pos rfl] at hr
      exact .repaid (Nat.le_of_eq hr) (Nat.le_max_right _ _) (releaseRecord_within _)

theorem retire_kept (n : Nat) (s : State) : PoolsKept s (retire n s) := by
  induction n generalizing s with
  | zero => exact .refl s
  | succ n ih => exact (retireHead_kept s).trans (ih _)

theorem acknowledge_kept (a : Word) (s : State) : PoolsKept s (acknowledge a s) := by
  unfold acknowledge
  split
  · exact .refl s
  · exact (retire_kept _ s).trans (.of_segs rfl rfl rfl)

/-! ## The end of a job and of a transaction -/

theorem finishJob_kept (i : Slot) (o : JobOutcome) (running : Bool) (s : State) :
    PoolsKept s (finishJob i o running s) := by
  unfold finishJob
  split
  · exact .refl s
  · rename_i j hj
    have h := (setJob_kept_of_phases 
      (k := { j with status := .finished (completionOf s.now o running j), cancelReply := none })
      hj rfl).trans (joinNotice_job_kept .jobDone i (jobDonePayload j (completionOf s.now o running j)) _)
    dsimp only
    split
    · exact h
    · exact h.trans (makeReply_kept _ _ _ _ _ _)

theorem finishAll_kept (o : JobOutcome) (l : List Slot) (s : State) : PoolsKept s (finishAll o l s) := by
  induction l generalizing s with
  | nil => exact .refl s
  | cons i l ih => exact (finishJob_kept i o false s).trans (ih _)

theorem applyDeferred_kept (g : SegId) (e : EntryId) (s : State) : PoolsKept s (applyDeferred g e s) := by
  unfold applyDeferred
  split
  · exact .refl s
  · exact .trans (modEntry_kept (Nat.le_refl _)) (makeReply_kept _ _ _ _ _ _)

theorem cutByte_kept (g : SegId) (t : Transaction) (s : State) : PoolsKept s (cutByte g t s) := by
  unfold cutByte
  split
  · exact modEntry_kept (Nat.le_refl _)
  · exact .refl s

/-- The end effects take the record that the transaction held, and free ones (R121, R143, R149). -/
theorem endAccess_within (g : SegId) (t : Transaction) (byReset : Bool) (s : State) :
    PoolsWithin t.access.records s (endAccess g t byReset s) := by
  unfold endAccess
  dsimp only
  split
  case h_1 => exact .widen (.refl s)
  case h_2 =>
    split
    · exact .widen (claimEvent_kept _ _ s)
    · exact .widen (.refl s)
  case h_3 => exact .widen (.refl s)
  case h_4 access =>
    rw [access]
    split
    · exact releaseRecord_within s
    · exact joinNotice_record_within _ _ s
  case h_5 => exact .widen (claimEvent_kept _ _ s)
  case h_6 =>
    split
    · exact .widen (.refl s)
    · split
      · exact .widen (.refl s)
      · rename_i hq
        exact .widen ((modEntry_kept (by simp [hq])).trans (claimEvent_kept _ _ _))

theorem kept_records (t : Transaction) : t.kept.records = t.access.records := by
  unfold Transaction.kept
  split
  · rename_i h _; rw [h]; rfl
  · rename_i h _; rw [h]; rfl
  · rfl

theorem heldRecords_cutByte (g : SegId) (t : Transaction) (s : State) :
    heldRecords (cutByte g t s) = heldRecords s := by
  have hq : (cutByte g t s).notices = s.notices := by
    unfold cutByte
    split <;> rfl
  simp only [heldRecords_eq, hq, resp_cutByte]

/-- The end of a transaction gives its record back before it takes one (R107, R119, R143). -/
theorem endTransaction_kept (g : SegId) (byReset : Bool) (s : State) : PoolsKept s (endTransaction g byReset s) := by
  cases ht : (s.seg g).resp.transaction? with
  | none =>
    rw [endTransaction_idle ht]
    split
    · exact modSeg_kept (f := fun x => { x with resp := .listen }) (.of_resp (Nat.zero_le _) rfl)
    · exact .refl s
  | some t =>
    rw [endTransaction_some ht]
    generalize hv : s.setSeg g { (s.seg g).freed with resp := .listen } = v
    have hkept : PoolsKept s v :=
      hv ▸ modSeg_kept (f := fun x => { x.freed with resp := .listen }) (.of_resp (Nat.zero_le _) rfl)
    have hrecords : heldRecords v + t.access.records = heldRecords s := by
      have h := heldRecords_setSeg s g { (s.seg g).freed with resp := .listen }
      rw [records_transaction ht, hv] at h
      exact h
    have hend := endAccess_within g { t with access := t.kept } byReset (cutByte g t v)
    rw [kept_records] at hend
    exact .repaid (by rw [heldRecords_cutByte]; exact Nat.le_of_eq hrecords) (hkept.trans (cutByte_kept g t v)).blocks
      (hend.trans (applyDeferred_kept g t.entry _))

end Sys2Proof.Machine
end

section
/-! PROOFS. No unit of an engine takes anything of the pools at the lines. -/

namespace Sys2Proof.Machine

/-! ## What an engine holds, through its units' steps -/

theorem freeBackoff_lighter (now : Nat) (x : Segment) : x.Lighter (freeBackoff now x) := by
  unfold freeBackoff
  (repeat' split) <;> exact .of_eq rfl rfl

theorem monitorFree_lighter (stop : Option Nat) (now : Nat) (x : Segment) : x.Lighter (monitorFree stop now x) :=
  .after (freeBackoff_lighter now _) (.of_eq rfl rfl)

theorem failRound_lighter (now : Nat) (c : Clearing) (x : Segment) : x.Lighter (failRound now c x) := by
  rw [failRound_eq]
  exact .of_eq rfl rfl

theorem startRound_lighter (now n : Nat) (x : Segment) : x.Lighter (startRound now n x) := by
  rw [startRound_eq]
  exact .of_eq rfl rfl

theorem turnOff_lighter (now : Nat) (x : Segment) : x.Lighter (turnOff now x) := by
  cases h : x.cfg.enable with
  | false => rw [turnOff_disabled now h]; exact .of_resp (Nat.zero_le _) rfl
  | true => rw [turnOff_enabled now h]; exact .of_resp (Nat.zero_le _) rfl

theorem resetLines_lighter (now : Nat) (x : Segment) : x.Lighter (resetLines now x) := by
  rw [resetLines_eq now x _ rfl]
  split
  · exact .after (startRound_lighter now 1 _) (.of_eq rfl rfl)
  · exact .of_eq rfl rfl

theorem recover_lighter (stop : Option Nat) (now : Nat) (x : Segment) : x.Lighter (recover stop now x) := by
  rw [recover_eq]
  split
  · exact .of_eq rfl rfl
  · exact .after (freeBackoff_lighter now _) (.of_eq rfl rfl)

theorem driveStart_lighter (x : Segment) : x.Lighter (driveStart x) := by
  unfold driveStart
  split <;> exact .of_eq rfl rfl

theorem setLevel_lighter (e : Edge) (x : Segment) : x.Lighter (setLevel e x) := by
  cases e <;> exact .of_eq rfl rfl

theorem monitorEdge_lighter (now : Nat) (x : Segment) : x.Lighter (monitorEdge now x) := by
  rw [monitorEdge_frame]
  exact .of_eq rfl rfl

theorem initiatorFalls_lighter (now : Nat) (j : Option Job) (x : Segment) : x.Lighter (initiatorFalls now j x) := by
  rw [initiatorFalls_frame]
  exact .of_eq rfl rfl

/-- A fall of SCL leaves a transaction its access. -/
theorem records_fallen (now : Nat) (f : Framer) (p : Responder) : (p.fallen now f).records = p.records := by
  unfold Responder.fallen
  (repeat' split) <;> rfl

theorem responderFalls_lighter (now : Nat) (x : Segment) : x.Lighter (responderFalls now x) := by
  refine .of_resp (Nat.le_of_eq ?_) (responderFalls_units now x).entries
  rw [responderFalls_resp, records_fallen]

theorem pulseEnds_lighter (now : Nat) (x : Segment) : x.Lighter (pulseEnds now x) := by
  rw [pulseEnds_frame]
  exact .of_eq rfl rfl

theorem clearFalls_lighter (now : Nat) (x : Segment) : x.Lighter (clearFalls now x) := by
  rw [clearFalls_frame]
  exact .of_eq rfl rfl

theorem unitsRise_lighter (x : Segment) : x.Lighter (unitsRise x) := by
  rw [unitsRise, clearRises_frame, initiatorRises_frame]
  exact .of_eq rfl rfl

theorem unitsEdge_lighter (now : Nat) (j : Option Job) (e : Edge) (x : Segment) : x.Lighter (unitsEdge now j e x) := by
  cases e with
  | sclRise => exact unitsRise_lighter x
  | sclFall =>
    exact (initiatorFalls_lighter now j x).trans ((responderFalls_lighter now _).trans (clearFalls_lighter now _))
  | sdaRise => exact .refl x
  | sdaFall => exact .refl x

/-- What an edge or a condition restarts is the idle watch and the quiet-low interval (R86, R97). -/
theorem edgeRestarts_lighter (now : Nat) (x : Segment) : x.Lighter (restartQuiet now (restartWatch now x)) := by
  rw [edgeRestarts_frame]
  exact .of_eq rfl rfl

theorem edgeAt_lighter (now : Nat) (j : Option Job) (e : Edge) (x : Segment) : x.Lighter (edgeAt now j e x) :=
  (setLevel_lighter e x).trans ((monitorEdge_lighter now _).trans
    ((unitsEdge_lighter now j e _).trans (edgeRestarts_lighter now _)))

theorem startAt_lighter (now : Nat) (x : Segment) : x.Lighter (startAt now x) :=
  .after (edgeRestarts_lighter now _) (.of_eq rfl rfl)

theorem clearStops_lighter (now : Nat) (x : Segment) : x.Lighter (clearStops now x) := by
  unfold clearStops
  (repeat' split) <;> exact .of_eq rfl rfl

theorem stopAt_lighter (now : Nat) (x : Segment) : x.Lighter (stopAt now x) :=
  .after (edgeRestarts_lighter now _)
    (.after (clearStops_lighter now _) (.after (monitorFree_lighter _ now _) (.of_eq rfl rfl)))

theorem countBackoff_lighter (now : Nat) (x : Segment) : x.Lighter (countBackoff now x) := by
  unfold countBackoff
  (repeat' split) <;> exact .of_eq rfl rfl

theorem serveWaiting_lighter (e : EntryId) (first : Byte) (x : Segment) : x.Lighter (serveWaiting e first x) := by
  refine ⟨?_, Nat.le_of_eq (serveWaiting_outboxBlocks e first x)⟩
  unfold serveWaiting
  dsimp only
  repeat' split
  all_goals first
    | exact Nat.zero_le _
    | exact Nat.le_refl _

end Sys2Proof.Machine
end

section
/-! PROOFS. The pools through the initiator, the bus-clear unit and the responder. -/

namespace Sys2Proof.Machine

/-! ## The initiator -/

theorem examineQueue_kept (g : SegId) (l : List Slot) (s : State) : PoolsKept s (examineQueue g l s) := by
  induction l generalizing s with
  | nil => exact modSeg_kept_of_eq s rfl rfl
  | cons i l ih =>
    unfold examineQueue
    split
    · exact ih s
    · rename_i j hj
      split
      · exact (modSeg_kept_of_eq s rfl rfl).trans ((finishJob_kept _ _ _ _).trans (ih _))
      · exact .after (modSeg_kept_of_eq _ rfl rfl) (setJob_kept_of_phases hj rfl)

theorem takeContinuation_kept (g : SegId) (s : State) : PoolsKept s (takeContinuation g s) := by
  unfold takeContinuation
  dsimp only
  repeat' split
  all_goals first
    | exact .refl s
    | exact .after (modSeg_kept_of_eq _ rfl rfl) (modJob_kept s fun _ => rfl)

theorem toIdle_kept (g : SegId) (s : State) : PoolsKept s (toIdle g s) := by
  unfold toIdle
  split
  · exact modSeg_kept_of_eq s rfl rfl
  · exact examineQueue_kept g _ s

theorem goOff_kept (g : SegId) (s : State) : PoolsKept s (goOff g s) :=
  (endTransaction_kept g true s).trans (modSeg_kept (turnOff_lighter _ _))

theorem endDisable_kept (g : SegId) (s : State) : PoolsKept s (endDisable g s) := by
  unfold endDisable
  split
  · exact goOff_kept g s
  · exact .refl s

theorem leave_kept (g : SegId) (s : State) : PoolsKept s (leave g s) :=
  (modSeg_kept_of_eq s rfl rfl).trans ((toIdle_kept g _).trans (endDisable_kept g _))

theorem endRun_kept (g : SegId) (i : Slot) (o : JobOutcome) (s : State) : PoolsKept s (endRun g i o s) :=
  (finishJob_kept i o true s).trans (leave_kept g _)

theorem closeHold_kept (g : SegId) (why : HoldEnd) (h : Hold) (s : State) : PoolsKept s (closeHold g why h s) :=
  modSeg_kept_of_eq s rfl rfl

theorem beginStop_kept (g : SegId) (r : Run) (why : StopWhy) (s : State) : PoolsKept s (beginStop g r why s) :=
  modSeg_kept_of_eq s rfl rfl

theorem decideStart_kept (g : SegId) (s : State) : PoolsKept s (decideStart g s) := by
  unfold decideStart
  split
  · exact .refl s
  · exact .after (modSeg_kept_of_eq _ rfl rfl) (modJob_kept s fun _ => rfl)

theorem collide_kept (g : SegId) (s : State) : PoolsKept s (collide g s) := by
  unfold collide
  split
  · exact .refl s
  · rename_i r _
    have h : PoolsKept s (modJob r.slot Job.countDeferral s) := modJob_kept s fun _ => rfl
    dsimp only
    split
    · exact h
    · split
      · exact h.trans ((finishJob_kept _ _ _ _).trans (examineQueue_kept g _ _))
      · exact h.trans (modSeg_kept_of_eq _ rfl rfl)

theorem phaseComplete_kept (g : SegId) (r : Run) (j : Job) (s : State) : PoolsKept s (phaseComplete g r j s) := by
  unfold phaseComplete enterHeld beginRestart
  repeat' split
  all_goals first
    | exact (finishJob_kept _ _ _ s).trans ((modSeg_kept_of_eq _ rfl rfl).trans (takeContinuation_kept g _))
    | exact beginStop_kept _ _ _ s
    | exact .after (modSeg_kept_of_eq _ rfl rfl) (modJob_kept s fun _ => rfl)

theorem goOn_kept (g : SegId) (r : Run) (j : Job) (sub : SubStep) (s : State) : PoolsKept s (goOn g r j sub s) := by
  unfold goOn
  split
  · exact beginStop_kept _ _ _ s
  · exact modSeg_kept_of_eq s rfl rfl

theorem addressAck_kept (g : SegId) (s : State) : PoolsKept s (addressAck g s) := by
  have took : PoolsKept s (modSeg g tookBit s) := modSeg_kept_of_eq s rfl rfl
  unfold addressAck addressNacked addressAcked
  dsimp only
  repeat' split
  all_goals first
    | exact .refl s
    | exact took.trans (beginStop_kept _ _ _ _)
    | exact took.trans (phaseComplete_kept _ _ _ _)
    | exact took.trans (goOn_kept _ _ _ _ _)

/-- The bit place is taken and the job, its phases kept, goes on. -/
theorem tookJob_kept (g : SegId) {s : State} {i : Slot} {j k : Job} (hj : s.job? i = some j)
    (hp : k.phases = j.phases) :
    PoolsKept s ((modSeg g tookBit s).setJob i (some k)) :=
  (modSeg_kept_of_eq s rfl rfl).trans (setJob_kept_of_phases (s := modSeg g tookBit s) hj hp)

theorem writeByteAck_kept (g : SegId) (s : State) : PoolsKept s (writeByteAck g s) := by
  unfold writeByteAck
  dsimp only
  split
  · exact .refl s
  · split
    · exact .refl s
    · rename_i j hj
      split
      · exact (modSeg_kept_of_eq s rfl rfl).trans (beginStop_kept _ _ _ _)
      · split
        · exact .after (goOn_kept _ _ _ _ _) (tookJob_kept g hj rfl)
        · exact .after (phaseComplete_kept _ _ _ _) (tookJob_kept g hj rfl)

theorem readByte_kept (g : SegId) (s : State) : PoolsKept s (readByte g s) := by
  unfold readByte
  dsimp only
  split
  · exact .refl s
  · split
    · exact .refl s
    · rename_i j hj
      split
      · exact .refl s
      · split
        · exact .after (goOn_kept _ _ _ _ _) (tookJob_kept g hj rfl)
        · exact .after (phaseComplete_kept _ _ _ _) (tookJob_kept g hj rfl)

theorem lengthByte_kept (g : SegId) (s : State) : PoolsKept s (lengthByte g s) := by
  unfold lengthByte
  dsimp only
  split
  · exact .refl s
  · split
    · exact .refl s
    · rename_i j hj
      split
      · split
        · exact .after (goOn_kept _ _ _ _ _) (tookJob_kept g hj rfl)
        · exact (modSeg_kept_of_eq s rfl rfl).trans (beginStop_kept _ _ _ _)
      · exact .refl s

theorem released_kept (g : SegId) (s : State) : PoolsKept s (modSeg g releaseLines s) := modSeg_kept_of_eq s rfl rfl

theorem retryAfterStop_kept (g : SegId) (i : Slot) (s : State) : PoolsKept s (retryAfterStop g i s) := by
  unfold retryAfterStop
  split
  · exact .refl s
  · rename_i j hj
    split
    · exact endRun_kept _ _ _ s
    · exact .after (modSeg_kept_of_eq _ rfl rfl) (setJob_kept_of_phases hj rfl)

theorem endHold_kept (g : SegId) (h : Hold) (s : State) : PoolsKept s (endHold g h s) := by
  unfold endHold
  split
  · exact (claimEvent_kept _ _ s).trans (leave_kept _ _)
  · exact leave_kept _ s

theorem makeStop_kept (g : SegId) (s : State) : PoolsKept s (makeStop g s) := by
  unfold makeStop
  dsimp only
  repeat' split
  all_goals first
    | exact .refl s
    | exact (released_kept g s).trans (endRun_kept _ _ _ _)
    | exact (released_kept g s).trans (retryAfterStop_kept _ _ _)
    | exact (released_kept g s).trans (endHold_kept _ _ _)

theorem loseBus_kept (g : SegId) (s : State) : PoolsKept s (loseBus g s) := by
  have h := released_kept g s
  unfold loseBus
  split
  · rename_i r _
    dsimp only
    split
    · exact h.trans (endRun_kept _ _ _ _)
    · split
      · exact h
      · rename_i j hj
        have counted := h.trans (setJob_kept_of_phases (k := j.countLoss) hj rfl)
        split
        · exact counted.trans (endRun_kept _ _ _ _)
        · split
          · exact counted.trans (endRun_kept _ _ _ _)
          · exact counted.trans (modSeg_kept (.after (freeBackoff_lighter _ _) (.of_eq rfl rfl)))
  · exact .refl s

theorem arbitrationLoss_kept (g : SegId) (s : State) : PoolsKept s (arbitrationLoss g s) := by
  unfold arbitrationLoss
  split
  · exact loseBus_kept g s
  · exact .refl s

theorem loseByCondition_kept (g : SegId) (s : State) : PoolsKept s (loseByCondition g s) := by
  unfold loseByCondition
  split
  · exact loseBus_kept g s
  · exact .refl s

theorem stretchExpires_kept (g : SegId) (s : State) : PoolsKept s (stretchExpires g s) := by
  unfold stretchExpires
  dsimp only
  repeat' split
  all_goals first
    | exact .refl s
    | exact (released_kept g s).trans (endRun_kept _ _ _ _)
    | exact (released_kept g s).trans (endHold_kept _ _ _)

theorem backoffEnds_kept (g : SegId) (s : State) : PoolsKept s (backoffEnds g s) := by
  unfold backoffEnds
  split
  · exact .refl s
  · exact modSeg_kept_of_eq s rfl rfl

theorem holdExpires_kept (g : SegId) (s : State) : PoolsKept s (holdExpires g s) := by
  unfold holdExpires
  split
  · exact .refl s
  · exact closeHold_kept _ _ _ s

/-! ## The bus-clear unit -/

theorem stuckInitiator_kept (g : SegId) (s : State) : PoolsKept s (stuckInitiator g s) := by
  have left : PoolsKept s (modSeg g leaveLines s) := modSeg_kept_of_eq s rfl rfl
  unfold stuckInitiator
  split
  · exact left.trans ((finishJob_kept _ _ _ _).trans (toIdle_kept g _))
  · split
    · exact left.trans ((claimEvent_kept _ _ _).trans (toIdle_kept g _))
    · exact left.trans (toIdle_kept g _)
  · exact .refl s

theorem enterClearing_lighter (now : Nat) (x : Segment) : x.Lighter (enterClearing now x) := by
  unfold enterClearing
  split
  · exact startRound_lighter now 1 x
  · exact .of_eq rfl rfl

theorem stuckDetected_kept (g : SegId) (s : State) : PoolsKept s (stuckDetected g s) := by
  unfold stuckDetected
  dsimp only
  split
  · exact (stuckInitiator_kept g s).trans ((endTransaction_kept g false _).trans ((claimEvent_kept _ _ _).trans
      ((modSeg_kept (enterClearing_lighter _ _)).trans (endDisable_kept g _))))
  · exact .refl s

theorem clearWaitExpires_kept (g : SegId) (s : State) : PoolsKept s (clearWaitExpires g s) := by
  unfold clearWaitExpires
  split
  · exact .refl s
  · exact modSeg_kept (startRound_lighter _ _ _)

theorem clearingPulse_kept (g : SegId) (s : State) : PoolsKept s (clearingPulse g s) := by
  unfold clearingPulse
  split
  · exact modSeg_kept (pulseEnds_lighter _ _)
  · exact .refl s

theorem roundEnds_kept (g : SegId) (s : State) : PoolsKept s (roundEnds g s) := by
  unfold roundEnds
  dsimp only
  split
  · exact .refl s
  · split
    · exact (modSeg_kept (recover_lighter _ _ _)).trans (claimEvent_kept _ _ _)
    · exact modSeg_kept (failRound_lighter _ _ _)

theorem clearStretchExpires_kept (g : SegId) (s : State) : PoolsKept s (clearStretchExpires g s) := by
  unfold clearStretchExpires
  split
  · exact .refl s
  · exact modSeg_kept (failRound_lighter _ _ _)

theorem idleWatchExpires_kept (g : SegId) (s : State) : PoolsKept s (idleWatchExpires g s) := by
  have left : PoolsKept s (endLeftTransaction g s) := by
    unfold endLeftTransaction
    split
    · exact endTransaction_kept g false s
    · exact .refl s
  unfold idleWatchExpires
  split
  · exact left.trans ((modSeg_kept (recover_lighter _ _ _)).trans (claimEvent_kept _ _ _))
  · exact .refl s

/-! ## The responder -/

/-- A selection takes a record for a mailbox write alone, which a free one is granted for (R119). -/
theorem selectEntry_records (e : EntryId) (n : Entry) (reads grant : Bool) (addr : Byte) :
    (selectEntry e n reads grant addr).records ≤ if grant then 1 else 0 := by
  unfold selectEntry
  repeat' split
  all_goals first
    | exact Nat.zero_le _
    | exact Nat.le_refl 1

theorem compareAddress_records (x : Segment) (grant : Bool) :
    (compareAddress x grant).records ≤ if grant then 1 else 0 := by
  unfold compareAddress
  dsimp only
  split
  · exact Nat.zero_le _
  · split
    · exact Nat.zero_le _
    · exact selectEntry_records _ _ _ _ _

/-- A responder takes a record where one is free, or none. -/
theorem modSeg_kept_of_granted {g : SegId} {f : Segment → Segment} {s : State}
    (hr : (f (s.seg g)).resp.records ≤ if decide (0 < freeRecords s) then 1 else 0)
    (he : (f (s.seg g)).entries = (s.seg g).entries) : PoolsKept s (modSeg g f s) := by
  have kr := heldRecords_setSeg s g (f (s.seg g))
  have kb := heldBlocks_setSeg s g (f (s.seg g))
  have hboxes : (f (s.seg g)).outboxBlocks = (s.seg g).outboxBlocks := by
    simp only [Segment.outboxBlocks, Segment.entry, he]
  rw [freeRecords] at hr
  refine ⟨?_, by rw [modSeg]; omega⟩
  rw [modSeg]
  split at hr <;> simp only [decide_eq_true_eq] at * <;> omega

theorem respAddressByte_kept (g : SegId) (s : State) : PoolsKept s (respAddressByte g s) := by
  unfold respAddressByte
  dsimp only
  split
  · exact modSeg_kept_of_granted (compareAddress_records _ _) rfl
  · exact .refl s

theorem receives_records {x : Segment} {t : Transaction} (h : x.receives? = some t) :
    x.resp.records = t.access.records := by
  unfold Segment.receives? at h
  split at h
  · rename_i u hu
    split at h
    · cases h; rw [hu]; rfl
    · cases h
  · cases h

/-- A write is served on with its access of the same kind. -/
theorem serveWrite_kept {g : SegId} {s : State} {t u : Transaction} (h : (s.seg g).receives? = some t)
    (hu : u.access.records = t.access.records) : PoolsKept s (modSeg g (serveWrite u) s) :=
  modSeg_kept (.of_resp (by rw [receives_records h, ← hu]; exact Nat.le_refl _) rfl)

theorem windowWriteByte_kept (g : SegId) (s : State) : PoolsKept s (windowWriteByte g s) := by
  unfold windowWriteByte
  dsimp only
  repeat' split
  all_goals first
    | exact .refl s
    | exact .trans (modEntry_kept (Nat.le_refl _)) (modSeg_kept (.of_resp (Nat.zero_le _) rfl))

theorem loadSender_records (t : Transaction) (b : Byte) (x : Segment) :
    (loadSender t b x).resp.records = t.access.records := rfl

theorem windowReadByte_kept (g : SegId) (s : State) : PoolsKept s (windowReadByte g s) := by
  unfold windowReadByte
  dsimp only
  split
  · split
    · rename_i access
      refine .after (modSeg_kept (.of_resp ?_ rfl)) (modEntry_kept (Nat.le_refl _))
      rw [loadSender_records, access]
      exact Nat.zero_le _
    · exact .refl s
  · exact .refl s

theorem mailWriteByte_kept (g : SegId) (s : State) : PoolsKept s (mailWriteByte g s) := by
  unfold mailWriteByte
  dsimp only
  split
  · rename_i t ht
    split
    · rename_i access
      split <;> exact serveWrite_kept ht (by rw [access]; rfl)
    · exact .refl s
  · exact .refl s

theorem mailReadByte_kept (g : SegId) (s : State) : PoolsKept s (mailReadByte g s) := by
  unfold mailReadByte
  dsimp only
  repeat' split
  all_goals first
    | exact .refl s
    | exact modSeg_kept (.of_resp (Nat.zero_le _) rfl)

theorem mailWaitExpires_kept (g : SegId) (s : State) : PoolsKept s (mailWaitExpires g s) := by
  unfold mailWaitExpires
  split
  · exact .refl s
  · exact modSeg_kept (.of_resp (Nat.zero_le _) rfl)

/-! ## The lines -/

theorem seeEdge_kept (g : SegId) (e : Edge) (s : State) : PoolsKept s (seeEdge g e s) :=
  .trans (modSeg_kept (edgeAt_lighter _ _ _ _)) (collide_kept g _)

theorem lineEdge_kept (g : SegId) (e : Edge) (s : State) : PoolsKept s (lineEdge g e s) := by
  unfold lineEdge
  dsimp only
  repeat' split
  all_goals first
    | exact .refl s
    | exact modSeg_kept (setLevel_lighter _ _)
    | exact seeEdge_kept g e s

theorem sclFallsWhileFree_kept (g : SegId) (s : State) : PoolsKept s (sclFallsWhileFree g s) := by
  unfold sclFallsWhileFree
  dsimp only
  split
  · exact seeEdge_kept g _ s
  · exact .refl s

theorem startSeen_kept (g : SegId) (m : Maker) (s : State) : PoolsKept s (startSeen g m s) := by
  have outside : PoolsKept s (startFromOutside g s) :=
    .trans (modSeg_kept (startAt_lighter _ _)) ((endTransaction_kept g false _).trans
      ((collide_kept g _).trans (loseByCondition_kept g _)))
  have part : PoolsKept s (startFromPart g s) :=
    (endTransaction_kept g false s).trans (modSeg_kept ((driveStart_lighter _).trans (startAt_lighter _ _)))
  unfold startSeen
  dsimp only
  split
  · split
    · cases m with
      | outside => exact modSeg_kept (setLevel_lighter _ _)
      | part => exact .refl s
    · cases m with
      | outside => exact outside
      | part =>
        dsimp only
        split
        · exact part
        · exact .refl s
  · exact .refl s

theorem stopSeen_kept (g : SegId) (s : State) : PoolsKept s (stopSeen g s) := by
  unfold stopSeen
  dsimp only
  split
  · split
    · exact modSeg_kept (setLevel_lighter _ _)
    · exact .trans (modSeg_kept (stopAt_lighter _ _)) ((endTransaction_kept g false _).trans (loseByCondition_kept g _))
  · exact .refl s

theorem windowExpires_kept (g : SegId) (s : State) : PoolsKept s (windowExpires g s) := by
  unfold windowExpires
  split
  · exact modSeg_kept (monitorFree_lighter _ _ _)
  · exact .refl s

end Sys2Proof.Machine
end

section
/-! PROOFS. The pools through the requests and the link unit. -/

namespace Sys2Proof.Machine

/-! ## Requests of the link unit -/

theorem letGo_kept (s : State) : PoolsKept s (letGo s) := .of_segs rfl rfl rfl

theorem withRequest_kept (code : Byte) {f : Request → Deferral → State → State} {s : State}
    (hf : ∀ r d, PoolsKept s (f r d s)) : PoolsKept s (withRequest code f s) := by
  unfold withRequest
  split
  · split
    · exact hf _ _
    · exact .refl s
  · exact .refl s

theorem settleDuplicate_kept (s : State) : PoolsKept s (settleDuplicate s) := by
  unfold settleDuplicate
  split <;> exact .of_segs rfl rfl rfl

theorem refuseUnknown_kept (s : State) : PoolsKept s (refuseUnknown s) := by
  unfold refuseUnknown
  (repeat' split) <;> exact .of_segs rfl rfl rfl

theorem answerDevInfo_kept (r : Request) (d : Deferral) (s : State) : PoolsKept s (answerDevInfo r d s) := by
  unfold answerDevInfo
  split <;> exact answer_kept _ _ _ _ s

theorem answerDevReset_kept (r : Request) (d : Deferral) (s : State) : PoolsKept s (answerDevReset r d s) := by
  unfold answerDevReset
  split
  · exact answer_kept _ _ _ _ s
  · exact .of_segs rfl rfl rfl

theorem answerLinkConfig_kept (r : Request) (d : Deferral) (s : State) : PoolsKept s (answerLinkConfig r d s) := by
  unfold answerLinkConfig
  split
  · exact answer_kept _ _ _ _ s
  · exact .of_segs rfl rfl rfl

/-! ## Requests of the segments -/

theorem flushCurrent_kept (g : SegId) (i : Slot) (running : Bool) (s : State) :
    PoolsKept s (flushCurrent g i running s) :=
  .after (finishJob_kept _ _ _ _) (modSeg_kept_of_eq s rfl rfl)

theorem flushQueue_kept (g : SegId) (s : State) : PoolsKept s (flushQueue g s) :=
  .after (finishAll_kept _ _ _) (modSeg_kept_of_eq s rfl rfl)

theorem resetInitiator_kept (g : SegId) (s : State) : PoolsKept s (resetInitiator g s) := by
  unfold resetInitiator
  repeat' split
  all_goals first
    | exact .refl s
    | exact flushCurrent_kept _ _ _ s
    | exact closeHold_kept _ _ _ s
    | exact modJob_kept s fun _ => rfl
    | exact modSeg_kept_of_eq s rfl rfl

theorem flushStart_kept (g : SegId) (s : State) : PoolsKept s (flushStart g s) := by
  unfold flushStart
  split
  · split
    · exact flushCurrent_kept _ _ _ s
    · exact .refl s
  · exact .refl s

theorem segmentReset_kept (g : SegId) (s : State) : PoolsKept s (segmentReset g s) :=
  (endTransaction_kept g true s).trans ((resetInitiator_kept g _).trans ((flushQueue_kept g _).trans
    ((flushStart_kept g _).trans (modSeg_kept (resetLines_lighter _ _)))))

theorem disableSegment_kept (g : SegId) (s : State) : PoolsKept s (disableSegment g s) := by
  have reset : PoolsKept s (segmentReset g (modSeg g (fun x => { x with disabling := true }) s)) :=
    .after (segmentReset_kept g _) (modSeg_kept_of_eq s rfl rfl)
  unfold disableSegment
  dsimp only
  split
  · exact reset
  · exact reset.trans (goOff_kept g _)

theorem applyEnable_kept (g : SegId) (enable : Bool) (s : State) : PoolsKept s (applyEnable g enable s) := by
  unfold applyEnable
  dsimp only
  split
  · exact .refl s
  · split
    · split
      · exact modSeg_kept (.of_resp (Nat.zero_le _) rfl)
      · exact .refl s
    · split
      · exact .refl s
      · exact disableSegment_kept g s

theorem answerSegConfig_kept (r : Request) (d : Deferral) (s : State) : PoolsKept s (answerSegConfig r d s) := by
  unfold answerSegConfig
  split
  · exact answer_kept _ _ _ _ s
  · exact .after (answer_kept _ _ _ _ _) (.after (applyEnable_kept _ _ _) (modSeg_kept_of_eq s rfl rfl))

theorem answerSegStatus_kept (r : Request) (d : Deferral) (s : State) : PoolsKept s (answerSegStatus r d s) := by
  unfold answerSegStatus
  split <;> exact answer_kept _ _ _ _ s

theorem flushHold_kept (g : SegId) (s : State) : PoolsKept s (flushHold g s) := by
  unfold flushHold
  split
  · split
    · exact .refl s
    · exact closeHold_kept _ _ _ s
  · exact .refl s

theorem answerSegFlush_kept (r : Request) (d : Deferral) (s : State) : PoolsKept s (answerSegFlush r d s) := by
  unfold answerSegFlush
  split
  · exact answer_kept _ _ _ _ s
  · dsimp only
    split
    · exact answer_kept _ _ _ _ s
    · exact (flushQueue_kept _ s).trans ((flushHold_kept _ _).trans (answer_kept _ _ _ _ _))

theorem answerSegReset_kept (r : Request) (d : Deferral) (s : State) : PoolsKept s (answerSegReset r d s) := by
  unfold answerSegReset
  split
  · exact answer_kept _ _ _ _ s
  · dsimp only
    split
    · exact answer_kept _ _ _ _ s
    · exact (segmentReset_kept _ s).trans (answer_kept _ _ _ _ _)

/-! ## Requests of the job pool -/

/-- The free blocks suffice for a job that is admitted (R33). -/
theorem admission_blocks {u : Submission} {s : State} {i : Slot} (h : admission u s = .ok i) :
    blockCount u.phases ≤ freeBlocks s := by
  unfold admission at h
  dsimp only at h
  repeat' split at h
  all_goals cases h
  rename_i hb _
  exact Nat.not_lt.mp hb

/-- An admission takes the job's blocks from the free ones (R34). -/
theorem placeJob_kept {u : Submission} {s : State} {i : Slot} (hi : s.job? i = none)
    (hb : blockCount u.phases ≤ freeBlocks s) : PoolsKept s (placeJob i u s) := by
  have held := heldBlocks_setJob s i (some (admittedJob (s.seg u.seg).cfg u))
  have blocks : blocksOf (some (admittedJob (s.seg u.seg).cfg u)) = blockCount u.phases := rfl
  have empty : blocksOf (s.job? i) = 0 := by rw [hi]; rfl
  have placed : PoolsKept s (s.setJob i (some (admittedJob (s.seg u.seg).cfg u))) := by
    refine ⟨Nat.le_max_right _ _, ?_⟩
    rw [freeBlocks] at hb
    omega
  exact .after (modSeg_kept_of_eq _ rfl rfl) placed

theorem lookAtQueue_kept (g : SegId) (s : State) : PoolsKept s (lookAtQueue g s) := by
  unfold lookAtQueue
  split
  · exact examineQueue_kept g _ s
  · exact takeContinuation_kept g s
  · exact .refl s

theorem answerJobSubmit_kept (r : Request) (d : Deferral) (s : State) : PoolsKept s (answerJobSubmit r d s) := by
  unfold answerJobSubmit
  split
  · exact answer_kept _ _ _ _ s
  · split
    · exact answer_kept _ _ _ _ s
    · rename_i ha
      exact (placeJob_kept (admission_slot ha).1 (admission_blocks ha)).trans
        ((answer_kept _ _ _ _ _).trans (lookAtQueue_kept _ _))

theorem answerJobCancel_kept (r : Request) (d : Deferral) (s : State) : PoolsKept s (answerJobCancel r d s) := by
  have queued : ∀ i j, PoolsKept s (cancelQueued r d i j s) := fun i j =>
    .after (answer_kept _ _ _ _ _) (.after (finishJob_kept _ _ _ _) (modSeg_kept_of_eq s rfl rfl))
  have waiting : ∀ i j, PoolsKept s (cancelWaiting r d i j s) := fun i j =>
    .after (toIdle_kept _ _)
      (.after (answer_kept _ _ _ _ _) (.after (finishJob_kept _ _ _ _) (modJob_kept s fun _ => rfl)))
  have deferred : ∀ i, PoolsKept s (deferCancel d i s) := fun i =>
    .after (letGo_kept _) (modJob_kept s fun _ => rfl)
  unfold answerJobCancel
  repeat' split
  all_goals first
    | exact answer_kept _ _ _ _ s
    | exact queued _ _
    | exact waiting _ _
    | exact deferred _

theorem answerJobQuery_kept (r : Request) (d : Deferral) (s : State) : PoolsKept s (answerJobQuery r d s) := by
  unfold answerJobQuery
  (repeat' split) <;> exact answer_kept _ _ _ _ s

/-! ## Requests of the responders -/

theorem settledEntry_outbox (v : Option EntrySettings) (n : Entry) :
    (settledEntry v n).outbox.length ≤ n.outbox.length := by
  unfold settledEntry setEntryTo
  split
  · split
    · exact Nat.le_refl _
    · exact Nat.zero_le _
  · exact Nat.zero_le _

theorem keptMessages_length (bound : Bool) (q : List (List Byte)) : (keptMessages bound q).length ≤ q.length := by
  unfold keptMessages
  split
  · exact List.length_take_le' _ _
  · exact Nat.zero_le _

theorem answerRespSet_kept (r : Request) (d : Deferral) (s : State) : PoolsKept s (answerRespSet r d s) := by
  unfold answerRespSet
  split
  · exact answer_kept _ _ _ _ s
  · dsimp only
    split
    · exact answer_kept _ _ _ _ s
    · split
      · exact answer_kept _ _ _ _ s
      · exact .after (answer_kept _ _ _ _ _) (modEntry_kept (settledEntry_outbox _ _))

theorem answerWinWrite_kept (r : Request) (d : Deferral) (s : State) : PoolsKept s (answerWinWrite r d s) := by
  unfold answerWinWrite
  split
  · exact answer_kept _ _ _ _ s
  · dsimp only
    split
    · exact answer_kept _ _ _ _ s
    · split
      · exact .after (letGo_kept _) (modEntry_kept (Nat.le_refl _))
      · exact .after (answer_kept _ _ _ _ _) (modEntry_kept (Nat.le_refl _))

theorem answerWinRead_kept (r : Request) (d : Deferral) (s : State) : PoolsKept s (answerWinRead r d s) := by
  unfold answerWinRead
  split <;> exact answer_kept _ _ _ _ s

/-- A post takes a free block (R37, R123). -/
theorem post_kept {s : State} (h : freeBlocks s ≠ 0) (g : SegId) (e : EntryId) (bytes : List Byte) :
    PoolsKept s (post g e bytes s) := by
  refine .after (modSeg_kept (serveWaiting_lighter _ _ _)) ⟨?_, ?_⟩
  · have records := heldRecords_setSeg s g
      ((s.seg g).setEntry e { (s.seg g).entry e with outbox := ((s.seg g).entry e).outbox ++ [bytes] })
    have same : heldRecords (modEntry g e (fun n => { n with outbox := n.outbox ++ [bytes] }) s) = heldRecords s :=
      Nat.add_right_cancel records
    omega
  · have held : heldBlocks (modEntry g e (fun n => { n with outbox := n.outbox ++ [bytes] }) s) = heldBlocks s + 1 :=
      heldBlocks_setSeg_succ (outboxBlocks_setEntry_append _ e bytes)
    rw [freeBlocks] at h
    omega

theorem answerMailPost_kept (r : Request) (d : Deferral) (s : State) : PoolsKept s (answerMailPost r d s) := by
  unfold answerMailPost
  split
  · exact answer_kept _ _ _ _ s
  · dsimp only
    split
    · exact answer_kept _ _ _ _ s
    · split
      · exact answer_kept _ _ _ _ s
      · split
        · exact answer_kept _ _ _ _ s
        · rename_i hb
          exact (post_kept hb _ _ _).trans (answer_kept _ _ _ _ _)

theorem answerMailWithdraw_kept (r : Request) (d : Deferral) (s : State) : PoolsKept s (answerMailWithdraw r d s) := by
  unfold answerMailWithdraw
  split
  · exact answer_kept _ _ _ _ s
  · dsimp only
    split
    · exact answer_kept _ _ _ _ s
    · exact .after (answer_kept _ _ _ _ _) (modEntry_kept (keptMessages_length _ _))

/-! ## The link unit -/

theorem checkFrame_kept (len : Byte) (body : List Byte) (c : Word) (s : State) :
    PoolsKept s (checkFrame len body c s) := by
  have woke : PoolsKept s (endSilent s) := by
    unfold endSilent
    split <;> exact .of_segs rfl rfl rfl
  have placed : ∀ r u, PoolsKept u (placeRequest r u) := fun r u => by
    unfold placeRequest
    split <;> exact .of_segs rfl rfl rfl
  unfold checkFrame
  split
  · unfold acceptFrame
    split
    · exact woke.trans (acknowledge_kept _ _)
    · split
      · exact woke.trans (placed _ _)
      · exact woke
  · exact .refl s

theorem enterHunt_kept (s : State) : PoolsKept s (enterHunt s) := .of_segs rfl rfl rfl

theorem receive_kept (b : Byte) (s : State) : PoolsKept s (receive b s) := by
  unfold receive receiveByte
  repeat' split
  all_goals first
    | exact PoolsKept.of_segs rfl rfl rfl
    | exact .after (checkFrame_kept _ _ _ _) (enterHunt_kept s)

theorem gapExpires_kept (s : State) : PoolsKept s (gapExpires s) := by
  unfold gapExpires
  split <;> exact .of_segs rfl rfl rfl

theorem takeHead_kept (r : Request) (rest : List Request) (s : State) : PoolsKept s (takeHead r rest s) := by
  have shifted : PoolsKept s { s with link := { s.link with inbound := rest } } := .of_segs rfl rfl rfl
  have acked : PoolsKept s (applyAckField r { s with link := { s.link with inbound := rest } }) := by
    unfold applyAckField
    split
    · exact shifted.trans (acknowledge_kept _ _)
    · exact shifted
  exact acked.trans (.of_segs rfl rfl rfl)

theorem takeRequest_kept (s : State) : PoolsKept s (takeRequest s) := by
  unfold takeRequest
  repeat' split
  all_goals first
    | exact .refl s
    | exact takeHead_kept _ _ s

theorem startFrame_kept (s : State) : PoolsKept s (startFrame s) := by
  unfold startFrame
  (repeat' split) <;> exact .of_segs rfl rfl rfl

theorem resendExpires_kept (s : State) : PoolsKept s (resendExpires s) := by
  unfold resendExpires
  dsimp only
  (repeat' split) <;> exact .of_segs rfl rfl rfl

/-! ## Reset -/

/-- A reset leaves no job, no message and no transaction. -/
theorem held_atReset {s : State} (hs : ∀ g, ∃ scl sda, s.seg g = Segment.atReset scl sda) (hj : ∀ i, s.job? i = none) :
    heldRecords s = recordsQueued s.notices.queue ∧ heldBlocks s = 0 := by
  have records : ∀ g, (s.seg g).resp.records = 0 := fun g => by obtain ⟨a, b, h⟩ := hs g; rw [h]; rfl
  have boxes : ∀ g, (s.seg g).outboxBlocks = 0 := fun g => by
    obtain ⟨a, b, h⟩ := hs g
    rw [h, outboxBlocks_atReset]
  have slots_empty : slotBlocks s = fun _ => 0 := funext fun i => by rw [slotBlocks_eq, hj]; rfl
  constructor
  · simp only [heldRecords_eq, records, total_zero, Nat.add_zero]
  · simp only [heldBlocks_eq, slots_empty, boxes, total_zero, Nat.add_zero]

theorem held_fullReset (c : Cause) (p : Straps) (s : State) :
    heldRecords (fullReset c p s) = 1 ∧ heldBlocks (fullReset c p s) = 0 :=
  held_atReset (fun g => ⟨_, _, seg_fullReset c p s g⟩) (job?_fullReset c p s)

theorem job?_holdReset (c : Cause) (s : State) (i : Slot) : (holdReset c s).job? i = none := by
  simp [holdReset, State.job?]

theorem held_holdReset (c : Cause) (s : State) : heldRecords (holdReset c s) = 0 ∧ heldBlocks (holdReset c s) = 0 :=
  held_atReset (fun g => ⟨_, _, seg_holdReset c s g⟩) (job?_holdReset c s)

theorem fullReset_kept (c : Cause) (p : Straps) (s u : State) : PoolsKept u (fullReset c p s) := by
  obtain ⟨hr, hb⟩ := held_fullReset c p s
  exact ⟨by rw [hr, Config.eventRecords]; omega, by rw [hb]; omega⟩

theorem holdReset_kept (c : Cause) (s u : State) : PoolsKept u (holdReset c s) := by
  obtain ⟨hr, hb⟩ := held_holdReset c s
  exact ⟨by rw [hr]; omega, by rw [hb]; omega⟩

theorem powerUp_kept (b : Bool) (p : Straps) (s : State) : PoolsKept s (powerUp b p s) := by
  cases b with
  | false => exact fullReset_kept _ _ s s
  | true => exact holdReset_kept _ s s

theorem rstFalls_kept (s : State) : PoolsKept s (rstFalls s) := holdReset_kept _ s s

theorem rstRises_kept (p : Straps) (s : State) : PoolsKept s (rstRises p s) := by
  unfold rstRises
  split
  · exact .refl s
  · exact fullReset_kept _ _ s s

theorem endFrame_kept (p : Straps) (s : State) : PoolsKept s (endFrame p s) := by
  unfold endFrame
  repeat' split
  all_goals first
    | exact .of_segs rfl rfl rfl
    | exact fullReset_kept _ _ s s

end Sys2Proof.Machine
end

section
/-! PROOFS. The pools along every step, and the length of the notice queue. -/

namespace Sys2Proof.Machine

/-! ## What is taken around a command -/

theorem watchLines_kept (s : State) : PoolsKept s (watchLines s) :=
  .of_same rfl rfl fun g => by rw [seg_watchLines]; exact ⟨rfl, rfl⟩

theorem answerInHand_kept (s : State) : PoolsKept s (answerInHand s) := by
  have step : ∀ {code} {f : Request → Deferral → State → State} {u : State}, PoolsKept s u →
      (∀ r d v, PoolsKept v (f r d v)) → PoolsKept s (withRequest code f u) :=
    fun h hf => h.trans (withRequest_kept _ fun r d => hf r d _)
  have h0 : PoolsKept s (refuseUnknown (settleDuplicate s)) := (settleDuplicate_kept s).trans (refuseUnknown_kept _)
  have h1 : PoolsKept s (answerByPool (refuseUnknown (settleDuplicate s))) :=
    step (step (step (step (step (step (step (step (step (step h0 answerDevInfo_kept) answerDevReset_kept)
      answerLinkConfig_kept) answerSegConfig_kept) answerSegStatus_kept) answerSegFlush_kept) answerSegReset_kept)
      answerJobSubmit_kept) answerJobCancel_kept) answerJobQuery_kept
  exact step (step (step (step (step h1 answerRespSet_kept) answerWinWrite_kept) answerWinRead_kept) answerMailPost_kept)
    answerMailWithdraw_kept

theorem settleSegment_kept (g : SegId) (s : State) : PoolsKept s (settleSegment g s) :=
  (arbitrationLoss_kept g s).trans ((respAddressByte_kept g _).trans ((addressAck_kept g _).trans
    ((writeByteAck_kept g _).trans ((lengthByte_kept g _).trans ((readByte_kept g _).trans
      ((windowWriteByte_kept g _).trans ((mailWriteByte_kept g _).trans
        ((windowReadByte_kept g _).trans (mailReadByte_kept g _)))))))))

theorem settle_kept (s : State) : PoolsKept s (settle s) :=
  (answerInHand_kept s).trans ((settleSegment_kept 0 _).trans ((settleSegment_kept 1 _).trans
    ((settleSegment_kept 2 _).trans (settleSegment_kept 3 _))))

theorem countStep_kept (s : State) : PoolsKept s (countStep s) := by
  have engines : ∀ g, (s.seg g).Lighter ((countStep s).seg g) := fun g => by
    rw [seg_countStep]
    exact countBackoff_lighter _ _
  have records := total_mono fun g => (engines g).records
  have blocks := total_mono fun g => (engines g).blocks
  exact .of_le (by rw [heldRecords_eq s, heldRecords_eq]; exact Nat.add_le_add_left records _)
    (by rw [heldBlocks_eq s, heldBlocks_eq]; exact Nat.add_le_add_left blocks _)

theorem idle_kept (s : State) : PoolsKept s (idle s) := by
  have looked : PoolsKept s (watchLines (settle s)) := (settle_kept s).trans (watchLines_kept _)
  unfold idle
  dsimp only
  split
  · exact looked
  · exact looked.trans (countStep_kept _)

/-! ## Every command -/

theorem asEvent_kept {f : State → State} (hf : ∀ u, PoolsKept u (f u)) {s t : State} (e : asEvent f s = .next t) :
    PoolsKept s t := by
  cases e
  exact (settle_kept s).trans ((hf _).trans (watchLines_kept _))

theorem asOwed_kept {f : State → State} (hf : ∀ u, PoolsKept u (f u)) {s t : State} (e : asOwed f s = .next t) :
    PoolsKept s t := by
  cases e
  exact (answerInHand_kept s).trans ((hf _).trans (watchLines_kept _))

theorem asRequest_kept {f : State → State} (hf : ∀ u, PoolsKept u (f u)) {s t : State} (e : asRequest f s = .next t) :
    PoolsKept s t := by
  cases e
  exact (hf _).trans (watchLines_kept _)

theorem answers_kept {code : Byte} {f : Request → Deferral → State → State} (hf : ∀ r d u, PoolsKept u (f r d u))
    {s t : State} (e : asRequest (withRequest code f) s = .next t) : PoolsKept s t :=
  asRequest_kept (fun u => withRequest_kept code fun r d => hf r d u) e

/-- No command takes of a pool what is not free. -/
theorem exec_kept {s t : State} (c : Instr) (e : exec c s = .next t) : PoolsKept s t := by
  cases c with
  | powerOn b p => cases e; exact powerUp_kept b p s
  | rstLow => cases e; exact rstFalls_kept s
  | rstRelease p => cases e; exact rstRises_kept p s
  | rxByte b => exact asEvent_kept (receive_kept b) e
  | rxFramingError => exact asEvent_kept enterHunt_kept e
  | rxGapTimeout => exact asEvent_kept gapExpires_kept e
  | requestTaken => exact asEvent_kept takeRequest_kept e
  | duplicateRequest => exact asRequest_kept settleDuplicate_kept e
  | unknownRequest => exact asRequest_kept refuseUnknown_kept e
  | devInfo => exact answers_kept answerDevInfo_kept e
  | devReset => exact answers_kept answerDevReset_kept e
  | linkConfig => exact answers_kept answerLinkConfig_kept e
  | segConfig => exact answers_kept answerSegConfig_kept e
  | segStatus => exact answers_kept answerSegStatus_kept e
  | segFlush => exact answers_kept answerSegFlush_kept e
  | segReset => exact answers_kept answerSegReset_kept e
  | jobSubmit => exact answers_kept answerJobSubmit_kept e
  | jobCancel => exact answers_kept answerJobCancel_kept e
  | jobQuery => exact answers_kept answerJobQuery_kept e
  | respSet => exact answers_kept answerRespSet_kept e
  | winWrite => exact answers_kept answerWinWrite_kept e
  | winRead => exact answers_kept answerWinRead_kept e
  | mailPost => exact answers_kept answerMailPost_kept e
  | mailWithdraw => exact answers_kept answerMailWithdraw_kept e
  | txFrameStart => exact asEvent_kept startFrame_kept e
  | txFrameEnd p => exact asEvent_kept (endFrame_kept p) e
  | resendTimerExpiry => exact asEvent_kept resendExpires_kept e
  | startSeen g m => exact asEvent_kept (startSeen_kept g m) e
  | stopSeen g => exact asEvent_kept (stopSeen_kept g) e
  | sclFallWhileFree g => exact asEvent_kept (sclFallsWhileFree_kept g) e
  | busIdleWindowExpiry g => exact asEvent_kept (windowExpires_kept g) e
  | startDecision g => exact asEvent_kept (decideStart_kept g) e
  | addressAck g => exact asOwed_kept (addressAck_kept g) e
  | writeByteAck g => exact asOwed_kept (writeByteAck_kept g) e
  | readByte g => exact asOwed_kept (readByte_kept g) e
  | lengthByte g => exact asOwed_kept (lengthByte_kept g) e
  | stopMade g => exact asEvent_kept (makeStop_kept g) e
  | arbitrationLoss g => exact asOwed_kept (arbitrationLoss_kept g) e
  | stretchLimitExpiry g => exact asEvent_kept (stretchExpires_kept g) e
  | backoffEnd g => exact asEvent_kept (backoffEnds_kept g) e
  | holdLimitExpiry g => exact asEvent_kept (holdExpires_kept g) e
  | respAddressByte g => exact asOwed_kept (fun u => (arbitrationLoss_kept g u).trans (respAddressByte_kept g _)) e
  | windowWriteByte g => exact asOwed_kept (windowWriteByte_kept g) e
  | windowReadByte g => exact asOwed_kept (windowReadByte_kept g) e
  | mailWriteByte g => exact asOwed_kept (mailWriteByte_kept g) e
  | mailReadByte g => exact asOwed_kept (mailReadByte_kept g) e
  | mailWaitExpiry g => exact asEvent_kept (mailWaitExpires_kept g) e
  | stuckDetection g => exact asEvent_kept (stuckDetected_kept g) e
  | clearWaitExpiry g => exact asEvent_kept (clearWaitExpires_kept g) e
  | clearingRoundEnd g => exact asEvent_kept (roundEnds_kept g) e
  | clearStretchExpiry g => exact asEvent_kept (clearStretchExpires_kept g) e
  | idleWatchExpiry g => exact asEvent_kept (idleWatchExpires_kept g) e
  | lineEdge g k => exact asEvent_kept (lineEdge_kept g k) e
  | clearingPulse g => exact asEvent_kept (clearingPulse_kept g) e

theorem step_kept {s t : State} (e : step s = .next t) : PoolsKept s t := by
  rw [step] at e
  split at e
  · exact Host.Outcome.next.inj e ▸ idle_kept s
  · rename_i rest _
    have taken : PoolsKept s { s with pending := rest } := .of_segs rfl rfl rfl
    exact taken.trans (exec_kept _ e)

/-! ## The notice queue -/

theorem recordsQueued_eq (q : List Notice) : recordsQueued q = (q.map (·.source)).count .record := by
  rw [recordsQueued, List.count, List.countP_map]
  rfl

/-- An entry of the queue holds an event record or is the one JOB_DONE of a slot (R146). -/
theorem queue_length_le {s : State} (h : s.pool) : s.notices.queue.length ≤ heldRecords s + Config.jobSlots := by
  have hp := h.length_le
  rw [List.length_map, ← recordsQueued_eq] at hp
  rw [heldRecords_eq]
  omega

/-- Settles O60: at reset RESTARTED alone holds anything; a step that starts within a pool stays within it; and the queue
holds one entry a record and one a slot. -/
theorem poolsNeverRunOver : Obligations.PoolsNeverRunOver := by
  refine ⟨?_, fun s t e => ?_, fun s h hr => ?_⟩
  · obtain ⟨hr, hb⟩ := held_fullReset .powerOn ⟨false, false⟩ State.reset
    rw [reset_eq_powerUp]
    exact ⟨hr ▸ by decide, hb ▸ by decide⟩
  · obtain ⟨hr, hb⟩ := step_kept e
    simp only [Config.eventRecords, Config.dataBlocks] at hr hb
    omega
  · have := queue_length_le h.pool
    simp only [Config.jobSlots] at this
    omega

end Sys2Proof.Machine
end

section
/-! PROOFS. Power-up and RST, and the end of a job. -/

namespace Sys2Proof.Machine

/-! ## Power-up and RST -/

/-- While RST is low every block is at its reset values, with nothing queued (R152). -/
theorem heldInReset (c : Cause) (s : State) : HeldInReset c s (holdReset c s) where
  time := rfl
  queue := rfl
  held := rfl
  engines := seg_holdReset c s
  slots := job?_holdReset c s
  link := rfl
  quiet := ⟨rfl, attn_of_nil rfl, rfl⟩

theorem rstRises_held {s : State} {c : Cause} (h : s.resetHeld = some c) (p : Straps) :
    rstRises p s = fullReset c p s := by rw [rstRises, h]

theorem rstRises_running {s : State} (h : s.resetHeld = none) (p : Straps) : rstRises p s = s := by rw [rstRises, h]

theorem baud_rateOf (p : Straps) :
    (rateOf p).baud =
      match p.baud1, p.baud0 with
      | false, false => 115200
      | false, true => 230400
      | true, false => 460800
      | true, true => 921600 := by
  obtain ⟨b1, b0⟩ := p
  cases b1 <;> cases b0 <;> rfl

/-- Settles O4: power-up and RST end in a full reset or in its hold, whose states are said once for every cause. -/
theorem powerOnAndRstReset : Obligations.PowerOnAndRstReset := fun p s =>
  ⟨⟨_, rfl, afterFullReset .powerOn p s⟩, ⟨_, rfl, heldInReset .powerOn s⟩, ⟨_, rfl, heldInReset _ s⟩,
    fun _ h => ⟨_, congrArg Host.Outcome.next (rstRises_held h p), afterFullReset _ p s⟩,
    fun h => congrArg Host.Outcome.next (rstRises_running h p), baud_rateOf p, rfl, rfl⟩

/-! ## The end of a job -/

/-- A byte index stands in the records of R63's outcomes, for a job cancelled or flushed only where it was RUNNING. -/
theorem carriesByteIndex_eq (o : JobOutcome) (running : Bool) (n : Nat) :
    (if carriesByteIndex o running then some n else none) =
      match o with
      | .dataNack | .lengthBad => some n
      | .cancelled | .flushed => if running = true then some n else none
      | _ => none := by
  cases o <;> rfl

theorem completionOf_eq (now : Nat) (o : JobOutcome) (running : Bool) (j : Job) :
    completionOf now o running j =
      { outcome := o
        failPhase := if o = .done then none else some j.phaseIndex
        byteIndex :=
          (match o with
           | .dataNack | .lengthBad => some j.byteIndex
           | .cancelled | .flushed => if running = true then some j.byteIndex else none
           | _ => none)
        duration := (match j.startTime with | none => 0 | some t => min (now - t) 65535)
        results := j.results } := by
  rw [completionOf, carriesByteIndex_eq]
  rfl

/-- A job that has ended: FINISHED with its record in its slot, which has joined the notice queue (R43). -/
def jobEnded (i : Slot) (j : Job) (c : Completion) (s : State) : State :=
  joinNotice .jobDone (.job i) (jobDonePayload j c)
    (s.setJob i (some { j with status := .finished c, cancelReply := none }))

theorem finishJob_noReply {s : State} {i : Slot} {j : Job} (hj : s.job? i = some j) (hr : j.cancelReply = none)
    (o : JobOutcome) (running : Bool) : finishJob i o running s = jobEnded i j (completionOf s.now o running j) s := by
  simp only [finishJob, hj, hr]
  rfl

theorem finishJob_replies {s : State} {i : Slot} {j : Job} {d : Deferral} (hj : s.job? i = some j)
    (hr : j.cancelReply = some d) (o : JobOutcome) (running : Bool) :
    finishJob i o running s =
      makeReply d codeJobCancel (cancelCode j o) (cancelData j o true) false
        (jobEnded i j (completionOf s.now o running j) s) := by
  simp only [finishJob, hj, hr]
  rfl

/-- With or without the reply, all but the link unit is that of the job's end. -/
theorem finishJob_frame {s : State} {i : Slot} {j : Job} (hj : s.job? i = some j) (o : JobOutcome) (running : Bool) :
    finishJob i o running s =
      { jobEnded i j (completionOf s.now o running j) s with link := (finishJob i o running s).link } := by
  cases hr : j.cancelReply with
  | none => rw [finishJob_noReply hj hr]
  | some d => rw [finishJob_replies hj hr]; rfl

/-- The body of a pending cancel reply (R136, R138, R181). -/
theorem cancelReply_body (d : Deferral) (j : Job) (o : JobOutcome) :
    replyBody d.tag codeJobCancel (cancelCode j o) (cancelData j o true) =
      [0x81, d.tag, 0x21, if o = .cancelled ∧ j.resetTaken = false then 0x00 else 0x0D] ++ wordBytes j.id ++
        [outcomeByte o, 0x01] := by
  have code : replyByte (cancelCode j o) = if o = .cancelled ∧ j.resetTaken = false then 0x00 else 0x0D := by
    unfold cancelCode
    split <;> rfl
  rw [← code]
  simp [replyBody, cancelData, flagByte, kindReply, codeJobCancel]

/-- Settles O13: a job's end is one state but for the link unit, which a pending cancel reply alone changes. -/
theorem jobFinishes : Obligations.JobFinishes := by
  intro i o running s j c hj hc
  obtain rfl : c = completionOf s.now o running j := hc.trans (completionOf_eq s.now o running j).symm
  have frame := finishJob_frame hj o running
  refine ⟨?_, fun k hk => ?_, finishJob_segs i o running s, finishJob_now i o running s,
    finishJob_pending i o running s, ?_, ?_, fun hr => ?_, ?_⟩
  · rw [frame]
    exact job?_setJob s i _
  · rw [frame]
    exact job?_setJob_ne s _ hk
  · rw [frame]
    rfl
  · rw [frame]
    rfl
  · rw [finishJob_noReply hj hr]
    rfl
  · rintro d body hr rfl
    rw [finishJob_replies hj hr, ← cancelReply_body]
    rfl

end Sys2Proof.Machine
end

section
/-! PROOFS. Acknowledgements. -/

namespace Sys2Proof.Machine

/-! ## What retirements do -/

/-- From `s` to `t` the first `n` entries of the notice queue are retired (R44, R151, R156): the send state counts from
the new head, the slots they named are free, and the summaries that the released records served stand behind the rest. -/
structure Retired (n : Nat) (s t : State) : Prop where
  queue :
    ∃ more, t.notices.queue = s.notices.queue.drop n ++ more ∧ ∀ m ∈ more, m.kind = .segSummary ∧ m.source = .record
  sending :
    t.notices =
      { s.notices with
        queue := t.notices.queue, next := t.notices.next, lastServed := t.notices.lastServed
        sentLimit := s.notices.sentLimit - n, sendPoint := s.notices.sendPoint - n }
  jobs : ∀ i, t.job? i = if (s.notices.queue.take n).any (·.source == .job i) then none else s.job? i
  link : t.link = s.link
  resetHeld : t.resetHeld = s.resetHeld
  now : t.now = s.now
  engines : ∀ g, t.seg g = { s.seg g with summary := (t.seg g).summary }

theorem Retired.refl (s : State) : Retired 0 s s where
  queue := ⟨[], by simp, by simp⟩
  sending := rfl
  jobs := fun i => by simp
  link := rfl
  resetHeld := rfl
  now := rfl
  engines := fun _ => rfl

theorem Retired.trans {m n : Nat} {s t u : State} (h : Retired m s t) (k : Retired n t u)
    (hl : m + n ≤ s.notices.queue.length) : Retired (m + n) s u := by
  obtain ⟨first, hfirst, hf⟩ := h.queue
  obtain ⟨second, hsecond, hs⟩ := k.queue
  have rest : n ≤ (s.notices.queue.drop m).length := by rw [List.length_drop]; omega
  constructor
  case queue =>
    refine ⟨first ++ second, ?_, fun x hx => (List.mem_append.mp hx).elim (hf x) (hs x)⟩
    rw [hsecond, hfirst, List.drop_append_of_le_length rest, List.drop_drop, List.append_assoc]
  case sending =>
    rw [k.sending, h.sending, Nat.sub_sub, Nat.sub_sub]
  case jobs =>
    intro i
    rw [k.jobs, h.jobs, hfirst, List.take_append_of_le_length rest, List.take_add, List.any_append]
    cases (s.notices.queue.take m).any (·.source == .job i) <;> simp
  case link => exact k.link.trans h.link
  case resetHeld => exact k.resetHeld.trans h.resetHeld
  case now => exact k.now.trans h.now
  case engines => exact fun g => by rw [k.engines, h.engines]

/-- A cleared summary is all that changes of an engine. -/
theorem summaryCleared_seg (g : SegId) (s : State) (k : SegId) :
    (s.setSeg g { s.seg g with summary := Summary.empty }).seg k =
      { s.seg k with summary := ((s.setSeg g { s.seg g with summary := Summary.empty }).seg k).summary } := by
  rw [seg_setSeg_eq]
  by_cases e : k = g
  · rw [if_pos e, e]
  · rw [if_neg e]

/-- A released record retires nothing: at most the summary that it serves joins the queue (R151). -/
theorem releaseRecord_retired (s : State) : Retired 0 s (releaseRecord s) := by
  cases hg : summaryToServe s with
  | none => rw [releaseRecord_none hg]; exact .refl s
  | some g =>
    rw [releaseRecord_some hg]
    constructor
    case queue => exact ⟨_, rfl, fun m hm => by rw [List.mem_singleton.mp hm]; exact ⟨rfl, rfl⟩⟩
    case sending => rfl
    case jobs => exact fun i => by simp; rfl
    case link => rfl
    case resetHeld => rfl
    case now => rfl
    case engines => exact summaryCleared_seg g s

/-- An entry that holds a record is off the queue. -/
theorem headTaken_retired {s : State} {n : Notice} {rest : List Notice} (hq : s.notices.queue = n :: rest)
    (hn : n.source = .record) : Retired 1 s (headTaken rest s) where
  queue := ⟨[], by simp [headTaken, hq], by simp⟩
  sending := rfl
  jobs := fun i => by simp [hq, hn]; rfl
  link := rfl
  resetHeld := rfl
  now := rfl
  engines := fun _ => rfl

/-- A job's entry is off the queue, and with it the slot that it names. -/
theorem slotTaken_retired {s : State} {n : Notice} {rest : List Notice} {i : Slot} (hq : s.notices.queue = n :: rest)
    (hn : n.source = .job i) : Retired 1 s ((headTaken rest s).setJob i none) where
  queue := ⟨[], by simp [headTaken, hq], by simp⟩
  sending := rfl
  jobs := fun k => by
    rw [job?_setJob_eq, hq]
    by_cases e : k = i
    · simp [hn, e]
    · have : ¬i = k := fun h => e h.symm
      simp [hn, e, this]
      rfl
  link := rfl
  resetHeld := rfl
  now := rfl
  engines := fun _ => rfl

theorem retireHead_retired {s : State} (h : s.notices.queue ≠ []) : Retired 1 s (retireHead s) := by
  obtain ⟨n, rest, hq⟩ := List.exists_cons_of_ne_nil h
  cases hn : n.source with
  | job i => rw [retireHead_job hq hn]; exact slotTaken_retired hq hn
  | record =>
    rw [retireHead_record hq hn]
    exact (headTaken_retired hq hn).trans (releaseRecord_retired _) (List.length_pos_iff.mpr h)

theorem retire_retired (n : Nat) {s : State} (h : n ≤ s.notices.queue.length) : Retired n s (retire n s) := by
  induction n generalizing s with
  | zero => exact .refl s
  | succ n ih =>
    have first := retireHead_retired (s := s) (List.ne_nil_of_length_pos (by omega))
    obtain ⟨more, hmore, -⟩ := first.queue
    have rest : n ≤ (retireHead s).notices.queue.length := by
      rw [hmore, List.length_append, List.length_drop]
      omega
    rw [Nat.add_comm]
    exact first.trans (by rw [Nat.add_comm]; exact ih rest) (by omega)

/-! ## Acknowledgements -/

theorem acknowledge_none {s : State} {a : Word} (h : ackCount a s.notices = none) : acknowledge a s = s := by
  rw [acknowledge, h]

theorem acknowledge_some {s : State} {a : Word} {n : Nat} (h : ackCount a s.notices = some n) :
    acknowledge a s = afterAck (retire n s) := by rw [acknowledge, h]

theorem ackCount_cons {q : Notices} {h : Notice} {rest : List Notice} (hq : q.queue = h :: rest) (a : Word) :
    ackCount a q = if (a - h.seq).toNat < q.sentLimit then some ((a - h.seq).toNat + 1) else none := by
  rw [ackCount, hq]

/-- The resend timer after the retirements, and then the send state, said of the state before them. -/
theorem Retired.timer {n : Nat} {s t : State} (h : Retired n s t) :
    (if 0 < t.notices.sentLimit && !t.notices.silent then freshTimer t else none) =
      if n < s.notices.sentLimit ∧ s.notices.silent = false then
        some { since := s.now, lenMs := s.notices.resendMs }
      else none := by
  rw [freshTimer, h.now, h.sending]
  simp only [Bool.and_eq_true, decide_eq_true_eq, Bool.not_eq_true', Nat.sub_pos_iff_lt]

theorem afterAck_notices {n : Nat} {s t : State} (h : Retired n s t) :
    (afterAck t).notices =
      { s.notices with
        queue := t.notices.queue, next := t.notices.next, lastServed := t.notices.lastServed
        sentLimit := s.notices.sentLimit - n, sendPoint := s.notices.sendPoint - n, expiries := 0
        timer :=
          if n < s.notices.sentLimit ∧ s.notices.silent = false then
            some { since := s.now, lenMs := s.notices.resendMs }
          else none } := by
  rw [afterAck, h.timer, h.sending]

/-- Settles O11: the acknowledgement counts its retirements off the head, each by `Retired`, and sets the timer. -/
theorem acknowledgementRetires : Obligations.AcknowledgementRetires := by
  constructor
  · refine fun s => ⟨rfl, fun _ => rfl, retireHead_nil, ?_⟩
    rintro n rest u hq rfl
    exact ⟨fun i hn => retireHead_job hq hn, fun hn => retireHead_record hq hn⟩
  · intro a s hok
    refine ⟨fun hq => acknowledge_none (by rw [ackCount, hq]), fun h rest hq => ?_⟩
    have count := ackCount_cons hq a
    refine ⟨fun hge => acknowledge_none (by rw [count, if_neg (by omega)]), fun hlt => ?_⟩
    have hlen : (a - h.seq).toNat + 1 ≤ s.notices.queue.length := by
      obtain ⟨-, hlimit, -⟩ := hok
      omega
    have done := retire_retired _ hlen
    rw [acknowledge_some (count.trans (if_pos hlt))]
    generalize (a - h.seq).toNat + 1 = n at done ⊢
    have notices := afterAck_notices done
    have field {α : Type} (f : Notices → α) := congrArg f notices
    refine ⟨?_, done.queue, field (·.sentLimit), field (·.sendPoint), rfl, field (·.timer), field (·.window),
      field (·.resendMs), field (·.silent), fun i hi => ?_, fun i hi => ?_, done.link, done.resetHeld, done.engines⟩
    · rw [afterAck, done.timer]
    · exact (done.jobs i).trans (if_pos (by simpa using hi))
    · exact (done.jobs i).trans (if_neg (by simpa using hi))

end Sys2Proof.Machine
end

section
/-! PROOFS. JOB_SUBMIT and JOB_QUERY. -/

namespace Sys2Proof.Machine

/-! ## The slot to claim -/

theorem freeSlot_none {s : State} (h : ∀ i, s.job? i ≠ none) : freeSlot s = none :=
  List.find?_eq_none.mpr fun i _ => by simpa using h i

theorem freeSlot_isSome {s : State} {i : Slot} (h : s.job? i = none) : ∃ k, freeSlot s = some k :=
  Option.isSome_iff_exists.mp (List.find?_isSome.mpr ⟨i, List.mem_finRange i, by simp [h]⟩)

theorem freeSlot_lowest {s : State} {i : Slot} (h : s.job? i = none) (hlow : ∀ k < i, s.job? k ≠ none) :
    freeSlot s = some i := by
  rw [freeSlot, List.find?_eq_some_iff_getElem]
  refine ⟨by simp [h], i, by simp [slots], by simp [slots], fun k hk => ?_⟩
  have held : s.job? ⟨k, Nat.lt_trans hk i.isLt⟩ ≠ none := hlow _ hk
  simpa [slots, Option.isSome_iff_ne_none] using held

theorem bind_job?_of_holdsId {s : State} {id : Word} {i : Slot} {j : Job} (h : HoldsId s id i j) :
    (findJob s id).bind s.job? = some j := by
  rw [findJob_of_holdsId h, Option.bind_some]
  exact h.1

/-! ## The checks of an admission, in the order of R27 -/

section

variable {s : State} {u : Submission}

theorem admission_segOff (h : (s.seg u.seg).refuses = true) : admission u s = .error (.segOff, []) := by
  simp only [admission, h, if_true]

variable (hr : (s.seg u.seg).refuses = false)
include hr

theorem admission_dupJob {i : Slot} {j : Job} (h : HoldsId s u.id i j) :
    admission u s = .error (.dupJob, [indexByte j.seg, jobStateByte j.status]) := by
  simp only [admission, hr, Bool.false_eq_true, if_false, bind_job?_of_holdsId h]

variable (hn : NoJob s u.id)
include hn

theorem admission_queueFull (h : (s.seg u.seg).cfg.queueLimit ≤ (s.seg u.seg).liveCount) :
    admission u s =
      .error (.queueFull, [byteOf (s.seg u.seg).liveCount, byteOf (s.seg u.seg).cfg.queueLimit]) := by
  simp only [admission, hr, Bool.false_eq_true, if_false, findJob_of_noJob hn, Option.bind_none, h, if_true]

variable (hq : (s.seg u.seg).liveCount < (s.seg u.seg).cfg.queueLimit)
include hq

theorem admission_noSlot (h : freeSlot s = none) : admission u s = .error (.noSlot, []) := by
  simp only [admission, hr, Bool.false_eq_true, if_false, findJob_of_noJob hn, Option.bind_none, Nat.not_le.mpr hq, h]

theorem admission_slotFree {i : Slot} (h : freeSlot s = some i) :
    admission u s =
      if freeBlocks s < blockCount u.phases then
        .error (.noSpace, [byteOf (blockCount u.phases), byteOf (freeBlocks s)])
      else .ok i := by
  simp only [admission, hr, Bool.false_eq_true, if_false, findJob_of_noJob hn, Option.bind_none, Nat.not_le.mpr hq, h]

end

theorem refuses_of_on {x : Segment} (he : x.cfg.enable = true) (hd : x.disabling = false) : x.refuses = false := by
  simp [Segment.refuses, he, hd]

/-! ## JOB_SUBMIT -/

theorem answerJobSubmit_refused {r : Request} {s : State} {u : Submission} {rc : ReplyCode} {data : List Byte}
    (hp : submitParams r.params = .ok u) (h : admission u s = .error (rc, data)) (d : Deferral) :
    answerJobSubmit r d s = answer r d rc data s := by
  simp only [answerJobSubmit, hp, h]

theorem answerJobSubmit_admitted {r : Request} {s : State} {u : Submission} {i : Slot}
    (hp : submitParams r.params = .ok u) (h : admission u s = .ok i) (d : Deferral) :
    answerJobSubmit r d s =
      lookAtQueue u.seg (answer r d .ok (admitData u (placeJob i u s)) (placeJob i u s)) := by
  simp only [answerJobSubmit, hp, h]

/-- Settles O28: one equation of the admission for each check, in the order of R27. -/
theorem jobSubmitRefusals : Obligations.JobSubmitRefusals := by
  intro s r age h
  refine ⟨fun rc hp => asRequest_replies h (f := answerJobSubmit) fun d => by simp only [answerJobSubmit, hp], ?_⟩
  rintro u x hp rfl
  have refused {rc : ReplyCode} {data : List Byte} (e : admission u s = .error (rc, data)) :
      Answers .jobSubmit r age rc data s s :=
    asRequest_replies h (f := answerJobSubmit) (answerJobSubmit_refused hp e)
  refine ⟨fun hoff => refused (admission_segOff (refuses_iff.mpr hoff)), fun he hd => ?_⟩
  have hr := refuses_of_on he hd
  refine ⟨fun i j hj => refused (admission_dupJob hr hj), fun hn => ?_⟩
  refine ⟨fun hfull => refused (admission_queueFull hr hn hfull), fun hroom => ?_⟩
  refine ⟨fun hheld => refused (admission_noSlot hr hn hroom (freeSlot_none hheld)), fun i hi hspace => ?_⟩
  obtain ⟨k, hk⟩ := freeSlot_isSome hi
  exact refused ((admission_slotFree hr hn hroom hk).trans (if_pos hspace))

/-- An URGENT job stands behind the URGENT jobs at the front of the queue (R39). -/
theorem insertUrgent_append {urgent : Slot → Bool} (i : Slot) {urgents others : List Slot}
    (hu : ∀ k ∈ urgents, urgent k = true) (ho : ∀ k ∈ others.head?, urgent k = false) :
    insertUrgent urgent i (urgents ++ others) = urgents ++ i :: others := by
  induction urgents with
  | nil =>
    cases others with
    | nil => rfl
    | cons k rest => simp [insertUrgent, ho k rfl]
  | cons k rest ih =>
    have tail := ih fun m hm => hu m (List.mem_cons_of_mem k hm)
    simp [insertUrgent, hu k List.mem_cons_self, tail]

theorem lookAtQueue_idle {g : SegId} {v : State} (h : (v.seg g).init = .idle) : lookAtQueue g v = enterIdle g v := by
  simp only [lookAtQueue, h]

theorem lookAtQueue_held {g : SegId} {v : State} {k : Hold} (h : (v.seg g).init = .held k) :
    lookAtQueue g v = takeContinuation g v := by
  simp only [lookAtQueue, h]

/-- An initiator that has a job looks at no queue. -/
theorem lookAtQueue_busy {g : SegId} {v : State} (h : (v.seg g).init.slot?.isSome = true) : lookAtQueue g v = v := by
  unfold lookAtQueue
  split
  · rename_i hi
    rw [hi] at h
    cases h
  · rename_i hi
    rw [hi] at h
    cases h
  · rfl

/-- The queue that an admitted job joins (R39). -/
theorem enqueue_eq {s : State} {cls : JobClass} {i : Slot} {queue q : List Slot}
    (h : (cls = .normal ∧ q = queue ++ [i]) ∨
      ∃ urgents others, cls = .urgent ∧ queue = urgents ++ others ∧ q = urgents ++ i :: others ∧
        (∀ k ∈ urgents, isUrgent s k = true) ∧ ∀ k ∈ others.head?, isUrgent s k = false) :
    enqueue s cls i queue = q := by
  rcases h with ⟨rfl, rfl⟩ | ⟨urgents, others, rfl, rfl, rfl, hu, ho⟩
  · rfl
  · exact insertUrgent_append i hu ho

/-- The state after the admission: the slot filled, and its segment's queue replaced. -/
theorem placeJob_eq (i : Slot) (u : Submission) (s : State) :
    placeJob i u s =
      (s.setJob i (some (admittedJob (s.seg u.seg).cfg u))).setSeg u.seg
        { s.seg u.seg with queue := enqueue s u.cls i (s.seg u.seg).queue } := rfl

/-- Settles O29: every check passes, the lowest free slot is claimed, and the place in the queue is the class's. -/
theorem jobSubmitAdmits : Obligations.JobSubmitAdmits := by
  rintro s t r age u x i q h hp rfl he hd hn hroom hi hlow hspace hq rfl
  refine ⟨?_, fun v g => ⟨lookAtQueue_idle, fun _ => lookAtQueue_held, lookAtQueue_busy⟩⟩
  have admitted : admission u s = .ok i :=
    (admission_slotFree (refuses_of_on he hd) hn hroom (freeSlot_lowest hi hlow)).trans (if_neg (by omega))
  have run := asRequest_inHand h answerJobSubmit
  rw [answerJobSubmit_admitted hp admitted, placeJob_eq, enqueue_eq hq] at run
  exact run

/-! ## JOB_QUERY -/

theorem jobIdParams_length {bs : List Byte} (h : bs.length ≠ 2) : jobIdParams bs = .error .badRequest := by
  match bs, h with
  | [], _ | [_], _ | _ :: _ :: _ :: _, _ => rfl
  | [_, _], h => exact absurd rfl h

theorem jobIdParams_zero : jobIdParams [0x00, 0x00] = .error .badParam := rfl

theorem jobIdParams_wordBytes {id : Word} (h : id ≠ 0) : jobIdParams (wordBytes id) = .ok id := by
  simp only [jobIdParams, wordBytes, wordOf_wordBytes, h, if_false, orBadParam]

theorem answerJobQuery_noJob {r : Request} {id : Word} {s : State} (hp : jobIdParams r.params = .ok id)
    (h : NoJob s id) (d : Deferral) : answerJobQuery r d s = answer r d .notLive [] s := by
  simp only [answerJobQuery, hp, findJob_of_noJob h]

theorem answerJobQuery_job {r : Request} {id : Word} {i : Slot} {j : Job} {s : State}
    (hp : jobIdParams r.params = .ok id) (h : HoldsId s id i j) (d : Deferral) :
    answerJobQuery r d s = answer r d .ok (queryData s i j) s := by
  simp only [answerJobQuery, hp, findJob_of_holdsId h, h.1]

/-- The sequence number of the first entry that names the slot. -/
theorem doneSeq_first {i : Slot} {n : Notice} {before : List Notice} (hn : n.source = .job i)
    (hb : ∀ m ∈ before, m.source ≠ .job i) (after : List Notice) : doneSeq i (before ++ n :: after) = n.seq := by
  have found : (before ++ n :: after).find? (fun m => m.source == .job i) = some n :=
    List.find?_eq_some_iff_append.mpr ⟨by simp [hn], before, after, rfl, fun m hm => by simpa using hb m hm⟩
  rw [doneSeq, found]

/-- The position of a slot in a queue is the number of those before it. -/
theorem idxOf_first {i : Slot} {before : List Slot} (h : i ∉ before) (after : List Slot) :
    (before ++ i :: after).idxOf i = before.length := by
  induction before with
  | nil => exact List.idxOf_cons_self
  | cons k rest ih =>
    obtain ⟨hk, hrest⟩ := not_or.mp (mt List.mem_cons.mpr h)
    have other : (k == i) = false := beq_eq_false_iff_ne.mpr fun e => hk e.symm
    rw [List.cons_append, List.idxOf_cons, other, cond_false, ih hrest, List.length_cons]

/-- Settles O31: the reply carries the items of the status of the job that holds the id. -/
theorem jobQueryAnswers : Obligations.JobQueryAnswers := by
  intro s r age h
  refine ⟨fun hl => ?_, fun hz => ?_, fun id hid hne => ?_⟩
  · exact asRequest_replies h (f := answerJobQuery) fun d => by simp only [answerJobQuery, jobIdParams_length hl]
  · exact asRequest_replies h (f := answerJobQuery) fun d => by simp only [answerJobQuery, hz, jobIdParams_zero]
  have hp : jobIdParams r.params = .ok id := by rw [hid, jobIdParams_wordBytes hne]
  refine ⟨fun hn => asRequest_replies h (f := answerJobQuery) (answerJobQuery_noJob hp hn), fun i j hj => ?_⟩
  have replies : Answers .jobQuery r age .ok (queryData s i j) s s :=
    asRequest_replies h (f := answerJobQuery) (answerJobQuery_job hp hj)
  refine ⟨fun hs before after hq hi => ?_, fun hs => ?_, fun c n before after hs hq hn hb => ?_⟩
  · rw [queryData, hs] at replies
    dsimp only at replies
    rw [queuedData, hq, idxOf_first hi] at replies
    exact replies
  · rw [queryData, hs] at replies
    exact replies
  · rw [queryData, hs] at replies
    dsimp only at replies
    rw [finishedData, hq, doneSeq_first hn hb] at replies
    exact replies

end Sys2Proof.Machine
end

section
/-! PROOFS. The parameters of the requests, read back: the fields, and the layouts of a fixed length. -/

namespace Sys2Proof.Machine

/-! ## Fields -/

theorem byteOf_eq_iff {b : Byte} {n : Nat} (h : n ≤ 255) : b = byteOf n ↔ b.toNat = n := by
  rw [← BitVec.toNat_inj, byteOf, BitVec.toNat_ofNat, Nat.mod_eq_of_lt (by omega)]

theorem indexOf_eq_some {b : Byte} {g : Fin 4} : indexOf b = some g ↔ b = indexByte g := by
  rw [indexByte, byteOf_eq_iff (by omega), indexOf]
  split
  · rw [Option.some.injEq, Fin.ext_iff]
  · exact ⟨nofun, fun h => by omega⟩

theorem numberOf_eq_some {lo hi : Nat} (hhi : hi ≤ 255) {b : Byte} {n : Nat} :
    numberOf lo hi b = some n ↔ within lo hi n ∧ b = byteOf n := by
  constructor
  · intro h
    obtain ⟨rfl, hlo, hup⟩ := numberOf_range h
    exact ⟨⟨hlo, hup⟩, (byteOf_eq_iff (by omega)).mpr rfl⟩
  · rintro ⟨hn, hb⟩
    have : b.toNat = n := (byteOf_eq_iff (by omega)).mp hb
    rw [← this] at hn ⊢
    exact numberOf_of_within hn

theorem flagOf_eq_some {b : Byte} {f : Bool} : flagOf b = some f ↔ b = flagByte f := by
  revert b f
  decide

theorem gradeOf_eq_some {b : Byte} {g : Grade} : gradeOf b = some g ↔ b = gradeByte g := by
  revert b
  cases g <;> decide

theorem modeOf_eq_some {b : Byte} {m : Mode} : modeOf b = some m ↔ b = modeByte m := by
  revert b
  cases m <;> decide

theorem classOf_eq_some {b : Byte} {c : JobClass} : classOf b = some c ↔ b = classByte c := by
  revert b
  cases c <;> decide

theorem roleOf_eq_some {b : Byte} {r : Role} : roleOf b = some r ↔ b = roleByte r := by
  revert b
  cases r <;> decide

theorem addressOf_eq_some {b a : Byte} : addressOf b = some a ↔ within 0x08 0x77 a.toNat ∧ b = a := by
  rw [addressOf]
  split
  next h => exact ⟨fun e => by rw [← Option.some.inj e]; exact ⟨h, rfl⟩, fun ⟨_, e⟩ => congrArg some e⟩
  next h => exact ⟨nofun, fun ⟨ha, e⟩ => absurd (e ▸ ha) h⟩

theorem limitOf_eq_some {b : Byte} {l : Option Nat} : limitOf b = some l ↔ (∀ n ∈ l, n ≤ 15) ∧ b = limitByte l := by
  cases l with
  | none =>
    have : limitOf b = some none ↔ b = 0xFF := by
      revert b
      decide
    simpa [limitByte] using this
  | some n =>
    have absent : limitByte (some n) = byteOf n := rfl
    rw [absent, limitOf]
    split
    next h =>
      refine ⟨nofun, fun ⟨hn, e⟩ => absurd (hn n rfl) ?_⟩
      rw [h] at e
      have : (255 : Nat) = n % 256 := congrArg BitVec.toNat e
      omega
    next =>
      have inner :
          (if b.toNat ≤ 15 then some (some b.toNat) else none) = some (some n) ↔ within 0 15 n ∧ b = byteOf n := by
        rw [← numberOf_eq_some (by decide), numberOf]
        simp
      rw [inner]
      simp [within]

theorem chainOf_eq_some {b role : Byte} {c : Option Chain} :
    chainOf b role = some c ↔ (∀ k ∈ c, k.id ≠ 0) ∧ [b, role] = chainBytes c := by
  by_cases hb : b = 0#8
  · cases c with
    | none => simp [chainOf, chainBytes, hb]
    | some k =>
      have none_differs : chainOf b role ≠ some (some k) := by
        rw [chainOf, if_pos (show b = 0 from hb)]
        split <;> nofun
      refine ⟨fun e => absurd e none_differs, fun ⟨hk, e⟩ => absurd hb ?_⟩
      rw [(List.cons.inj e).1]
      exact hk k rfl
  · cases c with
    | none => simp [chainOf, chainBytes, hb]
    | some k =>
      obtain ⟨id, r⟩ := k
      simp only [chainOf, chainBytes, BitVec.ofNat_eq_ofNat, hb, if_false, Option.map_eq_some_iff, roleOf_eq_some]
      constructor
      · rintro ⟨r, rfl, e⟩
        cases e
        exact ⟨fun k hk => by cases hk; exact hb, rfl⟩
      · rintro ⟨-, e⟩
        cases e
        exact ⟨r, rfl, rfl⟩

theorem wordOf_eq_iff {hi lo : Byte} {w : Word} : wordOf hi lo = w ↔ [hi, lo] = wordBytes w := by
  constructor
  · rintro rfl
    exact (wordBytes_wordOf hi lo).symm
  · intro h
    obtain ⟨rfl, rfl⟩ : hi = _ ∧ lo = _ := by simpa [wordBytes] using h
    exact wordOf_wordBytes w

theorem toNat_wordOf_eq_iff {hi lo : Byte} {n : Nat} (h : n ≤ 65535) :
    (wordOf hi lo).toNat = n ↔ [hi, lo] = countBytes n := by
  rw [countBytes, ← wordOf_eq_iff, ← BitVec.toNat_inj, BitVec.toNat_ofNat, Nat.mod_eq_of_lt (by omega)]

/-! ## Values that are all in range, or BAD_PARAM -/

theorem orBadParam_eq_ok {α : Type} {x : Option α} {a : α} : orBadParam x = .ok a ↔ x = some a := by
  cases x <;> simp [orBadParam]

theorem orBadParam_ne_badRequest {α : Type} (x : Option α) : orBadParam x ≠ .error .badRequest := by
  cases x <;> nofun

/-- A reader's answer is values or one of the two codes. -/
def TwoCodes {α : Type} (x : Except ReplyCode α) : Prop := ∀ rc, x = .error rc → rc = .badRequest ∨ rc = .badParam

theorem TwoCodes.orBadParam {α : Type} (x : Option α) : TwoCodes (orBadParam x) := by
  intro rc h
  cases x with
  | none => exact .inr (Except.error.inj h).symm
  | some a => cases h

theorem TwoCodes.badRequest {α : Type} : TwoCodes (.error .badRequest : Except ReplyCode α) :=
  fun _ h => .inl (Except.error.inj h).symm

theorem TwoCodes.badParam {α : Type} : TwoCodes (.error .badParam : Except ReplyCode α) :=
  fun _ h => .inr (Except.error.inj h).symm

/-! ## LINK_CONFIG -/

theorem linkConfigParams_eq_ok {bs : List Byte} {w ms : Nat} :
    linkConfigParams bs = .ok (w, ms) ↔ linkConfigInRange w ms ∧ bs = linkConfigBytes w ms := by
  unfold linkConfigParams
  split
  next w' hi lo =>
    simp only [orBadParam_eq_ok, Option.bind_eq_bind, Option.bind_eq_some_iff,
      numberOf_eq_some (show 8 ≤ 255 by decide), Option.ite_none_right_eq_some]
    constructor
    · rintro ⟨_, ⟨hw, rfl⟩, hms, e⟩
      cases e
      exact ⟨⟨hw, hms⟩, by rw [linkConfigBytes, countBytes_wordOf]⟩
    · rintro ⟨⟨hw, hlo, hhi⟩, e⟩
      obtain ⟨rfl, field⟩ := List.cons.inj e
      have hmax : ms ≤ 65535 := by omega
      obtain rfl := (toNat_wordOf_eq_iff hmax).mpr field
      exact ⟨w, ⟨hw, rfl⟩, ⟨hlo, hhi⟩, rfl⟩
  next h => exact ⟨nofun, fun ⟨_, e⟩ => absurd e (h _ _ _)⟩

theorem linkConfigParams_eq_badRequest {bs : List Byte} :
    linkConfigParams bs = .error .badRequest ↔ bs.length ≠ 3 := by
  refine ⟨fun h hl => ?_, linkConfigParams_length⟩
  match bs, hl with
  | [_, _, _], _ => exact orBadParam_ne_badRequest _ h

theorem linkConfigParams_twoCodes (bs : List Byte) : TwoCodes (linkConfigParams bs) := by
  unfold linkConfigParams
  split
  · exact .orBadParam _
  · exact .badRequest

/-! ## SEG_CONFIG -/

theorem segConfigParams_eq_ok {bs : List Byte} {g : SegId} {c : SegConfig} :
    segConfigParams bs = .ok (g, c) ↔ c.inRange ∧ bs = segConfigBytes g c := by
  unfold segConfigParams
  split
  next =>
    simp only [orBadParam_eq_ok, Option.bind_eq_bind, Option.bind_eq_some_iff, indexOf_eq_some, flagOf_eq_some,
      gradeOf_eq_some, numberOf_eq_some (show 255 ≤ 255 by decide), numberOf_eq_some (show 15 ≤ 255 by decide),
      numberOf_eq_some (show 16 ≤ 255 by decide)]
    constructor
    · rintro ⟨_, rfl, _, rfl, _, rfl, _, ⟨hstretch, rfl⟩, _, ⟨hstuck, rfl⟩, _, ⟨hhold, rfl⟩, _, ⟨⟨-, harb⟩, rfl⟩, _,
        ⟨⟨-, hnack⟩, rfl⟩, _, ⟨hlimit, rfl⟩, _, rfl, e⟩
      cases e
      refine ⟨⟨hstretch, hstuck, hhold, harb, hnack, Nat.le_of_lt_succ (BitVec.isLt _), hlimit⟩, ?_⟩
      simp [segConfigBytes, configBytes]
    · rintro ⟨⟨hstretch, hstuck, hhold, harb, hnack, hinterval, hlimit⟩, e⟩
      simp only [segConfigBytes, configBytes, List.cons.injEq, and_true] at e
      obtain ⟨rfl, rfl, rfl, rfl, rfl, rfl, rfl, rfl, hi, rfl, rfl⟩ := e
      have interval := (byteOf_eq_iff hinterval).mp hi
      exact ⟨g, rfl, _, rfl, _, rfl, _, ⟨hstretch, rfl⟩, _, ⟨hstuck, rfl⟩, _, ⟨hhold, rfl⟩, _,
        ⟨⟨Nat.zero_le _, harb⟩, rfl⟩, _, ⟨⟨Nat.zero_le _, hnack⟩, rfl⟩, _, ⟨hlimit, rfl⟩, _, rfl, by rw [interval]⟩
  next h => exact ⟨nofun, fun ⟨_, e⟩ => absurd e (h _ _ _ _ _ _ _ _ _ _ _)⟩

theorem segConfigParams_eq_badRequest {bs : List Byte} :
    segConfigParams bs = .error .badRequest ↔ bs.length ≠ 11 := by
  constructor
  · intro h hl
    match bs, hl with
    | [_, _, _, _, _, _, _, _, _, _, _], _ => exact orBadParam_ne_badRequest _ h
  · intro hl
    unfold segConfigParams
    split
    · exact absurd rfl hl
    · rfl

theorem segConfigParams_twoCodes (bs : List Byte) : TwoCodes (segConfigParams bs) := by
  unfold segConfigParams
  split
  · exact .orBadParam _
  · exact .badRequest

/-! ## A segment alone, and a job id -/

theorem segParams_eq_ok {bs : List Byte} {g : SegId} : segParams bs = .ok g ↔ bs = [indexByte g] := by
  unfold segParams
  split
  next => rw [orBadParam_eq_ok, indexOf_eq_some, List.cons.injEq, and_iff_left rfl]
  next h => exact ⟨nofun, fun e => absurd e (h _)⟩

theorem segParams_eq_badRequest {bs : List Byte} : segParams bs = .error .badRequest ↔ bs.length ≠ 1 := by
  refine ⟨fun h hl => ?_, segParams_length⟩
  match bs, hl with
  | [_], _ => exact orBadParam_ne_badRequest _ h

theorem segParams_twoCodes (bs : List Byte) : TwoCodes (segParams bs) := by
  unfold segParams
  split
  · exact .orBadParam _
  · exact .badRequest

theorem jobIdParams_eq_ok {bs : List Byte} {id : Word} : jobIdParams bs = .ok id ↔ id ≠ 0 ∧ bs = wordBytes id := by
  unfold jobIdParams
  split
  next =>
    rw [orBadParam_eq_ok, Option.ite_none_left_eq_some, Option.some.injEq, ← wordOf_eq_iff]
    exact ⟨fun ⟨h, e⟩ => ⟨e ▸ h, e⟩, fun ⟨h, e⟩ => ⟨e ▸ h, e⟩⟩
  next h => exact ⟨nofun, fun ⟨_, e⟩ => absurd e (h _ _)⟩

theorem jobIdParams_eq_badRequest {bs : List Byte} : jobIdParams bs = .error .badRequest ↔ bs.length ≠ 2 := by
  refine ⟨fun h hl => ?_, jobIdParams_length⟩
  match bs, hl with
  | [_, _], _ => exact orBadParam_ne_badRequest _ h

theorem jobIdParams_twoCodes (bs : List Byte) : TwoCodes (jobIdParams bs) := by
  unfold jobIdParams
  split
  · exact .orBadParam _
  · exact .badRequest

/-! ## RESP_SET -/

theorem respSetParams_eq_ok {bs : List Byte} {g : SegId} {e : EntryId} {v : Option EntrySettings} :
    respSetParams bs = .ok (g, e, v) ↔ (∀ w ∈ v, w.inRange) ∧ bs = respSetBytes g e v := by
  unfold respSetParams
  split
  next =>
    split
    next set =>
      split
      next =>
        simp only [orBadParam_eq_ok, Option.bind_eq_bind, Option.bind_eq_some_iff, indexOf_eq_some, flagOf_eq_some,
          addressOf_eq_some, modeOf_eq_some, numberOf_eq_some (show 64 ≤ 255 by decide),
          numberOf_eq_some (show 20 ≤ 255 by decide)]
        constructor
        · rintro ⟨_, rfl, _, rfl, _, rfl, _, ⟨haddress, rfl⟩, _, rfl, _, rfl, _, ⟨⟨-, hp⟩, rfl⟩, _,
            ⟨⟨-, hwait⟩, rfl⟩, eq⟩
          cases eq
          exact ⟨fun w hw => by cases hw; exact ⟨haddress, hp, hwait⟩, by rw [set]; rfl⟩
        · rintro ⟨hv, eq⟩
          cases v with
          | none => cases eq
          | some w =>
            obtain ⟨haddress, hp, hwait⟩ := hv w rfl
            simp only [respSetBytes, List.cons.injEq, and_true] at eq
            obtain ⟨rfl, rfl, -, rfl, rfl, rfl, rfl, rfl, rfl⟩ := eq
            exact ⟨g, rfl, e, rfl, _, rfl, _, ⟨haddress, rfl⟩, _, rfl, _, rfl, _, ⟨⟨Nat.zero_le _, hp⟩, rfl⟩, _,
              ⟨⟨Nat.zero_le _, hwait⟩, rfl⟩, rfl⟩
      next unlike =>
        refine ⟨nofun, fun ⟨_, eq⟩ => ?_⟩
        cases v with
        | none =>
          rw [set] at eq
          cases eq
        | some w =>
          cases eq
          exact absurd rfl (unlike _ _ _ _ _ _)
    next not_set =>
      split
      next clear =>
        split
        next =>
          simp only [orBadParam_eq_ok, Option.bind_eq_bind, Option.bind_eq_some_iff, indexOf_eq_some]
          constructor
          · rintro ⟨_, rfl, _, rfl, eq⟩
            cases eq
            exact ⟨nofun, by rw [clear]; rfl⟩
          · rintro ⟨-, eq⟩
            cases v with
            | none =>
              cases eq
              exact ⟨g, rfl, e, rfl, rfl⟩
            | some w => cases eq
        next unlike =>
          refine ⟨nofun, fun ⟨_, eq⟩ => ?_⟩
          cases v with
          | none =>
            cases eq
            exact absurd rfl unlike
          | some w =>
            cases eq
            exact absurd rfl not_set
      next not_clear =>
        refine ⟨nofun, fun ⟨_, eq⟩ => ?_⟩
        cases v with
        | none =>
          cases eq
          exact absurd rfl not_clear
        | some w =>
          cases eq
          exact absurd rfl not_set
  next short =>
    refine ⟨nofun, fun ⟨_, eq⟩ => ?_⟩
    cases v with
    | none => exact absurd eq (short _ _ _ _)
    | some w => exact absurd eq (short _ _ _ _)

theorem respSetParams_eq_badRequest {bs : List Byte} :
    respSetParams bs = .error .badRequest ↔
      bs.length < 3 ∨ (bs[2]? = some 0x01 ∧ bs.length ≠ 9) ∨ (bs[2]? = some 0x02 ∧ bs.length ≠ 3) := by
  unfold respSetParams
  split
  next _ _ _ rest =>
    split
    next set =>
      split
      next => exact iff_of_false (orBadParam_ne_badRequest _) (by simp [set])
      next unlike =>
        refine iff_of_true rfl (.inr (.inl ⟨congrArg some set, fun hl => ?_⟩))
        match rest, Nat.add_right_cancel hl with
        | [_, _, _, _, _, _], _ => exact unlike _ _ _ _ _ _ rfl
    next not_set =>
      split
      next clear =>
        split
        next => exact iff_of_false (orBadParam_ne_badRequest _) (by simp [clear])
        next unlike =>
          refine iff_of_true rfl (.inr (.inr ⟨congrArg some clear, fun hl => unlike ?_⟩))
          exact List.length_eq_zero_iff.mp (Nat.add_right_cancel (m := 3) hl)
      next not_clear =>
        refine iff_of_false nofun ?_
        rintro (short | ⟨set, _⟩ | ⟨clear, _⟩)
        · simp only [List.length_cons] at short
          omega
        · exact not_set (Option.some.inj set)
        · exact not_clear (Option.some.inj clear)
  next short =>
    refine iff_of_true rfl (.inl ?_)
    match bs with
    | [] | [_] | [_, _] => simp
    | _ :: _ :: _ :: _ => exact absurd rfl (short _ _ _ _)

theorem respSetParams_twoCodes (bs : List Byte) : TwoCodes (respSetParams bs) := by
  unfold respSetParams
  split
  · split
    · split
      · exact .orBadParam _
      · exact .badRequest
    · split
      · split
        · exact .orBadParam _
        · exact .badRequest
      · exact .badParam
  · exact .badRequest

/-! ## Windows -/

theorem winWriteParams_eq_ok {bs : List Byte} {g : SegId} {e : EntryId} {offset : Nat} {bytes : List Byte} :
    winWriteParams bs = .ok (g, e, offset, bytes) ↔
      within 1 64 bytes.length ∧ offset + bytes.length ≤ 64 ∧ bs = winWriteBytes g e offset bytes := by
  unfold winWriteParams
  split
  next g' e' offset' count bytes' =>
    split
    next unlike =>
      refine ⟨nofun, fun ⟨⟨_, hl⟩, _, eq⟩ => absurd ?_ unlike⟩
      cases eq
      exact ((byteOf_eq_iff (Nat.le_trans hl (by decide))).mp rfl).symm
    next declared =>
      have declared : bytes'.length = count.toNat := Decidable.not_not.mp declared
      simp only [orBadParam_eq_ok, Option.bind_eq_bind, Option.bind_eq_some_iff, indexOf_eq_some,
        numberOf_eq_some (show 64 ≤ 255 by decide), Option.ite_none_right_eq_some]
      constructor
      · rintro ⟨_, rfl, _, rfl, n, ⟨hl, rfl⟩, hfit, eq⟩
        cases eq
        obtain rfl : bytes.length = n := declared.trans ((byteOf_eq_iff (Nat.le_trans hl.2 (by decide))).mp rfl)
        exact ⟨hl, hfit, by simp [winWriteBytes]⟩
      · rintro ⟨hl, hfit, eq⟩
        simp only [winWriteBytes, List.cons.injEq] at eq
        obtain ⟨rfl, rfl, ho, rfl, rfl⟩ := eq
        have place := (byteOf_eq_iff (by omega)).mp ho
        exact ⟨g, rfl, e, rfl, _, ⟨hl, rfl⟩, place ▸ hfit, by rw [place]⟩
  next h => exact ⟨nofun, fun ⟨_, _, e⟩ => absurd e (h _ _ _ _ _)⟩

theorem winWriteParams_eq_badRequest {bs : List Byte} :
    winWriteParams bs = .error .badRequest ↔
      ¬∃ g e offset count bytes, bs = g :: e :: offset :: count :: bytes ∧ bytes.length = count.toNat := by
  unfold winWriteParams
  split
  next =>
    split
    next unlike =>
      refine iff_of_true rfl ?_
      rintro ⟨_, _, _, _, _, eq, declared⟩
      cases eq
      exact unlike declared
    next declared =>
      refine iff_of_false (orBadParam_ne_badRequest _) (not_not_intro ?_)
      exact ⟨_, _, _, _, _, rfl, Decidable.not_not.mp declared⟩
  next short => exact iff_of_true rfl fun ⟨_, _, _, _, _, e, _⟩ => short _ _ _ _ _ e

theorem winWriteParams_twoCodes (bs : List Byte) : TwoCodes (winWriteParams bs) := by
  unfold winWriteParams
  split
  · split
    · exact .badRequest
    · exact .orBadParam _
  · exact .badRequest

theorem winReadParams_eq_ok {bs : List Byte} {g : SegId} {e : EntryId} {offset len : Nat} :
    winReadParams bs = .ok (g, e, offset, len) ↔
      within 1 64 len ∧ offset + len ≤ 64 ∧ bs = winReadBytes g e offset len := by
  unfold winReadParams
  split
  next =>
    simp only [orBadParam_eq_ok, Option.bind_eq_bind, Option.bind_eq_some_iff, indexOf_eq_some,
      numberOf_eq_some (show 64 ≤ 255 by decide), Option.ite_none_right_eq_some]
    constructor
    · rintro ⟨_, rfl, _, rfl, _, ⟨hl, rfl⟩, hfit, eq⟩
      cases eq
      exact ⟨hl, hfit, by simp [winReadBytes]⟩
    · rintro ⟨hl, hfit, eq⟩
      simp only [winReadBytes, List.cons.injEq, and_true] at eq
      obtain ⟨rfl, rfl, ho, rfl⟩ := eq
      have place := (byteOf_eq_iff (by omega)).mp ho
      exact ⟨g, rfl, e, rfl, len, ⟨hl, rfl⟩, place ▸ hfit, by rw [place]⟩
  next h => exact ⟨nofun, fun ⟨_, _, e⟩ => absurd e (h _ _ _ _)⟩

theorem winReadParams_eq_badRequest {bs : List Byte} : winReadParams bs = .error .badRequest ↔ bs.length ≠ 4 := by
  refine ⟨fun h hl => ?_, winReadParams_length⟩
  match bs, hl with
  | [_, _, _, _], _ => exact orBadParam_ne_badRequest _ h

theorem winReadParams_twoCodes (bs : List Byte) : TwoCodes (winReadParams bs) := by
  unfold winReadParams
  split
  · exact .orBadParam _
  · exact .badRequest

/-! ## Mailboxes -/

theorem mailPostParams_eq_ok {bs : List Byte} {g : SegId} {e : EntryId} {bytes : List Byte} :
    mailPostParams bs = .ok (g, e, bytes) ↔ within 1 32 bytes.length ∧ bs = mailPostBytes g e bytes := by
  unfold mailPostParams
  split
  next g' e' count bytes' =>
    split
    next unlike =>
      refine ⟨nofun, fun ⟨⟨_, hl⟩, eq⟩ => absurd ?_ unlike⟩
      cases eq
      exact ((byteOf_eq_iff (Nat.le_trans hl (by decide))).mp rfl).symm
    next declared =>
      have declared : bytes'.length = count.toNat := Decidable.not_not.mp declared
      simp only [orBadParam_eq_ok, Option.bind_eq_bind, Option.bind_eq_some_iff, indexOf_eq_some,
        numberOf_eq_some (show 32 ≤ 255 by decide)]
      constructor
      · rintro ⟨_, rfl, _, rfl, n, ⟨hl, rfl⟩, eq⟩
        cases eq
        obtain rfl : bytes.length = n := declared.trans ((byteOf_eq_iff (Nat.le_trans hl.2 (by decide))).mp rfl)
        exact ⟨hl, rfl⟩
      · rintro ⟨hl, eq⟩
        cases eq
        exact ⟨g, rfl, e, rfl, _, ⟨hl, rfl⟩, rfl⟩
  next h => exact ⟨nofun, fun ⟨_, e⟩ => absurd e (h _ _ _ _)⟩

theorem mailPostParams_eq_badRequest {bs : List Byte} :
    mailPostParams bs = .error .badRequest ↔
      ¬∃ g e count bytes, bs = g :: e :: count :: bytes ∧ bytes.length = count.toNat := by
  unfold mailPostParams
  split
  next =>
    split
    next unlike =>
      refine iff_of_true rfl ?_
      rintro ⟨_, _, _, _, eq, declared⟩
      cases eq
      exact unlike declared
    next declared =>
      refine iff_of_false (orBadParam_ne_badRequest _) (not_not_intro ?_)
      exact ⟨_, _, _, _, rfl, Decidable.not_not.mp declared⟩
  next short => exact iff_of_true rfl fun ⟨_, _, _, _, e, _⟩ => short _ _ _ _ e

theorem mailPostParams_twoCodes (bs : List Byte) : TwoCodes (mailPostParams bs) := by
  unfold mailPostParams
  split
  · split
    · exact .badRequest
    · exact .orBadParam _
  · exact .badRequest

theorem mailWithdrawParams_eq_ok {bs : List Byte} {g : SegId} {e : EntryId} :
    mailWithdrawParams bs = .ok (g, e) ↔ bs = [indexByte g, indexByte e] := by
  unfold mailWithdrawParams
  split
  next =>
    simp only [orBadParam_eq_ok, Option.bind_eq_bind, Option.bind_eq_some_iff, indexOf_eq_some]
    constructor
    · rintro ⟨_, rfl, _, rfl, eq⟩
      cases eq
      rfl
    · intro eq
      cases eq
      exact ⟨g, rfl, e, rfl, rfl⟩
  next h => exact ⟨nofun, fun e => absurd e (h _ _)⟩

theorem mailWithdrawParams_eq_badRequest {bs : List Byte} :
    mailWithdrawParams bs = .error .badRequest ↔ bs.length ≠ 2 := by
  refine ⟨fun h hl => ?_, mailWithdrawParams_length⟩
  match bs, hl with
  | [_, _], _ => exact orBadParam_ne_badRequest _ h

theorem mailWithdrawParams_twoCodes (bs : List Byte) : TwoCodes (mailWithdrawParams bs) := by
  unfold mailWithdrawParams
  split
  · exact .orBadParam _
  · exact .badRequest

end Sys2Proof.Machine
end

section
/-! PROOFS. The parameters of JOB_SUBMIT, read back, and all the requests together. -/

namespace Sys2Proof.Machine

/-! ## Phase entries as they stand -/

theorem rawEntries_nil (n : Nat) : rawEntries n [] = some [] := by rw [rawEntries]

theorem rawEntries_cons (n : Nat) (target kind arg : Byte) (rest : List Byte) :
    rawEntries (n + 1) (target :: kind :: arg :: rest) =
      if kind = 1 then
        if arg.toNat ≤ rest.length then
          (rawEntries n (rest.drop arg.toNat)).map
            ({ target := target, kind := kind, arg := arg, payload := rest.take arg.toNat } :: ·)
        else none
      else if kind = 2 ∨ kind = 3 then
        (rawEntries n rest).map ({ target := target, kind := kind, arg := arg, payload := [] } :: ·)
      else none := by
  rw [rawEntries]

/-- What is read is the entries one after another, each well formed. -/
theorem rawEntries_some {n : Nat} {bs : List Byte} {es : List RawEntry} (h : rawEntries n bs = some es) :
    bs = es.flatMap RawEntry.bytes ∧ ∀ e ∈ es, e.formed := by
  fun_induction rawEntries n bs generalizing es with
  | case1 =>
    cases h
    exact ⟨rfl, nofun⟩
  | case2 n target arg rest fits ih =>
    obtain ⟨later, hl, rfl⟩ := Option.map_eq_some_iff.mp h
    obtain ⟨hbytes, hformed⟩ := ih hl
    refine ⟨?_, List.forall_mem_cons.mpr ⟨.inl ⟨rfl, List.length_take_of_le fits⟩, hformed⟩⟩
    simp [RawEntry.bytes, ← hbytes]
  | case3 => cases h
  | case4 n target kind arg rest _ read ih =>
    obtain ⟨later, hl, rfl⟩ := Option.map_eq_some_iff.mp h
    obtain ⟨hbytes, hformed⟩ := ih hl
    refine ⟨?_, List.forall_mem_cons.mpr ⟨.inr ⟨read, rfl⟩, hformed⟩⟩
    simp [RawEntry.bytes, ← hbytes]
  | case5 => cases h
  | case6 => cases h

theorem rawEntries_flatMap {es : List RawEntry} (h : ∀ e ∈ es, e.formed) {n : Nat}
    (hn : (es.flatMap RawEntry.bytes).length ≤ n) : rawEntries n (es.flatMap RawEntry.bytes) = some es := by
  induction es generalizing n with
  | nil => exact rawEntries_nil n
  | cons e rest ih =>
    obtain ⟨he, hrest⟩ := List.forall_mem_cons.mp h
    obtain ⟨target, kind, arg, payload⟩ := e
    simp only [List.flatMap_cons, RawEntry.bytes, List.cons_append, List.length_cons, List.length_append] at hn ⊢
    obtain ⟨m, rfl⟩ : ∃ m, n = m + 1 := ⟨n - 1, by omega⟩
    have later := ih hrest (n := m) (by omega)
    rcases he with ⟨rfl, hl⟩ | ⟨read, rfl⟩
    · have hl : payload.length = arg.toNat := hl
      have fits : arg.toNat ≤ (payload ++ rest.flatMap RawEntry.bytes).length := by rw [List.length_append]; omega
      rw [rawEntries_cons, if_pos rfl, if_pos fits, ← hl, List.drop_left, List.take_left, later]
      rfl
    · have other : kind ≠ 1 := by rcases read with rfl | rfl <;> decide
      rw [rawEntries_cons, if_neg other, if_pos read, List.nil_append, later]
      rfl

theorem rawEntries_eq_some {bs : List Byte} {es : List RawEntry} :
    rawEntries bs.length bs = some es ↔ bs = es.flatMap RawEntry.bytes ∧ ∀ e ∈ es, e.formed := by
  refine ⟨rawEntries_some, ?_⟩
  rintro ⟨rfl, h⟩
  exact rawEntries_flatMap h (Nat.le_refl _)

/-! ## Phases -/

/-- The entry of a phase, as the host lays it out. -/
def Phase.entry (p : Phase) : RawEntry :=
  match p.kind with
  | .write bs => { target := p.target, kind := 0x01, arg := byteOf bs.length, payload := bs }
  | .read n => { target := p.target, kind := 0x02, arg := byteOf n, payload := [] }
  | .countedRead m => { target := p.target, kind := 0x03, arg := byteOf m, payload := [] }

theorem Phase.entry_bytes (p : Phase) : p.entry.bytes = phaseBytes p := by
  obtain ⟨target, kind⟩ := p
  cases kind <;> rfl

theorem flatMap_entries (ps : List Phase) : (ps.map Phase.entry).flatMap RawEntry.bytes = ps.flatMap phaseBytes := by
  rw [List.flatMap_map]
  exact congrArg (List.flatMap · ps) (funext Phase.entry_bytes)

theorem Phase.entry_formed {p : Phase} (h : p.inRange) : p.entry.formed := by
  obtain ⟨target, kind⟩ := p
  obtain ⟨-, h⟩ := h
  cases kind with
  | write bs => exact .inl ⟨rfl, ((byteOf_eq_iff (Nat.le_trans h (by decide))).mp rfl).symm⟩
  | read n => exact .inr ⟨.inl rfl, rfl⟩
  | countedRead m => exact .inr ⟨.inr rfl, rfl⟩

/-- An entry is read as its target and, by its kind byte, its kind. -/
theorem phaseOf_eq_some_iff {e : RawEntry} {p : Phase} :
    phaseOf e = some p ↔
      within 0x08 0x77 p.target.toNat ∧ e.target = p.target ∧
        (if e.kind = 1 then (if e.arg.toNat ≤ 64 then some (.write e.payload) else none)
        else if e.kind = 2 then (numberOf 1 64 e.arg).map .read
        else (numberOf 1 32 e.arg).map .countedRead) = some p.kind := by
  simp only [phaseOf, Option.bind_eq_bind, Option.bind_eq_some_iff, addressOf_eq_some]
  constructor
  · rintro ⟨_, ⟨ht, rfl⟩, _, hk, eq⟩
    cases eq
    exact ⟨ht, rfl, hk⟩
  · rintro ⟨ht, eq, hk⟩
    exact ⟨_, ⟨ht, eq⟩, _, hk, rfl⟩

theorem phaseOf_eq_some {e : RawEntry} (he : e.formed) {p : Phase} : phaseOf e = some p ↔ p.inRange ∧ e = p.entry := by
  rw [phaseOf_eq_some_iff]
  obtain ⟨target, kind, arg, payload⟩ := e
  obtain ⟨target', kind'⟩ := p
  rcases he with ⟨rfl, hl⟩ | ⟨rfl | rfl, rfl⟩
  · have hl : payload.length = arg.toNat := hl
    cases kind' with
    | write bs =>
      simp only [Phase.entry, Phase.inRange, if_true, Option.ite_none_right_eq_some, Option.some.injEq,
        PhaseKind.write.injEq, RawEntry.mk.injEq, true_and]
      constructor
      · rintro ⟨ht, rfl, hfit, rfl⟩
        exact ⟨⟨ht, hl ▸ hfit⟩, rfl, (byteOf_eq_iff (by omega)).mpr hl.symm, rfl⟩
      · rintro ⟨⟨ht, hfit⟩, rfl, -, rfl⟩
        exact ⟨ht, rfl, hl ▸ hfit, rfl⟩
    | read n => simp [Phase.entry]
    | countedRead m => simp [Phase.entry]
  · cases kind' with
    | write bs => simp [Phase.entry]
    | read n =>
      simp only [Phase.entry, Phase.inRange, reduceIte, BitVec.reduceEq, BitVec.ofNat_eq_ofNat,
        Option.map_eq_some_iff, numberOf_eq_some (show 64 ≤ 255 by decide), PhaseKind.read.injEq,
        exists_eq_right, RawEntry.mk.injEq, true_and, and_true]
      exact ⟨fun ⟨ht, htarget, hcount, harg⟩ => ⟨⟨ht, hcount⟩, htarget, harg⟩,
        fun ⟨⟨ht, hcount⟩, htarget, harg⟩ => ⟨ht, htarget, hcount, harg⟩⟩
    | countedRead m => simp [Phase.entry]
  · cases kind' with
    | write bs => simp [Phase.entry]
    | read n => simp [Phase.entry]
    | countedRead m =>
      simp only [Phase.entry, Phase.inRange, reduceIte, BitVec.reduceEq, BitVec.ofNat_eq_ofNat,
        Option.map_eq_some_iff, numberOf_eq_some (show 32 ≤ 255 by decide), PhaseKind.countedRead.injEq,
        exists_eq_right, RawEntry.mk.injEq, true_and, and_true]
      exact ⟨fun ⟨ht, htarget, hcount, harg⟩ => ⟨⟨ht, hcount⟩, htarget, harg⟩,
        fun ⟨⟨ht, hcount⟩, htarget, harg⟩ => ⟨ht, htarget, hcount, harg⟩⟩

theorem phasesOf_eq_some {es : List RawEntry} (hes : ∀ e ∈ es, e.formed) {ps : List Phase} :
    phasesOf es = some ps ↔ (∀ p ∈ ps, p.inRange) ∧ es = ps.map Phase.entry := by
  induction es generalizing ps with
  | nil => cases ps <;> simp [phasesOf]
  | cons e rest ih =>
    obtain ⟨he, hrest⟩ := List.forall_mem_cons.mp hes
    simp only [phasesOf, Option.bind_eq_bind, Option.bind_eq_some_iff, phaseOf_eq_some he, ih hrest]
    constructor
    · rintro ⟨p, ⟨hp, rfl⟩, later, ⟨hlater, rfl⟩, eq⟩
      cases eq
      exact ⟨List.forall_mem_cons.mpr ⟨hp, hlater⟩, rfl⟩
    · rintro ⟨hps, eq⟩
      cases ps with
      | nil => cases eq
      | cons p later =>
        obtain ⟨hp, hlater⟩ := List.forall_mem_cons.mp hps
        obtain ⟨rfl, rfl⟩ := List.cons.inj eq
        exact ⟨p, ⟨hp, rfl⟩, later, ⟨hlater, rfl⟩, rfl⟩

theorem phasesFit_iff {ps : List Phase} :
    phasesFit ps = true ↔ within 1 8 ps.length ∧ writeTotal ps ≤ 200 ∧ readSpace ps ≤ 192 := by
  simp only [phasesFit, Bool.and_eq_true, decide_eq_true_eq, within, and_assoc]

/-! ## JOB_SUBMIT -/

/-- The fields of a JOB_SUBMIT, one after another, are those of a layout exactly when each is. -/
theorem submitBytes_eq_iff {hi lo g cls arb nack id role count : Byte} {rest : List Byte} {u : Submission} :
    hi :: lo :: g :: cls :: arb :: nack :: id :: role :: count :: rest = submitBytes u ↔
      [hi, lo] = wordBytes u.id ∧ g = indexByte u.seg ∧ cls = classByte u.cls ∧ arb = limitByte u.arbLimit ∧
        nack = limitByte u.nackLimit ∧ [id, role] = chainBytes u.chain ∧ count = byteOf u.phases.length ∧
          rest = u.phases.flatMap phaseBytes := by
  cases hc : u.chain <;> simp [submitBytes, wordBytes, chainBytes, hc, and_assoc]

theorem submitBytes_cons (u : Submission) :
    ∃ hi lo g cls arb nack id role count rest,
      submitBytes u = hi :: lo :: g :: cls :: arb :: nack :: id :: role :: count :: rest := by
  obtain ⟨_, _, _, _, _, chain, _⟩ := u
  cases chain <;> exact ⟨_, _, _, _, _, _, _, _, _, _, rfl⟩

/-- The entries of the phases of a job that is in range are what is read. -/
theorem rawEntries_phases {u : Submission} (h : u.inRange) :
    rawEntries (u.phases.flatMap phaseBytes).length (u.phases.flatMap phaseBytes) =
      some (u.phases.map Phase.entry) := by
  obtain ⟨-, -, -, -, hps, -⟩ := h
  rw [rawEntries_eq_some, flatMap_entries]
  exact ⟨rfl, List.forall_mem_map.mpr fun p hp => Phase.entry_formed (hps p hp)⟩

theorem submitParams_eq_ok {bs : List Byte} {u : Submission} :
    submitParams bs = .ok u ↔ u.inRange ∧ bs = submitBytes u := by
  constructor
  · intro h
    unfold submitParams at h
    split at h
    next hi lo g cls arb nack chainId role count rest =>
      split at h
      next => cases h
      next es read =>
        obtain ⟨rfl, formed⟩ := rawEntries_eq_some.mp read
        split at h
        next => cases h
        next counted =>
          have counted : es.length = count.toNat := Decidable.not_not.mp counted
          simp only [orBadParam_eq_ok, Option.bind_eq_bind, Option.bind_eq_some_iff, indexOf_eq_some, classOf_eq_some,
            limitOf_eq_some, chainOf_eq_some, phasesOf_eq_some formed, Option.ite_none_right_eq_some,
            phasesFit_iff] at h
          obtain ⟨_, rfl, _, rfl, _, ⟨harb, rfl⟩, _, ⟨hnack, rfl⟩, _, ⟨hc, chain⟩, ps, ⟨hps, rfl⟩, ⟨hid, hfit⟩, eq⟩ := h
          cases eq
          rw [List.length_map] at counted
          refine ⟨⟨hid, harb, hnack, hc, hps, hfit⟩, submitBytes_eq_iff.mpr ?_⟩
          have few : ps.length ≤ 255 := by omega
          exact ⟨(wordBytes_wordOf hi lo).symm, rfl, rfl, rfl, rfl, chain, (byteOf_eq_iff few).mpr counted.symm,
            flatMap_entries ps⟩
    next => cases h
  · rintro ⟨h, rfl⟩
    have read := rawEntries_phases h
    obtain ⟨hi, lo, g, cls, arb, nack, id, role, count, rest, eq⟩ := submitBytes_cons u
    obtain ⟨word, rfl, rfl, rfl, rfl, chain, rfl, rfl⟩ := submitBytes_eq_iff.mp eq.symm
    obtain ⟨hid, harb, hnack, hc, hps, hlen, hfit⟩ := h
    have counted : (u.phases.map Phase.entry).length = (byteOf u.phases.length).toNat := by
      rw [List.length_map, (byteOf_eq_iff (Nat.le_trans hlen.2 (by decide))).mp rfl]
    have formed : ∀ e ∈ u.phases.map Phase.entry, e.formed := (rawEntries_eq_some.mp read).2
    have word := wordOf_eq_iff.mpr word
    rw [eq]
    simp only [submitParams, read, counted, ne_eq, not_true_eq_false, if_false, orBadParam_eq_ok, Option.bind_eq_bind,
      Option.bind_eq_some_iff, indexOf_eq_some, classOf_eq_some, limitOf_eq_some, chainOf_eq_some,
      phasesOf_eq_some formed, Option.ite_none_right_eq_some, phasesFit_iff, word]
    exact ⟨_, rfl, _, rfl, _, ⟨harb, rfl⟩, _, ⟨hnack, rfl⟩, _, ⟨hc, chain⟩, _, ⟨hps, rfl⟩, ⟨hid, hlen, hfit⟩, rfl⟩

theorem submitParams_eq_badRequest {bs : List Byte} :
    submitParams bs = .error .badRequest ↔
      ¬∃ hi lo g cls arb nack chain role count, ∃ es : List RawEntry,
          bs = hi :: lo :: g :: cls :: arb :: nack :: chain :: role :: count :: es.flatMap RawEntry.bytes ∧
            es.length = count.toNat ∧ ∀ e ∈ es, e.formed := by
  constructor
  · rintro h ⟨hi, lo, g, cls, arb, nack, chain, role, count, es, rfl, counted, formed⟩
    simp only [submitParams, rawEntries_flatMap formed (Nat.le_refl _), counted, ne_eq, not_true_eq_false,
      if_false] at h
    exact orBadParam_ne_badRequest _ h
  · intro none_such
    unfold submitParams
    split
    next =>
      split
      next => rfl
      next es read =>
        obtain ⟨rfl, formed⟩ := rawEntries_eq_some.mp read
        split
        next => rfl
        next counted => exact absurd ⟨_, _, _, _, _, _, _, _, _, es, rfl, Decidable.not_not.mp counted, formed⟩ none_such
    next => rfl

theorem submitParams_twoCodes (bs : List Byte) : TwoCodes (submitParams bs) := by
  unfold submitParams
  split
  · split
    · exact .badRequest
    · split
      · exact .badRequest
      · exact .orBadParam _
  · exact .badRequest

/-! ## All the requests -/

/-- Settles O57: each reader answers values exactly on the layout's own bytes, and one of two codes on any others. -/
theorem requestParametersRoundTrip : Obligations.RequestParametersRoundTrip := by
  refine ⟨fun _ _ _ => linkConfigParams_eq_ok, fun _ => linkConfigParams_eq_badRequest,
    fun _ _ _ => segConfigParams_eq_ok, fun _ => segConfigParams_eq_badRequest,
    fun _ _ => segParams_eq_ok, fun _ => segParams_eq_badRequest,
    fun _ _ => jobIdParams_eq_ok, fun _ => jobIdParams_eq_badRequest,
    fun _ _ => submitParams_eq_ok, fun _ => submitParams_eq_badRequest,
    fun _ _ _ _ => respSetParams_eq_ok, fun _ => respSetParams_eq_badRequest,
    fun _ _ _ _ _ => winWriteParams_eq_ok, fun _ => winWriteParams_eq_badRequest,
    fun _ _ _ _ _ => winReadParams_eq_ok, fun _ => winReadParams_eq_badRequest,
    fun _ _ _ _ => mailPostParams_eq_ok, fun _ => mailPostParams_eq_badRequest,
    fun _ _ _ => mailWithdrawParams_eq_ok, fun _ => mailWithdrawParams_eq_badRequest, fun bs rc => ?_⟩
  rintro (h | h | h | h | h | h | h | h | h | h)
  · exact linkConfigParams_twoCodes bs rc h
  · exact segConfigParams_twoCodes bs rc h
  · exact segParams_twoCodes bs rc h
  · exact jobIdParams_twoCodes bs rc h
  · exact submitParams_twoCodes bs rc h
  · exact respSetParams_twoCodes bs rc h
  · exact winWriteParams_twoCodes bs rc h
  · exact winReadParams_twoCodes bs rc h
  · exact mailPostParams_twoCodes bs rc h
  · exact mailWithdrawParams_twoCodes bs rc h

end Sys2Proof.Machine
end
